-- ==== Sys2Proof/Word.lean ====
section
/-! DEFINITION. The word and octet of the test highway, the unit numbers, and saturating counts. -/

namespace Sys2Proof

/-- One octet of a management message (R180). -/
abbrev Octet := BitVec 8

/-- One 16-bit slot word of the test highway (R1). -/
abbrev Word := BitVec 16

/-- The 48 slot words of one highway frame, slot 0 first (R1). -/
abbrev Frame := Vector Word 48

/-- A test bus, TB0 to TB7. -/
abbrev BusNo := Fin 8

/-- A measuring head, MH0 to MH3. -/
abbrev HeadNo := Fin 4

/-- An operator desk, D0 to D5. -/
abbrev DeskNo := Fin 6

/-- A sweep descriptor, SW0 to SW7. -/
abbrev SweepNo := Fin 8

/-- A tone generator, 0 to 3. -/
abbrev ToneNo := Fin 4

/-- An origin a command is taken from: 0 to 5 a desk, 6 the exchange processor (R171). -/
abbrev Origin := Fin 7

/-- The largest value of a 32-bit count (R42, R91, R140, R175). -/
def countMax : Nat := 4294967295

/-- A 32-bit count raised by `k`, saturating at its largest value. -/
def satAdd (n k : Nat) : Nat := min (n + k) countMax

/-- A 32-bit count raised by one, saturating. -/
def satInc (n : Nat) : Nat := satAdd n 1

end Sys2Proof
end

