-- ==== Sys2Proof/Syntax.lean ====
section
/-! DEFINITION. The commands and events of the Controller: one constructor of `Instr` for each row of
spec/opcode_table.json. -/

namespace Sys2Proof

/-- The octets of a management message before its body, less the kind, which the constructor gives (R180). -/
structure Header where
  /-- Octet 0, the length L, counting every octet of the message. -/
  length : Octet
  /-- Octet 2, echoed in the reply. -/
  tag : Octet
  /-- Octet 3, 0 to 5 a desk, 6 the exchange processor. -/
  origin : Octet
  deriving DecidableEq, Repr

/-- One act inside the hand-over of an inbound frame (R2). The hand-over gives each owner its words "together"; where two
acts of one frame reach the same state the manual lets either be taken first (R25, R52, R73, R85, R119), so a frame
event carries the order in which its acts are taken. -/
inductive Act where
  /-- The condition word of a bus acts on the bus (R24, R26). -/
  | condition (b : BusNo)
  /-- The five words of a head act on the head (R74, R80, R81). -/
  | head (h : HeadNo)
  /-- The S flag and the eight management octets act on the assembler, and a command completed is taken (R169 to R171). -/
  | management
  /-- The assignment pass of the first frame taken after alignment is gained (R75, R89). -/
  | assignment
  /-- A bus timer that this frame brought to its limit expires (R25, R29, R32, R36). -/
  | busExpiry (b : BusNo)
  /-- An echo timer that this frame brought to 160 expires (R73, R74). -/
  | headExpiry (h : HeadNo)
  /-- A settle count that this frame brought to its limit ends the settle (R80). -/
  | settle (h : HeadNo)
  /-- A window that this frame filled is judged (R82, R83). -/
  | window (h : HeadNo)
  deriving DecidableEq, Repr

/-- The commands and events of the Controller. Each command carries its header and the fields of its body as the message
carries them (R180); each expiry names the unit whose timer or count it concerns. -/
inductive Instr where
  /-- POWER_ON_RESET (R178). -/
  | powerOnReset
  /-- HUNT_PATTERN_FOUND (R4): the fifteen bits that stand at a bit position of the inbound stream. -/
  | huntPatternFound (position : Nat) (bits : BitVec 15)
  /-- CONFIRMATION_FRAME (R5): the 768 bits that begin at the position examined, as 48 words. -/
  | confirmationFrame (f : Frame) (order : List Act)
  /-- INBOUND_FRAME (R6). -/
  | inboundFrame (f : Frame) (order : List Act)
  /-- MAKE_TIMEOUT (R29). -/
  | makeTimeout (b : BusNo)
  /-- GUARD_TIMEOUT (R32). -/
  | guardTimeout (b : BusNo)
  /-- RELEASE_TIMEOUT (R36). -/
  | releaseTimeout (b : BusNo)
  /-- ECHO_TIMEOUT (R74). -/
  | echoTimeout (h : HeadNo)
  /-- RETURN_TIMEOUT (R74). -/
  | returnTimeout (h : HeadNo)
  /-- SETTLE_END (R80). -/
  | settleEnd (h : HeadNo)
  /-- WINDOW_END (R82). -/
  | windowEnd (h : HeadNo)
  /-- CHARGE_WINDOW_END (R83). -/
  | chargeWindowEnd (h : HeadNo)
  /-- PACE_EXPIRY (R164). -/
  | paceExpiry (d : SweepNo)
  /-- WARNING_EXPIRY (R65). -/
  | warningExpiry (b : BusNo)
  /-- OUTBOUND_FRAME (R3). -/
  | outboundFrame
  /-- CLOCK_SECOND (R176). -/
  | clockSecond
  /-- UNKNOWN_KIND_COMMAND (R171): a checked message with its kind octet and its body octets. -/
  | unknownKindCommand (hd : Header) (kind : Octet) (body : List Octet)
  /-- SEIZE (R45, R46). -/
  | seize (hd : Header) (line : Word) (cls : Octet)
  /-- TALK (R64). -/
  | talk (hd : Header) (line : Word)
  /-- MONITOR (R62). -/
  | monitor (hd : Header) (line : Word)
  /-- SEND TONE (R63). -/
  | sendTone (hd : Header) (line : Word) (tone : Octet)
  /-- STANDBY (R61). -/
  | standby (hd : Header) (line : Word)
  /-- MEASURE (R68). -/
  | measure (hd : Header) (line : Word) (program evaluate : Octet)
  /-- ACCEPT (R132). -/
  | accept (hd : Header) (number : Word)
  /-- REPAIRED (R132). -/
  | repaired (hd : Header) (number : Word)
  /-- REPAIRED KEY (R133). -/
  | repairedKey (hd : Header) (cable code : Octet)
  /-- WITHDRAW (R134). -/
  | withdraw (hd : Header) (number : Word)
  /-- TAKE TICKET (R130). -/
  | takeTicket (hd : Header)
  /-- ARM (R156). -/
  | arm (hd : Header) (descriptor : Octet)
  /-- SUSPEND (R157). -/
  | suspend (hd : Header) (descriptor : Octet)
  /-- RESUME (R157). -/
  | resume (hd : Header) (descriptor : Octet)
  /-- DISARM (R158). -/
  | disarm (hd : Header) (descriptor : Octet)
  /-- READ SWEEP (R167). -/
  | readSweep (hd : Header) (descriptor : Octet)
  /-- SET PATH (R16). -/
  | setPath (hd : Header) (slot action parameter primary secondary : Octet)
  /-- RESTORE BUS (R39). -/
  | restoreBus (hd : Header) (bus : Octet)
  /-- RESTORE HEAD (R88). -/
  | restoreHead (hd : Header) (head : Octet)
  /-- LOAD TABLE with table octet 0 (R181, R183). -/
  | loadSiteParameters (hd : Header) (first count : Word) (entries : List Octet)
  /-- LOAD TABLE with table octet 1 (R181, R108). -/
  | loadLineClassMap (hd : Header) (first count : Word) (entries : List Octet)
  /-- LOAD TABLE with table octet 2 (R181, R110). -/
  | loadLimitTable (hd : Header) (first count : Word) (entries : List Octet)
  /-- LOAD TABLE with table octet 3 (R181, R77). -/
  | loadProgramTable (hd : Header) (first count : Word) (entries : List Octet)
  /-- LOAD TABLE with table octet 4 (R181, R143). -/
  | loadCableMap (hd : Header) (first count : Word) (entries : List Octet)
  /-- LOAD TABLE with table octet 5 (R181, R18). -/
  | loadToneTable (hd : Header) (first count : Word) (entries : List Octet)
  /-- LOAD TABLE with table octet 6 (R181, R154). -/
  | loadSweepConfigurations (hd : Header) (first count : Word) (entries : List Octet)
  /-- READ TABLE (R184). -/
  | readTable (hd : Header) (table : Octet) (first count : Word)
  /-- READ COUNTERS (R175). -/
  | readCounters (hd : Header) (group clear : Octet)
  /-- SET CLOCK (R176). -/
  | setClock (hd : Header) (seconds : BitVec 32)
  /-- RESET (R177). -/
  | reset (hd : Header)
  deriving DecidableEq, Repr

end Sys2Proof
end

