-- ==== Sys2Proof/Decode.lean ====
section
/-! DEFINITION. The command a word spells by the bits of the opcode table. -/

namespace Sys2Proof

/-- No row of spec/opcode_table.json gives any bits: commands arrive as octets of a message and events come from the
highway and from the counts of the machine, so no word spells one. -/
def decodeTableWord (_nbits _w : Nat) : Option Instr := none

end Sys2Proof
end

