-- ==== Sys2Proof/Config.lean ====
section
/-! DEFINITION. What the manual fixes for every machine (times, capacities), and the free values: constants with no
body, of which nothing can be proved, standing where the manual gives an effect but not a value. -/

namespace Sys2Proof.Config

/-- Limit of the make wait, 240 frames (R25). -/
def makeLimit : Nat := 240
/-- Limit of the guard wait, 800 frames (R25). -/
def guardLimit : Nat := 800
/-- Limit of the release wait, 160 frames (R25). -/
def releaseLimit : Nat := 160
/-- Limit of a head's echo timer, 160 frames (R73). -/
def echoLimit : Nat := 160
/-- Capacity of the reply queue (R172). -/
def replyCapacity : Nat := 16
/-- Capacity of the notice queue (R173). -/
def noticeCapacity : Nat := 32
/-- Entries of the ticket table (R120). -/
def ticketCapacity : Nat := 128
/-- CABLE tickets the table may hold (R120). -/
def cableCapacity : Nat := 16
/-- Members a CABLE ticket may list (R120). -/
def memberCapacity : Nat := 64
/-- Lines a descriptor's deferred list may hold (R155). -/
def deferredCapacity : Nat := 16
/-- Retests in flight at once (R135). -/
def retestPlaces : Nat := 4
/-- Highest line number (0.7). -/
def lastLine : Nat := 16383
/-- Bits of one frame (R1). -/
def frameBits : Nat := 768
/-- The values of the arrival counter and of the raise counter, which wrap (R43, R122): DESIGN CHOICE 32 bits, as the grant
counter has (R49); the manual names no width. Log entry 5. -/
def counterValues : Nat := 4294967296
/-- Frames of one second (R1, R176). -/
def framesPerSecond : Nat := 8000

/-- FREE VALUE. The fill octet in place `i` of the management slots of the `n`-th outbound frame: the manual calls the
octets after a message's end "fill" (11.1, R174) and gives them no value. Log entry 7. -/
opaque fillOctet (n i : Nat) : Octet

/-- FREE VALUE. The parameter octet of a SET PATH reply for an action that has no parameter (R180: it "is not read"
for those actions, and no value is given for sending it back), in the `n`-th outbound frame. Log entry 8. -/
opaque unreadParameter (n : Nat) : Octet

/-- FREE VALUE. The line phase octet of a READ SWEEP reply of a descriptor with no line in flight (R180 gives the codes of
the two phases and no value for none), in the `n`-th outbound frame. Log entry 12. -/
opaque absentPhase (n : Nat) : Octet

/-- FREE VALUE. Which of two rules an internal bus meets first that joins the head wait queue with a program of no steps
while no head is in service: R78 (COMPLETE, `true`) or R75 (HEAD_FAULT, `false`). The manual orders them nowhere.
Log entry 9. -/
opaque emptyProgramFirst : Bool

/-- FREE VALUE. Whether a sweep configuration whose flags octet has a bit above bit 2 set is refused BAD_FIELD: R182 names
bits 0 to 2 and is silent on the rest (R183 asks for zeros in its own octets only). Log entry 10. -/
opaque refuseUnusedSweepFlags : Bool

/-- FREE VALUE. The number of the program a member retest runs when the member was released from its CABLE ticket (R147)
before its bus joined the head wait queue: R78 takes it "of the member entry for the line", which no longer exists. The
argument is the model's own counter of free values. Log entry 11. -/
opaque releasedMemberProgram (n : Nat) : Fin 16

/-- FREE VALUE. The lower half of the last octet when READ TABLE returns an odd number of line classes (R184): R182 calls it
ignored in a load and gives it no value to send. The arguments are the model's own counter of free values and the number of
replies that waited. Log entry 39. -/
opaque unusedHalf (n i : Nat) : Fin 16

end Sys2Proof.Config
end

