-- ==== Sys2Proof/Machine/State.lean ====
section
/-! DEFINITION. Every piece of state the manual gives the Controller, as plain data, and the machine after a power-on
reset. -/

namespace Sys2Proof.Machine

/-! ### Highway interface (Chapter 1) -/

/-- The alignment state (R4). Positions are bit numbers of the inbound stream counted from the release of the power-on
reset input. -/
inductive Alignment where
  /-- HUNTING; the search examines the bit positions from `searchFrom` onward (R4 to R6). -/
  | hunting (searchFrom : Nat)
  /-- CONFIRMING with its candidate position and a confirmation count of 1 or 2 (R4, R5). -/
  | confirming (candidate count : Nat)
  /-- ALIGNED with the position of the last frame examined and a miss count of 0 to 3 (R4, R6). -/
  | aligned (position misses : Nat)
  deriving DecidableEq, Repr

/-- The HIGHWAY counter group (R175). -/
structure HighwayCounters where
  gains : Nat := 0
  losses : Nat := 0
  misses : Nat := 0
  badFrames : Nat := 0
  msgBad : Nat := 0
  msgCut : Nat := 0
  commandsTaken : Nat := 0
  cmdDropped : Nat := 0
  noticesLost : Nat := 0
  noticePeak : Nat := 0
  deriving DecidableEq, Repr

/-! ### Slot path unit (Chapter 1) -/

/-- The action of a path table entry (R12). -/
inductive PathAction where
  | idle
  | pass
  | invert
  /-- GAIN n, n from −3 to +3. -/
  | gain (n : Int)
  | mix
  /-- TONE k. -/
  | tone (k : ToneNo)
  deriving DecidableEq, Repr

/-- A path table entry (R12); a source is an inbound slot, 5 to 46, or absent. Its owner is fixed by its place: entries
0 to 13 (slots 17 to 30) are ACCESS, 14 to 29 (slots 31 to 46) are PROCESSOR. -/
structure PathEntry where
  primary : Option Nat := none
  secondary : Option Nat := none
  action : PathAction := .idle
  deriving DecidableEq, Repr

/-- A tone table entry with its generator's phase (R17, R18). The increment is computed from the frequency. -/
structure Tone where
  frequency : Nat := 1000
  amplitude : Nat := 0
  phase : Nat := 0
  deriving DecidableEq, Repr

/-! ### Access controller (Chapters 2 and 4) -/

/-- The states of a bus (R20). -/
inductive BusState where
  | free | seizing | guard | held | releasing | outOfService
  deriving DecidableEq, Repr

/-- The line conditions a bus may accept (R20). UNKNOWN is never accepted and is no value of this type. -/
inductive LineCond where
  | none | idle | call | ringing | locked | noLine
  deriving DecidableEq, Repr

/-- The modes of a held bus (R57). -/
inductive Mode where
  | standby | talk | warning | monitor | tone | measure
  deriving DecidableEq, Repr

/-- The relay order of a bus (R23). -/
inductive RelayOrder where
  | none
  | make (line : Nat)
  | brk (line : Nat)
  deriving DecidableEq, Repr

/-- Causes, reasons and outcomes, in the order of the format table of R180. -/
inductive Reason where
  | requested | complete | preempt | call | lineBusy | noLine | conditionUnknown | makeTimeout | reset | restore
  | relayTimeout | busFault | relayFault | relayDropped | releaseTimeout | makeTimeouts | faultFlag | echoTimeout
  | echoDeparted | returnTimeout | abortedCall | abortedRelease | abortedPreempt | headFault | highwayLost | notAssessed
  deriving DecidableEq, Repr

/-- Who holds a bus or waits for one (R20, R43): an origin, the sweep engine with its descriptor, or the retest scheduler
with its ticket number. The purpose and the link are read from it. -/
inductive Holder where
  | origin (o : Origin)
  | sweep (d : SweepNo)
  | retest (ticket : Nat)
  deriving DecidableEq, Repr

/-- The purpose of a bus or of a request (R20, R43). -/
inductive Purpose where
  | desk | processor | retest | sweep
  deriving DecidableEq, Repr

/-- The bus record (R20) with the mode fields of R57. -/
structure Bus where
  state : BusState := .free
  line : Option Nat := none
  holder : Option Holder := none
  mode : Option Mode := none
  busy : Bool := false
  accepted : LineCond := .none
  candidate : Option LineCond := none
  stable : Nat := 0
  order : RelayOrder := .none
  /-- Stopped, or the count of taken frames of the make, guard or release wait (R25). -/
  timer : Option Nat := none
  head : Option HeadNo := none
  makeTimeouts : Nat := 0
  stuck : Bool := false
  lateWatch : Bool := false
  cause : Option Reason := none
  tone : Option ToneNo := none
  /-- Stopped, or the count of outbound frames of a break-in warning (R65). -/
  warnTimer : Option Nat := none
  warnLimit : Option Nat := none
  deriving DecidableEq, Repr

/-- The ACCESS counters of one bus (R42). -/
structure BusCounters where
  grants : Nat := 0
  makeTimeouts : Nat := 0
  lateConfirmations : Nat := 0
  guardRefusals : Nat := 0
  releaseTimeouts : Nat := 0
  relayFaults : Nat := 0
  busFaults : Nat := 0
  deriving DecidableEq, Repr

/-! ### Access arbiter (Chapter 3) -/

/-- An entry of the access wait queue (R43). Purpose, requested mode and link follow from the requester. -/
structure WaitEntry where
  requester : Holder
  /-- 0 URGENT, 1 DESK, 2 RETEST, 3 SWEEP. -/
  cls : Nat
  line : Nat
  arrival : Nat
  waiting : Bool
  deriving DecidableEq, Repr

/-! ### Head controller (Chapters 5 and 6) -/

/-- The states of a head (R71). -/
inductive HeadState where
  | idle | awaitEcho | settling | integrating | returning | outOfService
  deriving DecidableEq, Repr

/-- The source of a command word (R72). -/
inductive Source where
  | off | v10 | v25 | v50 | v100
  deriving DecidableEq, Repr

/-- The current range of a command word (R72). -/
inductive Range where
  | low | high
  deriving DecidableEq, Repr

/-- The range field of a program step (R76). -/
inductive RangeSel where
  | low | high | auto
  deriving DecidableEq, Repr

/-- The legs measured (R76). -/
inductive Legs where
  | tr | tg | rg
  deriving DecidableEq, Repr

/-- The kinds of a step (R76). -/
inductive Kind where
  | fdc | fac | res | cap
  deriving DecidableEq, Repr

/-- The fields of the head command word (R72); legs `none` is NONE. -/
structure HeadWord where
  source : Source := .off
  negative : Bool := false
  range : Range := .low
  legs : Option Legs := none
  bus : BusNo := 0
  attach : Bool := false
  deriving DecidableEq, Repr

/-- The rest word (R72). -/
def HeadWord.rest : HeadWord := {}

/-- A step of a test program (R76). -/
structure StepDef where
  kind : Kind
  legs : Legs
  source : Source
  range : RangeSel
  /-- Window units W, 1 to 16. -/
  units : Nat
  /-- Settle time in ms, 0 to 500. -/
  settle : Nat
  deriving DecidableEq, Repr

/-- The qualifiers of a step result (R105). -/
structure Quals where
  aboveRange : Bool := false
  belowRange : Bool := false
  clipped : Bool := false
  degraded : Bool := false
  rangedUp : Bool := false
  sourceFault : Bool := false
  noData : Bool := false
  deriving DecidableEq, Repr

/-- A step result (R85); the value is absent for SOURCE_FAULT and NO_DATA. -/
structure StepResult where
  index : Nat
  kind : Kind
  legs : Legs
  value : Option Int
  quals : Quals
  deriving DecidableEq, Repr

/-- The accumulators of one phase (R93). The sign and zero flags of A and B follow the sums and are read from them. -/
structure Accum where
  a : Int := 0
  aClip : Bool := false
  b : Int := 0
  bClip : Bool := false
  q : Nat := 0
  n : Nat := 0
  clips : Nat := 0
  peak : Nat := 0
  tail : Int := 0
  deriving DecidableEq, Repr

/-- The phases of a step (R79). -/
inductive Phase where
  /-- The one phase of FDC and FAC. -/
  | single
  | plus
  | minus
  /-- Phase D of CAP, the baseline. -/
  | baseline
  /-- Phase C of CAP, the charge. -/
  | charge
  deriving DecidableEq, Repr

/-- The measurement context (R78). `chargeRepeat` is the attempt of the CAP charge (R83), which outlives the phase D that
precedes a retaken charge; `lastSample` is the last accepted sample of a charge window, which replaces lost ones (R83);
`noEcho` marks a phase begun without a change of the commanded word (R79), to be confirmed by the first frame taken. -/
structure Context where
  line : Nat
  program : Nat
  steps : List StepDef
  holder : Holder
  evaluate : Bool
  index : Nat := 0
  phase : Phase := .single
  isRepeat : Bool := false
  chargeRepeat : Bool := false
  range : Range := .low
  mains60 : Bool := false
  rangedUp : Bool := false
  degraded : Bool := false
  settleCount : Nat := 0
  windowLen : Nat := 0
  accepted : Nat := 0
  lost : Nat := 0
  /-- The set of the step's first phase: the single phase, P+ or D. -/
  first : Accum := {}
  /-- The set of the step's second phase: P− or C. -/
  second : Accum := {}
  lastSample : Option (Int × Int) := none
  noEcho : Bool := false
  results : List StepResult := []
  deriving DecidableEq, Repr

/-- The head record (R71). The last echoed word keeps the echo fields in their places, bits 4 to 0 zero. -/
structure HeadRec where
  state : HeadState := .idle
  word : HeadWord := {}
  echoed : Word := 0
  bus : Option BusNo := none
  timer : Option Nat := none
  ctx : Option Context := none
  deriving DecidableEq, Repr

/-- The HEADS counters and figures of one head (R91, R106). -/
structure HeadCounters where
  assignments : Nat := 0
  measurementsEnded : Nat := 0
  lostSamples : Nat := 0
  phaseRepeats : Nat := 0
  rangeChanges : Nat := 0
  echoTimeouts : Nat := 0
  returnTimeouts : Nat := 0
  faultFlags : Nat := 0
  echoDepartures : Nat := 0
  headFaults : Nat := 0
  clippedSamples : Nat := 0
  peakVoltage : Nat := 0
  deriving DecidableEq, Repr

/-- An entry of the head wait queue (R75), with the number of the program its copy was taken from. -/
structure HeadWait where
  bus : BusNo
  program : Nat
  steps : List StepDef
  evaluate : Bool
  holder : Holder
  line : Nat
  deriving DecidableEq, Repr

/-- The result record of a measurement (R86). -/
structure Record where
  line : Nat
  bus : BusNo
  program : Nat
  holder : Holder
  outcome : Reason
  results : List StepResult
  deriving DecidableEq, Repr

/-! ### Limit evaluator (Chapter 7) -/

/-- The ten fault codes, in code order (R111). -/
inductive FaultCode where
  | leakTR | leakTG | leakRG | shortTR | batteryT | batteryR | humT | humR | openLoop | excessCap
  deriving DecidableEq, Repr

/-- An entry of the limit table (R109). -/
structure LimitEntry where
  enabled : Bool := false
  threshold : Nat := 0
  severity : Nat := 3
  deriving DecidableEq, Repr

/-- A finding (R116). -/
structure Finding where
  line : Nat
  code : FaultCode
  value : Int
  quals : Quals
  program : Nat
  severity : Nat
  time : Nat
  deriving DecidableEq, Repr

/-! ### Ticket unit and cable correlator (Chapters 8 and 9) -/

/-- The kind of a ticket with the first half of its key (R120). -/
inductive Subject where
  | line (l : Nat)
  | cable (c : Nat)
  deriving DecidableEq, Repr

/-- The states of a ticket (R121). -/
inductive TicketState where
  | raised | issued | accepted | repaired | retesting
  deriving DecidableEq, Repr

/-- The retest mark of a member (R147). -/
inductive Mark where
  | none | failed | inconclusive
  deriving DecidableEq, Repr

/-- An entry of a member list (R147). -/
structure Member where
  line : Nat
  value : Int
  quals : Quals
  program : Nat
  lastSeen : Nat
  mark : Mark
  deriving DecidableEq, Repr

/-- A ticket record (R121). The retest position is the place of a member in the member list. -/
structure Ticket where
  number : Nat
  subject : Subject
  code : FaultCode
  linked : Option Nat
  baseSeverity : Nat
  severity : Nat
  state : TicketState
  occurrences : Nat
  firstSeen : Nat
  lastSeen : Nat
  lastValue : Int
  lastQuals : Quals
  program : Nat
  retestCount : Nat
  raiseOrder : Nat
  members : List Member := []
  overflow : Nat := 0
  linkedCount : Nat := 0
  position : Option Nat := none
  firstReason : Option Reason := none
  deriving DecidableEq, Repr

/-- A retest in flight (R135): the ticket, the line being retested, and whether the member being retested was released
meanwhile (R151). -/
structure Retest where
  ticket : Nat
  line : Nat
  released : Bool := false
  deriving DecidableEq, Repr

/-- The TICKETS counter group (R140). -/
structure TicketCounters where
  findings : Nat := 0
  raised : Nat := 0
  occurrences : Nat := 0
  membersAdded : Nat := 0
  memberOverflow : Nat := 0
  dropped : Nat := 0
  evicted : Nat := 0
  closed : Nat := 0
  peakOccupancy : Nat := 0
  deriving DecidableEq, Repr

/-- A range of the cable map (R142). -/
structure CableRange where
  first : Nat
  last : Nat
  /-- The threshold K: 0, or 2 to 64. -/
  k : Nat
  deriving DecidableEq, Repr

/-! ### Sweep engine (Chapter 10) -/

/-- The configuration of a descriptor (R154). -/
structure SweepConfig where
  first : Nat
  count : Nat
  stride : Nat
  program : Nat
  ticketFlag : Bool
  stopOnFault : Bool
  autoReload : Bool
  /-- The pace in ms. -/
  pace : Nat
  deriving DecidableEq, Repr

/-- The states of a descriptor (R155). -/
inductive SweepState where
  | idle | armed | active | suspended | done
  deriving DecidableEq, Repr

/-- The phase of a line in flight (R155). -/
inductive LinePhase where
  | main | deferred
  deriving DecidableEq, Repr

/-- The pace timer (R164): stopped, counting outbound frames toward 8 × the pace of the configuration that started it (R154),
or expired. -/
inductive PaceTimer where
  | stopped
  | running (count limit : Nat)
  | expired
  deriving DecidableEq, Repr

/-- The counts of a descriptor, in the order of R155. -/
structure SweepCounts where
  tested : Nat := 0
  skippedTicketed : Nat := 0
  suppressed : Nat := 0
  excluded : Nat := 0
  lockedLines : Nat := 0
  noLine : Nat := 0
  headFault : Nat := 0
  deferred : Nat := 0
  unreachable : Nat := 0
  faultsFound : Nat := 0
  deriving DecidableEq, Repr

/-- A sweep descriptor: its configuration (R154) and its dynamic fields (R155). -/
structure Descriptor where
  config : Option SweepConfig := none
  state : SweepState := .idle
  nextIndex : Nat := 0
  remaining : Nat := 0
  pass : Nat := 0
  pace : PaceTimer := .stopped
  deferredPhase : Bool := false
  deferred : List Nat := []
  inFlight : Option (Nat × LinePhase) := none
  suspendPending : Bool := false
  requestMade : Bool := false
  counts : SweepCounts := {}
  deriving DecidableEq, Repr

/-! ### Site parameters (Chapter 12) -/

/-- The authority flags of a desk (R183). -/
structure Authority where
  monitorBusy : Bool := false
  overrides : Bool := false
  urgent : Bool := false
  deriving DecidableEq, Repr

/-- The site parameter record (R183). -/
structure SiteParams where
  mains60 : Bool := false
  quota : Nat := 2
  window : Nat := 900
  poll : Bool := false
  /-- Bit s masks severity s. -/
  mask : BitVec 4 := 0
  warning : Nat := 2000
  authority : Vector Authority 6 := Vector.replicate 6 {}
  gain : Vector Int 6 := Vector.replicate 6 0
  deriving DecidableEq, Repr

/-! ### Management channel unit (Chapter 11) -/

/-- The inbound assembler (R169). -/
inductive Assembler where
  | waiting
  /-- The octets gathered so far, the length octet first, and the length promised. -/
  | assembling (octets : List Octet) (promised : Nat)
  deriving DecidableEq, Repr

/-- The status of a reply: OK or a refusal code, in the order of R172. -/
inductive Status where
  | ok | badLength | unknownKind | badField | notPermitted | wrongState | limit | lineInUse | noBusInService
  | noHeadInService | emptyProgram | duplicateStep | overlap | lineBusy | notFound | busy | none | windowFull
  deriving DecidableEq, Repr

/-- The preemption a SEIZE made (R46). -/
inductive Preemption where
  | none | line | bus
  deriving DecidableEq, Repr

/-- The data of a reply (R180), as the owning rule formed it in the event of the command. -/
inductive ReplyData where
  | empty
  /-- SEIZE: waiting-for-line flag, preemption, preempted bus. -/
  | seize (waiting : Bool) (preemption : Preemption) (bus : Option BusNo)
  /-- A mode command: bus, mode entered, warning limit in ms, the desk's other bus moved to STANDBY. -/
  | mode (bus : BusNo) (mode : Mode) (warningMs : Nat) (other : Option BusNo)
  /-- REPAIRED KEY: the number of tickets moved. -/
  | moved (n : Nat)
  /-- TAKE TICKET: the ticket issued. -/
  | ticket (t : Ticket)
  /-- READ TICKET: the ticket read and the first member index. -/
  | fullTicket (t : Ticket) (firstMember : Nat)
  /-- READ SWEEP: the descriptor as it stands. -/
  | sweep (d : SweepNo) (x : Descriptor)
  /-- SET PATH: the entry as it stood before. -/
  | path (e : PathEntry)
  /-- LOAD TABLE: the table octet and the count applied. -/
  | loaded (table : Octet) (count : Nat)
  /-- READ TABLE: table octet, first entry, count, and the octets of the entries. -/
  | table (table : Octet) (first count : Nat) (entries : List Octet)
  /-- READ COUNTERS: the group octet and the counts in their order. -/
  | counters (group : Octet) (counts : List Nat)
  /-- SET CLOCK: the clock before the command. -/
  | clock (seconds : Nat)
  deriving DecidableEq, Repr

/-- A reply (R172). -/
structure Reply where
  kind : Octet
  tag : Octet
  /-- The command's origin, carried in the body. -/
  addressed : Octet
  status : Status
  data : ReplyData
  deriving DecidableEq, Repr

/-- The notices of R173 with the fields of R180. -/
inductive NoticeBody where
  | busHeld (bus : BusNo) (line : Nat) (holder : Holder) (cond : LineCond) (busy : Bool)
  | seizeFailed (bus : BusNo) (line : Nat) (holder : Holder) (reason : Reason)
  | busReleased (bus : BusNo) (line : Nat) (holder : Option Holder) (cause : Reason)
  | conditionChanged (bus : BusNo) (line : Nat) (holder : Holder) (old new : LineCond) (busy : Bool)
  | busFaulted (bus : BusNo) (line : Option Nat) (cause : Reason) (stuck : Bool)
  | headFaulted (head : HeadNo) (cause : Reason) (bus : Option BusNo) (word : HeadWord) (echoed : Word)
  | measurementResult (r : Record)
  /-- TICKET, formed when it starts and never queued (R129). -/
  | ticket (t : Ticket)
  | ticketClosed (number : Nat) (subject : Subject) (code : FaultCode) (occurrences retestCount time : Nat)
  | retestInconclusive (number : Nat) (subject : Subject) (code : FaultCode) (reason : Reason)
  | sweepStopped (d : SweepNo) (line : Option Nat) (findings pass nextIndex remaining : Nat) (deferredPhase : Bool)
  | sweepDone (d : SweepNo) (pass : Nat) (counts : SweepCounts)
  | highwayLost
  | highwayRestored
  deriving DecidableEq, Repr

/-- A notice (R173): the origin it is addressed to, the desk clock when it joined its queue, and its fields. -/
structure Notice where
  addressed : Nat
  clock : Nat
  body : NoticeBody
  deriving DecidableEq, Repr

/-! ### The whole machine -/

/-- The state of the Controller. -/
structure State where
  /-- The commands and events that are waiting, first in first out: the model's queue. -/
  pending : List Instr
  /-- Alignment state (R4). -/
  alignment : Alignment
  /-- HIGHWAY counters (R175). -/
  highway : HighwayCounters
  /-- Source store: inbound slots 5 to 46 (R11). -/
  store : Vector Word 42
  /-- Path table: outbound slots 17 to 46 (R12). -/
  paths : Vector PathEntry 30
  /-- Tone table and generators (R17, R18). -/
  tones : Vector Tone 4
  /-- The outbound frame last assembled; `none` before the first (R3). -/
  outFrame : Option Frame
  /-- Bus records (R20). -/
  buses : Vector Bus 8
  /-- ACCESS counters of the buses (R42). -/
  busCounters : Vector BusCounters 8
  /-- Line claim table: line and bus, lines strictly rising (R22). -/
  claims : List (Nat × BusNo)
  /-- Audio bus of each desk (R57). -/
  audio : Vector (Option BusNo) 6
  /-- Access wait queue (R43). The order of this list is the model's, entries keeping no physical order. -/
  queue : List WaitEntry
  /-- Arrival counter, below `Config.counterValues` (R43). -/
  arrivals : Nat
  /-- Rotation pointer: D0 to D5, then the exchange processor (R51). -/
  rotation : Origin
  /-- Grant counter (R49). -/
  grantCount : Nat
  /-- Grant stamp of each bus (R49). -/
  stamps : Vector (Option Nat) 8
  /-- QUEUE_PEAK (R56). -/
  queuePeak : Nat
  /-- PREEMPTIONS (R56). -/
  preemptions : Nat
  /-- Head records (R71). -/
  heads : Vector HeadRec 4
  /-- HEADS counters and figures (R91, R106). -/
  headCounters : Vector HeadCounters 4
  /-- Head wait queue (R75), oldest first. -/
  headQueue : List HeadWait
  /-- Set while the first frame taken after a gain of alignment has yet to take its assignment pass (R75, R89). -/
  assignDue : Bool
  /-- Program table (R76). -/
  programs : Vector (List StepDef) 16
  /-- Line class map (R107): lines of a class other than 0, strictly rising. -/
  classMap : List (Nat × Nat)
  /-- Limit table, indexed by class × 10 + code (R109, R184). -/
  limits : Vector LimitEntry 160
  /-- Ticket table: the entries that hold a ticket, in the order in which they entered (R120). -/
  tickets : List Ticket
  /-- Number counter (R122). -/
  numberCounter : Nat
  /-- Raise counter, below `Config.counterValues` (R122). -/
  raiseCounter : Nat
  /-- Repair list, by ticket number (R135). -/
  repairList : List Nat
  /-- Retests in flight (R135). -/
  inFlight : List Retest
  /-- TICKETS counters (R140). -/
  ticketCounters : TicketCounters
  /-- Cable map (R142). -/
  cables : Vector (Option CableRange) 256
  /-- Sweep descriptors (R154, R155). -/
  sweeps : Vector Descriptor 8
  /-- Inbound assembler (R169). -/
  assembler : Assembler
  /-- Reply queue (R172). -/
  replies : List Reply
  /-- Notice queue (R173). -/
  notices : List Notice
  /-- Octets of the outbound message in progress that are still to be sent (R174). -/
  sending : List Octet
  /-- Desk clock in seconds (R176). -/
  clock : Nat
  /-- Frame count beside the desk clock, 0 to 7,999 (R176). -/
  frameCount : Nat
  /-- The model's own: CLOCK_SECOND has counted the outbound frame that comes (log entry 13). -/
  secondTaken : Bool
  /-- Site parameters (R183). -/
  site : SiteParams
  /-- The model's own counter, the argument of the free values of Config. -/
  freeCount : Nat
  deriving DecidableEq, Repr

/-- Faults of the machine: none. The manual names no event at which the Controller stops, and no meaning of the model
ends in a fault. -/
inductive Fault where
  deriving DecidableEq, Repr

/-- Refusals of the model. -/
inductive Refusal where
  /-- Raised by an arm of `exec` whose command has no meaning yet; safe. No arm of this model raises it. -/
  | notModelled (mnemonic : String)
  deriving DecidableEq, Repr

/-- The Controller right after a power-on reset (R178): R4, R11, R19, R20, R41, R55, R57, R71, R76, R90, R107, R109, R141,
R142, R154, R155, R168, R172, R175, R176, R183. -/
def State.reset : State where
  pending := []
  alignment := .hunting 0
  highway := {}
  store := Vector.replicate 42 0
  paths := Vector.replicate 30 {}
  tones := Vector.replicate 4 {}
  outFrame := none
  buses := Vector.replicate 8 {}
  busCounters := Vector.replicate 8 {}
  claims := []
  audio := Vector.replicate 6 none
  queue := []
  arrivals := 0
  rotation := 0
  grantCount := 0
  stamps := Vector.replicate 8 none
  queuePeak := 0
  preemptions := 0
  heads := Vector.replicate 4 {}
  headCounters := Vector.replicate 4 {}
  headQueue := []
  assignDue := false
  programs := Vector.replicate 16 []
  classMap := []
  limits := Vector.replicate 160 {}
  tickets := []
  numberCounter := 1
  raiseCounter := 0
  repairList := []
  inFlight := []
  ticketCounters := {}
  cables := Vector.replicate 256 none
  sweeps := Vector.replicate 8 {}
  assembler := .waiting
  replies := []
  notices := []
  sending := []
  clock := 0
  frameCount := 0
  secondTaken := false
  site := {}
  freeCount := 0

end Sys2Proof.Machine
end

