-- ==== Sys2Proof/Machine/Ops.lean ====
section
/-! DEFINITION. The named operations over the records of the state: reading and writing one record of a bank, queueing
replies and notices, the claim table, and the readings of the state that several blocks share. -/

namespace Sys2Proof.Machine

/-! ### Units in order -/

def allBuses : List BusNo := [0, 1, 2, 3, 4, 5, 6, 7]
def allHeads : List HeadNo := [0, 1, 2, 3]
def allDesks : List DeskNo := [0, 1, 2, 3, 4, 5]
def allSweeps : List SweepNo := [0, 1, 2, 3, 4, 5, 6, 7]
def allTones : List ToneNo := [0, 1, 2, 3]

/-! ### Writing one record -/

def State.setBus (s : State) (b : BusNo) (x : Bus) : State := { s with buses := s.buses.set b x }
def State.setBusCounters (s : State) (b : BusNo) (x : BusCounters) : State :=
  { s with busCounters := s.busCounters.set b x }
def State.setHead (s : State) (h : HeadNo) (x : HeadRec) : State := { s with heads := s.heads.set h x }
def State.setHeadCounters (s : State) (h : HeadNo) (x : HeadCounters) : State :=
  { s with headCounters := s.headCounters.set h x }
def State.setSweep (s : State) (d : SweepNo) (x : Descriptor) : State := { s with sweeps := s.sweeps.set d x }
def State.setTone (s : State) (k : ToneNo) (x : Tone) : State := { s with tones := s.tones.set k x }
def State.setAudio (s : State) (d : DeskNo) (x : Option BusNo) : State := { s with audio := s.audio.set d x }
def State.setPathEntry (s : State) (i : Fin 30) (x : PathEntry) : State := { s with paths := s.paths.set i x }
def State.setTickets (s : State) (x : List Ticket) : State := { s with tickets := x }
def State.setTicketCounters (s : State) (x : TicketCounters) : State := { s with ticketCounters := x }
def State.setHighway (s : State) (x : HighwayCounters) : State := { s with highway := x }
def State.setQueue (s : State) (x : List WaitEntry) : State := { s with queue := x }
def State.setHeadQueue (s : State) (x : List HeadWait) : State := { s with headQueue := x }
def State.setClaims (s : State) (x : List (Nat × BusNo)) : State := { s with claims := x }
def State.setInFlight (s : State) (x : List Retest) : State := { s with inFlight := x }
def State.setRepairList (s : State) (x : List Nat) : State := { s with repairList := x }
def State.setAlignment (s : State) (x : Alignment) : State := { s with alignment := x }
def State.setAssembler (s : State) (x : Assembler) : State := { s with assembler := x }
def State.setReplies (s : State) (x : List Reply) : State := { s with replies := x }
def State.setNotices (s : State) (x : List Notice) : State := { s with notices := x }

/-! ### Counting -/

/-- Counts an event under the ACCESS counters of bus `b` (R42). -/
def countBus (b : BusNo) (f : BusCounters → BusCounters) (s : State) : State :=
  s.setBusCounters b (f s.busCounters[b])

/-- Counts an event under the HEADS counters of head `h` (R91). -/
def countHead (h : HeadNo) (f : HeadCounters → HeadCounters) (s : State) : State :=
  s.setHeadCounters h (f s.headCounters[h])

/-- Counts an event under the TICKETS counters (R140). -/
def countTickets (f : TicketCounters → TicketCounters) (s : State) : State :=
  s.setTicketCounters (f s.ticketCounters)

/-- Counts an event under the HIGHWAY counters (R175). -/
def countHighway (f : HighwayCounters → HighwayCounters) (s : State) : State := s.setHighway (f s.highway)

/-! ### Orders from a counter that wraps -/

/-- How many entries a counter has numbered after the one of an order: the counter's distance back to it (R43, R51, R122). The
entry with the greatest is the oldest. -/
def since (counter order : Nat) : Nat := (counter + (Config.counterValues - 1) - order) % Config.counterValues

/-- A counter after one more entry, from its largest value to 0 (R43, R122). -/
def advance (counter : Nat) : Nat := (counter + 1) % Config.counterValues

/-! ### Holders -/

/-- The desk of an origin; `none` for the exchange processor. -/
def deskOf (o : Origin) : Option DeskNo := if h : o.val < 6 then some ⟨o.val, h⟩ else none

/-- Whether an origin is a desk. -/
def isDesk (o : Origin) : Bool := decide (o.val < 6)

/-- The purpose that follows from a holder (R20, R43). -/
def purposeOf : Holder → Purpose
  | .origin o => if isDesk o then .desk else .processor
  | .sweep _ => .sweep
  | .retest _ => .retest

/-- An outside holder is a desk or the exchange processor (R21). -/
def isOutside : Holder → Bool
  | .origin _ => true
  | _ => false

/-- Whether a holder is the sweep engine. -/
def isSweep : Holder → Bool
  | .sweep _ => true
  | _ => false

/-- The desk that a holder is, if it is one. -/
def holderDesk : Option Holder → Option DeskNo
  | some (.origin o) => deskOf o
  | _ => none

/-- The origin a notice about a holder's bus is addressed to: the desk of a desk holder, 6 for all others (R173). -/
def addressee : Holder → Nat
  | .origin o => o.val
  | _ => 6

/-- A bus in SEIZING, GUARD or HELD is held by its holder (R21). -/
def Bus.isHeld (x : Bus) : Bool := x.state == .seizing || x.state == .guard || x.state == .held

/-- A sweep-held bus (R50). -/
def Bus.isSweepHeld (x : Bus) : Bool := x.isHeld && x.holder.any isSweep

/-- The buses held by a holder that satisfies `p` (R21, R44). -/
def heldCount (p : Holder → Bool) (s : State) : Nat :=
  (allBuses.filter fun b => s.buses[b].isHeld && s.buses[b].holder.any p).length

/-- The number of sweep-held buses (R50). -/
def sweepHeld (s : State) : Nat := (allBuses.filter fun b => s.buses[b].isSweepHeld).length

/-- At least one bus is in service (R45). -/
def busInService (s : State) : Bool := allBuses.any fun b => s.buses[b].state != .outOfService

/-- At least one head is in service (R71). -/
def headInService (s : State) : Bool := allHeads.any fun h => s.heads[h].state != .outOfService

/-- The lowest-numbered bus that is FREE and in service (R52). -/
def freeBus (s : State) : Option BusNo := allBuses.find? fun b => s.buses[b].state == .free

/-- Whether inbound alignment stands. -/
def Alignment.isAligned : Alignment → Bool
  | .aligned _ _ => true
  | _ => false

/-! ### The line claim table (R22) -/

/-- The bus that claims a line. -/
def claimOf (line : Nat) (s : State) : Option BusNo := (s.claims.find? fun p => p.1 == line).map Prod.snd

/-- A table with a claim entered in its place, the lines rising; a claim that stands on the line is replaced. -/
def insertClaim (line : Nat) (b : BusNo) : List (Nat × BusNo) → List (Nat × BusNo)
  | [] => [(line, b)]
  | p :: rest =>
    if line < p.1 then (line, b) :: p :: rest
    else if line = p.1 then (line, b) :: rest
    else p :: insertClaim line b rest

/-- Enters the claim of a line for a bus (R27). -/
def addClaim (line : Nat) (b : BusNo) (s : State) : State := s.setClaims (insertClaim line b s.claims)

/-- Removes the claim of a bus (R35, R38). -/
def dropClaim (b : BusNo) (s : State) : State := s.setClaims (s.claims.filter fun p => p.2 != b)

/-! ### Replies and notices -/

/-- Adds a reply to the reply queue as its last entry (R171, R172). -/
def pushReply (r : Reply) (s : State) : State := s.setReplies (s.replies ++ [r])

/-- Queues a notice (R173): it carries the desk clock; at 32 notices it is dropped and NOTICES_LOST rises; NOTICE_PEAK
follows the number queued. -/
def pushNotice (addressed : Nat) (body : NoticeBody) (s : State) : State :=
  if s.notices.length < Config.noticeCapacity then
    let s' := s.setNotices (s.notices ++ [{ addressed := addressed, clock := s.clock, body := body }])
    s'.setHighway { s.highway with noticePeak := max s.highway.noticePeak (s.notices.length + 1) }
  else countHighway (fun c => { c with noticesLost := satInc c.noticesLost }) s

/-! ### Path entries of the buses and desks (R58) -/

/-- The path table entry of a bus's bus-out slot, 23 + b. -/
def busOut (b : BusNo) : Fin 30 := ⟨6 + b.val, by omega⟩

/-- The path table entry of a desk's desk-out slot, 17 + d. -/
def deskOut (d : DeskNo) : Fin 30 := ⟨d.val, by omega⟩

/-- The inbound slot of a desk's speech, 33 + d (R58). -/
def deskSpeech (d : DeskNo) : Nat := 33 + d.val

/-- The inbound slot of a bus's audio, 39 + b (R58). -/
def busAudio (b : BusNo) : Nat := 39 + b.val

/-- The IDLE entry with both sources absent. -/
def idleEntry : PathEntry := {}

/-- Settles the desk-out entry of a desk that loses bus `b`: IDLE, and its audio bus absent, if `b` was its audio bus
(R58, R70). -/
def settleDesk (holder : Option Holder) (b : BusNo) (s : State) : State :=
  match holderDesk holder with
  | none => s
  | some d => if s.audio[d] = some b then (s.setPathEntry (deskOut d) idleEntry).setAudio d none else s

/-! ### Tickets -/

/-- The ticket of a number. -/
def ticketByNumber (n : Nat) (s : State) : Option Ticket := s.tickets.find? fun t => t.number == n

/-- The ticket of a kind and key (R120). -/
def ticketByKey (k : Subject) (x : FaultCode) (s : State) : Option Ticket :=
  s.tickets.find? fun t => t.subject == k && t.code == x

/-- Changes the ticket of a number. -/
def updTicket (n : Nat) (f : Ticket → Ticket) (s : State) : State :=
  s.setTickets (s.tickets.map fun t => if t.number = n then f t else t)

/-- Removes the ticket of a number from the table. -/
def removeTicket (n : Nat) (s : State) : State := s.setTickets (s.tickets.filter fun t => t.number != n)

/-- Whether a ticket is a CABLE ticket. -/
def Ticket.isCable (t : Ticket) : Bool :=
  match t.subject with
  | .cable _ => true
  | .line _ => false

/-- Whether a ticket is a LINE ticket. -/
def Ticket.isLine (t : Ticket) : Bool := !t.isCable

/-- Whether a ticket is the LINE ticket of a line, of any code. -/
def Ticket.isOnLine (t : Ticket) (line : Nat) : Bool := t.subject == .line line

/-! ### Tables read by line -/

/-- The class the line class map gives a line (R107): class 0 where the map lists none. -/
def classOf (line : Nat) (s : State) : Nat := ((s.classMap.find? fun p => p.1 == line).map Prod.snd).getD 0

/-- The cable ids in order. -/
def cableIds : List (Fin 256) := List.finRange 256

/-- Whether a range of the cable map holds a line (R142). -/
def CableRange.holds (r : CableRange) (line : Nat) : Bool := decide (r.first ≤ line ∧ line ≤ r.last)

/-- The cable the map places a line in (R142). -/
def cableOf (line : Nat) (s : State) : Option (Fin 256) :=
  cableIds.find? fun c => (s.cables[c]).any fun r => r.holds line

end Sys2Proof.Machine
end

