-- ==== Sys2Proof/Machine/Operands.lean ====
section
/-! DEFINITION. Reading the operand fields of commands and table entries: octets in order, most significant first (R180),
codes into their values, and signed fields. A code with no meaning is `none` and is refused BAD_FIELD by its owner. -/

namespace Sys2Proof.Machine

/-- The octet at a place of a body; a place the body does not hold reads as 0, and the length check of R171 refuses such
a body before any field is read. -/
def octetAt (body : List Octet) (i : Nat) : Octet := body.getD i 0

/-- The number at a place, one octet. -/
def num1 (body : List Octet) (i : Nat) : Nat := (octetAt body i).toNat

/-- The two-octet number at a place. -/
def num2 (body : List Octet) (i : Nat) : Nat := num1 body i * 256 + num1 body (i + 1)

/-- The four-octet number at a place. -/
def num4 (body : List Octet) (i : Nat) : Nat := num2 body i * 65536 + num2 body (i + 2)

/-- The two-octet field at a place, as a word. -/
def word2 (body : List Octet) (i : Nat) : Word := octetAt body i ++ octetAt body (i + 1)

/-- The four-octet field at a place. -/
def word4 (body : List Octet) (i : Nat) : BitVec 32 := word2 body i ++ word2 body (i + 2)

/-- A one-octet signed field, two's complement (R180). -/
def signed1 (o : Octet) : Int := o.toInt

/-- The origin an octet names, 0 to 6 (R171). -/
def originOf (o : Octet) : Option Origin := if h : o.toNat < 7 then some ⟨o.toNat, h⟩ else none

/-- A unit number within a bank of `n`. -/
def unitOf (n : Nat) (o : Octet) : Option (Fin n) := if h : o.toNat < n then some ⟨o.toNat, h⟩ else none

/-- A flag octet: 1 set, 0 clear (R180). -/
def flagOf (o : Octet) : Option Bool := if o = 0 then some false else if o = 1 then some true else none

/-- The fault code of a code number (R111). -/
def codeOf : Nat → Option FaultCode
  | 0 => some .leakTR
  | 1 => some .leakTG
  | 2 => some .leakRG
  | 3 => some .shortTR
  | 4 => some .batteryT
  | 5 => some .batteryR
  | 6 => some .humT
  | 7 => some .humR
  | 8 => some .openLoop
  | 9 => some .excessCap
  | _ => none

/-- The kind of a step (R182). -/
def kindOf : Nat → Option Kind
  | 0 => some .fdc
  | 1 => some .fac
  | 2 => some .res
  | 3 => some .cap
  | _ => none

/-- The legs of a step (R182). -/
def legsOf : Nat → Option Legs
  | 1 => some .tr
  | 2 => some .tg
  | 3 => some .rg
  | _ => none

/-- The source of a step, coded as in the head command word (R179, R182). -/
def sourceOf : Nat → Option Source
  | 0 => some .off
  | 1 => some .v10
  | 2 => some .v25
  | 3 => some .v50
  | 4 => some .v100
  | _ => none

/-- The range of a step (R182). -/
def rangeOf : Nat → Option RangeSel
  | 0 => some .low
  | 1 => some .high
  | 2 => some .auto
  | _ => none

/-- A number of one octet if it lies in a range. -/
def within (lo hi n : Nat) : Option Nat := if lo ≤ n ∧ n ≤ hi then some n else none

/-- A source of SET PATH: 0 is absent, 5 to 46 an inbound slot (R16, R180). -/
def pathSourceOf (o : Octet) : Option (Option Nat) :=
  if o = 0 then some none else (within 5 46 o.toNat).map some

/-- The action and parameter octets of SET PATH (R16, R180). -/
def pathActionOf (action parameter : Octet) : Option PathAction :=
  match action.toNat with
  | 0 => some .idle
  | 1 => some .pass
  | 2 => some .invert
  | 3 => if -3 ≤ signed1 parameter ∧ signed1 parameter ≤ 3 then some (.gain (signed1 parameter)) else none
  | 4 => some .mix
  | 5 => (unitOf 4 parameter).map .tone
  | _ => none

/-! ### Inbound words (R179) -/

/-- The relay states of a condition word; both fault codes are FAULT (R23). -/
inductive Relay where
  | opened | made | fault
  deriving DecidableEq, Repr

/-- Bits 15 and 14 of a condition word. -/
def relayOf (w : Word) : Relay :=
  match (w.extractLsb' 14 2).toNat with
  | 0 => .opened
  | 1 => .made
  | _ => .fault

/-- Bits 13 to 11 of a condition word; `none` is UNKNOWN. -/
def condOf (w : Word) : Option LineCond :=
  match (w.extractLsb' 11 3).toNat with
  | 0 => some .none
  | 1 => some .idle
  | 2 => some .call
  | 3 => some .ringing
  | 4 => some .locked
  | 5 => some .noLine
  | _ => none

/-- The echo fields of a head status word in their places, bits 4 to 0 zero. -/
def echoOf (w : Word) : Word := w &&& 0xFFE0#16

/-- The head-ready flag, bit 4. -/
def readyFlag (w : Word) : Bool := w.getLsbD 4

/-- The head-fault flag, bit 3. -/
def faultFlag (w : Word) : Bool := w.getLsbD 3

/-- A slot word as a signed number. -/
def signedWord (w : Word) : Int := w.toInt

/-- The alignment pattern (R4, R179). -/
def alignmentPattern : BitVec 15 := 0b101101001110001#15

/-- Whether a frame leads with the alignment pattern. -/
def hasPattern (f : Frame) : Bool := (f[0]).extractLsb' 1 15 == alignmentPattern

/-- The S flag of a frame's alignment word. -/
def startFlag (f : Frame) : Bool := (f[0]).getLsbD 0

/-- The sum modulo 65,536 of words 1 to 46 of a frame (R3, R9). -/
def frameSum (f : Frame) : Word := ((f.toList.drop 1).take 46).foldl (· + ·) 0

/-- Whether a frame's check word is right (R9). -/
def checkHolds (f : Frame) : Bool := frameSum f == f[47]

/-- The eight management octets of a frame, slot order, more significant octet first (11.1). -/
def managementOctets (f : Frame) : List Octet :=
  ((f.toList.drop 1).take 4).flatMap fun w => [w.extractLsb' 8 8, w.extractLsb' 0 8]

end Sys2Proof.Machine
end

