-- ==== Sys2Proof/Machine/Flags.lean ====
section
/-! DEFINITION. The flags of the measurement arithmetic: the sign, zero and clip flags of the accumulators (R93, R94), the
clip judgement of a sample (R84), and the qualifiers of a step result (R105). -/

namespace Sys2Proof.Machine

/-- The A sign flag: the sum is below 0 (R93). -/
def Accum.aSign (x : Accum) : Bool := decide (x.a < 0)
/-- The A zero flag: the sum equals 0. -/
def Accum.aZero (x : Accum) : Bool := decide (x.a = 0)
/-- The B sign flag. -/
def Accum.bSign (x : Accum) : Bool := decide (x.b < 0)
/-- The B zero flag. -/
def Accum.bZero (x : Accum) : Bool := decide (x.b = 0)

/-- A word at its limit, +32,767 or −32,768 (R84). -/
def atLimit (w : Word) : Bool := w == 0x7FFF#16 || w == 0x8000#16

/-- The voltage of a sample is clipped (R84). -/
def voltageClipped (legs : Legs) (vt vr : Word) : Bool :=
  match legs with
  | .tg => atLimit vt
  | .rg => atLimit vr
  | .tr => atLimit vt || atLimit vr

/-- The current of a sample is clipped (R84). -/
def currentClipped (legs : Legs) (it ir : Word) : Bool :=
  match legs with
  | .rg => atLimit ir
  | .tg => atLimit it
  | .tr => atLimit it

/-- The qualifiers a computation gives (R105): at most one of the three. -/
inductive RangeMark where
  | none | above | below | sourceFault
  deriving DecidableEq, Repr

/-- CLIPPED, taken from the clip flags of the phase sets that stand at the step's end (R105). -/
def clippedOf (kind : Kind) (first second : Accum) : Bool :=
  match kind with
  | .fdc => first.aClip
  | .fac => first.aClip
  | .res => first.aClip || first.bClip || second.aClip || second.bClip
  | .cap => first.aClip || second.aClip || second.bClip

/-- The qualifiers of a step result (R105). -/
def qualsOf (kind : Kind) (mark : RangeMark) (noData degraded rangedUp : Bool) (first second : Accum) : Quals where
  aboveRange := mark == .above
  belowRange := mark == .below
  clipped := clippedOf kind first second
  degraded := degraded
  rangedUp := rangedUp
  sourceFault := mark == .sourceFault
  noData := noData

end Sys2Proof.Machine
end

