-- ==== Sys2Proof/Machine/Arithmetic.lean ====
section
/-! DEFINITION. Measurement arithmetic (Chapter 6): entering samples, means, and the value of each kind of step. Every sum
is exact and every rounding is the one its rule states. -/

namespace Sys2Proof.Machine

/-- The voltage value of a sample (R92); the TR difference is exact. -/
def sampleVoltage (legs : Legs) (vt vr : Word) : Int :=
  match legs with
  | .tg => signedWord vt
  | .rg => signedWord vr
  | .tr => signedWord vt - signedWord vr

/-- The current value of a sample (R92). -/
def sampleCurrent (legs : Legs) (it ir : Word) : Int :=
  match legs with
  | .rg => signedWord ir
  | .tg => signedWord it
  | .tr => signedWord it

/-- A sample as the head controller hands it to the arithmetic (R92, R84). -/
structure Sample where
  v : Int
  i : Int
  vClip : Bool
  iClip : Bool
  deriving DecidableEq, Repr

/-- The sample a frame's four words give on the legs of a step. -/
def sampleOf (legs : Legs) (vt vr it ir : Word) : Sample where
  v := sampleVoltage legs vt vr
  i := sampleCurrent legs it ir
  vClip := voltageClipped legs vt vr
  iClip := currentClipped legs it ir

/-- Whether a kind and phase are handed the current (R92). -/
def handsCurrent (kind : Kind) (phase : Phase) : Bool :=
  match kind with
  | .fdc => false
  | .fac => false
  | .res => true
  | .cap => phase == .charge

/-- Whether a sample counts as clipped in a phase (R94): on a quantity the phase uses. -/
def countsClip (useI : Bool) (x : Sample) : Bool := x.vClip || (useI && x.iClip)

/-- Enters a sample in a phase other than the CAP charge (R94). -/
def enterSample (kind : Kind) (useI : Bool) (x : Sample) (m : Accum) : Accum :=
  { m with
    a := m.a + x.v
    aClip := m.aClip || x.vClip
    b := if useI then m.b + x.i else m.b
    bClip := m.bClip || (useI && x.iClip)
    q := if kind = .fac then m.q + x.v.natAbs * x.v.natAbs else m.q
    n := m.n + 1
    clips := if countsClip useI x then m.clips + 1 else m.clips
    peak := max m.peak x.v.natAbs }

/-- The first of the last 80 positions of a charge window (R103). -/
def chargeTailStart : Nat := 321

/-- Enters the values of one position of a charge window, accepted or replaced (R103). -/
def enterPosition (position : Nat) (v i : Int) (m : Accum) : Accum :=
  if chargeTailStart ≤ position then { m with a := m.a + v, b := m.b + i, tail := m.tail + i, n := m.n + 1 }
  else { m with b := m.b + i, n := m.n + 1 }

/-- Marks the peak and the clips of an accepted sample of a charge window (R103). -/
def markSample (x : Sample) (m : Accum) : Accum :=
  { m with
    aClip := m.aClip || x.vClip
    bClip := m.bClip || x.iClip
    clips := if countsClip true x then m.clips + 1 else m.clips
    peak := max m.peak x.v.natAbs }

/-- Enters the same values in `k` positions from `position` onward: the lost samples that came before a repeated charge
window's first accepted sample (R83). -/
def enterPositions (position : Nat) (v i : Int) : Nat → Accum → Accum
  | 0, m => m
  | k + 1, m => enterPositions (position + 1) v i k (enterPosition position v i m)

/-! ### Means (R96) -/

/-- The mean of a sum over a count, a half rounded away from zero, by the sum's sign and zero flags. -/
def meanOf (sum : Int) (n : Nat) : Int :=
  if sum = 0 then 0
  else if 0 < sum then (2 * sum + n) / (2 * n)
  else -((2 * (-sum) + n) / (2 * n))

/-! ### The value of a step -/

/-- FDC (R99). -/
def computeFdc (m : Accum) : Int × RangeMark :=
  let mean := meanOf m.a m.n
  if 32767 < mean then (32767, .above)
  else if mean < -32767 then (-32767, .above)
  else (mean, .none)

/-- P of R100: n × Q − (ΣV)². -/
def acPower (m : Accum) : Int := (m.n : Int) * m.q - m.a * m.a

/-- The largest r up to `bound` for which (2r − 1)² × n² does not exceed 4P, found by trying the bits of r from the
highest down; 0 when there is none (R100). -/
def rmsSearch (p4 n2 : Int) : Nat → Nat → Nat
  | 0, r => r
  | k + 1, r =>
    let r' := r + 2 ^ k
    if (2 * (r' : Int) - 1) * (2 * (r' : Int) - 1) * n2 ≤ p4 then rmsSearch p4 n2 k r' else rmsSearch p4 n2 k r

/-- The rms r of R100: 0 when 4P is less than n², else the largest r with (2r − 1)² × n² ≤ 4P. It lies below 2^17. -/
def rmsOf (m : Accum) : Nat := rmsSearch (4 * acPower m) ((m.n : Int) * m.n) 17 0

/-- FAC (R100). -/
def computeFac (m : Accum) : Int × RangeMark :=
  let r := rmsOf m
  if r ≤ 32767 then ((r : Int), .none) else (32767, .above)

/-- The ohms one voltage count per current count stands for (R102). -/
def ohmsPerCount : Range → Int
  | .low => 10000000
  | .high => 10000

/-- RES (R101, R102); the value is absent with SOURCE_FAULT. -/
def computeRes (range : Range) (plus minus : Accum) : Option Int × RangeMark :=
  let dv := meanOf plus.a plus.n - meanOf minus.a minus.n
  let di := meanOf plus.b plus.n - meanOf minus.b minus.n
  if dv < 100 then (none, .sourceFault)
  else if di < 2 then (some 1000000000, .above)
  else
    let r := (2 * dv * ohmsPerCount range + di) / (2 * di)
    if r < 1000000000 then (some r, .none) else (some 1000000000, .above)

/-- CAP (R104); the value is absent with SOURCE_FAULT. -/
def computeCap (baseline charge : Accum) : Option Int × RangeMark :=
  let dv := meanOf charge.a 80 - meanOf baseline.a baseline.n
  let qc := charge.b - 5 * charge.tail
  if dv < 100 then (none, .sourceFault)
  else if qc ≤ 0 then (some 0, .below)
  else
    let c := (25000 * qc + dv) / (2 * dv)
    if c = 0 then (some 0, .below)
    else if 9999999 < c then (some 9999999, .above)
    else (some c, .none)

/-- The value and range mark of a step that did not meet NO_DATA (R97). -/
def computeStep (kind : Kind) (range : Range) (first second : Accum) : Option Int × RangeMark :=
  match kind with
  | .fdc => let r := computeFdc first; (some r.1, r.2)
  | .fac => let r := computeFac first; (some r.1, r.2)
  | .res => computeRes range first second
  | .cap => computeCap first second

/-- The step result a step gives at its end (R85, R97, R105). -/
def stepResultOf (c : Context) (d : StepDef) (noData : Bool) : StepResult :=
  let r := if noData then (none, RangeMark.none) else computeStep d.kind c.range c.first c.second
  { index := c.index
    kind := d.kind
    legs := d.legs
    value := r.1
    quals := qualsOf d.kind r.2 noData c.degraded c.rangedUp c.first c.second }

end Sys2Proof.Machine
end

