-- ==== Sys2Proof/Machine/Formats.lean ====
section
/-! DEFINITION. Layouts of what the Controller sends: highway words (R179), message octets, reply data and notice fields
(R180) and table entries (R182, R183). -/

namespace Sys2Proof.Machine

/-! ### Highway words (R179) -/

/-- The alignment word: the pattern and the S flag. -/
def alignmentWord (start : Bool) : Word := alignmentPattern ++ BitVec.ofBool start

/-- The relay order word: order in bits 15 and 14, line in bits 13 to 0; NONE carries line 0 (R23). -/
def orderWord : RelayOrder → Word
  | .none => 0
  | .make line => 1#2 ++ BitVec.ofNat 14 line
  | .brk line => 2#2 ++ BitVec.ofNat 14 line

/-- The code of a source. -/
def sourceCode : Source → Nat
  | .off => 0
  | .v10 => 1
  | .v25 => 2
  | .v50 => 3
  | .v100 => 4

/-- The code of a range. -/
def rangeCode : Range → Nat
  | .low => 0
  | .high => 1

/-- The code of the legs of a step. -/
def legsCode : Legs → Nat
  | .tr => 1
  | .tg => 2
  | .rg => 3

/-- The head command word. -/
def headCommandWord (w : HeadWord) : Word :=
  BitVec.ofNat 3 (sourceCode w.source) ++ BitVec.ofBool w.negative ++ BitVec.ofNat 1 (rangeCode w.range)
    ++ BitVec.ofNat 2 ((w.legs.map legsCode).getD 0) ++ BitVec.ofNat 3 w.bus.val ++ BitVec.ofBool w.attach ++ 0#5

/-! ### Octet fields (R180) -/

/-- One octet. -/
def enc1 (n : Nat) : List Octet := [BitVec.ofNat 8 n]
/-- Two octets, most significant first. -/
def enc2 (n : Nat) : List Octet := enc1 (n / 256) ++ enc1 n
/-- Four octets, most significant first. -/
def enc4 (n : Nat) : List Octet := enc2 (n / 65536) ++ enc2 n
/-- A count of four octets, held at its largest value. -/
def encCount (n : Nat) : List Octet := enc4 (min n countMax)
/-- A flag. -/
def encFlag (x : Bool) : List Octet := enc1 (if x then 1 else 0)
/-- A unit number, 255 for none. -/
def encUnit (n : Option Nat) : List Octet := enc1 (n.getD 255)
/-- A line number, 65,535 for none. -/
def encLine (n : Option Nat) : List Octet := enc2 (n.getD 65535)
/-- A value in two's complement, 0 where it is absent. -/
def encValue (v : Option Int) : List Octet := enc4 (BitVec.ofInt 32 (v.getD 0)).toNat
/-- A signed octet. -/
def encSigned (x : Int) : List Octet := [BitVec.ofInt 8 x]
/-- A word of the highway. -/
def encWord (w : Word) : List Octet := enc2 w.toNat

/-- The holder: kind octet, then descriptor or ticket number. -/
def encHolder : Option Holder → List Octet
  | none => enc1 255 ++ enc2 0
  | some (.origin o) => enc1 o.val ++ enc2 0
  | some (.sweep d) => enc1 8 ++ enc2 d.val
  | some (.retest n) => enc1 9 ++ enc2 n

/-- The code of an accepted condition (R179). -/
def condCode : LineCond → Nat
  | .none => 0
  | .idle => 1
  | .call => 2
  | .ringing => 3
  | .locked => 4
  | .noLine => 5

/-- The code of a mode. -/
def modeCode : Mode → Nat
  | .standby => 0
  | .talk => 1
  | .warning => 2
  | .monitor => 3
  | .tone => 4
  | .measure => 5

/-- The code of a preemption. -/
def preemptionCode : Preemption → Nat
  | .none => 0
  | .line => 1
  | .bus => 2

/-- The code of a cause, reason or outcome. -/
def reasonCode : Reason → Nat
  | .requested => 0
  | .complete => 1
  | .preempt => 2
  | .call => 3
  | .lineBusy => 4
  | .noLine => 5
  | .conditionUnknown => 6
  | .makeTimeout => 7
  | .reset => 8
  | .restore => 9
  | .relayTimeout => 10
  | .busFault => 11
  | .relayFault => 12
  | .relayDropped => 13
  | .releaseTimeout => 14
  | .makeTimeouts => 15
  | .faultFlag => 16
  | .echoTimeout => 17
  | .echoDeparted => 18
  | .returnTimeout => 19
  | .abortedCall => 20
  | .abortedRelease => 21
  | .abortedPreempt => 22
  | .headFault => 23
  | .highwayLost => 24
  | .notAssessed => 25

/-- The code of a kind (R182). -/
def kindCode : Kind → Nat
  | .fdc => 0
  | .fac => 1
  | .res => 2
  | .cap => 3

/-- The code of a step's range (R182). -/
def rangeSelCode : RangeSel → Nat
  | .low => 0
  | .high => 1
  | .auto => 2

/-- The code number of a fault code (R111). -/
def faultCodeNumber : FaultCode → Nat
  | .leakTR => 0
  | .leakTG => 1
  | .leakRG => 2
  | .shortTR => 3
  | .batteryT => 4
  | .batteryR => 5
  | .humT => 6
  | .humR => 7
  | .openLoop => 8
  | .excessCap => 9

/-- A flag as the bit of a place. -/
def bitAt (place : Nat) (x : Bool) : Nat := if x then 2 ^ place else 0

/-- The qualifiers octet. -/
def encQuals (q : Quals) : List Octet :=
  enc1 (bitAt 0 q.aboveRange + bitAt 1 q.belowRange + bitAt 2 q.clipped + bitAt 3 q.degraded + bitAt 4 q.rangedUp
    + bitAt 5 q.sourceFault + bitAt 6 q.noData)

/-- The code of a ticket state. -/
def ticketStateCode : TicketState → Nat
  | .raised => 0
  | .issued => 1
  | .accepted => 2
  | .repaired => 3
  | .retesting => 4

/-- The kind octet of a ticket. -/
def encKind : Subject → List Octet
  | .line _ => enc1 0
  | .cable _ => enc1 1

/-- The key of a ticket. -/
def encKey (k : Subject) (x : FaultCode) : List Octet :=
  match k with
  | .line l => enc2 l ++ enc1 (faultCodeNumber x)
  | .cable c => enc2 c ++ enc1 (faultCodeNumber x)

/-- The code of a retest mark. -/
def markCode : Mark → Nat
  | .none => 0
  | .failed => 1
  | .inconclusive => 2

/-- The code of a sweep state. -/
def sweepStateCode : SweepState → Nat
  | .idle => 0
  | .armed => 1
  | .active => 2
  | .suspended => 3
  | .done => 4

/-- The code of a line phase. -/
def linePhaseCode : LinePhase → Nat
  | .main => 0
  | .deferred => 1

/-- The code of a status. -/
def statusCode : Status → Nat
  | .ok => 0
  | .badLength => 1
  | .unknownKind => 2
  | .badField => 3
  | .notPermitted => 4
  | .wrongState => 5
  | .limit => 6
  | .lineInUse => 7
  | .noBusInService => 8
  | .noHeadInService => 9
  | .emptyProgram => 10
  | .duplicateStep => 11
  | .overlap => 12
  | .lineBusy => 13
  | .notFound => 14
  | .busy => 15
  | .none => 16
  | .windowFull => 17

/-! ### Table entries (R182, R183) -/

/-- The site parameter record. -/
def encSite (p : SiteParams) : List Octet :=
  enc1 (if p.mains60 then 1 else 0) ++ enc1 p.quota ++ enc2 p.window ++ encFlag p.poll ++ enc1 p.mask.toNat
    ++ enc2 p.warning
    ++ allDesks.flatMap fun d =>
      let a := p.authority[d]
      enc1 (bitAt 0 a.monitorBusy + bitAt 1 a.overrides + bitAt 2 a.urgent) ++ encSigned p.gain[d]

/-- The classes of a run of lines, two to an octet, the first in the upper half (R182); `unused` stands in the lower half that
an odd run leaves over. -/
def encClasses (unused : Fin 16) : List Nat → List Octet
  | [] => []
  | [x] => enc1 (x * 16 + unused.val)
  | x :: y :: rest => enc1 (x * 16 + y) ++ encClasses unused rest

/-- A limit table entry with its index fields. -/
def encLimit (index : Nat) (e : LimitEntry) : List Octet :=
  enc1 (index / 10) ++ enc1 (index % 10) ++ encFlag e.enabled ++ enc1 e.severity ++ enc4 e.threshold

/-- A step place of a program entry. -/
def encStep (d : StepDef) : List Octet :=
  enc1 (kindCode d.kind) ++ enc1 (legsCode d.legs) ++ enc1 (sourceCode d.source) ++ enc1 (rangeSelCode d.range)
    ++ enc1 d.units ++ enc2 d.settle

/-- A program table entry: the places beyond the step count are 0 (R184). -/
def encProgram (index : Nat) (p : List StepDef) : List Octet :=
  enc1 index ++ enc1 p.length ++ p.flatMap encStep ++ List.replicate ((8 - p.length) * 7) 0

/-- A cable map entry; an absent one has present flag 0 and its other fields 0 (R184). -/
def encCable (index : Nat) : Option CableRange → List Octet
  | none => enc1 index ++ List.replicate 6 0
  | some r => enc1 index ++ enc1 1 ++ enc2 r.first ++ enc2 r.last ++ enc1 r.k

/-- A tone table entry. -/
def encTone (index : Nat) (t : Tone) : List Octet := enc1 index ++ enc2 t.frequency ++ enc2 t.amplitude

/-- A sweep configuration after its descriptor octet; every field 0 where there is none (R180, R184). -/
def encConfig : Option SweepConfig → List Octet
  | none => List.replicate 9 0
  | some c =>
    enc2 c.first ++ enc2 c.count ++ enc1 c.stride ++ enc1 c.program
      ++ enc1 (bitAt 0 c.ticketFlag + bitAt 1 c.stopOnFault + bitAt 2 c.autoReload) ++ enc2 c.pace

/-! ### Reply data and notice fields (R180) -/

/-- The cable id, or 65,535 for absent. -/
def encLinked (c : Option Nat) : List Octet := enc2 (c.getD 65535)

/-- The fields of a TICKET notice and of a TAKE TICKET reply (R129, R180). -/
def encTicket (t : Ticket) : List Octet :=
  enc2 t.number ++ encKind t.subject ++ encKey t.subject t.code ++ encLinked t.linked ++ enc1 t.severity
    ++ enc1 t.baseSeverity ++ enc1 t.occurrences ++ enc4 t.firstSeen ++ enc4 t.lastSeen ++ encValue (some t.lastValue)
    ++ encQuals t.lastQuals ++ enc1 t.program ++ enc1 t.retestCount ++ enc1 t.members.length ++ enc1 t.linkedCount
    ++ encCount t.overflow

/-- A member returned by READ TICKET. -/
def encMember (m : Member) : List Octet :=
  enc2 m.line ++ encValue (some m.value) ++ encQuals m.quals ++ enc1 m.program ++ enc4 m.lastSeen
    ++ enc1 (markCode m.mark)

/-- The members READ TICKET returns: up to 12 from the first member index (R135a). -/
def membersReturned (t : Ticket) (firstMember : Nat) : List Member := (t.members.drop firstMember).take 12

/-- The data of a READ TICKET reply. DESIGN CHOICE: the number of members returned takes one octet, as the number of members does
(log entry 35); the first member index is the command's for a LINE ticket too (log entry 36). -/
def encFullTicket (t : Ticket) (firstMember : Nat) : List Octet :=
  let ms := membersReturned t firstMember
  enc2 t.number ++ encKind t.subject ++ encKey t.subject t.code ++ encLinked t.linked ++ enc1 t.baseSeverity
    ++ enc1 t.severity ++ enc1 (ticketStateCode t.state) ++ enc1 t.occurrences ++ enc4 t.firstSeen ++ enc4 t.lastSeen
    ++ encValue (some t.lastValue) ++ encQuals t.lastQuals ++ enc1 t.program ++ enc1 t.retestCount
    ++ enc4 (t.raiseOrder % 4294967296) ++ encCount t.overflow ++ enc1 t.linkedCount ++ enc1 t.members.length
    ++ enc1 firstMember ++ enc1 ms.length ++ ms.flatMap encMember

/-- The ten counts of a descriptor in their order (R155). -/
def sweepCountList (c : SweepCounts) : List Nat :=
  [c.tested, c.skippedTicketed, c.suppressed, c.excluded, c.lockedLines, c.noLine, c.headFault, c.deferred,
    c.unreachable, c.faultsFound]

/-- The limit of a pace timer that a descriptor starts, in outbound frames: 8 × pace (R164). -/
def paceLimit (x : Descriptor) : Nat := 8 * (x.config.map SweepConfig.pace).getD 0

/-- Whether the pace timer runs: started, and its count below its limit (R164). -/
def paceRuns (x : Descriptor) : Bool :=
  match x.pace with
  | .running n limit => decide (n < limit)
  | _ => false

/-- The sixteen places of the deferred list, unused places 65,535. -/
def encDeferred (l : List Nat) : List Octet :=
  ((l ++ List.replicate 16 65535).take 16).flatMap enc2

/-- The data of a READ SWEEP reply. The phase octet has no given value where no line is in flight. DESIGN CHOICE: the length of
the deferred list takes one octet (log entry 35). -/
def encSweep (frame : Nat) (d : SweepNo) (x : Descriptor) : List Octet :=
  enc1 d.val ++ encConfig x.config ++ enc1 (sweepStateCode x.state) ++ enc2 x.nextIndex ++ enc2 x.remaining
    ++ enc2 x.pass ++ encFlag x.deferredPhase ++ encLine (x.inFlight.map Prod.fst)
    ++ [((x.inFlight.map fun p => BitVec.ofNat 8 (linePhaseCode p.2))).getD (Config.absentPhase frame)] ++ encFlag x.suspendPending ++ encFlag (paceRuns x)
    ++ enc1 x.deferred.length ++ encDeferred x.deferred ++ (sweepCountList x.counts).flatMap encCount

/-- The action octet of a path entry (R180). -/
def actionCode : PathAction → Nat
  | .idle => 0
  | .pass => 1
  | .invert => 2
  | .gain _ => 3
  | .mix => 4
  | .tone _ => 5

/-- The parameter octet of a path entry; the manual gives it no value for an action without a parameter. -/
def encParameter (frame : Nat) : PathAction → List Octet
  | .gain n => encSigned n
  | .tone k => enc1 k.val
  | .idle => [Config.unreadParameter frame]
  | .pass => [Config.unreadParameter frame]
  | .invert => [Config.unreadParameter frame]
  | .mix => [Config.unreadParameter frame]

/-- The data of a SET PATH reply. -/
def encPath (frame : Nat) (e : PathEntry) : List Octet :=
  enc1 (actionCode e.action) ++ encParameter frame e.action ++ enc1 (e.primary.getD 0) ++ enc1 (e.secondary.getD 0)

/-- The data of a reply. `frame` is the model's counter, the argument of its free octets. DESIGN CHOICE: the number of tickets that
REPAIRED KEY moved takes one octet (log entry 35). -/
def encReplyData (frame : Nat) : ReplyData → List Octet
  | .empty => []
  | .seize w p b => encFlag w ++ enc1 (preemptionCode p) ++ encUnit (b.map Fin.val)
  | .mode b m ms other => enc1 b.val ++ enc1 (modeCode m) ++ enc2 ms ++ encUnit (other.map Fin.val)
  | .moved n => enc1 n
  | .ticket t => encTicket t
  | .fullTicket t i => encFullTicket t i
  | .sweep d x => encSweep frame d x
  | .path e => encPath frame e
  | .loaded t n => [t] ++ enc2 n
  | .table t a n es => [t] ++ enc2 a ++ enc2 n ++ es
  | .counters g cs => [g] ++ cs.flatMap encCount
  | .clock n => enc4 n

/-- The kind octet of a notice, 64 to 77 (R180). -/
def noticeKind : NoticeBody → Nat
  | .busHeld .. => 64
  | .seizeFailed .. => 65
  | .busReleased .. => 66
  | .conditionChanged .. => 67
  | .busFaulted .. => 68
  | .headFaulted .. => 69
  | .measurementResult .. => 70
  | .ticket .. => 71
  | .ticketClosed .. => 72
  | .retestInconclusive .. => 73
  | .sweepStopped .. => 74
  | .sweepDone .. => 75
  | .highwayLost => 76
  | .highwayRestored => 77

/-- A step result in a MEASUREMENT_RESULT notice. -/
def encResult (r : StepResult) : List Octet :=
  enc1 r.index ++ enc1 (kindCode r.kind) ++ enc1 (legsCode r.legs) ++ encValue r.value ++ encQuals r.quals

/-- The fields of a notice. -/
def encNoticeFields : NoticeBody → List Octet
  | .busHeld b l h c busy =>
    enc1 b.val ++ enc2 l ++ encHolder (some h) ++ enc1 (condCode c) ++ encFlag busy
  | .seizeFailed b l h r => enc1 b.val ++ enc2 l ++ encHolder (some h) ++ enc1 (reasonCode r)
  | .busReleased b l h r => enc1 b.val ++ enc2 l ++ encHolder h ++ enc1 (reasonCode r)
  | .conditionChanged b l h c c' busy =>
    enc1 b.val ++ enc2 l ++ encHolder (some h) ++ enc1 (condCode c) ++ enc1 (condCode c') ++ encFlag busy
  | .busFaulted b l r stuck => enc1 b.val ++ encLine l ++ enc1 (reasonCode r) ++ encFlag stuck
  | .headFaulted h r b w e =>
    enc1 h.val ++ enc1 (reasonCode r) ++ encUnit (b.map Fin.val) ++ encWord (headCommandWord w) ++ encWord e
  | .measurementResult r =>
    enc2 r.line ++ enc1 r.bus.val ++ enc1 r.program ++ encHolder (some r.holder) ++ enc1 (reasonCode r.outcome)
      ++ enc1 r.results.length ++ r.results.flatMap encResult
  | .ticket t => encTicket t
  | .ticketClosed n k x occ rc time =>
    enc2 n ++ encKind k ++ encKey k x ++ enc1 occ ++ enc1 rc ++ enc4 time
  | .retestInconclusive n k x r => enc2 n ++ encKind k ++ encKey k x ++ enc1 (reasonCode r)
  | .sweepStopped d l f p i r ph =>
    enc1 d.val ++ encLine l ++ enc1 f ++ enc2 p ++ enc2 i ++ enc2 r ++ encFlag ph
  | .sweepDone d p cs => enc1 d.val ++ enc2 p ++ (sweepCountList cs).flatMap encCount
  | .highwayLost => []
  | .highwayRestored => []

/-- The sum modulo 65,536 of octets (R180). -/
def octetSum (l : List Octet) : Word := l.foldl (fun acc o => acc + o.setWidth 16) 0

/-- A message: length, kind, tag, origin 7, body and check (R180). -/
def encMessage (kind tag : Octet) (body : List Octet) : List Octet :=
  let front := enc1 (body.length + 6) ++ [kind, tag] ++ enc1 7 ++ body
  front ++ encWord (octetSum front)

/-- The octets of a reply (R172, R180). -/
def encReply (frame : Nat) (r : Reply) : List Octet :=
  encMessage r.kind r.tag
    ([r.addressed] ++ enc1 (statusCode r.status) ++ if r.status = .ok then encReplyData frame r.data else [])

/-- The octets of a notice (R173, R180). -/
def encNotice (n : Notice) : List Octet :=
  encMessage (BitVec.ofNat 8 (noticeKind n.body)) 0 (enc1 n.addressed ++ enc4 n.clock ++ encNoticeFields n.body)

end Sys2Proof.Machine
end

