-- ==== Sys2Proof/Machine/Sweep.lean ====
section
/-! DEFINITION. Internal requests entering the access wait queue (R46, R47), and the sweep engine's descriptors: taking
lines, deferring them, counting how they end, and the end of a pass (R159 to R165). No definition here takes a grant
pass; its callers do, as R47 and R52 place it. -/

namespace Sys2Proof.Machine

/-! ### Entering the access wait queue -/

/-- Makes an entry of the access wait queue (R46, R47): arrival order from the arrival counter, waiting-for-line set if
the line is claimed at that moment, QUEUE_PEAK raised if the queue now exceeds it. -/
def enterRequest (requester : Holder) (cls line : Nat) (s : State) : State :=
  { s with
    queue := s.queue ++
      [{ requester := requester, cls := cls, line := line, arrival := s.arrivals, waiting := (claimOf line s).isSome }]
    arrivals := advance s.arrivals
    queuePeak := max s.queuePeak (s.queue.length + 1) }

/-- Removes the entries that satisfy `p` without a grant (R53, R54). -/
def removeRequests (p : WaitEntry → Bool) (s : State) : State := s.setQueue (s.queue.filter fun e => !p e)

/-! ### Descriptors -/

/-- Counts under a descriptor's counts. -/
def countSweep (d : SweepNo) (f : SweepCounts → SweepCounts) (s : State) : State :=
  s.setSweep d { s.sweeps[d] with counts := f s.sweeps[d].counts }

/-- The pace allows the next line: the timer is stopped or has expired (R156, R159, R164). -/
def paceAllows (x : Descriptor) : Bool :=
  match x.pace with
  | .stopped => true
  | .running n limit => decide (limit ≤ n)
  | .expired => true

/-- A line is suppressed: the map places it in a cable that has a CABLE ticket of any code and state (R153). -/
def suppressed (line : Nat) (s : State) : Bool :=
  match cableOf line s with
  | none => false
  | some c => s.tickets.any fun t => t.subject == .cable c.val

/-- A LINE ticket of any code stands for the line, or the line is a member of any CABLE ticket's list (R160). -/
def ticketed (line : Nat) (s : State) : Bool :=
  s.tickets.any fun t => t.isOnLine line || t.members.any fun m => m.line == line

/-- Defers a line by its phase (R161). -/
def deferLine (d : SweepNo) (line : Nat) (phase : LinePhase) (s : State) : State :=
  let x := s.sweeps[d]
  match phase with
  | .main =>
    if x.deferred.length < Config.deferredCapacity ∧ line ∉ x.deferred then
      s.setSweep d { x with
        deferred := x.deferred ++ [line], counts := { x.counts with deferred := satInc x.counts.deferred } }
    else countSweep d (fun c => { c with unreachable := satInc c.unreachable }) s
  | .deferred => countSweep d (fun c => { c with unreachable := satInc c.unreachable }) s

/-- Puts a taken line's class-3 request into the access wait queue (R160): the line is in flight, the descriptor ACTIVE,
its pace timer started from 0 toward the pace of the configuration in use (R154, R164) and its request-made flag set (R155). -/
def requestLine (d : SweepNo) (line : Nat) (phase : LinePhase) (s : State) : State :=
  let x := s.sweeps[d]
  enterRequest (.sweep d) 3 line
    (s.setSweep d { x with
      state := .active, inFlight := some (line, phase), pace := .running 0 (paceLimit x)
      requestMade := true })

/-- The tests a taken line meets, in order (R160). -/
def takeLine (d : SweepNo) (line : Nat) (phase : LinePhase) (s : State) : State :=
  if classOf line s = 15 then countSweep d (fun c => { c with excluded := satInc c.excluded }) s
  else if ticketed line s then countSweep d (fun c => { c with skippedTicketed := satInc c.skippedTicketed }) s
  else if suppressed line s then countSweep d (fun c => { c with suppressed := satInc c.suppressed }) s
  else if (claimOf line s).isSome then deferLine d line phase s
  else requestLine d line phase s

/-- The end of a pass (R165). -/
def endPass (d : SweepNo) (c : SweepConfig) (s : State) : State :=
  let x := s.sweeps[d]
  if c.autoReload then
    let pass := min (x.pass + 1) 65535
    let x' := { x with
      pass := pass, nextIndex := 0, remaining := c.count, deferredPhase := false, requestMade := false }
    if x.requestMade then s.setSweep d x'
    else
      pushNotice 6 (.sweepStopped d none 0 pass 0 c.count false) (s.setSweep d { x' with state := .suspended })
  else pushNotice 6 (.sweepDone d x.pass x.counts) (s.setSweep d { x with state := .done })

/-- Runs an ARMED descriptor's steps (R159) until it waits for its pace, has a line in flight, or has left ARMED. Each
round takes a line, enters the deferred phase or ends a pass, so `fuel` bounds the rounds of one event. -/
def sweepRun (d : SweepNo) : Nat → State → State
  | 0, s => s
  | fuel + 1, s =>
    let x := s.sweeps[d]
    match x.config with
    | none => s
    | some c =>
      if x.state ≠ .armed then s
      else if x.deferredPhase = false then
        if 0 < x.remaining then
          if paceAllows x then
            sweepRun d fuel
              (takeLine d (c.first + x.nextIndex * c.stride) .main
                (s.setSweep d { x with nextIndex := x.nextIndex + 1, remaining := x.remaining - 1 }))
          else s
        else if x.deferred = [] then sweepRun d fuel (endPass d c s)
        else sweepRun d fuel (s.setSweep d { x with deferredPhase := true })
      else
        match x.deferred with
        | [] => sweepRun d fuel (endPass d c s)
        | line :: rest =>
          if paceAllows x then sweepRun d fuel (takeLine d line .deferred (s.setSweep d { x with deferred := rest }))
          else s

/-- Rounds that one event can take at most: what is left of the pass, one reloaded pass, and their deferred lines and
ends; a second reload cannot follow, since it asks for a request (R165). -/
def sweepFuel (x : Descriptor) : Nat :=
  x.remaining + x.deferred.length + (x.config.map SweepConfig.count).getD 0 + 64

/-- The descriptor takes its next step (R159). -/
def sweepStep (d : SweepNo) (s : State) : State := sweepRun d (sweepFuel s.sweeps[d]) s

/-- How a line in flight ends (R162). -/
inductive LineEnd where
  | deferred
  | noLine
  | headFault
  /-- COMPLETE, with the number of findings of its evaluation; `none` if it was not evaluated. -/
  | complete (findings : Option Nat)
  deriving DecidableEq, Repr

/-- The findings of a line's end (R118, R163). -/
def LineEnd.findings : LineEnd → Nat
  | .complete f => f.getD 0
  | _ => 0

/-- Counts or defers a line that has ended (R162). -/
def countLineEnd (d : SweepNo) (line : Nat) (phase : LinePhase) (e : LineEnd) (s : State) : State :=
  match e with
  | .deferred => deferLine d line phase s
  | .noLine => countSweep d (fun c => { c with noLine := satInc c.noLine }) s
  | .headFault => countSweep d (fun c => { c with headFault := satInc c.headFault }) s
  | .complete f =>
    countSweep d
      (fun c => { c with tested := satInc c.tested, faultsFound := satAdd c.faultsFound (f.getD 0) }) s

/-- The descriptor leaves ACTIVE after its line has been counted (R163). -/
def leaveActive (d : SweepNo) (line : Nat) (e : LineEnd) (s : State) : State :=
  let x := s.sweeps[d]
  if (x.config.map SweepConfig.stopOnFault).getD false ∧ 0 < e.findings then
    pushNotice 6 (.sweepStopped d (some line) e.findings x.pass x.nextIndex x.remaining x.deferredPhase)
      (s.setSweep d { x with state := .suspended, suspendPending := false })
  else if x.suspendPending then s.setSweep d { x with state := .suspended, suspendPending := false }
  else sweepStep d (s.setSweep d { x with state := .armed })

/-- A report ends the line in flight of a descriptor (R162, R163); one that finds no line in flight is not acted on.
`locked` says that the line's bus held LOCKED before the event that ended its measurement (R163). -/
def sweepLineEnded (d : SweepNo) (e : LineEnd) (locked : Bool) (s : State) : State :=
  let x := s.sweeps[d]
  match x.inFlight with
  | none => s
  | some (line, phase) =>
    let s1 := countLineEnd d line phase e (s.setSweep d { x with inFlight := none })
    leaveActive d line e
      (if locked then countSweep d (fun c => { c with lockedLines := satInc c.lockedLines }) s1 else s1)

end Sys2Proof.Machine
end

