-- ==== Sys2Proof/Machine/Arbiter.lean ====
section
/-! DEFINITION. The access arbiter: eligibility, the grant order and the grant pass (R50 to R52), and what the access
controller does with a grant (R27). -/

namespace Sys2Proof.Machine

/-- A waiting entry is eligible while its line is unclaimed, and a SWEEP entry only while the sweep-held buses number
fewer than the quota (R50). -/
def eligible (s : State) (e : WaitEntry) : Bool :=
  (claimOf e.line s).isNone && (!isSweep e.requester || decide (sweepHeld s < s.site.quota))

/-- The place of an entry in the ring, counted from the rotation pointer; only class 1 uses the ring (R51). -/
def ringPlace (s : State) (e : WaitEntry) : Nat :=
  match e.requester with
  | .origin o => if e.cls = 1 then (o.val + 7 - s.rotation.val) % 7 else 0
  | _ => 0

/-- Whether one entry is granted before another (R51): by class, then by the ring in class 1, then the oldest, by the arrival
counter's distance back to each. -/
def beats (s : State) (x y : WaitEntry) : Bool :=
  decide (x.cls < y.cls) ||
    (decide (x.cls = y.cls) &&
      (decide (ringPlace s x < ringPlace s y) ||
        (decide (ringPlace s x = ringPlace s y) && decide (since s.arrivals y.arrival < since s.arrivals x.arrival))))

/-- The best of a list of entries. -/
def best (s : State) : List WaitEntry → Option WaitEntry
  | [] => none
  | e :: rest =>
    match best s rest with
    | none => some e
    | some f => if beats s f e then some f else some e

/-- The winner among the eligible entries (R51). -/
def winner (s : State) : Option WaitEntry := best s (s.queue.filter (eligible s))

/-- The rotation pointer after a grant: the position after the winner's origin, for a class-1 winner only (R51). -/
def rotate (e : WaitEntry) (pointer : Origin) : Origin :=
  match e.requester with
  | .origin o => if e.cls = 1 then ⟨(o.val + 1) % 7, Nat.mod_lt _ (by decide)⟩ else pointer
  | _ => pointer

/-- The record of a bus that takes a grant (R27). -/
def Bus.granted (x : Bus) (e : WaitEntry) : Bus :=
  { x with
    state := .seizing
    line := some e.line
    holder := some e.requester
    mode := none
    busy := false
    accepted := .none
    candidate := none
    stable := 0
    order := .make e.line
    timer := some 0
    lateWatch := false
    cause := none }

/-- The access controller takes a grant (R27). -/
def takeGrant (b : BusNo) (e : WaitEntry) (s : State) : State :=
  countBus b (fun c => { c with grants := satInc c.grants })
    (((addClaim e.line b s).setBus b (s.buses[b].granted e)).setPathEntry (busOut b) idleEntry)

/-- Removes one entry from the queue. -/
def removeEntry (e : WaitEntry) (s : State) : State := s.setQueue (s.queue.erase e)

/-- The descriptors with a SWEEP entry waiting for a line. -/
def sweepsWaitingFor (line : Nat) (s : State) : List SweepNo :=
  s.queue.filterMap fun e =>
    match e.requester with
    | .sweep d => if e.line = line then some d else none
    | _ => none

/-- Removes every SWEEP entry waiting for a line just claimed and tells its descriptor that the line is deferred (R52, R166).
DESIGN CHOICE: where several are removed, all leave first and their descriptors are told oldest entry first (log entry 32). -/
def deferRivals (line : Nat) (s : State) : State :=
  (sweepsWaitingFor line s).foldl (fun t d => sweepLineEnded d .deferred false t)
    (removeRequests (fun e => isSweep e.requester && e.line == line) s)

/-- Gives a free bus to the winner: steps 3 to 6 of the grant pass (R52). DESIGN CHOICE: the stamp is the grant counter's value
before the grant raises it (log entry 40). -/
def grant (b : BusNo) (e : WaitEntry) (s : State) : State :=
  let s1 := removeEntry e s
  let s2 := { s1 with
    rotation := rotate e s.rotation
    stamps := s.stamps.set b (some s.grantCount)
    grantCount := (s.grantCount + 1) % 4294967296 }
  deferRivals e.line (takeGrant b e s2)

/-- The steps of a grant pass, at most one for each bus. -/
def grantSteps : Nat → State → State
  | 0, s => s
  | fuel + 1, s =>
    match freeBus s, winner s with
    | some b, some e => grantSteps fuel (grant b e s)
    | _, _ => s

/-- The grant pass (R52). Each step takes a bus from FREE, so eight steps exhaust the buses. -/
def grantPass (s : State) : State := grantSteps 8 s

/-- A claim is removed: the waiting-for-line flags of its line are cleared (R52). -/
def clearWaiting (line : Option Nat) (s : State) : State :=
  s.setQueue (s.queue.map fun e => if some e.line = line then { e with waiting := false } else e)

/-- A report of the access controller, the arbiter or the head controller ends a descriptor's line outside a grant pass:
the request the descriptor may make in the same event is followed by a grant pass (R47). -/
def sweepReport (d : SweepNo) (e : LineEnd) (locked : Bool) (s : State) : State :=
  grantPass (sweepLineEnded d e locked s)

end Sys2Proof.Machine
end

