-- ==== Sys2Proof/Machine/Limits.lean ====
section
/-! DEFINITION. The limit evaluator: the assessment of a result record (R112 to R118). -/

namespace Sys2Proof.Machine

/-- The fault codes in code order (R111). -/
def allCodes : List FaultCode :=
  [.leakTR, .leakTG, .leakRG, .shortTR, .batteryT, .batteryR, .humT, .humR, .openLoop, .excessCap]

/-- The kind of step that feeds a code (R111). -/
def codeKind : FaultCode → Kind
  | .leakTR => .res
  | .leakTG => .res
  | .leakRG => .res
  | .shortTR => .res
  | .batteryT => .fdc
  | .batteryR => .fdc
  | .humT => .fac
  | .humR => .fac
  | .openLoop => .cap
  | .excessCap => .cap

/-- The legs of the step that feeds a code (R111). -/
def codeLegs : FaultCode → Legs
  | .leakTR => .tr
  | .leakTG => .tg
  | .leakRG => .rg
  | .shortTR => .tr
  | .batteryT => .tg
  | .batteryR => .rg
  | .humT => .tg
  | .humR => .rg
  | .openLoop => .tr
  | .excessCap => .tr

/-- The test of a code: a fault when it holds (R111). -/
def codeTest (x : FaultCode) (value : Int) (threshold : Nat) : Bool :=
  match x with
  | .leakTR => decide (value < threshold)
  | .leakTG => decide (value < threshold)
  | .leakRG => decide (value < threshold)
  | .shortTR => decide (value < threshold)
  | .batteryT => decide (threshold < value.natAbs)
  | .batteryR => decide (threshold < value.natAbs)
  | .humT => decide ((threshold : Int) < value)
  | .humR => decide ((threshold : Int) < value)
  | .openLoop => decide (value < threshold)
  | .excessCap => decide ((threshold : Int) < value)

/-- The place of a code in code order. -/
def codeIndex : FaultCode → Fin 10
  | .leakTR => 0
  | .leakTG => 1
  | .leakRG => 2
  | .shortTR => 3
  | .batteryT => 4
  | .batteryR => 5
  | .humT => 6
  | .humR => 7
  | .openLoop => 8
  | .excessCap => 9

/-- The limit table entry of a class and code (R109). -/
def limitOf (cls : Nat) (x : FaultCode) (s : State) : LimitEntry :=
  s.limits.toList.getD (cls * 10 + (codeIndex x).val) {}

/-- The assessments of a code (R114). -/
inductive Assessment where
  | found | clear | notAssessed
  deriving DecidableEq, Repr

/-- The step result that feeds a code, if the record holds one (R111, R114). -/
def feedingResult (x : FaultCode) (results : List StepResult) : Option StepResult :=
  results.find? fun r => r.kind == codeKind x && r.legs == codeLegs x

/-- The assessment of one code on a line of a class (R113, R114). -/
def assess (cls : Nat) (x : FaultCode) (results : List StepResult) (s : State) : Assessment :=
  if cls = 15 then .notAssessed
  else
    match feedingResult x results with
    | none => .notAssessed
    | some r =>
      match r.value with
      | none => .notAssessed
      | some v =>
        let e := limitOf cls x s
        if e.enabled = false then .clear
        else if codeTest x v e.threshold then .found
        else .clear

/-- The finding a FOUND assessment forms (R116). -/
def findingOf (cls : Nat) (x : FaultCode) (r : Record) (s : State) : Option Finding :=
  match assess cls x r.results s, feedingResult x r.results with
  | .found, some res =>
    some { line := r.line, code := x, value := res.value.getD 0, quals := res.quals, program := r.program,
           severity := (limitOf cls x s).severity, time := s.clock }
  | _, _ => none

/-- The outcome of an evaluation (R118): the findings in code order and the assessment of each code. -/
structure Evaluation where
  findings : List Finding
  assessments : List (FaultCode × Assessment)
  deriving DecidableEq, Repr

/-- The evaluation of a record: class and limits as the tables stand (R113, R114). -/
def evaluate (r : Record) (s : State) : Evaluation :=
  let cls := classOf r.line s
  { findings := allCodes.filterMap fun x => findingOf cls x r s
    assessments := allCodes.map fun x => (x, assess cls x r.results s) }

/-- The assessment an evaluation made of a code. -/
def Evaluation.of (e : Evaluation) (x : FaultCode) : Assessment :=
  ((e.assessments.find? fun p => p.1 == x).map Prod.snd).getD .notAssessed

end Sys2Proof.Machine
end

