-- ==== Sys2Proof/Machine/Tickets.lean ====
section
/-! DEFINITION. The ticket table and the cable correlator: numbers, severity, placing findings, eviction, forming CABLE
tickets and the member lists (R120 to R127, R142 to R149), and issue (R128 to R130). -/

namespace Sys2Proof.Machine

/-! ### Numbers and orders -/

/-- The number after a number, from 65,535 to 1 (R122). -/
def nextNumber (n : Nat) : Nat := if n < 65535 then n + 1 else 1

/-- Advances past the numbers in use; at most 128 are in use, so 129 tries find a free one (R122). -/
def freeNumber (used : List Nat) : Nat → Nat → Nat
  | 0, n => n
  | fuel + 1, n => if n ∈ used then freeNumber used fuel (nextNumber n) else n

/-- The number a new ticket is given (R122). -/
def numberFor (s : State) : Nat :=
  freeNumber (s.tickets.map Ticket.number) (s.tickets.length + 1) s.numberCounter

/-- Enters a new ticket with the number and raise order of R122. -/
def enterTicket (make : Nat → Nat → Ticket) (s : State) : State :=
  let n := numberFor s
  { s with
    tickets := s.tickets ++ [make n s.raiseCounter]
    numberCounter := nextNumber n
    raiseCounter := advance s.raiseCounter }

/-- How many tickets have been raised after a ticket: raise orders compare as the raise counter's distance (R122). -/
def raisedSince (s : State) (t : Ticket) : Nat := since s.raiseCounter t.raiseOrder

/-- Puts a ticket in its place among tickets in ascending raise order. -/
def insertByRaise (s : State) (t : Ticket) : List Ticket → List Ticket
  | [] => [t]
  | u :: rest => if raisedSince s u < raisedSince s t then t :: u :: rest else u :: insertByRaise s t rest

/-- Tickets in ascending raise order. -/
def byRaise (s : State) (l : List Ticket) : List Ticket := l.foldr (insertByRaise s) []

/-- The severity formed from a base severity and a retest count (R127). -/
def severityOf (base retests : Nat) : Nat := base - retests / 3

/-- A ticket with its severity formed again. -/
def Ticket.reform (t : Ticket) : Ticket := { t with severity := severityOf t.baseSeverity t.retestCount }

/-- A retest count or an occurrence count raised by one, saturating at 255 (R121). -/
def inc255 (n : Nat) : Nat := min (n + 1) 255

/-- A ticket that takes a finding's severity as its base severity, if that is more severe (R124, R127, R148). -/
def Ticket.takeSeverity (severity : Nat) (t : Ticket) : Ticket :=
  if severity < t.baseSeverity then { t with baseSeverity := severity }.reform else t

/-- What a finding does to the fields common to a LINE ticket's occurrence (R124) and a CABLE ticket's update (R148). -/
def Ticket.occur (f : Finding) (t : Ticket) : Ticket :=
  { t with
    occurrences := inc255 t.occurrences
    lastSeen := f.time
    lastValue := f.value
    lastQuals := f.quals
    program := f.program }.takeSeverity f.severity

/-! ### Links (R149) -/

/-- A linked LINE ticket leaves the table: the linked count of its CABLE ticket falls by one. -/
def dropLink (t : Ticket) (s : State) : State :=
  match t.linked with
  | none => s
  | some c =>
    s.setTickets (s.tickets.map fun u =>
      if u.subject = .cable c ∧ u.code = t.code then { u with linkedCount := u.linkedCount - 1 } else u)

/-- A CABLE ticket leaves the table: the LINE tickets linked to it stand alone. -/
def freeLinks (cable : Nat) (x : FaultCode) (s : State) : State :=
  s.setTickets (s.tickets.map fun u =>
    if u.linked = some cable ∧ u.code = x then { u with linked := none } else u)

/-- What a ticket's leaving does to its links, whichever kind it is. -/
def unlink (t : Ticket) (s : State) : State :=
  match t.subject with
  | .line _ => dropLink t s
  | .cable c => freeLinks c t.code s

/-! ### Member lists (R147, R148) -/

/-- The member a merged ticket or a finding makes. -/
def memberOf (line : Nat) (value : Int) (quals : Quals) (program lastSeen : Nat) : Member :=
  { line := line, value := value, quals := quals, program := program, lastSeen := lastSeen, mark := .none }

/-- The place of a line in a member list. -/
def placeOf (line : Nat) (ms : List Member) : Option Nat := ms.findIdx? fun m => m.line == line

/-- Removes the member at a place; the retest position keeps its member, or comes to stand at the one that followed the
member removed (R151). -/
def Ticket.removeMember (i : Nat) (t : Ticket) : Ticket :=
  { t with
    members := t.members.eraseIdx i
    position := t.position.map fun p => if i < p then p - 1 else p }

/-- Releases line L from every CABLE ticket of code x (R144 step 1, R147), and marks a retest of that member in flight as
released (R151). -/
def releaseMembers (line : Nat) (x : FaultCode) (s : State) : State :=
  let holders := s.tickets.filter fun t => t.isCable && t.code == x && t.members.any fun m => m.line == line
  let s1 := s.setTickets (s.tickets.map fun t =>
    if t.isCable && t.code == x then
      match placeOf line t.members with
      | some i => t.removeMember i
      | none => t
    else t)
  s1.setInFlight (s1.inFlight.map fun r =>
    if r.line = line ∧ (holders.any fun t => t.number == r.ticket) then { r with released := true } else r)

/-- A handed-over finding updates its CABLE ticket and member list (R148). -/
def memberUpdate (number : Nat) (f : Finding) (s : State) : State :=
  match ticketByNumber number s with
  | none => s
  | some t =>
    let m := memberOf f.line f.value f.quals f.program f.time
    match placeOf f.line t.members with
    | some i =>
      countTickets (fun c => { c with membersAdded := satInc c.membersAdded })
        (updTicket number
          (fun u => { u with members := u.members.modify i fun old => { m with mark := old.mark } }.occur f) s)
    | none =>
      if t.members.length < Config.memberCapacity then
        countTickets (fun c => { c with membersAdded := satInc c.membersAdded })
          (updTicket number (fun u => { u with members := u.members ++ [m] }.occur f) s)
      else
        countTickets (fun c => { c with memberOverflow := satInc c.memberOverflow })
          (updTicket number (fun u => { u with overflow := u.overflow + 1 }.occur f) s)

/-! ### Forming a CABLE ticket (R144 to R146) -/

/-- A ticket counts toward the correlation test made as a ticket of code x is raised in cable c (R144). -/
def counted (c : Fin 256) (x : FaultCode) (firstSeen : Nat) (s : State) (t : Ticket) : Bool :=
  match t.subject with
  | .cable _ => false
  | .line l =>
    t.code == x && cableOf l s == some c && t.linked.isNone && decide (firstSeen - t.lastSeen ≤ s.site.window)

/-- The most severe severity among tickets (R145). -/
def mostSevere (l : List Ticket) : Nat := l.foldl (fun acc t => min acc t.severity) 3

/-- The earliest first seen of a list, from a start. -/
def earliest (l : List Ticket) (start : Nat) : Nat := l.foldl (fun acc t => min acc t.firstSeen) start

/-- The latest last seen of a list, from a start. -/
def latest (l : List Ticket) (start : Nat) : Nat := l.foldl (fun acc t => max acc t.lastSeen) start

/-- The member a merged ticket becomes (R147). -/
def memberOfTicket (t : Ticket) : Member :=
  memberOf (match t.subject with | .line l => l | .cable c => c) t.lastValue t.lastQuals t.program t.lastSeen

/-- The counted tickets that are merged (R146): the new ticket, with the other RAISED ones up to 63, earliest raised
first. -/
def mergedOf (s : State) (new : Ticket) (l : List Ticket) : List Ticket :=
  let others := byRaise s (l.filter fun t => t.state == .raised && t.number != new.number)
  byRaise s (new :: others.take (Config.memberCapacity - 1))

/-- The CABLE ticket formed (R145). -/
def formedTicket (c : Fin 256) (new : Ticket) (all merged : List Ticket) (linked number raiseOrder : Nat) : Ticket :=
  let severity := mostSevere all
  { number := number
    subject := .cable c.val
    code := new.code
    linked := none
    baseSeverity := severity
    severity := severity
    state := .raised
    occurrences := min ((merged.map Ticket.occurrences).sum) 255
    firstSeen := earliest merged new.firstSeen
    lastSeen := latest merged new.lastSeen
    lastValue := new.lastValue
    lastQuals := new.lastQuals
    program := new.program
    retestCount := 0
    raiseOrder := raiseOrder
    members := merged.map memberOfTicket
    overflow := 0
    linkedCount := linked
    position := none
    firstReason := none }

/-- Forms the CABLE ticket of cable c from the counted tickets (R145, R146): the merged tickets leave the table, the rest
are linked. -/
def formCable (c : Fin 256) (new : Ticket) (all : List Ticket) (s : State) : State :=
  let merged := mergedOf s new all
  let gone := merged.map Ticket.number
  let linked := (all.map Ticket.number).filter fun n => n ∉ gone
  let s1 := s.setTickets ((s.tickets.filter fun t => t.number ∉ gone).map fun t =>
    if t.number ∈ linked then { t with linked := some c.val } else t)
  enterTicket (fun n r => formedTicket c new all merged linked.length n r) s1

/-- The number of CABLE tickets in the table. -/
def cableTickets (s : State) : Nat := (s.tickets.filter Ticket.isCable).length

/-- The correlator is told of a new LINE ticket (R144). -/
def correlate (line : Nat) (new : Ticket) (s : State) : State :=
  let s1 := releaseMembers line new.code s
  match cableOf line s1 with
  | none => s1
  | some c =>
    match s1.cables[c] with
    | none => s1
    | some r =>
      let all := s1.tickets.filter (counted c new.code new.firstSeen s1)
      if r.k ≠ 0 ∧ (ticketByKey (.cable c.val) new.code s1).isNone ∧ cableTickets s1 < Config.cableCapacity
          ∧ r.k ≤ all.length then
        formCable c new all s1
      else s1

/-! ### Placing a finding (R123 to R126) -/

/-- The LINE ticket a finding raises (R125). -/
def lineTicket (f : Finding) (number raiseOrder : Nat) : Ticket :=
  { number := number
    subject := .line f.line
    code := f.code
    linked := none
    baseSeverity := f.severity
    severity := f.severity
    state := .raised
    occurrences := 1
    firstSeen := f.time
    lastSeen := f.time
    lastValue := f.value
    lastQuals := f.quals
    program := f.program
    retestCount := 0
    raiseOrder := raiseOrder }

/-- Raises a new LINE ticket in a table with room, and tells the correlator (R125). -/
def raiseTicket (f : Finding) (s : State) : State :=
  let new := lineTicket f (numberFor s) s.raiseCounter
  let s1 := enterTicket (lineTicket f) s
  correlate f.line new
    (countTickets
      (fun c => { c with raised := satInc c.raised, peakOccupancy := max c.peakOccupancy s1.tickets.length }) s1)

/-- Whether a candidate for eviction goes before another: less severe, then later raised (R126). -/
def evictedBefore (s : State) (t u : Ticket) : Bool :=
  decide (u.severity < t.severity) ||
    (decide (t.severity = u.severity) && decide (raisedSince s t < raisedSince s u))

/-- The first of a list in the order of R126. -/
def evictFrom (s : State) : List Ticket → Option Ticket
  | [] => none
  | t :: rest =>
    match evictFrom s rest with
    | none => some t
    | some u => if evictedBefore s u t then some u else some t

/-- The ticket a finding of a severity evicts from a full table (R126). -/
def evictee (severity : Nat) (s : State) : Option Ticket :=
  evictFrom s (s.tickets.filter fun t => t.isLine && t.state == .raised && decide (severity < t.severity))

/-- Raises a new LINE ticket after room has been found for it, or drops the finding (R125, R126). -/
def raiseWithRoom (f : Finding) (s : State) : State :=
  if s.tickets.length < Config.ticketCapacity then raiseTicket f s
  else
    match evictee f.severity s with
    | none => countTickets (fun c => { c with dropped := satInc c.dropped }) s
    | some t =>
      raiseTicket f
        (dropLink t
          (countTickets (fun c => { c with evicted := satInc c.evicted }) (removeTicket t.number s)))

/-- Places a finding by the first step of R123 that applies. -/
def placeFinding (f : Finding) (s : State) : State :=
  match ticketByKey (.line f.line) f.code s with
  | some t =>
    countTickets (fun c => { c with occurrences := satInc c.occurrences }) (updTicket t.number (Ticket.occur f) s)
  | none =>
    match (cableOf f.line s).bind fun c => ticketByKey (.cable c.val) f.code s with
    | some t => memberUpdate t.number f s
    | none => raiseWithRoom f s

/-- Hands one finding to the ticket unit (R117). -/
def handFinding (s : State) (f : Finding) : State :=
  placeFinding f (countTickets (fun c => { c with findings := satInc c.findings }) s)

/-- Hands the findings of an evaluation, in code order (R117). -/
def handFindings (l : List Finding) (s : State) : State := l.foldl handFinding s

/-! ### Issue (R128 to R130) -/

/-- A severity is named by the issue mask (R128, R183). -/
def masked (severity : Nat) (s : State) : Bool := s.site.mask.getLsbD severity

/-- The pending tickets (R128). -/
def pendingTickets (s : State) : List Ticket :=
  s.tickets.filter fun t => t.state == .raised && !masked t.severity s

/-- Whether a ticket comes before another in pending order: by severity, then by raise order (R128). -/
def pendingBefore (s : State) (t u : Ticket) : Bool :=
  decide (t.severity < u.severity) ||
    (decide (t.severity = u.severity) && decide (raisedSince s u < raisedSince s t))

/-- The first of a list in pending order. -/
def firstOf (s : State) : List Ticket → Option Ticket
  | [] => none
  | t :: rest =>
    match firstOf s rest with
    | none => some t
    | some u => if pendingBefore s u t then some u else some t

/-- The first pending ticket (R128). -/
def firstPending (s : State) : Option Ticket := firstOf s (pendingTickets s)

/-- The window: the number of tickets ISSUED (R128). -/
def issueWindow (s : State) : Nat := (s.tickets.filter fun t => t.state == .issued).length

/-- Whether a first pending ticket may be issued (R128). -/
def mayIssue (t : Ticket) (s : State) : Bool :=
  if t.severity = 0 then decide (issueWindow s < 10) else decide (issueWindow s < 8)

/-- The ticket becomes ISSUED. -/
def issue (t : Ticket) (s : State) : State := updTicket t.number (fun u => { u with state := .issued }) s

end Sys2Proof.Machine
end

