-- ==== Sys2Proof/Machine/Retests.lean ====
section
/-! DEFINITION. The retest scheduler: submitting repaired tickets, judging retests, and leading a CABLE ticket through its
member list (R135 to R139, R150, R151). -/

namespace Sys2Proof.Machine

/-- A judgement of a retest (R136). -/
inductive Judgement where
  | pass
  | fail
  | inconclusive (reason : Reason)
  deriving DecidableEq, Repr

/-- Puts a retest request into the access wait queue, followed by a grant pass (R47, R135, R150). -/
def requestRetest (number line : Nat) (s : State) : State := grantPass (enterRequest (.retest number) 2 line s)

/-- Frees the retest place of a ticket (R135, R136). -/
def freePlace (number : Nat) (s : State) : State := s.setInFlight (s.inFlight.filter fun r => r.ticket != number)

/-- Closes a ticket (R137, R151). -/
def closeTicket (t : Ticket) (s : State) : State :=
  unlink t
    (countTickets (fun c => { c with closed := satInc c.closed })
      (pushNotice 6 (.ticketClosed t.number t.subject t.code t.occurrences t.retestCount s.clock)
        (removeTicket t.number s)))

/-- Returns a ticket to RAISED after a failed retest (R138, R151). -/
def failTicket (t : Ticket) (s : State) : State :=
  updTicket t.number
    (fun u => { u with retestCount := inc255 u.retestCount, state := .raised, position := none }.reform) s

/-- Returns a ticket to ACCEPTED after an inconclusive retest (R139, R151). -/
def inconclusiveTicket (t : Ticket) (reason : Reason) (s : State) : State :=
  pushNotice 6 (.retestInconclusive t.number t.subject t.code reason)
    (updTicket t.number (fun u => { u with state := .accepted, position := none }) s)

/-- Settles a LINE ticket by its judgement (R137 to R139). -/
def judgeLine (t : Ticket) (j : Judgement) (s : State) : State :=
  match j with
  | .pass => closeTicket t s
  | .fail => failTicket t s
  | .inconclusive r => inconclusiveTicket t r s

/-- Settles a CABLE ticket at the end of its retest by the marks that stand (R151). A member left that did not FAIL was
INCONCLUSIVE, so a first reason stands where it is read. -/
def settleCable (t : Ticket) (s : State) : State :=
  if t.members = [] then closeTicket t s
  else if t.members.any fun m => m.mark == .failed then failTicket t s
  else inconclusiveTicket t (t.firstReason.getD .notAssessed) s

/-- The member that stands at a CABLE ticket's retest position (R150). -/
def memberAtPosition (t : Ticket) : Option Member := t.position.bind fun p => t.members[p]?

/-- Submits the member at the retest position, or ends the cable retest if none stands there (R150, R151). -/
def advanceCable (number : Nat) (s : State) : State :=
  match ticketByNumber number s with
  | none => s
  | some t =>
    match memberAtPosition t with
    | some m =>
      requestRetest number m.line
        (s.setInFlight (s.inFlight.map fun r =>
          if r.ticket = number then { ticket := number, line := m.line, released := false } else r))
    | none => settleCable t (freePlace number s)

/-- The effect of a judgement on the member at the retest position (R150, R151). -/
def Ticket.judgeMember (j : Judgement) (t : Ticket) : Ticket :=
  match t.position with
  | none => t
  | some p =>
    match j with
    | .pass => t.removeMember p
    | .fail =>
      { t with members := t.members.modify p fun m => { m with mark := .failed }, position := some (p + 1) }
    | .inconclusive r =>
      { t with
        members := t.members.modify p fun m => { m with mark := .inconclusive }
        position := some (p + 1)
        firstReason := some (t.firstReason.getD r) }

/-- A CABLE ticket as its retest begins (R135, R150). -/
def Ticket.beginRetest (t : Ticket) : Ticket :=
  { t with
    state := .retesting
    overflow := 0
    members := t.members.map fun m => { m with mark := .none }
    position := some 0
    firstReason := none }

/-- Submits one repaired ticket (R135). -/
def submitTicket (t : Ticket) (s : State) : State :=
  match t.subject with
  | .line l =>
    requestRetest t.number l
      (updTicket t.number (fun u => { u with state := .retesting })
        (s.setInFlight (s.inFlight ++ [{ ticket := t.number, line := l }])))
  | .cable _ =>
    advanceCable t.number
      (updTicket t.number Ticket.beginRetest
        (s.setInFlight (s.inFlight ++
          [{ ticket := t.number, line := ((t.members.head?).map Member.line).getD 0 }])))

/-- Submits the tickets at the head of the repair list while a retest place is free (R135). -/
def submitSteps : Nat → State → State
  | 0, s => s
  | fuel + 1, s =>
    match s.repairList with
    | [] => s
    | n :: rest =>
      if s.inFlight.length < Config.retestPlaces then
        match ticketByNumber n s with
        | none => submitSteps fuel (s.setRepairList rest)
        | some t => submitSteps fuel (submitTicket t (s.setRepairList rest))
      else s

/-- The scheduler submits what it may (R135); each step takes a ticket from the repair list. -/
def submitRetests (s : State) : State := submitSteps s.repairList.length s

/-- The retest in flight of a ticket. -/
def retestOf (number : Nat) (s : State) : Option Retest := s.inFlight.find? fun r => r.ticket == number

/-- A retest ends with a judgement (R136). A judgement for a ticket that is no longer in flight or in the table is not
acted on; that of a member released meanwhile settles nothing and the retest goes on at its position (R151). -/
def retestEnded (number : Nat) (j : Judgement) (s : State) : State :=
  match retestOf number s, ticketByNumber number s with
  | some r, some t =>
    if t.isCable then
      let s1 := if r.released then s else updTicket number (Ticket.judgeMember j) s
      let s2 := advanceCable number s1
      if (retestOf number s2).isNone then submitRetests s2 else s2
    else submitRetests (judgeLine t j (freePlace number s))
  | _, _ => s

/-- The judgement a record gives (R136): by the assessment of the ticket's code if the measurement was evaluated, else
INCONCLUSIVE with its outcome. -/
def judgementOf (code : FaultCode) (outcome : Reason) (e : Option Evaluation) : Judgement :=
  match e with
  | none => .inconclusive outcome
  | some e =>
    match e.of code with
    | .found => .fail
    | .clear => .pass
    | .notAssessed => .inconclusive .notAssessed

/-- A retest's record is handed to the scheduler (R86, R136). -/
def retestRecord (number : Nat) (outcome : Reason) (e : Option Evaluation) (s : State) : State :=
  match ticketByNumber number s with
  | none => s
  | some t => retestEnded number (judgementOf t.code outcome e) s

/-! ### What an internal holder is told -/

/-- The end a sweep line meets by the outcome of its measurement (R162). -/
def lineEndOf (outcome : Reason) (e : Option Evaluation) : LineEnd :=
  match outcome with
  | .complete => .complete (e.map fun x => x.findings.length)
  | .headFault => .headFault
  | _ => .deferred

/-- The holder is given the record of its measurement (R86); `cond` is the condition its bus held before the event that
ended the measurement (R163). -/
def tellRecord (holder : Holder) (outcome : Reason) (e : Option Evaluation) (cond : LineCond) (s : State) : State :=
  match holder with
  | .origin _ => s
  | .sweep d => sweepReport d (lineEndOf outcome e) (cond == .locked) s
  | .retest n => retestRecord n outcome e s

/-- The holder is told that its seizure failed (R29, R31, R32, R37, R38): a SEIZE_FAILED notice for an outside holder. -/
def tellSeizeFailed (b : BusNo) (line : Nat) (holder : Option Holder) (reason : Reason) (s : State) : State :=
  match holder with
  | none => s
  | some (.origin o) => pushNotice o.val (.seizeFailed b line (.origin o) reason) s
  | some (.sweep d) => sweepReport d (if reason = .noLine then .noLine else .deferred) false s
  | some (.retest n) => retestEnded n (.inconclusive reason) s

/-- An internal holder is told that its bus was preempted before a measurement (R48). -/
def tellPreempted (holder : Option Holder) (s : State) : State :=
  match holder with
  | some (.sweep d) => sweepReport d .deferred false s
  | some (.retest n) => retestEnded n (.inconclusive .abortedPreempt) s
  | _ => s

end Sys2Proof.Machine
end

