-- ==== Sys2Proof/Machine/Modes.lean ====
section
/-! DEFINITION. What a bus becomes as it enters a mode (R58) and as its release is taken (R34, R70), apart from the
measurement that may run on it. -/

namespace Sys2Proof.Machine

/-- A mode to enter, with its parameter (R57, R58). -/
inductive NewMode where
  | standby
  | talk
  /-- WARNING with its warning limit in frames. -/
  | warning (limit : Nat)
  | monitor
  | tone (k : ToneNo)
  | measure
  deriving DecidableEq, Repr

/-- The mode that a new mode names. -/
def NewMode.mode : NewMode → Mode
  | .standby => .standby
  | .talk => .talk
  | .warning _ => .warning
  | .monitor => .monitor
  | .tone _ => .tone
  | .measure => .measure

/-- Whether the operator hears the bus in a mode (R58). -/
def NewMode.isAudio : NewMode → Bool
  | .standby => false
  | .measure => false
  | _ => true

/-- The bus-out entry of a mode; the talk gain is read as the mode is entered (R58). Only a desk enters TALK. -/
def busEntry (m : NewMode) (holder : Option Holder) (s : State) : PathEntry :=
  match m with
  | .talk =>
    match holderDesk holder with
    | some d => { action := .gain s.site.gain[d], primary := some (deskSpeech d) }
    | none => idleEntry
  | .warning _ => { action := .tone 3 }
  | .tone k => { action := .tone k }
  | .standby => idleEntry
  | .monitor => idleEntry
  | .measure => idleEntry

/-- The bus record as a mode is entered: the tone number, warning timer and warning limit have values only in the modes
that name them (R57). -/
def Bus.withMode (x : Bus) (m : NewMode) : Bus :=
  { x with
    mode := some m.mode
    tone := match m with | .tone k => some k | _ => none
    warnTimer := match m with | .warning _ => some 0 | _ => none
    warnLimit := match m with | .warning l => some l | _ => none }

/-- The desk-out entry and the audio bus of a desk holder as its bus enters a mode (R58). -/
def deskEntry (b : BusNo) (m : NewMode) (holder : Option Holder) (s : State) : State :=
  if m.isAudio then
    match holderDesk holder with
    | none => s
    | some d =>
      (s.setPathEntry (deskOut d) { action := .pass, primary := some (busAudio b) }).setAudio d (some b)
  else settleDesk holder b s

/-- A bus enters a mode (R58). -/
def enterMode (b : BusNo) (m : NewMode) (s : State) : State :=
  let x := s.buses[b]
  deskEntry b m x.holder ((s.setBus b (x.withMode m)).setPathEntry (busOut b) (busEntry m x.holder s))

/-- A bus record that has left HELD: no mode and no mode fields (R57, R70). -/
def Bus.noMode (x : Bus) : Bus := { x with mode := none, tone := none, warnTimer := none, warnLimit := none }

/-- A bus record whose release is taken (R34): the timer restarted as the release timer, BREAK with the claimed line, the
cause recorded, the BUSY restriction clear; the debouncer's candidate is dropped and the accepted condition kept (R26). -/
def Bus.releasing (x : Bus) (cause : Reason) : Bus :=
  { x.noMode with
    state := .releasing
    order := .brk (x.line.getD 0)
    timer := some 0
    cause := some cause
    busy := false
    candidate := none
    stable := 0 }

/-- A release is taken on a bus, apart from the measurement on it (R34, R70). -/
def breakBus (b : BusNo) (cause : Reason) (s : State) : State :=
  let x := s.buses[b]
  settleDesk x.holder b ((s.setBus b (x.releasing cause)).setPathEntry (busOut b) idleEntry)

end Sys2Proof.Machine
end

