-- ==== Sys2Proof/Machine/Heads.lean ====
section
/-! DEFINITION. The head controller: the end of a measurement (R86), the phases of a step (R79, R80), samples (R81, R84),
windows (R82, R83), the head wait queue (R75, R78) and heads going out of service and returning (R74, R88). -/

namespace Sys2Proof.Machine

/-! ### The end of a measurement (R86, R87) -/

/-- A measurement on a bus, with a head or waiting for one. -/
structure Measurement where
  line : Nat
  program : Nat
  holder : Holder
  evaluate : Bool
  results : List StepResult
  deriving DecidableEq, Repr

/-- The measurement a context runs. -/
def Context.measurement (c : Context) : Measurement :=
  { line := c.line, program := c.program, holder := c.holder, evaluate := c.evaluate, results := c.results }

/-- The measurement a waiting bus has: no step results (R86). -/
def HeadWait.measurement (e : HeadWait) : Measurement :=
  { line := e.line, program := e.program, holder := e.holder, evaluate := e.evaluate, results := [] }

/-- The entry of a bus in the head wait queue (R75). -/
def waitOf (b : BusNo) (s : State) : Option HeadWait := s.headQueue.find? fun e => e.bus == b

/-- The measurement on a bus, if there is one: of its attached head, or of its place in the head wait queue. -/
def measurementOn (b : BusNo) (s : State) : Option Measurement :=
  match s.buses[b].head.bind fun h => s.heads[h].ctx with
  | some c => some c.measurement
  | none => (waitOf b s).map HeadWait.measurement

/-- A bus leaves the head wait queue. -/
def leaveQueue (b : BusNo) (s : State) : State := s.setHeadQueue (s.headQueue.filter fun e => e.bus != b)

/-- The record of a measurement (R86 step 1). -/
def Measurement.record (m : Measurement) (b : BusNo) (outcome : Reason) : Record :=
  { line := m.line, bus := b, program := m.program, holder := m.holder, outcome := outcome, results := m.results }

/-- Whether a measurement that ends is evaluated (R86 step 3, R112). -/
def Measurement.evaluated (m : Measurement) (outcome : Reason) : Bool := m.evaluate && outcome == .complete

/-- Steps 1 to 4 of the end of a measurement (R86): the record, its notice, the evaluation with its findings, and the
internal holder. `cond` is the condition the bus held before the event (R163). -/
def reportMeasurement (b : BusNo) (m : Measurement) (outcome : Reason) (cond : LineCond) (s : State) : State :=
  let r := m.record b outcome
  let s1 := pushNotice (addressee m.holder) (.measurementResult r) s
  if m.evaluated outcome then
    let e := evaluate r s1
    tellRecord m.holder outcome (some e) cond (handFindings e.findings s1)
  else tellRecord m.holder outcome none cond s1

/-- The record of a head commanded the rest word at the end of a measurement (R86 step 5, R73). -/
def HeadRec.returned (x : HeadRec) : HeadRec :=
  { x with state := .returning, word := .rest, bus := none, timer := some 0, ctx := none }

/-- The bus and its head are detached. -/
def detachBus (b : BusNo) (s : State) : State := s.setBus b { s.buses[b] with head := none }

/-- Step 5 of the end of a measurement (R86): an attached head is commanded the rest word and enters RETURNING. A head
that is not attached, or that R74 has taken out of service, is left as it is. -/
def returnHead (b : BusNo) (s : State) : State :=
  match s.buses[b].head with
  | none => s
  | some h =>
    detachBus b
      (countHead h (fun c => { c with measurementsEnded := satInc c.measurementsEnded })
        (s.setHead h s.heads[h].returned))

/-- The outcomes after which R69 decides the bus (R86 step 6). -/
def leavesByR69 : Reason → Bool
  | .complete => true
  | .headFault => true
  | .highwayLost => true
  | _ => false

/-- Step 6 of the end of a measurement (R69, R86): an outside holder's bus enters STANDBY, an internal holder's is
released with cause COMPLETE, a sweep bus that leaves being followed by a grant pass (R52). -/
def settleBus (b : BusNo) (holder : Holder) (s : State) : State :=
  if isOutside holder then enterMode b .standby s
  else if isSweep holder then grantPass (breakBus b .complete s)
  else breakBus b .complete s

/-- A measurement on a bus ends (R86). The queue is left, the record reported, the head returned, and for the outcomes of
R69 the bus settled; for the others the event that ended the measurement has decided the bus. -/
def endMeasurement (b : BusNo) (m : Measurement) (outcome : Reason) (cond : LineCond) (s : State) : State :=
  let s1 := returnHead b (reportMeasurement b m outcome cond (leaveQueue b s))
  if leavesByR69 outcome then settleBus b m.holder s1 else s1

/-- The measurement on a bus ends, if there is one. -/
def endMeasurementOn (b : BusNo) (outcome : Reason) (cond : LineCond) (s : State) : State :=
  match measurementOn b s with
  | none => s
  | some m => endMeasurement b m outcome cond s

/-! ### Phases (R79, R80) -/

/-- The set of accumulators a phase uses: the second for P− and C. -/
def Phase.usesSecond : Phase → Bool
  | .minus => true
  | .charge => true
  | _ => false

/-- Changes the accumulators of the phase in progress. -/
def Context.updAccum (f : Accum → Accum) (c : Context) : Context :=
  if c.phase.usesSecond then { c with second := f c.second } else { c with first := f c.first }

/-- The source of a phase word (R79). -/
def phaseSource (p : Phase) (d : StepDef) : Source :=
  match p with
  | .single => .off
  | .baseline => .off
  | .plus => d.source
  | .minus => d.source
  | .charge => d.source

/-- The window length of a phase in samples (R79). -/
def windowLength (p : Phase) (d : StepDef) (mains60 : Bool) : Nat :=
  match p with
  | .baseline => 80
  | .charge => 400
  | _ => d.units * (if mains60 then 400 else 160)

/-- The word of a phase (R79). -/
def phaseWord (b : BusNo) (p : Phase) (range : Range) (d : StepDef) : HeadWord :=
  { source := phaseSource p d, negative := p == .minus, range := range, legs := some d.legs, bus := b, attach := true }

/-- The first phase of a kind (R79). -/
def firstPhase : Kind → Phase
  | .fdc => .single
  | .fac => .single
  | .res => .plus
  | .cap => .baseline

/-- The range a step begins in (R79): LOW for FDC and FAC, by the step's range for RES, HIGH for CAP. -/
def firstRange (d : StepDef) : Range :=
  match d.kind with
  | .fdc => .low
  | .fac => .low
  | .cap => .high
  | .res => if d.range = .high then .high else .low

/-- The step a context is in. -/
def Context.step (c : Context) : Option StepDef := c.steps[c.index]?

/-- The context as a phase begins (R79, R82, R95): its window empty, its attempt the first, its accumulators empty. -/
def Context.enterPhase (c : Context) (p : Phase) (d : StepDef) : Context :=
  { { c with phase := p }.updAccum (fun _ => {}) with
    isRepeat := false
    settleCount := 0
    windowLen := windowLength p d c.mains60
    accepted := 0
    lost := 0
    lastSample := none }

/-- A phase begins on a head (R79, R73): the phase word is written; the echo timer starts if the word has changed, and a
phase whose word is the one commanded already is confirmed by the first frame taken. -/
def beginPhase (h : HeadNo) (p : Phase) (d : StepDef) (c : Context) (s : State) : State :=
  let x := s.heads[h]
  let w := phaseWord (x.bus.getD 0) p c.range d
  let c' := c.enterPhase p d
  if w = x.word then s.setHead h { x with state := .awaitEcho, timer := none, ctx := some { c' with noEcho := true } }
  else
    s.setHead h
      { x with state := .awaitEcho, word := w, timer := some 0, ctx := some { c' with noEcho := false } }

/-- A step begins (R79, R85, R95): marks clear, mains setting read, accumulators empty. -/
def Context.beginStep (c : Context) (i : Nat) (d : StepDef) (mains60 : Bool) : Context :=
  { c with
    index := i
    chargeRepeat := false
    range := firstRange d
    mains60 := mains60
    rangedUp := false
    degraded := false
    first := {}
    second := {} }

/-- Begins the step of an index on a head, or ends the measurement COMPLETE if the program holds no step there (R85). -/
def beginStepAt (h : HeadNo) (i : Nat) (c : Context) (s : State) : State :=
  match c.steps[i]? with
  | some d => beginPhase h (firstPhase d.kind) d (c.beginStep i d s.site.mains60) s
  | none =>
    match s.heads[h].bus with
    | none => s
    | some b => endMeasurement b c.measurement .complete s.buses[b].accepted s

/-! ### Heads out of service (R74) -/

/-- Counts a head fault under its cause (R91). -/
def countHeadFault (cause : Reason) (c : HeadCounters) : HeadCounters :=
  let c' := { c with headFaults := satInc c.headFaults }
  match cause with
  | .echoTimeout => { c' with echoTimeouts := satInc c.echoTimeouts }
  | .returnTimeout => { c' with returnTimeouts := satInc c.returnTimeouts }
  | .echoDeparted => { c' with echoDepartures := satInc c.echoDepartures }
  | _ => { c' with faultFlags := satInc c.faultFlags }

/-- Ends with HEAD_FAULT the measurement of every bus waiting for a head, oldest first (R75). -/
def endWaiting (s : State) : State :=
  (s.headQueue.map HeadWait.bus).foldl (fun t b => endMeasurementOn b .headFault t.buses[b].accepted t) s

/-- The head record as a head goes out of service (R74 steps 1, 2 and 4). -/
def HeadRec.outOfService (x : HeadRec) : HeadRec :=
  { x with state := .outOfService, word := .rest, bus := none, timer := none, ctx := none }

/-- A head goes OUT_OF_SERVICE (R74). -/
def headOut (h : HeadNo) (cause : Reason) (s : State) : State :=
  let x := s.heads[h]
  let s1 := s.setHead h x.outOfService
  let s2 :=
    match x.bus, x.ctx with
    | some b, some c => endMeasurement b c.measurement .headFault s.buses[b].accepted (detachBus b s1)
    | _, _ => s1
  let s3 := pushNotice 6 (.headFaulted h cause x.bus x.word x.echoed) s2
  let s4 := countHead h (countHeadFault cause) s3
  if headInService s4 then s4 else endWaiting s4

/-! ### The head wait queue (R75, R78) -/

/-- The lowest-numbered IDLE head (R75). -/
def idleHead (s : State) : Option HeadNo := allHeads.find? fun h => s.heads[h].state == .idle

/-- The context formed at assignment (R78). -/
def contextOf (e : HeadWait) : Context :=
  { line := e.line, program := e.program, steps := e.steps, holder := e.holder, evaluate := e.evaluate }

/-- Gives a head to the oldest waiting bus (R75 steps 2 to 6). -/
def assignHead (h : HeadNo) (e : HeadWait) (s : State) : State :=
  let s1 := s.setHeadQueue s.headQueue.tail
  let s2 := s1.setHead h { s.heads[h] with bus := some e.bus }
  let s3 := s2.setBus e.bus { s.buses[e.bus] with head := some h }
  let s4 := countHead h (fun c => { c with assignments := satInc c.assignments }) s3
  beginStepAt h 0 (contextOf e) s4

/-- The steps of an assignment pass. -/
def assignSteps : Nat → State → State
  | 0, s => s
  | fuel + 1, s =>
    match idleHead s, s.headQueue with
    | some h, e :: _ => assignSteps fuel (assignHead h e s)
    | _, _ => s

/-- An assignment pass (R75); none is taken while the alignment state is HUNTING or CONFIRMING. Four heads bound it. -/
def assignmentPass (s : State) : State := if s.alignment.isAligned then assignSteps 4 s else s

/-- A bus joins the head wait queue (R75, R78). One that finds no head in service has its measurement ended HEAD_FAULT; an
internal one with a program of no steps has it ended COMPLETE. The manual does not say which comes first where both
hold: `Config.emptyProgramFirst`. -/
def joinHeadQueue (e : HeadWait) (s : State) : State :=
  let empty := !isOutside e.holder && e.steps.isEmpty
  let noHead := !headInService s
  let cond := s.buses[e.bus].accepted
  if empty && (!noHead || Config.emptyProgramFirst) then endMeasurement e.bus e.measurement .complete cond s
  else if noHead then endMeasurement e.bus e.measurement .headFault cond s
  else assignmentPass (s.setHeadQueue (s.headQueue ++ [e]))

/-- The program number of an internal bus's measurement (R78): the descriptor's, the LINE ticket's, or that of the member
entry for the line. A member released meanwhile has no entry, and the number is a free value. -/
def internalProgram (holder : Holder) (line : Nat) (s : State) : Nat :=
  match holder with
  | .origin _ => 0
  | .sweep d => (s.sweeps[d].config.map SweepConfig.program).getD 0
  | .retest n =>
    match ticketByNumber n s with
    | none => (Config.releasedMemberProgram s.freeCount).val
    | some t =>
      if t.isLine then t.program
      else
        match t.members.find? fun m => m.line == line with
        | some m => m.program
        | none => (Config.releasedMemberProgram s.freeCount).val

/-- The evaluate flag of an internal bus's measurement (R78, R112). -/
def internalEvaluate (holder : Holder) (s : State) : Bool :=
  match holder with
  | .origin _ => false
  | .sweep d => (s.sweeps[d].config.map SweepConfig.ticketFlag).getD false
  | .retest _ => true

/-- The steps of a program as the table holds them (R76). -/
def programSteps (n : Nat) (s : State) : List StepDef := s.programs.toList.getD n []

/-- An internal bus that has entered MEASURE joins the head wait queue (R31, R75, R78). -/
def joinInternal (b : BusNo) (holder : Holder) (line : Nat) (s : State) : State :=
  let p := internalProgram holder line s
  let e : HeadWait := { bus := b, program := p, steps := programSteps p s, evaluate := internalEvaluate holder s,
                        holder := holder, line := line }
  joinHeadQueue e { s with freeCount := s.freeCount + 1 }

/-! ### Ending steps and phases (R82 to R85) -/

/-- The HEADS figures are brought up to date at a step's end (R106). -/
def stepFigures (c : Context) (k : HeadCounters) : HeadCounters :=
  { k with
    clippedSamples := satAdd k.clippedSamples (c.first.clips + c.second.clips)
    peakVoltage := max k.peakVoltage (max c.first.peak c.second.peak) }

/-- A step ends (R85, R97): its result is appended, and the next step begins or the measurement ends COMPLETE. -/
def endStep (h : HeadNo) (c : Context) (d : StepDef) (noData : Bool) (s : State) : State :=
  let c' := { c with results := c.results ++ [stepResultOf c d noData] }
  beginStepAt h (c.index + 1) c'
    ((countHead h (stepFigures c) s).setHead h { s.heads[h] with ctx := some c' })

/-- A phase completes (R79, R82): NO_DATA ends the step, otherwise the next phase begins or the step ends. -/
def phaseComplete (h : HeadNo) (c : Context) (d : StepDef) (s : State) : State :=
  if c.accepted = 0 then endStep h c d true s
  else
    match c.phase with
    | .plus => beginPhase h .minus d c s
    | .baseline => beginPhase h .charge d c s
    | .single => endStep h c d false s
    | .minus => endStep h c d false s
    | .charge => endStep h c d false s

/-- A window lost more than one eighth of its samples (R82). -/
def lostTooMany (c : Context) : Bool := decide (c.windowLen < 8 * c.lost)

/-- A window is full (R82). -/
def windowFull (c : Context) : Bool := decide (c.windowLen ≤ c.accepted + c.lost)

/-- The context of a phase taken again: its accumulators and window empty, its attempt REPEAT (R82). -/
def Context.repeatPhase (c : Context) : Context :=
  { c.updAccum (fun _ => {}) with isRepeat := true, accepted := 0, lost := 0 }

/-- Counts a repeated phase (R91). -/
def countRepeat (h : HeadNo) (s : State) : State :=
  countHead h (fun k => { k with phaseRepeats := satInc k.phaseRepeats }) s

/-- The window of FDC, FAC, RES or the CAP baseline is judged (R82). -/
def judgeWindow (h : HeadNo) (c : Context) (d : StepDef) (s : State) : State :=
  if lostTooMany c then
    if c.isRepeat then phaseComplete h { c with degraded := true } d s
    else countRepeat h (s.setHead h { s.heads[h] with ctx := some c.repeatPhase })
  else phaseComplete h c d s

/-- The context as a charge is taken again (R83): both sets empty, the step back at phase D. -/
def Context.retakeCharge (c : Context) : Context := { c with chargeRepeat := true, first := {}, second := {} }

/-- The CAP charge window is judged (R83). -/
def judgeCharge (h : HeadNo) (c : Context) (d : StepDef) (s : State) : State :=
  if c.chargeRepeat then
    if c.accepted = 0 then endStep h { c with degraded := true } d true s
    else endStep h { c with degraded := c.degraded || decide (0 < c.lost) } d false s
  else if c.lost = 0 then endStep h c d false s
  else beginPhase h .baseline d c.retakeCharge (countRepeat h s)

/-- The context and step of a head that integrates. -/
def integratingOn (h : HeadNo) (s : State) : Option (Context × StepDef) :=
  if s.heads[h].state = .integrating then
    s.heads[h].ctx.bind fun c => c.step.map fun d => (c, d)
  else none

/-- WINDOW_END: a full window other than a CAP charge's is judged (R82). -/
def windowEnds (h : HeadNo) (s : State) : State :=
  match integratingOn h s with
  | some (c, d) => if c.phase ≠ .charge ∧ windowFull c then judgeWindow h c d s else s
  | none => s

/-- CHARGE_WINDOW_END: a full CAP charge window is judged (R83). -/
def chargeWindowEnds (h : HeadNo) (s : State) : State :=
  match integratingOn h s with
  | some (c, d) => if c.phase = .charge ∧ windowFull c then judgeCharge h c d s else s
  | none => s

/-- SETTLE_END: a settle count that has reached 8 × s enters INTEGRATING (R80). -/
def settleEnds (h : HeadNo) (s : State) : State :=
  let x := s.heads[h]
  match x.ctx with
  | none => s
  | some c =>
    match c.step with
    | none => s
    | some d =>
      if x.state = .settling ∧ 8 * d.settle ≤ c.settleCount then s.setHead h { x with state := .integrating } else s

/-! ### Samples (R81, R83, R84) -/

/-- The context after an accepted sample of a phase other than the CAP charge (R94). -/
def Context.accept (c : Context) (kind : Kind) (x : Sample) : Context :=
  { c.updAccum (enterSample kind (handsCurrent kind c.phase) x) with accepted := c.accepted + 1 }

/-- The accumulators of a charge after an accepted sample (R83, R103): in a repeat, lost samples that came before the
first accepted one are replaced by it, and then the sample enters its own position. -/
def chargeAccum (c : Context) (x : Sample) : Accum :=
  let position := c.accepted + c.lost + 1
  let early := if c.chargeRepeat ∧ c.accepted = 0 then c.lost else 0
  markSample x (enterPosition position x.v x.i (enterPositions (position - early) x.v x.i early c.second))

/-- The context after an accepted sample of a CAP charge. -/
def Context.acceptCharge (c : Context) (x : Sample) : Context :=
  { c with second := chargeAccum c x, lastSample := some (x.v, x.i), accepted := c.accepted + 1 }

/-- The context after a lost sample (R81, R83): a repeated charge window enters the last accepted sample in its place. -/
def Context.lose (c : Context) : Context :=
  let c' := { c with lost := c.lost + 1 }
  if c.phase = .charge ∧ c.chargeRepeat then
    match c.lastSample with
    | none => c'
    | some (v, i) => { c' with second := enterPosition (c.accepted + c.lost + 1) v i c.second }
  else c'

/-- A current clip of a RES step with range AUTO running in LOW restarts the step in HIGH (R84). -/
def rangesUp (c : Context) (d : StepDef) (x : Sample) : Bool :=
  d.kind == .res && d.range == .auto && c.range == .low && x.iClip

/-- The context as a RES step restarts in HIGH (R84): both sets empty, the marks begun afresh, the mains setting read. -/
def Context.rangeUp (c : Context) (mains60 : Bool) : Context :=
  { c with range := .high, rangedUp := true, degraded := false, mains60 := mains60, first := {}, second := {} }

/-- A good frame with a matching echo gives an accepted sample (R81). -/
def acceptSample (h : HeadNo) (c : Context) (d : StepDef) (x : Sample) (s : State) : State :=
  if rangesUp c d x then
    beginPhase h .plus d (c.rangeUp s.site.mains60)
      (countHead h (fun k => { k with rangeChanges := satInc k.rangeChanges }) s)
  else
    let c' := if c.phase = .charge then c.acceptCharge x else c.accept d.kind x
    s.setHead h { s.heads[h] with ctx := some c' }

/-- A bad frame gives a lost sample (R81). -/
def loseSample (h : HeadNo) (c : Context) (s : State) : State :=
  countHead h (fun k => { k with lostSamples := satInc k.lostSamples })
    (s.setHead h { s.heads[h] with ctx := some c.lose })

/-! ### The words of a head in a taken frame (R73, R74, R80, R81) -/

/-- The five words of a head in an inbound frame, and whether the frame is good (R2, R10). -/
structure HeadWords where
  good : Bool
  status : Word
  vt : Word
  vr : Word
  it : Word
  ir : Word
  deriving DecidableEq, Repr

/-- The words of head n: slots 5 + 5n to 9 + 5n (R2). -/
def headWords (good : Bool) (f : Frame) (h : HeadNo) : HeadWords :=
  { good := good
    status := f[5 + 5 * h.val]'(by omega)
    vt := f[6 + 5 * h.val]'(by omega)
    vr := f[7 + 5 * h.val]'(by omega)
    it := f[8 + 5 * h.val]'(by omega)
    ir := f[9 + 5 * h.val]'(by omega) }

/-- What a status word from a good frame says (R73, R74). -/
inductive Echo where
  | fault | matching | other
  deriving DecidableEq, Repr

/-- The reading of a status word against the commanded word (R73, R74). -/
def echoAgainst (w : HeadWord) (status : Word) : Echo :=
  if faultFlag status then .fault
  else if readyFlag status && echoOf status == headCommandWord w then .matching
  else .other

/-- A frame of the window in progress (R74, R81). -/
def integrateFrame (h : HeadNo) (c : Context) (d : StepDef) (w : HeadWords) (s : State) : State :=
  if w.good then
    match echoAgainst s.heads[h].word w.status with
    | .fault => headOut h .faultFlag s
    | .other => headOut h .echoDeparted s
    | .matching => acceptSample h c d (sampleOf d.legs w.vt w.vr w.it w.ir) s
  else loseSample h c s

/-- A frame in SETTLING brings the settle count to `n` (R74, R80). -/
def settleFrame (h : HeadNo) (c : Context) (n : Nat) (w : HeadWords) (s : State) : State :=
  let next := s.setHead h { s.heads[h] with ctx := some { c with settleCount := n } }
  if w.good then
    match echoAgainst s.heads[h].word w.status with
    | .fault => headOut h .faultFlag s
    | .other => headOut h .echoDeparted s
    | .matching => next
  else next

/-- Whether a phase calls for a settle: every phase but C, with a settle time above 0 (R79, R80). -/
def settles (p : Phase) (d : StepDef) : Bool := p != .charge && decide (0 < d.settle)

/-- A phase is confirmed by the frame taken, which is its first settle frame or the first frame of its window (R80). -/
def confirmPhase (h : HeadNo) (c : Context) (d : StepDef) (w : HeadWords) (s : State) : State :=
  let x := s.heads[h]
  let c' := { c with noEcho := false }
  if settles c.phase d then
    settleFrame h c' 1 w (s.setHead h { x with state := .settling, timer := none, ctx := some c' })
  else
    integrateFrame h c' d w (s.setHead h { x with state := .integrating, timer := none, ctx := some c' })

/-- A frame in AWAIT_ECHO (R74, R79, R80). -/
def awaitFrame (h : HeadNo) (c : Context) (d : StepDef) (w : HeadWords) (s : State) : State :=
  if c.noEcho then confirmPhase h c d w s
  else if w.good then
    match echoAgainst s.heads[h].word w.status with
    | .fault => headOut h .faultFlag s
    | .matching => confirmPhase h c d w s
    | .other => s
  else s

/-- A frame on an active head, by its state. -/
def activeFrame (h : HeadNo) (w : HeadWords) (s : State) : State :=
  match s.heads[h].ctx with
  | none => s
  | some c =>
    match c.step with
    | none => s
    | some d =>
      match s.heads[h].state with
      | .awaitEcho => awaitFrame h c d w s
      | .settling => settleFrame h c (c.settleCount + 1) w s
      | .integrating => integrateFrame h c d w s
      | _ => s

/-- A frame in RETURNING (R74, R88). -/
def returningFrame (h : HeadNo) (w : HeadWords) (s : State) : State :=
  if w.good then
    match echoAgainst s.heads[h].word w.status with
    | .fault => headOut h .faultFlag s
    | .matching => assignmentPass (s.setHead h { s.heads[h] with state := .idle, timer := none })
    | .other => s
  else s

/-- The words of a head in a taken frame (R73, R74). -/
def headFrame (h : HeadNo) (w : HeadWords) (s : State) : State :=
  let s := if w.good then s.setHead h { s.heads[h] with echoed := echoOf w.status } else s
  match s.heads[h].state with
  | .idle => if w.good && faultFlag w.status then headOut h .faultFlag s else s
  | .returning => returningFrame h w s
  | .outOfService => s
  | .awaitEcho => activeFrame h w s
  | .settling => activeFrame h w s
  | .integrating => activeFrame h w s

/-! ### Echo timers (R73) -/

/-- The echo timer of a head rises by one with a taken frame, while it runs. -/
def tickHead (s : State) (h : HeadNo) : State :=
  match s.heads[h].timer with
  | none => s
  | some n => s.setHead h { s.heads[h] with timer := some (n + 1) }

/-- An echo timer has reached 160. -/
def echoDue (x : HeadRec) : Bool := x.timer.any fun n => decide (Config.echoLimit ≤ n)

/-- ECHO_TIMEOUT: the echo timer of a head in AWAIT_ECHO expires (R74). -/
def echoExpires (h : HeadNo) (s : State) : State :=
  if s.heads[h].state = .awaitEcho ∧ echoDue s.heads[h] then headOut h .echoTimeout s else s

/-- RETURN_TIMEOUT: the echo timer of a head in RETURNING expires (R74). -/
def returnExpires (h : HeadNo) (s : State) : State :=
  if s.heads[h].state = .returning ∧ echoDue s.heads[h] then headOut h .returnTimeout s else s

/-! ### Loss of alignment (R89) -/

/-- An active head's measurement ends HIGHWAY_LOST. -/
def loseHead (s : State) (h : HeadNo) : State :=
  match s.heads[h].bus, s.heads[h].ctx with
  | some b, some c => endMeasurement b c.measurement .highwayLost s.buses[b].accepted s
  | _, _ => s

end Sys2Proof.Machine
end

