-- ==== Sys2Proof/Machine/Access.lean ====
section
/-! DEFINITION. The access controller: releases and preemption (R34, R48), relay states (R24, R28, R30, R35 to R38), the
debouncer and its acceptances (R26, R31, R33), bus timers and their expiries (R25, R29, R32, R36). -/

namespace Sys2Proof.Machine

/-! ### Releases (R34) and preemption (R48) -/

/-- The outcome of a measurement that a release ends (R34). -/
def abortOutcome (cause : Reason) : Reason := if cause = .preempt then .abortedPreempt else .abortedRelease

/-- A sweep-held bus that leaves SEIZING, GUARD or HELD is followed by a grant pass (R52); `x` is the bus as it stood. -/
def passAfter (x : Bus) (s : State) : State := if x.isSweepHeld then grantPass s else s

/-- A release is taken on a bus in SEIZING, GUARD or HELD, and the measurement on it ends (R34, R86). -/
def releaseBus (b : BusNo) (cause : Reason) (s : State) : State :=
  let x := s.buses[b]
  let s1 := breakBus b cause s
  passAfter x
    (match measurementOn b s with
    | none => s1
    | some m => endMeasurement b m (abortOutcome cause) x.accepted s1)

/-- The arbiter preempts a bus (R48, R49): PREEMPTIONS rises, the bus is released with cause PREEMPT, and its internal holder is
told once, by the record of the measurement that ended or, where none ran, by the arbiter. The grant pass for a sweep-held bus
that leaves comes after the telling, as R46 places it. -/
def preemptBus (b : BusNo) (s : State) : State :=
  let x := s.buses[b]
  let s1 := breakBus b .preempt { s with preemptions := satInc s.preemptions }
  passAfter x
    (match measurementOn b s with
    | none => tellPreempted x.holder s1
    | some m => endMeasurement b m (abortOutcome .preempt) x.accepted s1)

/-- A seizure fails: the bus is released with a cause, its holder is told the reason, and a sweep-held bus that leaves is
followed by a grant pass (R29, R31, R32, R52). -/
def failSeizure (b : BusNo) (cause reason : Reason) (s : State) : State :=
  let x := s.buses[b]
  passAfter x (tellSeizeFailed b (x.line.getD 0) x.holder reason (breakBus b cause s))

/-- A guard wait ends in failure (R31, R32): GUARD_REFUSALS rises. -/
def refuseGuard (b : BusNo) (reason : Reason) (s : State) : State :=
  failSeizure b reason reason (countBus b (fun c => { c with guardRefusals := satInc c.guardRefusals }) s)

/-! ### Acceptance in GUARD (R31) -/

/-- Whether a condition is a call: CALL or RINGING. -/
def LineCond.isCall (c : LineCond) : Bool := c == .call || c == .ringing

/-- A desk with monitor authority, read at the moment (R31). -/
def hasMonitorBusy (holder : Option Holder) (s : State) : Bool :=
  (holderDesk holder).any fun d => s.site.authority[d].monitorBusy

/-- The bus enters HELD in a mode, its guard timer stopped (R31). -/
def holdBus (b : BusNo) (busy : Bool) (m : NewMode) (s : State) : State :=
  enterMode b m (s.setBus b { s.buses[b] with state := .held, timer := none, busy := busy })

/-- BUS_HELD, for an outside holder (R31). -/
def tellHeld (b : BusNo) (s : State) : State :=
  let x := s.buses[b]
  match x.holder with
  | some (.origin o) => pushNotice o.val (.busHeld b (x.line.getD 0) (.origin o) x.accepted x.busy) s
  | _ => s

/-- The bus is held for its holder: STANDBY for an outside holder, MEASURE for an internal one (R31). -/
def holdFor (b : BusNo) (s : State) : State :=
  let x := s.buses[b]
  match x.holder with
  | some h =>
    if isOutside h then tellHeld b (holdBus b false .standby s)
    else joinInternal b h (x.line.getD 0) (holdBus b false .measure s)
  | none => s

/-- A condition is accepted on a bus in GUARD (R31); the record holds it already. -/
def guardAccepted (b : BusNo) (c : LineCond) (s : State) : State :=
  match c with
  | .none => s
  | .idle => holdFor b s
  | .locked => holdFor b s
  | .call => if hasMonitorBusy s.buses[b].holder s then tellHeld b (holdBus b true .standby s) else refuseGuard b .lineBusy s
  | .ringing => if hasMonitorBusy s.buses[b].holder s then tellHeld b (holdBus b true .standby s) else refuseGuard b .lineBusy s
  | .noLine => refuseGuard b .noLine s

/-! ### Acceptance in HELD (R33) -/

/-- CONDITION_CHANGED, for an outside holder (R33). -/
def tellChanged (b : BusNo) (old : LineCond) (s : State) : State :=
  let x := s.buses[b]
  match x.holder with
  | some (.origin o) =>
    pushNotice o.val (.conditionChanged b (x.line.getD 0) (.origin o) old x.accepted x.busy) s
  | _ => s

/-- A call arrives on an outside holder's bus: a measurement on it ends ABORTED_CALL and the bus enters STANDBY (R33,
R69). -/
def callOutside (b : BusNo) (old : LineCond) (s : State) : State :=
  if s.buses[b].mode = some .measure then enterMode b .standby (endMeasurementOn b .abortedCall old s) else s

/-- A call arrives on an internal holder's bus: it is released with cause CALL, and its measurement ends ABORTED_CALL
(R33). -/
def callInternal (b : BusNo) (old : LineCond) (s : State) : State :=
  let s1 := breakBus b .call s
  passAfter s.buses[b]
    (match measurementOn b s with
    | none => s1
    | some m => endMeasurement b m .abortedCall old s1)

/-- The BUSY restriction after an acceptance in HELD (R33). -/
def busyAfter (c : LineCond) (busy : Bool) : Bool := if c.isCall then true else if c = .idle then false else busy

/-- A condition is accepted on a bus in HELD in place of `old` (R33); the record holds the new one already. -/
def heldAccepted (b : BusNo) (old c : LineCond) (s : State) : State :=
  let x := s.buses[b]
  let s1 := tellChanged b old (s.setBus b { x with busy := busyAfter c x.busy })
  if c.isCall && !old.isCall then
    if x.holder.any isOutside then callOutside b old s1 else callInternal b old s1
  else s1

/-! ### The debouncer (R26) -/

/-- A condition is accepted: it becomes the accepted condition, and R31 or R33 acts on it. -/
def acceptCond (b : BusNo) (c : LineCond) (s : State) : State :=
  let x := s.buses[b]
  let s1 := s.setBus b { x with accepted := c, candidate := none, stable := 0 }
  if x.state = .guard then guardAccepted b c s1 else heldAccepted b x.accepted c s1

/-- The line condition of a good frame acts on the debouncer of a bus in GUARD or HELD (R26). -/
def debounce (b : BusNo) (cond : Option LineCond) (s : State) : State :=
  let x := s.buses[b]
  if x.state = .guard ∨ x.state = .held then
    match cond with
    | none => s.setBus b { x with candidate := none, stable := 0 }
    | some c =>
      if c = x.accepted then s.setBus b { x with candidate := none, stable := 0 }
      else if x.candidate = some c then
        if x.stable < 7 then s.setBus b { x with stable := x.stable + 1 } else acceptCond b c s
      else s.setBus b { x with candidate := some c, stable := 1 }
  else s

/-- Every candidate becomes none and every stable count 0, at a loss and at a gain of alignment (R7, R8, R40). -/
def dropCandidate (s : State) (b : BusNo) : State := s.setBus b { s.buses[b] with candidate := none, stable := 0 }

/-! ### Relay states (R24) -/

/-- MADE for a bus in SEIZING (R28): GUARD, the guard timer started, and the debouncer begun. -/
def makeConfirmed (b : BusNo) (s : State) : State :=
  s.setBus b { s.buses[b] with
    state := .guard, makeTimeouts := 0, timer := some 0, accepted := .none, candidate := none, stable := 0 }

/-- MADE for a bus in RELEASING (R30): counted once while the late watch is set. -/
def lateConfirmed (b : BusNo) (s : State) : State :=
  if s.buses[b].lateWatch then
    countBus b (fun c => { c with lateConfirmations := satInc c.lateConfirmations })
      (s.setBus b { s.buses[b] with lateWatch := false })
  else s

/-- The record of a bus whose release has completed (R35 steps 1 to 5), in the state it comes to. -/
def Bus.released (x : Bus) (state : BusState) : Bus :=
  { x with
    state := state
    line := none
    holder := none
    accepted := .none
    candidate := none
    stable := 0
    order := .none
    timer := none
    lateWatch := false
    cause := none }

/-- BUS_RELEASED, for a release an outside holder requested and for a restored bus (R35); `x` is the bus as it stood. -/
def tellReleased (b : BusNo) (x : Bus) (s : State) : State :=
  match x.cause, x.holder with
  | some .requested, some (.origin o) =>
    pushNotice o.val (.busReleased b (x.line.getD 0) (some (.origin o)) .requested) s
  | some .restore, _ => pushNotice 6 (.busReleased b (x.line.getD 0) none .restore) s
  | _, _ => s

/-- A claim is removed, and the requests waiting for its line are told (R22, R52). -/
def freeLine (b : BusNo) (line : Option Nat) (s : State) : State := clearWaiting line (dropClaim b s)

/-- OPEN for a bus in RELEASING (R35). -/
def releaseCompleted (b : BusNo) (s : State) : State :=
  let x := s.buses[b]
  let s1 := freeLine b x.line s
  grantPass
    (if x.makeTimeouts < 3 then tellReleased b x (s1.setBus b (x.released .free))
    else
      pushNotice 6 (.busFaulted b x.line .makeTimeouts false)
        (countBus b (fun c => { c with busFaults := satInc c.busFaults })
          (s1.setBus b { x.released .outOfService with stuck := false })))

/-- The record of a bus that a FAULT or a dropped relay takes out of service (R26, R37, R38). -/
def Bus.faulted (x : Bus) (dropped : Bool) : Bus :=
  { x.noMode with
    state := .outOfService
    line := if dropped then none else x.line
    holder := none
    accepted := .none
    candidate := none
    stable := 0
    order := .none
    timer := none
    stuck := !dropped && x.line.isSome }

/-- What a fault ends (R37): a seizure, a measurement, or nothing; `x` is the bus and `m` its measurement as they stood. -/
def faultEnds (b : BusNo) (x : Bus) (m : Option Measurement) (s : State) : State :=
  match x.state with
  | .seizing => tellSeizeFailed b (x.line.getD 0) x.holder .busFault s
  | .guard => tellSeizeFailed b (x.line.getD 0) x.holder .busFault s
  | .held =>
    match m with
    | none => s
    | some m => endMeasurement b m .abortedRelease x.accepted s
  | .free => s
  | .releasing => s
  | .outOfService => s

/-- A FAULT (R37) or, with `dropped`, a dropped relay (R38) takes a bus out of service. DESIGN CHOICE: a dropped relay's claim is
removed before its holder is told, so that a descriptor's next step finds the line unclaimed (log entry 34). -/
def faultBus (b : BusNo) (dropped : Bool) (s : State) : State :=
  let x := s.buses[b]
  let s1 := settleDesk x.holder b ((s.setBus b (x.faulted dropped)).setPathEntry (busOut b) idleEntry)
  let s2 := countBus b
    (fun c => { c with busFaults := satInc c.busFaults, relayFaults := satInc c.relayFaults }) s1
  let s3 := if dropped then freeLine b x.line s2 else s2
  let s4 := faultEnds b x (measurementOn b s) s3
  let s5 := pushNotice 6
    (.busFaulted b x.line (if dropped then .relayDropped else .relayFault) (x.faulted dropped).stuck) s4
  if dropped then grantPass s5 else passAfter x s5

/-- What a relay state does in each state of a bus (R24). -/
def relayActs (b : BusNo) (r : Relay) (s : State) : State :=
  match s.buses[b].state, r with
  | .free, .fault => faultBus b false s
  | .free, .opened => s
  | .free, .made => s
  | .seizing, .opened => s
  | .seizing, .made => makeConfirmed b s
  | .seizing, .fault => faultBus b false s
  | .guard, .opened => faultBus b true s
  | .guard, .made => s
  | .guard, .fault => faultBus b false s
  | .held, .opened => faultBus b true s
  | .held, .made => s
  | .held, .fault => faultBus b false s
  | .releasing, .opened => releaseCompleted b s
  | .releasing, .made => lateConfirmed b s
  | .releasing, .fault => faultBus b false s
  | .outOfService, .opened => s
  | .outOfService, .made => s
  | .outOfService, .fault => s

/-- The condition word of a bus in a taken frame: the relay state before the line condition, and nothing from a bad frame
(R10, R24, R26). -/
def conditionFrame (b : BusNo) (good : Bool) (w : Word) (s : State) : State :=
  if good then debounce b (condOf w) (relayActs b (relayOf w) s) else s

/-! ### Bus timers (R25) -/

/-- The timer of a bus rises by one with a taken frame, while it runs. -/
def tickBus (s : State) (b : BusNo) : State :=
  match s.buses[b].timer with
  | none => s
  | some n => s.setBus b { s.buses[b] with timer := some (n + 1) }

/-- A bus in a state has its timer at a limit. -/
def timerDue (state : BusState) (limit : Nat) (x : Bus) : Bool :=
  x.state == state && x.timer.any fun n => decide (limit ≤ n)

/-- MAKE_TIMEOUT (R29). -/
def makeExpires (b : BusNo) (s : State) : State :=
  let x := s.buses[b]
  if timerDue .seizing Config.makeLimit x then
    failSeizure b .makeTimeout .relayTimeout
      (countBus b (fun c => { c with makeTimeouts := satInc c.makeTimeouts })
        (s.setBus b { x with makeTimeouts := x.makeTimeouts + 1, lateWatch := true }))
  else s

/-- GUARD_TIMEOUT (R32). -/
def guardExpires (b : BusNo) (s : State) : State :=
  if timerDue .guard Config.guardLimit s.buses[b] then refuseGuard b .conditionUnknown s else s

/-- The record of a bus whose release timed out (R26, R36). -/
def Bus.stuckOpen (x : Bus) : Bus :=
  { x with
    state := .outOfService
    holder := none
    accepted := .none
    candidate := none
    stable := 0
    order := .none
    timer := none
    stuck := true }

/-- RELEASE_TIMEOUT (R36). -/
def releaseExpires (b : BusNo) (s : State) : State :=
  let x := s.buses[b]
  if timerDue .releasing Config.releaseLimit x then
    pushNotice 6 (.busFaulted b x.line .releaseTimeout true)
      (countBus b
        (fun c => { c with releaseTimeouts := satInc c.releaseTimeouts, busFaults := satInc c.busFaults })
        (s.setBus b x.stuckOpen))
  else s

/-- Whichever bus timer expiry is due on a bus. -/
def busExpires (b : BusNo) (s : State) : State :=
  match s.buses[b].state with
  | .seizing => makeExpires b s
  | .guard => guardExpires b s
  | .releasing => releaseExpires b s
  | .free => s
  | .held => s
  | .outOfService => s

/-- Whichever echo timer expiry is due on a head (R74). -/
def headExpires (h : HeadNo) (s : State) : State := returnExpires h (echoExpires h s)

end Sys2Proof.Machine
end

