-- ==== Sys2Proof/Machine/Commands.lean ====
section
/-! DEFINITION. The taking of a command (R171): the common checks, the rule that owns the command, and its reply. Also the
shape that the refusals of the owning rules share. -/

namespace Sys2Proof.Machine

/-- What an owning rule answers: the status and the data of the reply (R172). -/
structure Answer where
  status : Status
  data : ReplyData := .empty
  deriving DecidableEq, Repr

/-- A rule that owns a command: from the origin and the state it forms the new state and the answer. -/
abbrev Rule := Origin → State → State × Answer

/-- A refused command changes no state (R172). -/
def refuse (c : Status) (s : State) : State × Answer := (s, { status := c })

/-- A command answered OK with no data. -/
def okay (s : State) : State × Answer := (s, { status := .ok })

/-- A command answered OK with data. -/
def okayWith (d : ReplyData) (s : State) : State × Answer := (s, { status := .ok, data := d })

/-- A rule taken from the exchange processor alone: a desk origin is refused NOT_PERMITTED. -/
def processorOnly (r : State → State × Answer) : Rule := fun o s => if isDesk o then refuse .notPermitted s else r s

/-- The common checks 2 and 3 of R171, before the owning rule: the length, then the origin. -/
def checked (lengthOk : Bool) (origin : Octet) (own : Rule) (s : State) : State × Answer :=
  if lengthOk then
    match originOf origin with
    | some o => own o s
    | none => refuse .badField s
  else refuse .badLength s

/-- The reply to a command (R172): its kind, tag and origin, the status and the data. -/
def replyTo (kind : Octet) (hd : Header) (a : Answer) : Reply :=
  { kind := kind, tag := hd.tag, addressed := hd.origin, status := a.status, data := a.data }

/-- A command that passed its check is dropped where 16 replies wait, and otherwise is taken and counted, given to a rule,
and answered by one reply, the last of the queue (R171). -/
def taken (kind : Octet) (hd : Header) (rule : State → State × Answer) (s : State) : State :=
  if Config.replyCapacity ≤ s.replies.length then
    countHighway (fun c => { c with cmdDropped := satInc c.cmdDropped }) s
  else
    let r := rule (countHighway (fun c => { c with commandsTaken := satInc c.commandsTaken }) s)
    pushReply (replyTo kind hd r.2) r.1

/-- A command of a known kind is taken (R171). -/
def takeCommand (kind : Octet) (hd : Header) (lengthOk : Bool) (own : Rule) (s : State) : State :=
  taken kind hd (checked lengthOk hd.origin own) s

/-- A command of a kind whose length is fixed (R180). -/
def takeFixed (kind : Octet) (hd : Header) (length : Nat) (own : Rule) (s : State) : State :=
  takeCommand kind hd (decide (hd.length.toNat = length)) own s

/-- A line number in range (R45, R59, R35a). -/
def lineOk (line : Word) : Bool := decide (line.toNat ≤ Config.lastLine)

/-- The bus held by a holder, in SEIZING, GUARD or HELD (R21). -/
def busHeldBy (h : Holder) (s : State) : Option BusNo :=
  allBuses.find? fun b => s.buses[b].isHeld && s.buses[b].holder == some h

end Sys2Proof.Machine
end

