-- ==== Sys2Proof/Machine/DeskModes.lean ====
section
/-! DEFINITION. The mode commands TALK, MONITOR, SEND TONE, STANDBY and MEASURE (R59 to R68), the expiry of a warning
(R65), SET PATH (R16) and RESTORE HEAD (R88). -/

namespace Sys2Proof.Machine

/-! ### What the mode commands share -/

/-- The checks of R59, in order, before the rule of a mode command on the bus they find. -/
def onHeldBus (line : Word) (fieldsOk deskOnly : Bool) (rule : Origin → BusNo → State → State × Answer) : Rule :=
  fun o s =>
    if !(lineOk line && fieldsOk) then refuse .badField s
    else
      match claimOf line.toNat s with
      | none => refuse .notPermitted s
      | some b =>
        if s.buses[b].holder ≠ some (.origin o) then refuse .notPermitted s
        else if s.buses[b].state ≠ .held then refuse .wrongState s
        else if deskOnly && !isDesk o then refuse .notPermitted s
        else rule o b s

/-- The desk's other bus, if it is the desk's audio bus (R60). -/
def otherAudioBus (o : Origin) (b : BusNo) (m : NewMode) (s : State) : Option BusNo :=
  if m.isAudio then
    match deskOf o with
    | none => none
    | some d => (s.audio[d]).filter fun c => c != b
  else none

/-- Moves the desk's other bus to STANDBY (R60). -/
def moveOther (other : Option BusNo) (s : State) : State :=
  match other with
  | some c => enterMode c .standby s
  | none => s

/-- A mode command moves a bus out of MEASURE: the measurement on it ends ABORTED_RELEASE (R67). -/
def leaveMeasure (b : BusNo) (s : State) : State :=
  if s.buses[b].mode = some .measure then endMeasurementOn b .abortedRelease s.buses[b].accepted s else s

/-- A mode command other than MEASURE is taken: a measurement ends (R67), the desk's other audio bus is moved (R60), and
the mode is entered (R58). The reply carries the mode, and the warning time where it is WARNING (R59). -/
def enterCommanded (o : Origin) (b : BusNo) (m : NewMode) (warningMs : Nat) (s : State) : State × Answer :=
  let other := otherAudioBus o b m s
  okayWith (.mode b m.mode warningMs other) (enterMode b m (moveOther other (leaveMeasure b s)))

/-! ### STANDBY (R61) -/

/-- STANDBY on a held bus; on a bus already in STANDBY it changes nothing. -/
def standbyOn (o : Origin) (b : BusNo) (s : State) : State × Answer :=
  if s.buses[b].mode = some .standby then okayWith (.mode b .standby 0 none) s
  else enterCommanded o b .standby 0 s

/-- STANDBY. -/
def standbyCommand (hd : Header) (line : Word) (s : State) : State :=
  takeFixed 6 hd 8 (onHeldBus line true false standbyOn) s

/-- The meaning of STANDBY. -/
def execStandby (hd : Header) (line : Word) (s : State) : Host.Outcome State Fault Refusal :=
  .next (standbyCommand hd line s)

/-! ### MONITOR (R62) -/

/-- MONITOR on a held bus. -/
def monitorOn (o : Origin) (b : BusNo) (s : State) : State × Answer :=
  if s.buses[b].busy && !hasMonitorBusy s.buses[b].holder s then refuse .notPermitted s
  else enterCommanded o b .monitor 0 s

/-- MONITOR. -/
def monitorCommand (hd : Header) (line : Word) (s : State) : State :=
  takeFixed 4 hd 8 (onHeldBus line true true monitorOn) s

/-- The meaning of MONITOR. -/
def execMonitor (hd : Header) (line : Word) (s : State) : Host.Outcome State Fault Refusal :=
  .next (monitorCommand hd line s)

/-! ### SEND TONE (R63) -/

/-- SEND TONE of a generator on a held bus. -/
def sendToneOn (k : ToneNo) (o : Origin) (b : BusNo) (s : State) : State × Answer :=
  if s.buses[b].busy then refuse .lineBusy s else enterCommanded o b (.tone k) 0 s

/-- The rule of SEND TONE: a tone number above 3 is refused BAD_FIELD (R59 check 1). -/
def sendToneRule (line : Word) (tone : Octet) : Rule :=
  match unitOf 4 tone with
  | none => fun _ s => refuse .badField s
  | some k => onHeldBus line true false (sendToneOn k)

/-- SEND TONE. -/
def sendToneCommand (hd : Header) (line : Word) (tone : Octet) (s : State) : State :=
  takeFixed 5 hd 9 (sendToneRule line tone) s

/-- The meaning of SEND TONE. -/
def execSendTone (hd : Header) (line : Word) (tone : Octet) (s : State) : Host.Outcome State Fault Refusal :=
  .next (sendToneCommand hd line tone s)

/-! ### TALK (R64) -/

/-- Override authority of the desk of an origin. -/
def hasOverride (o : Origin) (s : State) : Bool := (deskOf o).any fun d => s.site.authority[d].overrides

/-- TALK on a held bus. DESIGN CHOICE: TALK repeated on a bus in TALK whose BUSY restriction has been set meanwhile is a break-in,
as on any restricted bus; R64 also says that TALK on a bus already in TALK is taken (log entry 33). -/
def talkOn (o : Origin) (b : BusNo) (s : State) : State × Answer :=
  if s.buses[b].mode = some .warning then refuse .wrongState s
  else if !s.buses[b].busy then enterCommanded o b .talk 0 s
  else if !hasOverride o s then refuse .notPermitted s
  else if s.site.warning = 0 then enterCommanded o b .talk 0 s
  else enterCommanded o b (.warning (8 * s.site.warning)) s.site.warning s

/-- TALK. -/
def talkCommand (hd : Header) (line : Word) (s : State) : State :=
  takeFixed 3 hd 8 (onHeldBus line true true talkOn) s

/-- The meaning of TALK. -/
def execTalk (hd : Header) (line : Word) (s : State) : Host.Outcome State Fault Refusal :=
  .next (talkCommand hd line s)

/-! ### The expiry of a warning (R65) -/

/-- The warning timer of a bus in WARNING has reached its limit. -/
def warningDue (x : Bus) : Bool :=
  x.mode == some .warning && (match x.warnTimer, x.warnLimit with
    | some n, some l => decide (l ≤ n)
    | _, _ => false)

/-- A warning expires: the bus enters TALK, the talk gain read then. -/
def warningExpires (b : BusNo) (s : State) : State := if warningDue s.buses[b] then enterMode b .talk s else s

/-- The meaning of WARNING_EXPIRY. -/
def execWarningExpiry (b : BusNo) (s : State) : Host.Outcome State Fault Refusal := .next (warningExpires b s)

/-! ### MEASURE (R68) -/

/-- MEASURE with a program and an evaluate flag on a held bus. -/
def measureOn (program : Nat) (evaluate : Bool) (o : Origin) (b : BusNo) (s : State) : State × Answer :=
  let x := s.buses[b]
  if x.busy then refuse .lineBusy s
  else if x.mode = some .measure then refuse .wrongState s
  else if programSteps program s = [] then refuse .emptyProgram s
  else if !headInService s then refuse .noHeadInService s
  else
    okayWith (.mode b .measure 0 none)
      (joinHeadQueue
        { bus := b, program := program, steps := programSteps program s, evaluate := evaluate, holder := .origin o,
          line := x.line.getD 0 }
        (enterMode b .measure s))

/-- The rule of MEASURE: a program above 15 or an evaluate flag that is neither value is refused BAD_FIELD. -/
def measureRule (line : Word) (program evaluate : Octet) : Rule :=
  match flagOf evaluate with
  | none => fun _ s => refuse .badField s
  | some e => onHeldBus line (decide (program.toNat ≤ 15)) false (measureOn program.toNat e)

/-- MEASURE. -/
def measureCommand (hd : Header) (line : Word) (program evaluate : Octet) (s : State) : State :=
  takeFixed 7 hd 10 (measureRule line program evaluate) s

/-- The meaning of MEASURE. -/
def execMeasure (hd : Header) (line : Word) (program evaluate : Octet) (s : State) :
    Host.Outcome State Fault Refusal :=
  .next (measureCommand hd line program evaluate s)

/-! ### SET PATH (R16) -/

/-- The path table entry of an outbound slot 17 to 46. -/
def pathSlot (slot : Octet) : Option (Fin 30) :=
  if h : 17 ≤ slot.toNat ∧ slot.toNat < 47 then some ⟨slot.toNat - 17, by omega⟩ else none

/-- The entry the fields of SET PATH name, if each lies in its range (R16 check 4). -/
def pathEntryOf (action parameter primary secondary : Octet) : Option PathEntry :=
  match pathActionOf action parameter, pathSourceOf primary, pathSourceOf secondary with
  | some a, some p, some q => some { primary := p, secondary := q, action := a }
  | _, _, _ => none

/-- The checks of SET PATH, in order, and the entry that replaces the one it names (R16). DESIGN CHOICE: a source given as
absent replaces a source kept from before (log entry 41). -/
def setPathRule (slot action parameter primary secondary : Octet) : Rule :=
  processorOnly fun s =>
    match pathSlot slot with
    | none => refuse .badField s
    | some i =>
      if i.val < 14 then refuse .notPermitted s
      else
        match pathEntryOf action parameter primary secondary with
        | none => refuse .badField s
        | some e => okayWith (.path s.paths[i]) (s.setPathEntry i e)

/-- SET PATH. -/
def setPathCommand (hd : Header) (slot action parameter primary secondary : Octet) (s : State) : State :=
  takeFixed 19 hd 11 (setPathRule slot action parameter primary secondary) s

/-- The meaning of SET PATH. -/
def execSetPath (hd : Header) (slot action parameter primary secondary : Octet) (s : State) :
    Host.Outcome State Fault Refusal :=
  .next (setPathCommand hd slot action parameter primary secondary s)

/-! ### RESTORE HEAD (R88) -/

/-- The checks of RESTORE HEAD and the head's return. -/
def restoreHeadRule (head : Octet) : Rule :=
  processorOnly fun s =>
    match unitOf 4 head with
    | none => refuse .badField s
    | some h =>
      if s.heads[h].state = .outOfService then okay (s.setHead h s.heads[h].returned) else refuse .wrongState s

/-- RESTORE HEAD. -/
def restoreHeadCommand (hd : Header) (head : Octet) (s : State) : State := takeFixed 21 hd 7 (restoreHeadRule head) s

/-- The meaning of RESTORE HEAD. -/
def execRestoreHead (hd : Header) (head : Octet) (s : State) : Host.Outcome State Fault Refusal :=
  .next (restoreHeadCommand hd head s)

end Sys2Proof.Machine
end

