-- ==== Sys2Proof/Machine/Seizing.lean ====
section
/-! DEFINITION. SEIZE and RELEASE (R45, R46, R35a, R53), with the preemptions a SEIZE makes (R48, R49), and RESTORE BUS
(R39). -/

namespace Sys2Proof.Machine

/-! ### SEIZE -/

/-- The class octet of SEIZE: `true` is URGENT (R180). -/
def seizeClass (cls : Octet) : Option Bool := flagOf cls

/-- Urgent authority: the exchange processor has it always, a desk by its flag (R45 check 2). -/
def hasUrgent (o : Origin) (s : State) : Bool :=
  match deskOf o with
  | none => true
  | some d => s.site.authority[d].urgent

/-- The entries an origin has waiting (R44). -/
def waitingCount (o : Origin) (s : State) : Nat := (s.queue.filter fun e => e.requester == .origin o).length

/-- The origin is within its limit (R44, R45 check 3). -/
def withinLimit (o : Origin) (s : State) : Bool :=
  if isDesk o then decide (waitingCount o s = 0 ∧ heldCount (fun h => h == .origin o) s < 2)
  else decide (waitingCount o s < 4)

/-- The line is claimed by a bus held for DESK or PROCESSOR, or waited for by the origin already (R45 check 4). -/
def lineInUse (o : Origin) (line : Nat) (s : State) : Bool :=
  ((claimOf line s).any fun b => s.buses[b].isHeld && s.buses[b].holder.any isOutside) ||
    s.queue.any fun e => e.requester == .origin o && e.line == line

/-- The distance of a bus's grant stamp from the grant counter: the least is the latest grant (R49). A bus without a stamp
counts as granted before every other. -/
def grantAge (s : State) (b : BusNo) : Nat :=
  match s.stamps[b] with
  | none => 4294967296
  | some n => (s.grantCount + 4294967296 - n) % 4294967296

/-- The bus of a list whose grant is the latest. -/
def latestOf (s : State) : List BusNo → Option BusNo
  | [] => none
  | b :: rest =>
    match latestOf s rest with
    | none => some b
    | some c => if grantAge s c < grantAge s b then some c else some b

/-- The sweep-held bus granted most recently (R49). -/
def latestSweepBus (s : State) : Option BusNo := latestOf s (allBuses.filter fun b => s.buses[b].isSweepHeld)

/-- The bus that claims a line and is held for SWEEP or RETEST (R46, R48). -/
def internalClaim (line : Nat) (s : State) : Option BusNo :=
  match claimOf line s with
  | none => none
  | some b => if s.buses[b].isHeld && s.buses[b].holder.any (fun h => !isOutside h) then some b else none

/-- The preemption a SEIZE makes (R46 steps 1 and 2), as the state stands at its entry. -/
def preemptionFor (urgent : Bool) (line : Nat) (s : State) : Preemption × Option BusNo :=
  match internalClaim line s with
  | some b => (.line, some b)
  | none =>
    if urgent && (claimOf line s).isNone && (freeBus s).isNone then
      match latestSweepBus s with
      | some b => (.bus, some b)
      | none => (.none, none)
    else (.none, none)

/-- Preempts the bus chosen, if one was. -/
def preemptChosen (b : Option BusNo) (s : State) : State :=
  match b with
  | some b => preemptBus b s
  | none => s

/-- A SEIZE that passed its checks is entered, preempts, and is followed by a grant pass (R46). -/
def enterSeize (o : Origin) (line : Nat) (urgent : Bool) (s : State) : State × Answer :=
  let waiting := (claimOf line s).isSome
  let p := preemptionFor urgent line s
  okayWith (.seize waiting p.1 p.2)
    (grantPass (preemptChosen p.2 (enterRequest (.origin o) (if urgent then 0 else 1) line s)))

/-- The checks of R45, in order. -/
def seizeRule (line : Word) (cls : Octet) : Rule := fun o s =>
  match seizeClass cls with
  | none => refuse .badField s
  | some urgent =>
    if !lineOk line then refuse .badField s
    else if urgent && !hasUrgent o s then refuse .notPermitted s
    else if !withinLimit o s then refuse .limit s
    else if lineInUse o line.toNat s then refuse .lineInUse s
    else if !busInService s then refuse .noBusInService s
    else enterSeize o line.toNat urgent s

/-- SEIZE. -/
def seizeCommand (hd : Header) (line : Word) (cls : Octet) (s : State) : State :=
  takeFixed 1 hd 9 (seizeRule line cls) s

/-- The meaning of SEIZE. -/
def execSeize (hd : Header) (line : Word) (cls : Octet) (s : State) : Host.Outcome State Fault Refusal :=
  .next (seizeCommand hd line cls s)

/-! ### RELEASE (R35a) -/

/-- Whether an origin has a request waiting for a line. -/
def waitsFor (o : Origin) (line : Nat) (s : State) : Bool :=
  s.queue.any fun e => e.requester == .origin o && e.line == line

/-- The five cases of RELEASE, in order. -/
def releaseRule (line : Word) : Rule := fun o s =>
  if !lineOk line then refuse .badField s
  else if waitsFor o line.toNat s then
    okay (removeRequests (fun e => e.requester == .origin o && e.line == line.toNat) s)
  else
    match claimOf line.toNat s with
    | none => refuse .notFound s
    | some b =>
      if s.buses[b].holder = some (.origin o) then
        if s.buses[b].isHeld then okay (releaseBus b .requested s)
        else if s.buses[b].state = .releasing then refuse .wrongState s
        else refuse .notPermitted s
      else refuse .notPermitted s

/-- RELEASE. It is no row of the opcode table, and reaches the machine as a message. -/
def releaseCommand (hd : Header) (line : Word) (s : State) : State := takeFixed 2 hd 8 (releaseRule line) s

/-! ### RESTORE BUS (R39) -/

/-- The record of a stuck bus released with cause RESTORE. -/
def Bus.restoring (x : Bus) : Bus :=
  { x with
    state := .releasing
    order := .brk (x.line.getD 0)
    timer := some 0
    makeTimeouts := 0
    stuck := false
    lateWatch := false
    cause := some .restore }

/-- An OUT_OF_SERVICE bus returns to use. -/
def restoreBusNo (b : BusNo) (s : State) : State :=
  let x := s.buses[b]
  if x.stuck then s.setBus b x.restoring
  else grantPass (s.setBus b { x.released .free with makeTimeouts := 0 })

/-- The checks of RESTORE BUS. -/
def restoreBusRule (bus : Octet) : Rule :=
  processorOnly fun s =>
    match unitOf 8 bus with
    | none => refuse .badField s
    | some b => if s.buses[b].state = .outOfService then okay (restoreBusNo b s) else refuse .wrongState s

/-- RESTORE BUS. -/
def restoreBusCommand (hd : Header) (bus : Octet) (s : State) : State := takeFixed 20 hd 7 (restoreBusRule bus) s

/-- The meaning of RESTORE BUS. -/
def execRestoreBus (hd : Header) (bus : Octet) (s : State) : Host.Outcome State Fault Refusal :=
  .next (restoreBusCommand hd bus s)

end Sys2Proof.Machine
end

