-- ==== Sys2Proof/Machine/SweepCommands.lean ====
section
/-! DEFINITION. The commands on sweep descriptors: ARM, SUSPEND, RESUME, DISARM and READ SWEEP (R156 to R158, R167), and
the expiry of a pace (R164). -/

namespace Sys2Proof.Machine

/-- The common part of the descriptor commands (R156): a desk origin, then the descriptor's number. -/
def onDescriptor (descriptor : Octet) (rule : SweepNo → State → State × Answer) : Rule :=
  processorOnly fun s =>
    match unitOf 8 descriptor with
    | none => refuse .badField s
    | some d => rule d s

/-- The descriptor enters ARMED and takes its step (R159), which a grant pass follows (R47). -/
def rearm (d : SweepNo) (x : Descriptor) (s : State) : State :=
  grantPass (sweepStep d (s.setSweep d { x with state := .armed }))

/-! ### ARM (R156) -/

/-- The dynamic fields at the start of a pass. -/
def armedFields (c : SweepConfig) : Descriptor := { config := some c, state := .armed, remaining := c.count, pass := 1 }

/-- ARM on a descriptor. -/
def armOn (d : SweepNo) (s : State) : State × Answer :=
  let x := s.sweeps[d]
  if x.state = .idle ∨ x.state = .done then
    match x.config with
    | none => refuse .notFound s
    | some c => okay (rearm d (armedFields c) s)
  else refuse .wrongState s

/-- ARM. -/
def armCommand (hd : Header) (descriptor : Octet) (s : State) : State :=
  takeFixed 14 hd 7 (onDescriptor descriptor armOn) s

/-- The meaning of ARM. -/
def execArm (hd : Header) (descriptor : Octet) (s : State) : Host.Outcome State Fault Refusal :=
  .next (armCommand hd descriptor s)

/-! ### SUSPEND and RESUME (R157) -/

/-- SUSPEND on a descriptor. -/
def suspendOn (d : SweepNo) (s : State) : State × Answer :=
  let x := s.sweeps[d]
  match x.state with
  | .armed => okay (s.setSweep d { x with state := .suspended })
  | .active => okay (s.setSweep d { x with suspendPending := true })
  | .idle => refuse .wrongState s
  | .suspended => refuse .wrongState s
  | .done => refuse .wrongState s

/-- SUSPEND. -/
def suspendCommand (hd : Header) (descriptor : Octet) (s : State) : State :=
  takeFixed 15 hd 7 (onDescriptor descriptor suspendOn) s

/-- The meaning of SUSPEND. -/
def execSuspend (hd : Header) (descriptor : Octet) (s : State) : Host.Outcome State Fault Refusal :=
  .next (suspendCommand hd descriptor s)

/-- RESUME on a descriptor. -/
def resumeOn (d : SweepNo) (s : State) : State × Answer :=
  let x := s.sweeps[d]
  match x.state with
  | .suspended => okay (rearm d x s)
  | .active => if x.suspendPending then okay (s.setSweep d { x with suspendPending := false }) else refuse .wrongState s
  | .idle => refuse .wrongState s
  | .armed => refuse .wrongState s
  | .done => refuse .wrongState s

/-- RESUME. -/
def resumeCommand (hd : Header) (descriptor : Octet) (s : State) : State :=
  takeFixed 16 hd 7 (onDescriptor descriptor resumeOn) s

/-- The meaning of RESUME. -/
def execResume (hd : Header) (descriptor : Octet) (s : State) : Host.Outcome State Fault Refusal :=
  .next (resumeCommand hd descriptor s)

/-! ### DISARM (R158) -/

/-- The descriptor as DISARM leaves it: IDLE, its counts, pass number, next index and remaining count kept. -/
def Descriptor.disarmed (x : Descriptor) : Descriptor :=
  { x with
    state := .idle
    inFlight := none
    suspendPending := false
    deferredPhase := false
    deferred := []
    pace := .stopped }

/-- The line in flight of a disarmed descriptor ends uncounted: its entry is removed, or its bus is released with cause
REQUESTED. The record handed back finds the descriptor IDLE. -/
def endLine (d : SweepNo) (s : State) : State :=
  let s1 := removeRequests (fun e => e.requester == .sweep d) s
  match busHeldBy (.sweep d) s1 with
  | none => s1
  | some b => releaseBus b .requested s1

/-- DISARM on a descriptor; on an IDLE one it changes nothing. -/
def disarmOn (d : SweepNo) (s : State) : State × Answer :=
  if s.sweeps[d].state = .idle then okay s else okay (endLine d (s.setSweep d s.sweeps[d].disarmed))

/-- DISARM. -/
def disarmCommand (hd : Header) (descriptor : Octet) (s : State) : State :=
  takeFixed 17 hd 7 (onDescriptor descriptor disarmOn) s

/-- The meaning of DISARM. -/
def execDisarm (hd : Header) (descriptor : Octet) (s : State) : Host.Outcome State Fault Refusal :=
  .next (disarmCommand hd descriptor s)

/-! ### READ SWEEP (R167) -/

/-- READ SWEEP, from any origin. -/
def readSweepRule (descriptor : Octet) : Rule := fun _ s =>
  match unitOf 8 descriptor with
  | none => refuse .badField s
  | some d => okayWith (.sweep d s.sweeps[d]) s

/-- READ SWEEP. -/
def readSweepCommand (hd : Header) (descriptor : Octet) (s : State) : State :=
  takeFixed 18 hd 7 (readSweepRule descriptor) s

/-- The meaning of READ SWEEP. -/
def execReadSweep (hd : Header) (descriptor : Octet) (s : State) : Host.Outcome State Fault Refusal :=
  .next (readSweepCommand hd descriptor s)

/-! ### PACE_EXPIRY (R164) -/

/-- A running pace timer has reached its limit, 8 × pace. -/
def paceDue (x : Descriptor) : Bool :=
  match x.pace with
  | .running n limit => decide (limit ≤ n)
  | _ => false

/-- The pace of a descriptor expires: it stays expired, and an ARMED descriptor takes its next step (R159). -/
def paceExpires (d : SweepNo) (s : State) : State :=
  let x := s.sweeps[d]
  if paceDue x then
    let s1 := s.setSweep d { x with pace := .expired }
    if x.state = .armed then grantPass (sweepStep d s1) else s1
  else s

/-- The meaning of PACE_EXPIRY. -/
def execPaceExpiry (d : SweepNo) (s : State) : Host.Outcome State Fault Refusal := .next (paceExpires d s)

end Sys2Proof.Machine
end

