-- ==== Sys2Proof/Machine/System.lean ====
section
/-! DEFINITION. READ COUNTERS (R175), the desk clock and SET CLOCK (R176), RESET (R177) and the power-on reset (R178). -/

namespace Sys2Proof.Machine

/-! ### READ COUNTERS (R175) -/

/-- The four counter groups. -/
inductive Group where
  | highway | access | heads | tickets
  deriving DecidableEq, Repr

/-- The group of an octet. -/
def groupOf (o : Octet) : Option Group :=
  match o.toNat with
  | 0 => some .highway
  | 1 => some .access
  | 2 => some .heads
  | 3 => some .tickets
  | _ => none

/-- The HIGHWAY counts in the order of R175. -/
def highwayCounts (c : HighwayCounters) : List Nat :=
  [c.gains, c.losses, c.misses, c.badFrames, c.msgBad, c.msgCut, c.commandsTaken, c.cmdDropped, c.noticesLost,
    c.noticePeak]

/-- The seven counts of a bus in the order of R42. -/
def busCounts (c : BusCounters) : List Nat :=
  [c.grants, c.makeTimeouts, c.lateConfirmations, c.guardRefusals, c.releaseTimeouts, c.relayFaults, c.busFaults]

/-- The ten counts of a head in the order of R91, then its two figures (R106). -/
def headCounts (c : HeadCounters) : List Nat :=
  [c.assignments, c.measurementsEnded, c.lostSamples, c.phaseRepeats, c.rangeChanges, c.echoTimeouts, c.returnTimeouts,
    c.faultFlags, c.echoDepartures, c.headFaults, c.clippedSamples, c.peakVoltage]

/-- The TICKETS counts in the order of R140. -/
def ticketCounts (c : TicketCounters) : List Nat :=
  [c.findings, c.raised, c.occurrences, c.membersAdded, c.memberOverflow, c.dropped, c.evicted, c.closed,
    c.peakOccupancy]

/-- The counts of a group as they stand, in the order of R180. -/
def groupCounts (g : Group) (s : State) : List Nat :=
  match g with
  | .highway => highwayCounts s.highway
  | .access => (allBuses.flatMap fun b => busCounts s.busCounters[b]) ++ [s.queuePeak, s.preemptions]
  | .heads => allHeads.flatMap fun h => headCounts s.headCounters[h]
  | .tickets => ticketCounts s.ticketCounters

/-- Clears a group: every count 0, and each peak the present occupancy of its collection (R56, R106, R140, R175). -/
def clearGroup (g : Group) (s : State) : State :=
  match g with
  | .highway => { s with highway := { noticePeak := s.notices.length } }
  | .access => { s with busCounters := Vector.replicate 8 {}, queuePeak := s.queue.length, preemptions := 0 }
  | .heads => { s with headCounters := Vector.replicate 4 {} }
  | .tickets => { s with ticketCounters := { peakOccupancy := s.tickets.length } }

/-- The checks of READ COUNTERS, the snapshot and the clear. -/
def readCountersRule (group clear : Octet) : Rule := fun o s =>
  match groupOf group, flagOf clear with
  | some g, some c =>
    if c && isDesk o then refuse .notPermitted s
    else okayWith (.counters group (groupCounts g s)) (if c then clearGroup g s else s)
  | _, _ => refuse .badField s

/-- READ COUNTERS. -/
def readCountersCommand (hd : Header) (group clear : Octet) (s : State) : State :=
  takeFixed 24 hd 8 (readCountersRule group clear) s

/-- The meaning of READ COUNTERS. -/
def execReadCounters (hd : Header) (group clear : Octet) (s : State) : Host.Outcome State Fault Refusal :=
  .next (readCountersCommand hd group clear s)

/-! ### The desk clock (R176) -/

/-- SET CLOCK: the clock is loaded, the frame count set to 0, and the old value returned. -/
def setClockRule (seconds : BitVec 32) : Rule :=
  processorOnly fun s => okayWith (.clock s.clock) { s with clock := seconds.toNat, frameCount := 0 }

/-- SET CLOCK. -/
def setClockCommand (hd : Header) (seconds : BitVec 32) (s : State) : State :=
  takeFixed 25 hd 10 (setClockRule seconds) s

/-- The meaning of SET CLOCK. -/
def execSetClock (hd : Header) (seconds : BitVec 32) (s : State) : Host.Outcome State Fault Refusal :=
  .next (setClockCommand hd seconds s)

/-- The frame count rises with an outbound frame: as it passes 7,999 it returns to 0 and the clock rises by one, from its
largest value to 0. -/
def countClock (s : State) : State :=
  if s.frameCount + 1 < Config.framesPerSecond then { s with frameCount := s.frameCount + 1 }
  else { s with frameCount := 0, clock := (s.clock + 1) % 4294967296 }

/-- CLOCK_SECOND: a frame count at its largest value passes it with the outbound frame that comes, and that frame is then not
counted again (log entry 13). Short of that value the event changes nothing (log entry 2). -/
def secondPasses (s : State) : State :=
  if Config.framesPerSecond ≤ s.frameCount + 1 ∧ s.secondTaken = false then { countClock s with secondTaken := true } else s

/-- What an outbound frame counts beside the desk clock, where CLOCK_SECOND has not counted it. -/
def countOnce (s : State) : State := if s.secondTaken then { s with secondTaken := false } else countClock s

/-- The meaning of CLOCK_SECOND. -/
def execClockSecond (s : State) : Host.Outcome State Fault Refusal := .next (secondPasses s)

/-! ### RESET (R177) -/

/-- RESET on a bus (R41, R57, R90): one in SEIZING, GUARD or HELD is released with cause RESET, one in RELEASING is given a
new release timer; holder, head and mode fields are cleared. -/
def Bus.afterReset (x : Bus) : Bus :=
  let y : Bus := { x.noMode with makeTimeouts := 0, lateWatch := false, head := none }
  match x.state with
  | .seizing => { y.releasing .reset with holder := none }
  | .guard => { y.releasing .reset with holder := none }
  | .held => { y.releasing .reset with holder := none }
  | .releasing => { y with timer := some 0, cause := some .reset, holder := none }
  | .free => y
  | .outOfService => y

/-- RESET on a head (R90): an active one is commanded the rest word and enters RETURNING. -/
def HeadRec.afterReset (x : HeadRec) : HeadRec :=
  match x.state with
  | .awaitEcho => x.returned
  | .settling => x.returned
  | .integrating => x.returned
  | .idle => x
  | .returning => x
  | .outOfService => x

/-- RESET on a path entry by its place: the fourteen of owner ACCESS become IDLE (R19). -/
def resetPath (s : State) (i : Fin 30) : PathEntry := if i.val < 14 then idleEntry else s.paths[i]

/-- What RESET does to the state (R19, R41, R55, R57, R90, R141, R168, R169, R176, R177), its reply apart. -/
def resetState (s : State) : State :=
  { s with
    paths := Vector.ofFn (resetPath s)
    tones := Vector.ofFn fun k : Fin 4 => { s.tones[k] with phase := 0 }
    buses := Vector.ofFn fun b : Fin 8 => (s.buses[b]).afterReset
    audio := Vector.replicate 6 none
    queue := []
    arrivals := 0
    rotation := 0
    grantCount := 0
    heads := Vector.ofFn fun h : Fin 4 => (s.heads[h]).afterReset
    headQueue := []
    tickets := []
    numberCounter := 1
    raiseCounter := 0
    repairList := []
    inFlight := []
    sweeps := Vector.ofFn fun d : Fin 8 => { config := (s.sweeps[d]).config }
    assembler := .waiting
    notices := []
    clock := 0
    frameCount := 0 }

/-- The checks of RESET. -/
def resetRule : Rule :=
  processorOnly fun s => if s.replies = [] then okay (resetState s) else refuse .busy s

/-- RESET. -/
def resetCommand (hd : Header) (s : State) : State := takeFixed 26 hd 6 resetRule s

/-- The meaning of RESET. -/
def execReset (hd : Header) (s : State) : Host.Outcome State Fault Refusal := .next (resetCommand hd s)

/-! ### POWER_ON_RESET (R178) -/

/-- Every block returns to its power-on contents. The model's own queue of waiting commands and its counter of free values
are no part of the Controller, and stand. -/
def powerOn (s : State) : State := { State.reset with pending := s.pending, freeCount := s.freeCount }

/-- The meaning of POWER_ON_RESET. -/
def execPowerOnReset (s : State) : Host.Outcome State Fault Refusal := .next (powerOn s)

end Sys2Proof.Machine
end

