-- ==== Sys2Proof/Machine/Tables.lean ====
section
/-! DEFINITION. Loading and reading the seven tables (R181 to R184), with the checks each table's own rule makes (R18, R77,
R108, R110, R143, R154, R183). -/

namespace Sys2Proof.Machine

/-! ### What the loads share (R181) -/

/-- The octets of the `i`-th entry of a load of named entries. -/
def entryOctets (size : Nat) (entries : List Octet) (i : Nat) : List Octet := (entries.drop (i * size)).take size

/-- Reads `n` entries; one that its table's rule does not admit refuses the load. -/
def readEntries {α : Type} (parse : List Octet → Option α) (size : Nat) (entries : List Octet) (n : Nat) :
    Option (List α) :=
  (List.range n).mapM fun i => parse (entryOctets size entries i)

/-- The first-entry and count check of a table of named entries (R181 check 1). -/
def namedRun (most : Nat) (first count : Word) : Bool :=
  decide (first = 0 ∧ 1 ≤ count.toNat ∧ count.toNat ≤ most)

/-- The answer to a load that is applied: the table octet and the count (R181). -/
def loaded (table : Octet) (count : Word) (s : State) : State × Answer := okayWith (.loaded table count.toNat) s

/-- A load of named entries: the run's check, every entry's own checks, and then the rest of its table's rule. -/
def loadNamed {α : Type} (most size : Nat) (parse : List Octet → Option α) (first count : Word)
    (entries : List Octet) (apply : List α → State → State × Answer) : Rule :=
  processorOnly fun s =>
    if namedRun most first count then
      match readEntries parse size entries count.toNat with
      | none => refuse .badField s
      | some es => apply es s
    else refuse .badField s

/-- A load message whose length is 11 octets and those of its entries (R181). -/
def takeLoad (hd : Header) (octets : Nat) (own : Rule) (s : State) : State := takeFixed 22 hd (11 + octets) own s

/-! ### Site parameters (R183) -/

/-- The authority flags of an octet with its unused bits 0. -/
def authorityOf (o : Octet) : Option Authority :=
  if o.toNat < 8 then
    some { monitorBusy := o.getLsbD 0, overrides := o.getLsbD 1, urgent := o.getLsbD 2 }
  else none

/-- A talk gain in its range. -/
def gainOf (o : Octet) : Option Int := if -3 ≤ signed1 o ∧ signed1 o ≤ 3 then some (signed1 o) else none

/-- The authority octets of the six desks. -/
def authoritiesOf (e : List Octet) : Option (List Authority) := allDesks.mapM fun d => authorityOf (octetAt e (8 + 2 * d.val))

/-- The talk gain octets of the six desks. -/
def gainsOf (e : List Octet) : Option (List Int) := allDesks.mapM fun d => gainOf (octetAt e (9 + 2 * d.val))

/-- The numbers of a site parameter record lie in their ranges. -/
def siteNumbersOk (e : List Octet) : Bool :=
  decide (num1 e 0 ≤ 1 ∧ num1 e 1 ≤ 8 ∧ 60 ≤ num2 e 2 ∧ num2 e 2 ≤ 3600 ∧ num1 e 4 ≤ 1 ∧ num1 e 5 < 16
    ∧ num2 e 6 ≤ 10000)

/-- A site parameter record, if every field lies in its range. -/
def siteOf (e : List Octet) : Option SiteParams :=
  if siteNumbersOk e then
    match authoritiesOf e, gainsOf e with
    | some as, some gs =>
      some
        { mains60 := num1 e 0 == 1
          quota := num1 e 1
          window := num2 e 2
          poll := num1 e 4 == 1
          mask := BitVec.ofNat 4 (num1 e 5)
          warning := num2 e 6
          authority := Vector.ofFn fun d : Fin 6 => as.getD d.val {}
          gain := Vector.ofFn fun d : Fin 6 => gs.getD d.val 0 }
    | _, _ => none
  else none

/-- Replaces the site parameters; a change of the sweep quota takes a grant pass (R52, R181). -/
def applySite (p : SiteParams) (s : State) : State :=
  let s1 := { s with site := p }
  if p.quota = s.site.quota then s1 else grantPass s1

/-- The rule of a site parameter load. -/
def loadSiteRule (first count : Word) (entries : List Octet) : Rule :=
  processorOnly fun s =>
    if first = 0 ∧ count = 1 then
      match siteOf entries with
      | none => refuse .badField s
      | some p => loaded 0 count (applySite p s)
    else refuse .badField s

/-- LOAD TABLE of the site parameters. -/
def loadSiteCommand (hd : Header) (first count : Word) (entries : List Octet) (s : State) : State :=
  takeLoad hd (count.toNat * 20) (loadSiteRule first count entries) s

/-- The meaning of LOAD_SITE_PARAMETERS. -/
def execLoadSiteParameters (hd : Header) (first count : Word) (entries : List Octet) (s : State) :
    Host.Outcome State Fault Refusal :=
  .next (loadSiteCommand hd first count entries s)

/-! ### Line class map (R108) -/

/-- A map with the class of one line replaced: the lines rising, and no line of class 0 listed. -/
def putClass (line cls : Nat) : List (Nat × Nat) → List (Nat × Nat)
  | [] => if cls = 0 then [] else [(line, cls)]
  | p :: rest =>
    if line < p.1 then if cls = 0 then p :: rest else (line, cls) :: p :: rest
    else if line = p.1 then if cls = 0 then rest else (line, cls) :: rest
    else p :: putClass line cls rest

/-- The `i`-th class of a run, two to an octet, the first in the upper half (R182). -/
def classAt (entries : List Octet) (i : Nat) : Nat :=
  if i % 2 = 0 then num1 entries (i / 2) / 16 else num1 entries (i / 2) % 16

/-- The checks of a run of lines (R108, R184). -/
def classRunOk (first count : Word) : Bool :=
  decide (first.toNat ≤ Config.lastLine ∧ 1 ≤ count.toNat ∧ count.toNat ≤ 464
    ∧ first.toNat + count.toNat - 1 ≤ Config.lastLine)

/-- Replaces the classes of a run of lines. -/
def applyClasses (first count : Nat) (entries : List Octet) (s : State) : State :=
  { s with
    classMap := (List.range count).foldl (fun m i => putClass (first + i) (classAt entries i) m) s.classMap }

/-- The rule of a class map load; a class of four bits lies from 0 to 15. -/
def loadClassesRule (first count : Word) (entries : List Octet) : Rule :=
  processorOnly fun s =>
    if classRunOk first count then loaded 1 count (applyClasses first.toNat count.toNat entries s)
    else refuse .badField s

/-- LOAD TABLE of the line class map. -/
def loadClassesCommand (hd : Header) (first count : Word) (entries : List Octet) (s : State) : State :=
  takeLoad hd ((count.toNat + 1) / 2) (loadClassesRule first count entries) s

/-- The meaning of LOAD_LINE_CLASS_MAP. -/
def execLoadLineClassMap (hd : Header) (first count : Word) (entries : List Octet) (s : State) :
    Host.Outcome State Fault Refusal :=
  .next (loadClassesCommand hd first count entries s)

/-! ### Limit table (R110) -/

/-- The greatest threshold of a code (R109). -/
def thresholdMax : FaultCode → Nat
  | .leakTR => 1000000000
  | .leakTG => 1000000000
  | .leakRG => 1000000000
  | .shortTR => 1000000000
  | .batteryT => 32767
  | .batteryR => 32767
  | .humT => 32767
  | .humR => 32767
  | .openLoop => 9999999
  | .excessCap => 9999999

/-- The place of a class and code in the limit table (R184). -/
def limitPlace (cls : Nat) (x : FaultCode) (h : cls < 16) : Fin 160 :=
  ⟨cls * 10 + (codeIndex x).val, by have := (codeIndex x).isLt; omega⟩

/-- A limit table entry with its place (R182). -/
def limitEntryOf (e : List Octet) : Option (Fin 160 × LimitEntry) :=
  if h : num1 e 0 < 16 then
    match codeOf (num1 e 1), flagOf (octetAt e 2) with
    | some x, some on =>
      if num1 e 3 ≤ 3 ∧ num4 e 4 ≤ thresholdMax x then
        some (limitPlace (num1 e 0) x h, { enabled := on, threshold := num4 e 4, severity := num1 e 3 })
      else none
    | _, _ => none
  else none

/-- Replaces the entries named, a later one over an earlier (R110). -/
def applyLimits (es : List (Fin 160 × LimitEntry)) (s : State) : State :=
  { s with limits := es.foldl (fun v p => v.set p.1 p.2) s.limits }

/-- The rule of a limit table load. -/
def loadLimitsRule (first count : Word) (entries : List Octet) : Rule :=
  loadNamed 29 8 limitEntryOf first count entries fun es s => loaded 2 count (applyLimits es s)

/-- LOAD TABLE of the limit table. -/
def loadLimitsCommand (hd : Header) (first count : Word) (entries : List Octet) (s : State) : State :=
  takeLoad hd (count.toNat * 8) (loadLimitsRule first count entries) s

/-- The meaning of LOAD_LIMIT_TABLE. -/
def execLoadLimitTable (hd : Header) (first count : Word) (entries : List Octet) (s : State) :
    Host.Outcome State Fault Refusal :=
  .next (loadLimitsCommand hd first count entries s)

/-! ### Program table (R77) -/

/-- A RES or CAP step with source OFF (R77 check 2). -/
def lacksSource (d : StepDef) : Bool := (d.kind == .res || d.kind == .cap) && d.source == .off

/-- A step place of seven octets (R182), if every field holds a value of R76 and R77 check 2 holds. -/
def stepOf (e : List Octet) : Option StepDef :=
  match kindOf (num1 e 0), legsOf (num1 e 1), sourceOf (num1 e 2), rangeOf (num1 e 3), within 1 16 (num1 e 4),
      within 0 500 (num2 e 5) with
  | some k, some l, some v, some r, some w, some t =>
    let d : StepDef := { kind := k, legs := l, source := v, range := r, units := w, settle := t }
    if lacksSource d then none else some d
  | _, _, _, _, _, _ => none

/-- A program entry with its number: the step places beyond the step count are neither checked nor kept (R182). -/
def programOf (e : List Octet) : Option (Fin 16 × List StepDef) :=
  if h : num1 e 0 < 16 then
    if num1 e 1 ≤ 8 then
      (readEntries stepOf 7 (e.drop 2) (num1 e 1)).map fun steps => (⟨num1 e 0, h⟩, steps)
    else none
  else none

/-- Two steps of one program of the same kind on the same legs (R77 check 3). -/
def hasDuplicate : List StepDef → Bool
  | [] => false
  | d :: rest => (rest.any fun e => e.kind == d.kind && e.legs == d.legs) || hasDuplicate rest

/-- Replaces the step lists of the programs named, a later one over an earlier (R181). -/
def applyPrograms (es : List (Fin 16 × List StepDef)) (s : State) : State :=
  { s with programs := es.foldl (fun v p => v.set p.1 p.2) s.programs }

/-- The rule of a program table load. -/
def loadProgramsRule (first count : Word) (entries : List Octet) : Rule :=
  loadNamed 4 58 programOf first count entries fun es s =>
    if es.any fun p => hasDuplicate p.2 then refuse .duplicateStep s else loaded 3 count (applyPrograms es s)

/-- LOAD TABLE of the program table. -/
def loadProgramsCommand (hd : Header) (first count : Word) (entries : List Octet) (s : State) : State :=
  takeLoad hd (count.toNat * 58) (loadProgramsRule first count entries) s

/-- The meaning of LOAD_PROGRAM_TABLE. -/
def execLoadProgramTable (hd : Header) (first count : Word) (entries : List Octet) (s : State) :
    Host.Outcome State Fault Refusal :=
  .next (loadProgramsCommand hd first count entries s)

/-! ### Cable map (R143) -/

/-- A threshold K: 0, or 2 to 64 (R142). -/
def thresholdOk (k : Nat) : Bool := decide (k = 0 ∨ (2 ≤ k ∧ k ≤ 64))

/-- A cable map entry with its cable id; with its present flag 0 its other fields are not checked (R182). -/
def cableEntryOf (e : List Octet) : Option (Fin 256 × Option CableRange) :=
  match flagOf (octetAt e 1) with
  | none => none
  | some false => some ((octetAt e 0).toFin, none)
  | some true =>
    if num2 e 2 ≤ num2 e 4 ∧ num2 e 4 ≤ Config.lastLine ∧ thresholdOk (num1 e 6) then
      some ((octetAt e 0).toFin, some { first := num2 e 2, last := num2 e 4, k := num1 e 6 })
    else none

/-- Two ranges share a line. -/
def CableRange.overlaps (a b : CableRange) : Bool := decide (a.first ≤ b.last ∧ b.first ≤ a.last)

/-- Some two of a list of ranges share a line. -/
def anyOverlap : List CableRange → Bool
  | [] => false
  | a :: rest => (rest.any fun b => a.overlaps b) || anyOverlap rest

/-- The cable map with the entries named replaced, a later one over an earlier. -/
def cablesAfter (es : List (Fin 256 × Option CableRange)) (s : State) : Vector (Option CableRange) 256 :=
  es.foldl (fun v p => v.set p.1 p.2) s.cables

/-- The rule of a cable map load: the ranges that would stand may not overlap. -/
def loadCablesRule (first count : Word) (entries : List Octet) : Rule :=
  loadNamed 34 7 cableEntryOf first count entries fun es s =>
    if anyOverlap ((cablesAfter es s).toList.filterMap id) then refuse .overlap s
    else loaded 4 count { s with cables := cablesAfter es s }

/-- LOAD TABLE of the cable map. -/
def loadCablesCommand (hd : Header) (first count : Word) (entries : List Octet) (s : State) : State :=
  takeLoad hd (count.toNat * 7) (loadCablesRule first count entries) s

/-- The meaning of LOAD_CABLE_MAP. -/
def execLoadCableMap (hd : Header) (first count : Word) (entries : List Octet) (s : State) :
    Host.Outcome State Fault Refusal :=
  .next (loadCablesCommand hd first count entries s)

/-! ### Tone table (R18) -/

/-- A tone table entry with its generator, its phase 0. -/
def toneEntryOf (e : List Octet) : Option (ToneNo × Tone) :=
  match unitOf 4 (octetAt e 0), within 50 3950 (num2 e 1), within 0 32767 (num2 e 3) with
  | some k, some f, some a => some (k, { frequency := f, amplitude := a, phase := 0 })
  | _, _, _ => none

/-- Each generator named takes its frequency and amplitude, and phase 0. -/
def applyTones (es : List (ToneNo × Tone)) (s : State) : State :=
  { s with tones := es.foldl (fun v p => v.set p.1 p.2) s.tones }

/-- The rule of a tone table load. -/
def loadTonesRule (first count : Word) (entries : List Octet) : Rule :=
  loadNamed 4 5 toneEntryOf first count entries fun es s => loaded 5 count (applyTones es s)

/-- LOAD TABLE of the tone table. -/
def loadTonesCommand (hd : Header) (first count : Word) (entries : List Octet) (s : State) : State :=
  takeLoad hd (count.toNat * 5) (loadTonesRule first count entries) s

/-- The meaning of LOAD_TONE_TABLE. -/
def execLoadToneTable (hd : Header) (first count : Word) (entries : List Octet) (s : State) :
    Host.Outcome State Fault Refusal :=
  .next (loadTonesCommand hd first count entries s)

/-! ### Sweep configurations (R154) -/

/-- The numbers of a sweep configuration lie in their ranges. Bits 7 to 3 of the flags octet have no meaning given, and
whether one set refuses the load is a free value (log entry 10). -/
def configNumbersOk (e : List Octet) : Bool :=
  decide (num2 e 1 ≤ Config.lastLine ∧ 1 ≤ num2 e 3 ∧ num2 e 3 ≤ 16384 ∧ 1 ≤ num1 e 5 ∧ num1 e 5 ≤ 64
    ∧ num1 e 6 ≤ 15 ∧ num2 e 8 ≤ 60000 ∧ num2 e 1 + (num2 e 3 - 1) * num1 e 5 ≤ Config.lastLine)
    && !(decide (8 ≤ num1 e 7) && Config.refuseUnusedSweepFlags)

/-- A sweep configuration with its descriptor. -/
def sweepConfigOf (e : List Octet) : Option (SweepNo × SweepConfig) :=
  match unitOf 8 (octetAt e 0) with
  | none => none
  | some d =>
    if configNumbersOk e then
      some (d,
        { first := num2 e 1
          count := num2 e 3
          stride := num1 e 5
          program := num1 e 6
          ticketFlag := (octetAt e 7).getLsbD 0
          stopOnFault := (octetAt e 7).getLsbD 1
          autoReload := (octetAt e 7).getLsbD 2
          pace := num2 e 8 })
    else none

/-- A descriptor in use: neither IDLE nor DONE. -/
def Descriptor.inUse (x : Descriptor) : Bool := !(x.state == .idle || x.state == .done)

/-- Replaces the configuration of one descriptor, its state and dynamic fields left as they stand. -/
def applyConfig (s : State) (p : SweepNo × SweepConfig) : State :=
  s.setSweep p.1 { s.sweeps[p.1] with config := some p.2 }

/-- The rule of a sweep configuration load. -/
def loadConfigsRule (first count : Word) (entries : List Octet) : Rule :=
  loadNamed 8 10 sweepConfigOf first count entries fun es s =>
    if es.any fun p => s.sweeps[p.1].inUse then refuse .busy s else loaded 6 count (es.foldl applyConfig s)

/-- LOAD TABLE of the sweep configurations. -/
def loadConfigsCommand (hd : Header) (first count : Word) (entries : List Octet) (s : State) : State :=
  takeLoad hd (count.toNat * 10) (loadConfigsRule first count entries) s

/-- The meaning of LOAD_SWEEP_CONFIGURATIONS. -/
def execLoadSweepConfigurations (hd : Header) (first count : Word) (entries : List Octet) (s : State) :
    Host.Outcome State Fault Refusal :=
  .next (loadConfigsCommand hd first count entries s)

/-- LOAD TABLE with a table octet above 6: a length of at least 11 is accepted, and the owning checks refuse it (R181). -/
def loadNoTable (hd : Header) (s : State) : State :=
  takeCommand 22 hd (decide (11 ≤ hd.length.toNat)) (processorOnly fun s => refuse .badField s) s

/-! ### READ TABLE (R184) -/

/-- The entries a table has, and the most one READ TABLE returns, for the tables of named entries. -/
def tableSize (table : Nat) : Option (Nat × Nat) :=
  match table with
  | 2 => some (160, 29)
  | 3 => some (16, 4)
  | 4 => some (256, 33)
  | 5 => some (4, 4)
  | 6 => some (8, 8)
  | _ => none

/-- The bounds of a first entry and count (R184). -/
def readRunOk (table : Octet) (first count : Word) : Bool :=
  if table = 0 then decide (first = 0 ∧ count = 1)
  else if table = 1 then classRunOk first count
  else
    match tableSize table.toNat with
    | none => false
    | some (size, most) => decide (1 ≤ count.toNat ∧ count.toNat ≤ most ∧ first.toNat + count.toNat ≤ size)

/-- The octets of one entry of a table of named entries, by its index. -/
def entryAt (table : Nat) (s : State) (i : Nat) : List Octet :=
  match table with
  | 2 => encLimit i (s.limits.toList.getD i {})
  | 3 => encProgram i (s.programs.toList.getD i [])
  | 4 => encCable i (s.cables.toList.getD i none)
  | 5 => encTone i (s.tones.toList.getD i {})
  | 6 => enc1 i ++ encConfig (s.sweeps.toList.getD i {}).config
  | _ => []

/-- The octets of a run of classes. DESIGN CHOICE: the half octet that an odd run leaves over is a free value, since R182 and
R184 give it no value to send (log entry 39). -/
def classOctets (first count : Nat) (s : State) : List Octet :=
  encClasses (Config.unusedHalf s.freeCount s.replies.length) ((List.range count).map fun i => classOf (first + i) s)

/-- The octets of a run of entries of a table. -/
def tableOctets (table : Octet) (first count : Nat) (s : State) : List Octet :=
  if table = 0 then encSite s.site
  else if table = 1 then classOctets first count s
  else (List.range count).flatMap fun i => entryAt table.toNat s (first + i)

/-- The rule of READ TABLE, from any origin. -/
def readTableRule (table : Octet) (first count : Word) : Rule := fun _ s =>
  if readRunOk table first count then
    okayWith (.table table first.toNat count.toNat (tableOctets table first.toNat count.toNat s)) s
  else refuse .badField s

/-- READ TABLE. -/
def readTableCommand (hd : Header) (table : Octet) (first count : Word) (s : State) : State :=
  takeFixed 23 hd 11 (readTableRule table first count) s

/-- The meaning of READ_TABLE. -/
def execReadTable (hd : Header) (table : Octet) (first count : Word) (s : State) :
    Host.Outcome State Fault Refusal :=
  .next (readTableCommand hd table first count s)

end Sys2Proof.Machine
end

