-- ==== Sys2Proof/Machine/TicketCommands.lean ====
section
/-! DEFINITION. The commands on tickets: ACCEPT, REPAIRED, REPAIRED KEY, WITHDRAW, TAKE TICKET and READ TICKET (R130 to
R134, R135a). -/

namespace Sys2Proof.Machine

/-- The common part of ACCEPT, REPAIRED and WITHDRAW (R131): the number's checks, and the ticket found. -/
def onTicket (number : Word) (rule : Ticket → State → State × Answer) : Rule :=
  processorOnly fun s =>
    if number = 0 then refuse .badField s
    else
      match ticketByNumber number.toNat s with
      | none => refuse .notFound s
      | some t => rule t s

/-- A ticket in another state. -/
def Ticket.inState (st : TicketState) (t : Ticket) : Ticket := { t with state := st }

/-! ### ACCEPT and REPAIRED (R132) -/

/-- ACCEPT on a ticket. -/
def acceptOn (t : Ticket) (s : State) : State × Answer :=
  if t.state = .issued then okay (updTicket t.number (Ticket.inState .accepted) s) else refuse .wrongState s

/-- ACCEPT. -/
def acceptCommand (hd : Header) (number : Word) (s : State) : State := takeFixed 8 hd 8 (onTicket number acceptOn) s

/-- The meaning of ACCEPT. -/
def execAccept (hd : Header) (number : Word) (s : State) : Host.Outcome State Fault Refusal :=
  .next (acceptCommand hd number s)

/-- Tickets become REPAIRED, join the end of the repair list in their order, and the scheduler submits what it may (R132,
R133, R135). -/
def repairTickets (numbers : List Nat) (s : State) : State :=
  let s1 := s.setTickets (s.tickets.map fun t => if t.number ∈ numbers then t.inState .repaired else t)
  submitRetests (s1.setRepairList (s1.repairList ++ numbers))

/-- REPAIRED on a ticket. -/
def repairedOn (t : Ticket) (s : State) : State × Answer :=
  if t.state = .accepted then okay (repairTickets [t.number] s) else refuse .wrongState s

/-- REPAIRED. -/
def repairedCommand (hd : Header) (number : Word) (s : State) : State := takeFixed 9 hd 8 (onTicket number repairedOn) s

/-- The meaning of REPAIRED. -/
def execRepaired (hd : Header) (number : Word) (s : State) : Host.Outcome State Fault Refusal :=
  .next (repairedCommand hd number s)

/-! ### REPAIRED KEY (R133) -/

/-- Whether a key of a cable and a code reaches a ticket. -/
def reachedBy (cable : Nat) (x : FaultCode) (t : Ticket) : Bool :=
  t.code == x && (t.subject == .cable cable || (t.isLine && t.linked == some cable))

/-- The numbers of the ACCEPTED tickets a key reaches, in ascending raise order. -/
def keyNumbers (cable : Nat) (x : FaultCode) (s : State) : List Nat :=
  (byRaise s (s.tickets.filter fun t => reachedBy cable x t && t.state == .accepted)).map Ticket.number

/-- REPAIRED KEY of a cable and a code. -/
def repairedKeyOn (cable : Nat) (x : FaultCode) (s : State) : State × Answer :=
  let ns := keyNumbers cable x s
  if ns = [] then refuse .notFound s else okayWith (.moved ns.length) (repairTickets ns s)

/-- The checks of REPAIRED KEY; every value of the cable octet is a cable id. -/
def repairedKeyRule (cable code : Octet) : Rule :=
  processorOnly fun s =>
    match codeOf code.toNat with
    | none => refuse .badField s
    | some x => repairedKeyOn cable.toNat x s

/-- REPAIRED KEY. -/
def repairedKeyCommand (hd : Header) (cable code : Octet) (s : State) : State :=
  takeFixed 10 hd 8 (repairedKeyRule cable code) s

/-- The meaning of REPAIRED KEY. -/
def execRepairedKey (hd : Header) (cable code : Octet) (s : State) : Host.Outcome State Fault Refusal :=
  .next (repairedKeyCommand hd cable code s)

/-! ### WITHDRAW (R134) -/

/-- The retest in flight of a withdrawn ticket ends: its waiting request is removed, or the bus it holds is released with
cause REQUESTED (R54, R134). -/
def endRetest (number : Nat) (s : State) : State :=
  let s1 := removeRequests (fun e => e.requester == .retest number) s
  match busHeldBy (.retest number) s1 with
  | none => s1
  | some b => releaseBus b .requested s1

/-- WITHDRAW on a ticket: it leaves the table, the repair list and the retests in flight, and its links are undone. A
retest that ends frees its place, and the scheduler submits what it may (R135). -/
def withdrawOn (t : Ticket) (s : State) : State × Answer :=
  let s1 := freePlace t.number (unlink t (removeTicket t.number s))
  let s2 := s1.setRepairList (s1.repairList.filter fun n => n != t.number)
  okay (if t.state = .retesting then submitRetests (endRetest t.number s2) else s2)

/-- WITHDRAW. -/
def withdrawCommand (hd : Header) (number : Word) (s : State) : State := takeFixed 11 hd 8 (onTicket number withdrawOn) s

/-- The meaning of WITHDRAW. -/
def execWithdraw (hd : Header) (number : Word) (s : State) : Host.Outcome State Fault Refusal :=
  .next (withdrawCommand hd number s)

/-! ### TAKE TICKET (R130) -/

/-- TAKE TICKET's issue decision. -/
def takeTicketRule : Rule :=
  processorOnly fun s =>
    if !s.site.poll then refuse .wrongState s
    else
      match firstPending s with
      | none => refuse .none s
      | some t => if mayIssue t s then okayWith (.ticket t) (issue t s) else refuse .windowFull s

/-- TAKE TICKET. -/
def takeTicketCommand (hd : Header) (s : State) : State := takeFixed 12 hd 6 takeTicketRule s

/-- The meaning of TAKE TICKET. -/
def execTakeTicket (hd : Header) (s : State) : Host.Outcome State Fault Refusal := .next (takeTicketCommand hd s)

/-! ### READ TICKET (R135a) -/

/-- The ticket of the lowest number of a list. -/
def lowestNumber : List Ticket → Option Ticket
  | [] => none
  | t :: rest =>
    match lowestNumber rest with
    | none => some t
    | some u => if u.number < t.number then some u else some t

/-- READ TICKET by a selector: `true` is NEXT. -/
def readTicketOn (number : Nat) (next : Bool) (first : Nat) (s : State) : State × Answer :=
  if next then
    match lowestNumber (s.tickets.filter fun t => decide (number < t.number)) with
    | none => refuse .none s
    | some t => okayWith (.fullTicket t first) s
  else if number = 0 then refuse .badField s
  else
    match ticketByNumber number s with
    | none => refuse .notFound s
    | some t => okayWith (.fullTicket t first) s

/-- The checks of READ TICKET. -/
def readTicketRule (number : Word) (selector first : Octet) : Rule := fun _ s =>
  match flagOf selector with
  | none => refuse .badField s
  | some next => if 63 < first.toNat then refuse .badField s else readTicketOn number.toNat next first.toNat s

/-- READ TICKET. It is no row of the opcode table, and reaches the machine as a message. -/
def readTicketCommand (hd : Header) (number : Word) (selector first : Octet) (s : State) : State :=
  takeFixed 13 hd 10 (readTicketRule number selector first) s

end Sys2Proof.Machine
end

