-- ==== Sys2Proof/Machine/Messages.lean ====
section
/-! DEFINITION. The inbound assembler (R169, R170) and the giving of a complete message to the command its kind names
(R171, R180). -/

namespace Sys2Proof.Machine

/-! ### A message to its command -/

/-- A LOAD TABLE message by its table octet (R181). -/
def loadMessage (hd : Header) (body : List Octet) (s : State) : State :=
  let first := word2 body 1
  let count := word2 body 3
  let entries := body.drop 5
  match num1 body 0 with
  | 0 => loadSiteCommand hd first count entries s
  | 1 => loadClassesCommand hd first count entries s
  | 2 => loadLimitsCommand hd first count entries s
  | 3 => loadProgramsCommand hd first count entries s
  | 4 => loadCablesCommand hd first count entries s
  | 5 => loadTonesCommand hd first count entries s
  | 6 => loadConfigsCommand hd first count entries s
  | _ => loadNoTable hd s

/-- A LOAD TABLE message too short to hold its table, first entry and count has a length no load suits (R171 check 2). -/
def loadOrShort (hd : Header) (body : List Octet) (s : State) : State :=
  if hd.length.toNat < 11 then takeCommand 22 hd false (fun _ s => refuse .badLength s) s else loadMessage hd body s

/-- A checked message is a command of its kind (R171, R180): the fields of its body, in order. -/
def messageCommand (hd : Header) (kind : Octet) (body : List Octet) (s : State) : State :=
  match kind.toNat with
  | 1 => seizeCommand hd (word2 body 0) (octetAt body 2) s
  | 2 => releaseCommand hd (word2 body 0) s
  | 3 => talkCommand hd (word2 body 0) s
  | 4 => monitorCommand hd (word2 body 0) s
  | 5 => sendToneCommand hd (word2 body 0) (octetAt body 2) s
  | 6 => standbyCommand hd (word2 body 0) s
  | 7 => measureCommand hd (word2 body 0) (octetAt body 2) (octetAt body 3) s
  | 8 => acceptCommand hd (word2 body 0) s
  | 9 => repairedCommand hd (word2 body 0) s
  | 10 => repairedKeyCommand hd (octetAt body 0) (octetAt body 1) s
  | 11 => withdrawCommand hd (word2 body 0) s
  | 12 => takeTicketCommand hd s
  | 13 => readTicketCommand hd (word2 body 0) (octetAt body 2) (octetAt body 3) s
  | 14 => armCommand hd (octetAt body 0) s
  | 15 => suspendCommand hd (octetAt body 0) s
  | 16 => resumeCommand hd (octetAt body 0) s
  | 17 => disarmCommand hd (octetAt body 0) s
  | 18 => readSweepCommand hd (octetAt body 0) s
  | 19 => setPathCommand hd (octetAt body 0) (octetAt body 1) (octetAt body 2) (octetAt body 3) (octetAt body 4) s
  | 20 => restoreBusCommand hd (octetAt body 0) s
  | 21 => restoreHeadCommand hd (octetAt body 0) s
  | 22 => loadOrShort hd body s
  | 23 => readTableCommand hd (octetAt body 0) (word2 body 1) (word2 body 3) s
  | 24 => readCountersCommand hd (octetAt body 0) (octetAt body 1) s
  | 25 => setClockCommand hd (word4 body 0) s
  | 26 => resetCommand hd s
  | _ => taken kind hd (refuse .unknownKind) s

/-- The meaning of UNKNOWN_KIND_COMMAND: a checked message with its kind. A kind that is a command's own is taken as that
command (R171). -/
def execUnknownKindCommand (hd : Header) (kind : Octet) (body : List Octet) (s : State) :
    Host.Outcome State Fault Refusal :=
  .next (messageCommand hd kind body s)

/-! ### The assembler (R169, R170) -/

/-- The sum of a message's octets before its check equals its check (R170, R180). -/
def messageChecks (octets : List Octet) : Bool :=
  let front := octets.take (octets.length - 2)
  octetSum front == word2 octets (octets.length - 2)

/-- Counts a message MSG_BAD. -/
def countBad (s : State) : State := countHighway (fun c => { c with msgBad := satInc c.msgBad }) s

/-- Counts a message MSG_CUT, if one was being assembled. -/
def countCut (s : State) : State :=
  match s.assembler with
  | .waiting => s
  | .assembling _ _ => countHighway (fun c => { c with msgCut := satInc c.msgCut }) s

/-- A complete message is checked, and taken as a command if its check holds (R170). -/
def completeMessage (octets : List Octet) (s : State) : State :=
  if messageChecks octets then
    messageCommand { length := octetAt octets 0, tag := octetAt octets 2, origin := octetAt octets 3 } (octetAt octets 1)
      ((octets.drop 4).take (octets.length - 6)) s
  else countBad s

/-- Octets gathered toward a promised length, those beyond it being fill: the message is complete, or the assembler goes
on (R169). -/
def gather (octets : List Octet) (promised : Nat) (s : State) : State :=
  if promised ≤ octets.length then completeMessage (octets.take promised) (s.setAssembler .waiting)
  else s.setAssembler (.assembling octets promised)

/-- A message begins: the octet in slot 1 is its length, and one below 6 or above 250 ends it at once (R169). -/
def beginMessage (octets : List Octet) (s : State) : State :=
  let promised := num1 octets 0
  if promised < 6 ∨ 250 < promised then countBad (s.setAssembler .waiting) else gather octets promised s

/-- The S flag and the management octets of a taken frame act on the assembler (R169). -/
def assemble (good start : Bool) (octets : List Octet) (s : State) : State :=
  if good then
    if start then beginMessage octets (countCut s)
    else
      match s.assembler with
      | .waiting => s
      | .assembling before promised => gather (before ++ octets) promised s
  else (countCut s).setAssembler .waiting

end Sys2Proof.Machine
end

