-- ==== Sys2Proof/Machine/Paths.lean ====
section
/-! DEFINITION. The slot path unit: the actions of path entries, the tone generators and the words of outbound slots 17
to 46 (R12 to R18). -/

namespace Sys2Proof.Machine

/-- Saturation of R13: above +32,767 is sent as +32,767, below −32,767 as −32,767. -/
def saturate (x : Int) : Int := if 32767 < x then 32767 else if x < -32767 then -32767 else x

/-- A signed value as a slot word. -/
def wordOf (x : Int) : Word := BitVec.ofInt 16 x

/-- The source store's word of an inbound slot, signed; an absent source contributes 0 (R12). -/
def sourceValue (slot : Option Nat) (s : State) : Int :=
  match slot with
  | none => 0
  | some n => if h : 5 ≤ n ∧ n < 47 then signedWord (s.store[n - 5]'(by omega)) else 0

/-! ### Tone generators (R17) -/

/-- The increment of a generator: f × 65,536 / 8,000 to the nearest whole number, a half upward. -/
def toneIncrement (frequency : Nat) : Nat := (2 * frequency * 65536 + 8000) / 16000

/-- The binary digits after the point in the sine's arithmetic. -/
def sineBits : Nat := 96

/-- π × 2^96, to the nearest whole number. -/
def piScaled : Int := 248902613312231085230521944622

/-- The Taylor terms of sin x from x^(2k+1)/(2k+1)! on, added with alternating signs; `x2` is x² and `term` the current
term, both × 2^96. -/
def sineSeries (x2 : Int) : Nat → Nat → Int → Int
  | 0, _, _ => 0
  | fuel + 1, k, term =>
    term - sineSeries x2 fuel (k + 1) (term * x2 / 2 ^ sineBits / ((2 * (k : Int) + 2) * (2 * k + 3)))

/-- sin (2π × q / 65,536) × 2^96 for q from 0 to 16,384, a quarter of the circle. -/
def sineQuarter (q : Nat) : Int :=
  if q = 16384 then 2 ^ sineBits
  else
    let x := (q : Int) * piScaled / 32768
    sineSeries (x * x / 2 ^ sineBits) 20 0 x

/-- sin (2π × phase / 65,536) × 2^96. -/
def sineScaled (phase : Nat) : Int :=
  let p := phase % 65536
  if p ≤ 16384 then sineQuarter p
  else if p ≤ 32768 then sineQuarter (32768 - p)
  else if p ≤ 49152 then -sineQuarter (p - 32768)
  else -sineQuarter (65536 - p)

/-- A value × 2^96 to the nearest whole number, a half away from zero. -/
def roundScaled (x : Int) : Int :=
  if 0 ≤ x then (2 * x + 2 ^ sineBits) / 2 ^ (sineBits + 1) else -((-(2 * x) + 2 ^ sineBits) / 2 ^ (sineBits + 1))

/-- The output word of a generator at its present phase (R17). -/
def toneValue (t : Tone) : Int := roundScaled ((t.amplitude : Int) * sineScaled t.phase)

/-- A generator's phase advanced by its increment, modulo 65,536 (R17). -/
def advanceTone (t : Tone) : Tone := { t with phase := (t.phase + toneIncrement t.frequency) % 65536 }

/-! ### Path entries (R12 to R14) -/

/-- GAIN n of a signed word: multiplied and saturated, or divided and rounded toward minus infinity (R14). -/
def gainValue (n x : Int) : Int :=
  if n = 0 then x
  else if 0 < n then saturate (x * 2 ^ n.toNat)
  else x / 2 ^ (-n).toNat

/-- The outgoing value of a path entry (R12 to R14). -/
def entryValue (e : PathEntry) (s : State) : Int :=
  match e.action with
  | .idle => 0
  | .pass => sourceValue e.primary s
  | .invert => saturate (-sourceValue e.primary s)
  | .gain n => gainValue n (sourceValue e.primary s)
  | .mix => saturate (sourceValue e.primary s + sourceValue e.secondary s)
  | .tone k => toneValue s.tones[k]

/-- The words of outbound slots 17 to 46 (R12). -/
def pathWords (s : State) : List Word := s.paths.toList.map fun e => wordOf (entryValue e s)

/-- Advances one generator. -/
def advanceToneAt (s : State) (k : ToneNo) : State := s.setTone k (advanceTone s.tones[k])

/-- Advances every generator, at the start of an outbound frame after its words are formed (R17). -/
def advanceTones (s : State) : State := allTones.foldl advanceToneAt s

/-- Replaces the source store by the words a good frame carried in slots 5 to 46 (R11). -/
def storeFrame (f : Frame) (s : State) : State :=
  { s with store := Vector.ofFn fun i : Fin 42 => f[i.val + 5]'(by omega) }

/-- Sets every word of the source store to 0, at a loss of alignment (R7, R11). -/
def clearStore (s : State) : State := { s with store := Vector.replicate 42 0 }

end Sys2Proof.Machine
end

