-- ==== Sys2Proof/Machine/Highway.lean ====
section
/-! DEFINITION. The inbound highway: alignment (R4 to R8), the taking of a frame and the acts of its hand-over (R2, R9,
R10), and the expiries and ends that frames bring about (R25, R73, R80, R82, R83). -/

namespace Sys2Proof.Machine

/-! ### The acts of one frame (R2) -/

/-- The acts every taken frame has, in the order of the slots. -/
def frameActs : List Act :=
  allBuses.map Act.condition ++ allHeads.map Act.head ++ [.management, .assignment]

/-- The acts of a taken frame in the order the event gives them: those it lists, each once, and then the rest of what every
frame has. -/
def actsOf (order : List Act) : List Act :=
  let listed := order.eraseDups
  listed ++ frameActs.filter fun a => a ∉ listed

/-- The assignment pass of the first frame taken after a gain of alignment (R75, R89). -/
def firstPass (s : State) : State := if s.assignDue then assignmentPass { s with assignDue := false } else s

/-- One act of a taken frame. -/
def runAct (good : Bool) (f : Frame) (s : State) (a : Act) : State :=
  match a with
  | .condition b => conditionFrame b good (f[25 + b.val]'(by omega)) s
  | .head h => headFrame h (headWords good f h) s
  | .management => assemble good (startFlag f) (managementOctets f) s
  | .assignment => firstPass s
  | .busExpiry b => busExpires b s
  | .headExpiry h => headExpires h s
  | .settle h => settleEnds h s
  | .window h => chargeWindowEnds h (windowEnds h s)

/-- Every bus and head timer that runs rises by one (R25, R73). -/
def tickTimers (s : State) : State := allHeads.foldl tickHead (allBuses.foldl tickBus s)

/-- A frame is taken (R2): timers rise, a good frame fills the source store (R11), and its acts are done. -/
def takeFrame (good : Bool) (f : Frame) (order : List Act) (s : State) : State :=
  let s1 := tickTimers s
  (actsOf order).foldl (runAct good f) (if good then storeFrame f s1 else s1)

/-- A frame whose pattern is present is classed by its check and taken (R9). -/
def classAndTake (f : Frame) (order : List Act) (s : State) : State :=
  if checkHolds f then takeFrame true f order s
  else takeFrame false f order (countHighway (fun c => { c with badFrames := satInc c.badFrames }) s)

/-! ### What earlier frames left due -/

/-- A head's settle end and window end, if due. -/
def headDue (s : State) (h : HeadNo) : State := chargeWindowEnds h (windowEnds h (settleEnds h s))

/-- Takes the expiries and ends that earlier frames brought about and no step has taken yet, before the next frame. -/
def inboundDue (s : State) : State :=
  allHeads.foldl (fun t h => headExpires h t)
    (allBuses.foldl (fun t b => busExpires b t) (allHeads.foldl headDue s))

/-! ### Alignment (R4 to R8) -/

/-- Alignment is lost (R7, R40, R89, R169, R173): the search starts after the first bit of the frame examined. -/
def loseAlignment (position : Nat) (s : State) : State :=
  let s1 := countHighway (fun c => { c with losses := satInc c.losses }) (s.setAlignment (.hunting (position + 1)))
  let s2 := allHeads.foldl loseHead (allBuses.foldl dropCandidate s1)
  let s3 := (countCut s2).setAssembler .waiting
  clearStore (pushNotice 6 .highwayLost s3)

/-- Alignment is gained at a position (R8): debouncers begin with no candidate, HIGHWAY_RESTORED is queued, and the first
frame taken owes an assignment pass. -/
def gainAlignment (position : Nat) (s : State) : State :=
  let s1 := countHighway (fun c => { c with gains := satInc c.gains }) (s.setAlignment (.aligned position 0))
  let s2 := pushNotice 6 .highwayRestored (allBuses.foldl dropCandidate s1)
  { s2 with assignDue := true }

/-- HUNT_PATTERN_FOUND (R4): the pattern at a position the search has yet to examine becomes the candidate. -/
def patternFound (position : Nat) (bits : BitVec 15) (s : State) : State :=
  match s.alignment with
  | .hunting from_ =>
    if from_ ≤ position ∧ bits = alignmentPattern then s.setAlignment (.confirming position 1) else s
  | .confirming _ _ => s
  | .aligned _ _ => s

/-- The meaning of HUNT_PATTERN_FOUND. -/
def execHuntPatternFound (position : Nat) (bits : BitVec 15) (s : State) : Host.Outcome State Fault Refusal :=
  .next (patternFound position bits s)

/-- CONFIRMATION_FRAME (R5). DESIGN CHOICE: the gain and the frame it takes are one step, so a command completed in that frame
has its reply waiting beside HIGHWAY_RESTORED, and R174 chooses the reply first (log entry 38). -/
def confirmFrame (f : Frame) (order : List Act) (s : State) : State :=
  match s.alignment with
  | .hunting _ => s
  | .aligned _ _ => s
  | .confirming candidate count =>
    let position := candidate + Config.frameBits * count
    if hasPattern f then
      if count < 2 then s.setAlignment (.confirming candidate (count + 1))
      else classAndTake f order (gainAlignment position (inboundDue s))
    else s.setAlignment (.hunting (position + 1))

/-- The meaning of CONFIRMATION_FRAME. -/
def execConfirmationFrame (f : Frame) (order : List Act) (s : State) : Host.Outcome State Fault Refusal :=
  .next (confirmFrame f order s)

/-- A missed frame (R6): taken as bad, or the fourth in a row, with which alignment is lost. -/
def missFrame (position misses : Nat) (f : Frame) (order : List Act) (s : State) : State :=
  let s1 := countHighway (fun c => { c with misses := satInc c.misses }) s
  if misses < 3 then takeFrame false f order (s1.setAlignment (.aligned position (misses + 1)))
  else loseAlignment position s1

/-- INBOUND_FRAME (R6). -/
def inboundFrame (f : Frame) (order : List Act) (s : State) : State :=
  match s.alignment with
  | .hunting _ => s
  | .confirming _ _ => s
  | .aligned last misses =>
    let position := last + Config.frameBits
    let s0 := inboundDue s
    if hasPattern f then classAndTake f order (s0.setAlignment (.aligned position 0))
    else missFrame position misses f order s0

/-- The meaning of INBOUND_FRAME. -/
def execInboundFrame (f : Frame) (order : List Act) (s : State) : Host.Outcome State Fault Refusal :=
  .next (inboundFrame f order s)

/-! ### Expiries and ends as events of their own -/

/-- The meaning of MAKE_TIMEOUT (R29). -/
def execMakeTimeout (b : BusNo) (s : State) : Host.Outcome State Fault Refusal := .next (makeExpires b s)

/-- The meaning of GUARD_TIMEOUT (R32). -/
def execGuardTimeout (b : BusNo) (s : State) : Host.Outcome State Fault Refusal := .next (guardExpires b s)

/-- The meaning of RELEASE_TIMEOUT (R36). -/
def execReleaseTimeout (b : BusNo) (s : State) : Host.Outcome State Fault Refusal := .next (releaseExpires b s)

/-- The meaning of ECHO_TIMEOUT (R74). -/
def execEchoTimeout (h : HeadNo) (s : State) : Host.Outcome State Fault Refusal := .next (echoExpires h s)

/-- The meaning of RETURN_TIMEOUT (R74). -/
def execReturnTimeout (h : HeadNo) (s : State) : Host.Outcome State Fault Refusal := .next (returnExpires h s)

/-- The meaning of SETTLE_END (R80). -/
def execSettleEnd (h : HeadNo) (s : State) : Host.Outcome State Fault Refusal := .next (settleEnds h s)

/-- The meaning of WINDOW_END (R82). -/
def execWindowEnd (h : HeadNo) (s : State) : Host.Outcome State Fault Refusal := .next (windowEnds h s)

/-- The meaning of CHARGE_WINDOW_END (R83). -/
def execChargeWindowEnd (h : HeadNo) (s : State) : Host.Outcome State Fault Refusal := .next (chargeWindowEnds h s)

end Sys2Proof.Machine
end

