-- ==== Sys2Proof/Machine/Outbound.lean ====
section
/-! DEFINITION. The outbound frame (R3): the outbound arbiter's choice (R174), the assembly of the 48 words, and what the
outbound frame timing counts (R17, R65, R164, R176). -/

namespace Sys2Proof.Machine

/-! ### The outbound arbiter (R174) -/

/-- The ticket an issue decision of PUSH mode starts (R129). -/
def pushedTicket (s : State) : Option Ticket :=
  if s.site.poll then none else (firstPending s).filter fun t => mayIssue t s

/-- A TICKET notice as it starts: addressed to the exchange processor, with the clock of that moment (R129, R173). -/
def ticketNotice (t : Ticket) (s : State) : Notice := { addressed := 6, clock := s.clock, body := .ticket t }

/-- The arbiter's choice at the start of a frame: the state with the message that starts, and whether one does. -/
def chooseMessage (s : State) : State × Bool :=
  if s.sending ≠ [] then (s, false)
  else
    match s.replies with
    | r :: rest => ({ s with replies := rest, sending := encReply s.freeCount r }, true)
    | [] =>
      match pushedTicket s with
      | some t => ({ issue t s with sending := encNotice (ticketNotice t s) }, true)
      | none =>
        match s.notices with
        | n :: rest => ({ s with notices := rest, sending := encNotice n }, true)
        | [] => (s, false)

/-! ### The frame (R3) -/

/-- The management octet in a place of the frame: of the message in progress, or fill. -/
def managementOctet (s : State) (i : Nat) : Octet := s.sending.getD i (Config.fillOctet s.freeCount i)

/-- The words of slots 1 to 4. -/
def managementWords (s : State) : List Word :=
  (List.range 4).map fun j => managementOctet s (2 * j) ++ managementOctet s (2 * j + 1)

/-- The words of slots 5 to 8, the heads' commanded words. -/
def headCommands (s : State) : List Word := allHeads.map fun h => headCommandWord s.heads[h].word

/-- The words of slots 9 to 16, the buses' relay orders. -/
def relayOrders (s : State) : List Word := allBuses.map fun b => orderWord s.buses[b].order

/-- The words of slots 1 to 46. -/
def slotWords (s : State) : List Word := managementWords s ++ headCommands s ++ relayOrders s ++ pathWords s

/-- The whole frame, with its alignment word and its check. -/
def assembleFrame (start : Bool) (s : State) : Frame :=
  let words := slotWords s
  let all := alignmentWord start :: words ++ [words.foldl (· + ·) 0]
  Vector.ofFn fun i : Fin 48 => all.getD i.val 0

/-! ### What the outbound timing counts -/

/-- The warning timer of a bus in WARNING rises by one (R65). -/
def tickWarning (s : State) (b : BusNo) : State :=
  match s.buses[b].warnTimer with
  | none => s
  | some n => s.setBus b { s.buses[b] with warnTimer := some (n + 1) }

/-- A running pace timer rises by one (R164). -/
def tickPace (s : State) (d : SweepNo) : State :=
  match s.sweeps[d].pace with
  | .stopped => s
  | .expired => s
  | .running n limit => s.setSweep d { s.sweeps[d] with pace := .running (n + 1) limit }

/-- The model's counter of free values rises. -/
def countFree (s : State) : State := { s with freeCount := s.freeCount + 1 }

/-- What each outbound frame counts (R65, R164, R176), and the model's counter of free values. -/
def countFrame (s : State) : State :=
  countFree (countOnce (allSweeps.foldl tickPace (allBuses.foldl tickWarning s)))

/-- Takes the warning expiries and the pace expiries that earlier outbound frames brought about and no step has taken yet. -/
def outboundDue (s : State) : State :=
  allSweeps.foldl (fun t d => paceExpires d t)
    (allBuses.foldl (fun t b => warningExpires b t) s)

/-- The frame is sent: its words stand in `outFrame`, the message moves on by eight octets, and the generators advance
(R17). -/
def sendFrame (start : Bool) (s : State) : State :=
  advanceTones { s with outFrame := some (assembleFrame start s), sending := s.sending.drop 8 }

/-- OUTBOUND_FRAME (R3, R174). DESIGN CHOICE: in the frame that passes 7,999 the arbiter chooses, and a TICKET notice takes its
clock, before the clock rises (log entry 37). -/
def outboundFrame (s : State) : State :=
  let r := chooseMessage (outboundDue s)
  countFrame (sendFrame r.2 r.1)

/-- The meaning of OUTBOUND_FRAME. -/
def execOutboundFrame (s : State) : Host.Outcome State Fault Refusal := .next (outboundFrame s)

end Sys2Proof.Machine
end

