-- ==== Sys2Proof/Machine/Dispatch.lean ====
section
/-! DEFINITION. The meaning of each command and event, one arm each. -/

namespace Sys2Proof.Machine

/-- The effect of a command or event on everything but the queue of those waiting. -/
def exec (i : Instr) (s : State) : Host.Outcome State Fault Refusal :=
  match i with
  | .powerOnReset => Sys2Proof.Machine.execPowerOnReset s
  | .huntPatternFound position bits => Sys2Proof.Machine.execHuntPatternFound position bits s
  | .confirmationFrame f order => Sys2Proof.Machine.execConfirmationFrame f order s
  | .inboundFrame f order => Sys2Proof.Machine.execInboundFrame f order s
  | .makeTimeout b => Sys2Proof.Machine.execMakeTimeout b s
  | .guardTimeout b => Sys2Proof.Machine.execGuardTimeout b s
  | .releaseTimeout b => Sys2Proof.Machine.execReleaseTimeout b s
  | .echoTimeout h => Sys2Proof.Machine.execEchoTimeout h s
  | .returnTimeout h => Sys2Proof.Machine.execReturnTimeout h s
  | .settleEnd h => Sys2Proof.Machine.execSettleEnd h s
  | .windowEnd h => Sys2Proof.Machine.execWindowEnd h s
  | .chargeWindowEnd h => Sys2Proof.Machine.execChargeWindowEnd h s
  | .paceExpiry d => Sys2Proof.Machine.execPaceExpiry d s
  | .warningExpiry b => Sys2Proof.Machine.execWarningExpiry b s
  | .outboundFrame => Sys2Proof.Machine.execOutboundFrame s
  | .clockSecond => Sys2Proof.Machine.execClockSecond s
  | .unknownKindCommand hd kind body => Sys2Proof.Machine.execUnknownKindCommand hd kind body s
  | .seize hd line cls => Sys2Proof.Machine.execSeize hd line cls s
  | .talk hd line => Sys2Proof.Machine.execTalk hd line s
  | .monitor hd line => Sys2Proof.Machine.execMonitor hd line s
  | .sendTone hd line tone => Sys2Proof.Machine.execSendTone hd line tone s
  | .standby hd line => Sys2Proof.Machine.execStandby hd line s
  | .measure hd line program evaluate => Sys2Proof.Machine.execMeasure hd line program evaluate s
  | .accept hd number => Sys2Proof.Machine.execAccept hd number s
  | .repaired hd number => Sys2Proof.Machine.execRepaired hd number s
  | .repairedKey hd cable code => Sys2Proof.Machine.execRepairedKey hd cable code s
  | .withdraw hd number => Sys2Proof.Machine.execWithdraw hd number s
  | .takeTicket hd => Sys2Proof.Machine.execTakeTicket hd s
  | .arm hd descriptor => Sys2Proof.Machine.execArm hd descriptor s
  | .suspend hd descriptor => Sys2Proof.Machine.execSuspend hd descriptor s
  | .resume hd descriptor => Sys2Proof.Machine.execResume hd descriptor s
  | .disarm hd descriptor => Sys2Proof.Machine.execDisarm hd descriptor s
  | .readSweep hd descriptor => Sys2Proof.Machine.execReadSweep hd descriptor s
  | .setPath hd slot action parameter primary secondary => Sys2Proof.Machine.execSetPath hd slot action parameter primary secondary s
  | .restoreBus hd bus => Sys2Proof.Machine.execRestoreBus hd bus s
  | .restoreHead hd head => Sys2Proof.Machine.execRestoreHead hd head s
  | .loadSiteParameters hd first count entries => Sys2Proof.Machine.execLoadSiteParameters hd first count entries s
  | .loadLineClassMap hd first count entries => Sys2Proof.Machine.execLoadLineClassMap hd first count entries s
  | .loadLimitTable hd first count entries => Sys2Proof.Machine.execLoadLimitTable hd first count entries s
  | .loadProgramTable hd first count entries => Sys2Proof.Machine.execLoadProgramTable hd first count entries s
  | .loadCableMap hd first count entries => Sys2Proof.Machine.execLoadCableMap hd first count entries s
  | .loadToneTable hd first count entries => Sys2Proof.Machine.execLoadToneTable hd first count entries s
  | .loadSweepConfigurations hd first count entries => Sys2Proof.Machine.execLoadSweepConfigurations hd first count entries s
  | .readTable hd table first count => Sys2Proof.Machine.execReadTable hd table first count s
  | .readCounters hd group clear => Sys2Proof.Machine.execReadCounters hd group clear s
  | .setClock hd seconds => Sys2Proof.Machine.execSetClock hd seconds s
  | .reset hd => Sys2Proof.Machine.execReset hd s

end Sys2Proof.Machine
end

