-- ==== Sys2Proof/Safety.lean ====
section
/-! DEFINITION. What a safe state is, in the terms the statements use: the capacities and the forms the manual gives the
Controller's collections. -/

namespace Sys2Proof.Machine

/-- Keys strictly rising, from above a bound on. -/
def risingFrom {α : Type} : Option Nat → List (Nat × α) → Bool
  | _, [] => true
  | none, p :: rest => risingFrom (some p.1) rest
  | some k, p :: rest => decide (k < p.1) && risingFrom (some p.1) rest

/-- The line claim table holds no line twice (R22): its lines strictly rise. -/
def State.claimsOk (s : State) : Bool := risingFrom none s.claims

/-- The line class map is in its canonical form (R107): lines strictly rising, none above 16,383, and only classes 1 to 15
listed. -/
def State.classesOk (s : State) : Bool :=
  risingFrom none s.classMap && s.classMap.all fun p => decide (p.1 ≤ Config.lastLine ∧ 1 ≤ p.2 ∧ p.2 ≤ 15)

/-- The reply queue holds up to 16 replies (R172). -/
def State.repliesOk (s : State) : Bool := decide (s.replies.length ≤ Config.replyCapacity)

/-- The notice queue holds up to 32 notices (R173). -/
def State.noticesOk (s : State) : Bool := decide (s.notices.length ≤ Config.noticeCapacity)

/-- No two tickets share a number (R122). -/
def State.numbersOk (s : State) : Bool := decide (s.tickets.map Ticket.number).Nodup

/-- The ticket table holds no more than 128 tickets, no two of one number (R120, R122). -/
def State.tableOk (s : State) : Bool := decide (s.tickets.length ≤ Config.ticketCapacity) && s.numbersOk

/-- At most 16 tickets are CABLE tickets, and none lists more than 64 members (R120). -/
def State.cablesOk (s : State) : Bool :=
  decide (cableTickets s ≤ Config.cableCapacity)
    && s.tickets.all fun t => decide (t.members.length ≤ Config.memberCapacity)

/-- At most 10 tickets are ISSUED (R128). -/
def State.windowOk (s : State) : Bool := decide (issueWindow s ≤ 10)

/-- The ticket table is within every bound the manual sets it. -/
def State.ticketsOk (s : State) : Bool := s.tableOk && s.cablesOk && s.windowOk

/-- No two tickets share a kind and key (R123). -/
def State.keysOk (s : State) : Bool := decide (s.tickets.map fun t => (t.subject, t.code)).Nodup

/-- No member list holds a line twice, and no line stands both as a member of a CABLE ticket and as a LINE ticket of its code
(R123). -/
def State.membersOk (s : State) : Bool :=
  s.tickets.all fun t => t.isLine ||
    (decide (t.members.map Member.line).Nodup &&
      t.members.all fun m => s.tickets.all fun u => !(u.isOnLine m.line && u.code == t.code))

/-- A desk has at most one request waiting, the exchange processor at most four (R44). -/
def State.waitsOk (s : State) : Bool :=
  (allDesks.all fun d => decide (waitingCount d.castSucc s ≤ 1)) && decide (waitingCount 6 s ≤ 4)

/-- Every head that is active has the attach flag set in its word, the number of its bus there, and a measurement; every other
head has the rest word, whose source is OFF (R72). -/
def State.headsOk (s : State) : Bool :=
  allHeads.all fun h =>
    let x := s.heads[h]
    if x.state = .awaitEcho ∨ x.state = .settling ∨ x.state = .integrating then
      x.word.attach && x.bus == some x.word.bus && x.ctx.isSome
    else x.word == HeadWord.rest

/-- The 32-bit counts of a descriptor are none above their largest value (R155). -/
def SweepCounts.ok (c : SweepCounts) : Bool := (sweepCountList c).all fun n => decide (n ≤ countMax)

/-- The counts of every descriptor are within 32 bits (R155). -/
def State.countsOk (s : State) : Bool := allSweeps.all fun d => (s.sweeps[d]).counts.ok

/-- The frame count beside the desk clock lies from 0 to 7,999 and the clock within 32 bits (R176). -/
def State.clockOk (s : State) : Bool := decide (s.frameCount < Config.framesPerSecond ∧ s.clock ≤ countMax)

/-- At most 4 retests are in flight (R135). -/
def State.retestsOk (s : State) : Bool := decide (s.inFlight.length ≤ Config.retestPlaces)

/-- Every deferred list holds at most 16 lines, none twice (R155). -/
def State.deferredOk (s : State) : Bool :=
  allSweeps.all fun d => decide (s.sweeps[d].deferred.length ≤ Config.deferredCapacity) && decide s.sweeps[d].deferred.Nodup

end Sys2Proof.Machine
end

