-- ==== Sys2Proof/WellFormed.lean ====
section
/-! DEFINITION. Which commands and events are well formed: a message's length is one the channel carries and agrees with
the octets given (11.1, R169, R180), an unknown kind is no command's, and a frame's order lists no act twice. -/

namespace Sys2Proof

/-- A length a message may have, 6 to 250 octets (R180). -/
def Header.wf (hd : Header) : Bool := decide (6 ≤ hd.length.toNat ∧ hd.length.toNat ≤ 250)

/-- A load's length counts its header, its three fields, its check and the entry octets given (R180, R181). -/
def Header.fitsEntries (hd : Header) (entries : List Octet) : Bool :=
  hd.wf && decide (hd.length.toNat = 11 + entries.length)

/-- A message's length counts its header, its check and the body octets given (R180). -/
def Header.fitsBody (hd : Header) (body : List Octet) : Bool := hd.wf && decide (hd.length.toNat = 6 + body.length)

/-- A kind octet that no command has (R180). -/
def unknownKind (kind : Octet) : Bool := decide (kind.toNat = 0 ∨ 26 < kind.toNat)

/-- The well-formed commands and events. -/
def Instr.wf (i : Instr) : Bool :=
  match i with
  | .powerOnReset => true
  | .huntPatternFound _ _ => true
  | .confirmationFrame _ order => decide order.Nodup
  | .inboundFrame _ order => decide order.Nodup
  | .makeTimeout _ => true
  | .guardTimeout _ => true
  | .releaseTimeout _ => true
  | .echoTimeout _ => true
  | .returnTimeout _ => true
  | .settleEnd _ => true
  | .windowEnd _ => true
  | .chargeWindowEnd _ => true
  | .paceExpiry _ => true
  | .warningExpiry _ => true
  | .outboundFrame => true
  | .clockSecond => true
  | .unknownKindCommand hd kind body => hd.fitsBody body && unknownKind kind
  | .seize hd _ _ => hd.wf
  | .talk hd _ => hd.wf
  | .monitor hd _ => hd.wf
  | .sendTone hd _ _ => hd.wf
  | .standby hd _ => hd.wf
  | .measure hd _ _ _ => hd.wf
  | .accept hd _ => hd.wf
  | .repaired hd _ => hd.wf
  | .repairedKey hd _ _ => hd.wf
  | .withdraw hd _ => hd.wf
  | .takeTicket hd => hd.wf
  | .arm hd _ => hd.wf
  | .suspend hd _ => hd.wf
  | .resume hd _ => hd.wf
  | .disarm hd _ => hd.wf
  | .readSweep hd _ => hd.wf
  | .setPath hd _ _ _ _ _ => hd.wf
  | .restoreBus hd _ => hd.wf
  | .restoreHead hd _ => hd.wf
  | .loadSiteParameters hd _ _ entries => hd.fitsEntries entries
  | .loadLineClassMap hd _ _ entries => hd.fitsEntries entries
  | .loadLimitTable hd _ _ entries => hd.fitsEntries entries
  | .loadProgramTable hd _ _ entries => hd.fitsEntries entries
  | .loadCableMap hd _ _ entries => hd.fitsEntries entries
  | .loadToneTable hd _ _ entries => hd.fitsEntries entries
  | .loadSweepConfigurations hd _ _ entries => hd.fitsEntries entries
  | .readTable hd _ _ _ => hd.wf
  | .readCounters hd _ _ => hd.wf
  | .setClock hd _ => hd.wf
  | .reset hd => hd.wf

/-- The header of a command; an event carries none. -/
def Instr.header (i : Instr) : Option Header :=
  match i with
  | .powerOnReset => none
  | .huntPatternFound _ _ => none
  | .confirmationFrame _ _ => none
  | .inboundFrame _ _ => none
  | .makeTimeout _ => none
  | .guardTimeout _ => none
  | .releaseTimeout _ => none
  | .echoTimeout _ => none
  | .returnTimeout _ => none
  | .settleEnd _ => none
  | .windowEnd _ => none
  | .chargeWindowEnd _ => none
  | .paceExpiry _ => none
  | .warningExpiry _ => none
  | .outboundFrame => none
  | .clockSecond => none
  | .unknownKindCommand hd _ _ => some hd
  | .seize hd _ _ => some hd
  | .talk hd _ => some hd
  | .monitor hd _ => some hd
  | .sendTone hd _ _ => some hd
  | .standby hd _ => some hd
  | .measure hd _ _ _ => some hd
  | .accept hd _ => some hd
  | .repaired hd _ => some hd
  | .repairedKey hd _ _ => some hd
  | .withdraw hd _ => some hd
  | .takeTicket hd => some hd
  | .arm hd _ => some hd
  | .suspend hd _ => some hd
  | .resume hd _ => some hd
  | .disarm hd _ => some hd
  | .readSweep hd _ => some hd
  | .setPath hd _ _ _ _ _ => some hd
  | .restoreBus hd _ => some hd
  | .restoreHead hd _ => some hd
  | .loadSiteParameters hd _ _ _ => some hd
  | .loadLineClassMap hd _ _ _ => some hd
  | .loadLimitTable hd _ _ _ => some hd
  | .loadProgramTable hd _ _ _ => some hd
  | .loadCableMap hd _ _ _ => some hd
  | .loadToneTable hd _ _ _ => some hd
  | .loadSweepConfigurations hd _ _ _ => some hd
  | .readTable hd _ _ _ => some hd
  | .readCounters hd _ _ => some hd
  | .setClock hd _ => some hd
  | .reset hd => some hd

end Sys2Proof
end

