-- ==== Sys2Proof/Certificates/Slice0/Obligations.lean ====
section
/-! DEFINITION. The statements for the provers, one `def Obligations.<Name> : Prop` each. The definitions of `Sys2Proof.Stated`
before them put into words what several statements share: the premises of a command, the answer it gets, and the entries
that the mode table of R58 writes. -/

namespace Sys2Proof.Stated

open Sys2Proof.Machine

/-! ### Commands and their answers (R171, R172) -/

/-- A command of a length comes from an origin and finds room in the reply queue. -/
abbrev From (o : Origin) (length : Nat) (hd : Header) (s : State) : Prop :=
  hd.length.toNat = length ∧ hd.origin.toNat = o.val ∧ s.replies.length < 16

/-- The state after a command is counted in COMMANDS_TAKEN and its reply has joined the reply queue as its last entry. -/
def answered (kind : Octet) (hd : Header) (status : Status) (data : ReplyData) (s : State) : State :=
  { s with
    highway := { s.highway with commandsTaken := min (s.highway.commandsTaken + 1) 4294967295 }
    replies := s.replies ++ [{ kind := kind, tag := hd.tag, addressed := hd.origin, status := status, data := data }] }

/-- The kind octet of a row that is a command of a known kind, and the length its message must have (R180, R181). -/
def kindAndLength : Instr → Option (Octet × Nat)
  | .seize _ _ _ => some (1, 9)
  | .talk _ _ => some (3, 8)
  | .monitor _ _ => some (4, 8)
  | .sendTone _ _ _ => some (5, 9)
  | .standby _ _ => some (6, 8)
  | .measure _ _ _ _ => some (7, 10)
  | .accept _ _ => some (8, 8)
  | .repaired _ _ => some (9, 8)
  | .repairedKey _ _ _ => some (10, 8)
  | .withdraw _ _ => some (11, 8)
  | .takeTicket _ => some (12, 6)
  | .arm _ _ => some (14, 7)
  | .suspend _ _ => some (15, 7)
  | .resume _ _ => some (16, 7)
  | .disarm _ _ => some (17, 7)
  | .readSweep _ _ => some (18, 7)
  | .setPath _ _ _ _ _ _ => some (19, 11)
  | .restoreBus _ _ => some (20, 7)
  | .restoreHead _ _ => some (21, 7)
  | .loadSiteParameters _ _ count _ => some (22, 11 + count.toNat * 20)
  | .loadLineClassMap _ _ count _ => some (22, 11 + (count.toNat + 1) / 2)
  | .loadLimitTable _ _ count _ => some (22, 11 + count.toNat * 8)
  | .loadProgramTable _ _ count _ => some (22, 11 + count.toNat * 58)
  | .loadCableMap _ _ count _ => some (22, 11 + count.toNat * 7)
  | .loadToneTable _ _ count _ => some (22, 11 + count.toNat * 5)
  | .loadSweepConfigurations _ _ count _ => some (22, 11 + count.toNat * 10)
  | .readTable _ _ _ _ => some (23, 11)
  | .readCounters _ _ _ => some (24, 8)
  | .setClock _ _ => some (25, 10)
  | .reset _ => some (26, 6)
  | _ => none

/-- The commands taken from the exchange processor alone (R16, R39, R88, R130, R131, R156, R176, R177, R181). -/
def forProcessor : Instr → Bool
  | .accept _ _ => true
  | .repaired _ _ => true
  | .repairedKey _ _ _ => true
  | .withdraw _ _ => true
  | .takeTicket _ => true
  | .arm _ _ => true
  | .suspend _ _ => true
  | .resume _ _ => true
  | .disarm _ _ => true
  | .setPath _ _ _ _ _ _ => true
  | .restoreBus _ _ => true
  | .restoreHead _ _ => true
  | .loadSiteParameters _ _ _ _ => true
  | .loadLineClassMap _ _ _ _ => true
  | .loadLimitTable _ _ _ _ => true
  | .loadProgramTable _ _ _ _ => true
  | .loadCableMap _ _ _ _ => true
  | .loadToneTable _ _ _ _ => true
  | .loadSweepConfigurations _ _ _ _ => true
  | .setClock _ _ => true
  | .reset _ => true
  | _ => false

/-- A word as two octets, most significant first. -/
def octets2 (w : Word) : List Octet := [w.extractLsb' 8 8, w.extractLsb' 0 8]

/-- The body octets of a command, in the order of R180. -/
def bodyOf : Instr → List Octet
  | .unknownKindCommand _ _ body => body
  | .seize _ line cls => octets2 line ++ [cls]
  | .talk _ line => octets2 line
  | .monitor _ line => octets2 line
  | .sendTone _ line tone => octets2 line ++ [tone]
  | .standby _ line => octets2 line
  | .measure _ line program evaluate => octets2 line ++ [program, evaluate]
  | .accept _ number => octets2 number
  | .repaired _ number => octets2 number
  | .repairedKey _ cable code => [cable, code]
  | .withdraw _ number => octets2 number
  | .arm _ d => [d]
  | .suspend _ d => [d]
  | .resume _ d => [d]
  | .disarm _ d => [d]
  | .readSweep _ d => [d]
  | .setPath _ slot action parameter primary secondary => [slot, action, parameter, primary, secondary]
  | .restoreBus _ b => [b]
  | .restoreHead _ h => [h]
  | .loadSiteParameters _ first count entries => [0] ++ octets2 first ++ octets2 count ++ entries
  | .loadLineClassMap _ first count entries => [1] ++ octets2 first ++ octets2 count ++ entries
  | .loadLimitTable _ first count entries => [2] ++ octets2 first ++ octets2 count ++ entries
  | .loadProgramTable _ first count entries => [3] ++ octets2 first ++ octets2 count ++ entries
  | .loadCableMap _ first count entries => [4] ++ octets2 first ++ octets2 count ++ entries
  | .loadToneTable _ first count entries => [5] ++ octets2 first ++ octets2 count ++ entries
  | .loadSweepConfigurations _ first count entries => [6] ++ octets2 first ++ octets2 count ++ entries
  | .readTable _ table first count => [table] ++ octets2 first ++ octets2 count
  | .readCounters _ group clear => [group, clear]
  | .setClock _ seconds =>
    [seconds.extractLsb' 24 8, seconds.extractLsb' 16 8, seconds.extractLsb' 8 8, seconds.extractLsb' 0 8]
  | _ => []

/-- The kind octet of a command. -/
def kindOctet : Instr → Octet
  | .unknownKindCommand _ kind _ => kind
  | i => ((kindAndLength i).map Prod.fst).getD 0

/-- The message that spells a command (R180): length, kind, tag, origin, body, and the check, which is the sum of the
octets before it. -/
def messageOf (hd : Header) (i : Instr) : List Octet :=
  let front := [hd.length, kindOctet i, hd.tag, hd.origin] ++ bodyOf i
  front ++ octets2 (front.foldl (fun sum o => sum + o.zeroExtend 16) 0)

/-! ### Buses and modes (R57, R58, R59) -/

/-- A bus is HELD by an origin on a line in range (R59). -/
abbrev HeldBy (o : Origin) (b : BusNo) (line : Word) (s : State) : Prop :=
  line.toNat ≤ 16383 ∧ claimOf line.toNat s = some b ∧ s.buses[b].holder = some (.origin o) ∧ s.buses[b].state = .held

/-- The desk's audio bus is absent or the bus itself, so that R60 moves no other bus. -/
abbrev NoOther (d : DeskNo) (b : BusNo) (s : State) : Prop := s.audio[d] = none ∨ s.audio[d] = some b

/-- The mode commands for a line, each with its kind octet and the length of its message (R59, R180). -/
def modeCommands (hd : Header) (line : Word) (tone program evaluate : Octet) : List (Octet × Nat × Instr) :=
  [(3, 8, .talk hd line), (4, 8, .monitor hd line), (5, 9, .sendTone hd line tone), (6, 8, .standby hd line),
    (7, 10, .measure hd line program evaluate)]

/-- No desk has the bus as its audio bus. -/
abbrev NoAudio (b : BusNo) (s : State) : Prop := ∀ d : DeskNo, s.audio[d] ≠ some b

/-- A bus record in a mode, with the fields that the mode names (R57). -/
def inMode (mode : Mode) (tone : Option ToneNo) (warning : Option Nat) (x : Bus) : Bus :=
  { x with mode := some mode, tone := tone, warnTimer := warning.map fun _ => 0, warnLimit := warning }

/-- The bus-out entry of a bus, slot 23 + b, is written (R58). -/
def sends (b : BusNo) (e : PathEntry) (s : State) : State := { s with paths := s.paths.set (6 + b.val) e (by omega) }

/-- The desk hears the bus: its desk-out entry is PASS from the bus's audio, and the bus is its audio bus (R58). -/
def hears (d : DeskNo) (b : BusNo) (s : State) : State :=
  { s with
    paths := s.paths.set d.val { action := .pass, primary := some (39 + b.val) } (by omega)
    audio := s.audio.set d (some b) }

/-- The desk of an origin no longer hears the bus: if the bus was its audio bus, its desk-out entry is IDLE and it has no
audio bus (R58). -/
def unhears (o : Origin) (b : BusNo) (s : State) : State :=
  if h : o.val < 6 then
    if s.audio[o.val] = some b then
      { s with paths := s.paths.set o.val {} (by omega), audio := s.audio.set o.val none }
    else s
  else s

/-- A bus enters a mode with its bus-out entry; the desk-out side apart (R57, R58). -/
def enters (b : BusNo) (mode : Mode) (tone : Option ToneNo) (warning : Option Nat) (e : PathEntry) (s : State) : State :=
  sends b e { s with buses := s.buses.set b (inMode mode tone warning s.buses[b]) }

/-- A bus record whose release is taken with a cause (R34). -/
def breaking (line : Nat) (cause : Reason) (x : Bus) : Bus :=
  { x with
    state := .releasing, order := .brk line, timer := some 0, cause := some cause, busy := false, candidate := none,
    stable := 0, mode := none, tone := none, warnTimer := none, warnLimit := none }

/-- An ACCESS counter of a bus, raised by one within 32 bits (R42). -/
def raised (n : Nat) : Nat := min (n + 1) 4294967295

/-- The record of one bus is replaced. -/
def withBus (b : BusNo) (x : Bus) (s : State) : State := { s with buses := s.buses.set b x }

/-- The ACCESS counters of one bus are replaced. -/
def withCounts (b : BusNo) (x : BusCounters) (s : State) : State := { s with busCounters := s.busCounters.set b x }

/-- The record of one head is replaced. -/
def withHead (h : HeadNo) (x : HeadRec) (s : State) : State := { s with heads := s.heads.set h x }

/-- The HEADS counters of one head are replaced. -/
def withHeadCounts (h : HeadNo) (x : HeadCounters) (s : State) : State :=
  { s with headCounters := s.headCounters.set h x }

/-- A bus that a FAULT or a dropped relay takes out of service (R37, R38): stuck where it may still reach its line. -/
def faulted (line : Option Nat) (stuck : Bool) (x : Bus) : Bus :=
  { x with
    state := .outOfService, line := line, holder := none, accepted := .none, candidate := none, stable := 0
    order := .none, timer := none, stuck := stuck, mode := none, tone := none, warnTimer := none, warnLimit := none }

/-- A fault of a bus is counted (R42). -/
def faultCounts (x : BusCounters) : BusCounters :=
  { x with busFaults := raised x.busFaults, relayFaults := raised x.relayFaults }

/-- Nothing is measured on a bus: no head is attached to it, and it waits for none. -/
abbrev Unmeasured (b : BusNo) (s : State) : Prop := s.buses[b].head = none ∧ ∀ e ∈ s.headQueue, e.bus ≠ b

/-! ### Orders from counters that wrap (R43, R51, R122; their width of 32 bits is the model's choice, log entry 5) -/

/-- A counter's value after one more entry. -/
def next (counter : Nat) : Nat := (counter + 1) % 4294967296

/-- The distance from an order to the last one a counter has given. -/
def distance (counter order : Nat) : Nat := (counter + 4294967295 - order) % 4294967296

/-- An order stands at or before another. -/
abbrev Earlier (counter a b : Nat) : Prop := distance counter b ≤ distance counter a

/-! ### Frames (R2, R9, R179) -/

/-- A bus carries no line, and its debouncer has no candidate. -/
abbrev QuietBus (b : BusNo) (s : State) : Prop :=
  (s.buses[b].state = .free ∨ s.buses[b].state = .outOfService) ∧ s.buses[b].timer = none ∧
    s.buses[b].candidate = none ∧ s.buses[b].stable = 0

/-- A head neither measures nor returns. -/
abbrev QuietHead (h : HeadNo) (s : State) : Prop :=
  (s.heads[h].state = .idle ∨ s.heads[h].state = .outOfService) ∧ s.heads[h].timer = none ∧ s.heads[h].ctx = none

/-- No bus waits for a head, no message is being assembled, and no assignment pass is owed. -/
abbrev NoneOwed (s : State) : Prop := s.headQueue = [] ∧ s.assembler = .waiting ∧ s.assignDue = false

/-- No bus carries a line, no head measures or returns, and nothing is owed. -/
abbrev Quiet (s : State) : Prop := (∀ b : BusNo, QuietBus b s) ∧ (∀ h : HeadNo, QuietHead h s) ∧ NoneOwed s

/-- A good frame with the S flag clear, in which no bus shows FAULT and no head its head-fault flag. -/
abbrev Plain (f : Frame) : Prop :=
  hasPattern f = true ∧ checkHolds f = true ∧ startFlag f = false ∧
  (∀ b : BusNo, (f[25 + b.val]'(by omega)).getLsbD 15 = false) ∧
  ∀ h : HeadNo, (f[5 + 5 * h.val]'(by omega)).getLsbD 3 = false

/-- What a plain good frame leaves: the source store holds its slots 5 to 46, and each head its echo fields (R11, R73). -/
def stored (f : Frame) (s : State) : State :=
  { s with
    store := Vector.ofFn fun i : Fin 42 => f[i.val + 5]'(by omega)
    heads := Vector.ofFn fun h : Fin 4 =>
      { s.heads[h] with echoed := (f[5 + 5 * h.val]'(by omega)) &&& 0xFFE0#16 } }

/-! ### Measurements of a desk or of the exchange processor (R86) -/

/-- A measurement ends with an outcome and its results: MEASUREMENT_RESULT is queued, and the bus, its head detached, enters
STANDBY (R69, R86). -/
def reports (b : BusNo) (o : Origin) (c : Context) (outcome : Reason) (results : List StepResult) (s : State) : State :=
  pushNotice o.val
    (.measurementResult { line := c.line, bus := b, program := c.program, holder := .origin o, outcome := outcome,
                          results := results })
    (enters b .standby none none {} (withBus b { s.buses[b] with head := none } s))

/-- The last step of a measurement ends with a result: the measurement ends COMPLETE, its head is commanded the rest word and
enters RETURNING, and the HEADS counters and figures of the head follow (R85, R86, R91, R106). -/
def completes (h : HeadNo) (b : BusNo) (o : Origin) (c : Context) (r : StepResult) (s : State) : State :=
  reports b o c .complete (c.results ++ [r])
    (withHeadCounts h
      { s.headCounters[h] with
        measurementsEnded := raised s.headCounters[h].measurementsEnded
        clippedSamples := min (s.headCounters[h].clippedSamples + (c.first.clips + c.second.clips)) 4294967295
        peakVoltage := max s.headCounters[h].peakVoltage (max c.first.peak c.second.peak) }
      (withHead h
        { s.heads[h] with state := .returning, word := HeadWord.rest, bus := none, timer := some 0, ctx := none } s))

/-- A measurement ends short of its program's end with an outcome: its head is commanded the rest word and enters RETURNING,
MEASUREMENT_RESULT lists the results so far, and the bus enters STANDBY (R67, R69, R86, R89, R91). -/
def stops (h : HeadNo) (b : BusNo) (o : Origin) (c : Context) (outcome : Reason) (s : State) : State :=
  reports b o c outcome c.results
    (withHeadCounts h { s.headCounters[h] with measurementsEnded := raised s.headCounters[h].measurementsEnded }
      (withHead h
        { s.heads[h] with state := .returning, word := HeadWord.rest, bus := none, timer := some 0, ctx := none } s))

/-- A head goes out of service, its last echoed word kept (R74). -/
def headGone (h : HeadNo) (s : State) : State :=
  withHead h
    { s.heads[h] with state := .outOfService, word := HeadWord.rest, bus := none, timer := none, ctx := none } s

/-- A good frame's status word replaces the last echoed word of a head (R73). -/
def echoed (h : HeadNo) (status : Word) (s : State) : State :=
  withHead h { s.heads[h] with echoed := status &&& 0xFFE0#16 } s

/-- A status word shows the head-ready flag and the echo of the commanded word, without the head-fault flag (R73, R179). -/
abbrev Matches (status : Word) (w : HeadWord) : Prop :=
  status.getLsbD 3 = false ∧ status.getLsbD 4 = true ∧ status &&& 0xFFE0#16 = headCommandWord w

/-- A status word without the head-fault flag shows no ready flag or another word's echo (R74). -/
abbrev Departs (status : Word) (w : HeadWord) : Prop :=
  status.getLsbD 3 = false ∧ (status.getLsbD 4 = false ∨ status &&& 0xFFE0#16 ≠ headCommandWord w)

/-- A head is active in a state, on a step of its program, with an echo awaited where it awaits one. -/
abbrev ActiveOn (h : HeadNo) (c : Context) (d : StepDef) (state : HeadState) (s : State) : Prop :=
  s.heads[h].state = state ∧ s.heads[h].ctx = some c ∧ c.steps[c.index]? = some d ∧ c.noEcho = false

/-- A context after an accepted sample of a phase other than the CAP charge (R81, R94): it enters the set of its phase, with its
current where RES hands it over. -/
def accepting (d : StepDef) (w : HeadWords) (c : Context) : Context :=
  let x := sampleOf d.legs w.vt w.vr w.it w.ir
  { c with
    accepted := c.accepted + 1
    first := if c.phase = .minus then c.first else enterSample d.kind (d.kind == .res) x c.first
    second := if c.phase = .minus then enterSample d.kind (d.kind == .res) x c.second else c.second }

/-- A head measures for an origin on a bus that has it attached and that waits for no head. -/
abbrev Measures (h : HeadNo) (b : BusNo) (o : Origin) (c : Context) (s : State) : Prop :=
  s.heads[h].bus = some b ∧ s.heads[h].ctx = some c ∧ s.buses[b].head = some h ∧ c.holder = .origin o ∧ NoAudio b s ∧
    ∀ e ∈ s.headQueue, e.bus ≠ b

/-- The window of a step is full (R82). -/
abbrev Full (c : Context) : Prop := c.accepted + c.lost = c.windowLen

/-- An event ends the last phase of a step with a value: WINDOW_END of the one phase of FDC or FAC or of P−, its loss within one
eighth, or CHARGE_WINDOW_END of a first charge window that lost nothing (R82, R83, R85). -/
abbrev EndsStep (i : Instr) (h : HeadNo) (c : Context) : Prop :=
  Full c ∧
    (i = .windowEnd h ∧ (c.phase = .single ∨ c.phase = .minus) ∧ 8 * c.lost ≤ c.windowLen ∧ 0 < c.accepted ∨
      i = .chargeWindowEnd h ∧ c.phase = .charge ∧ c.chargeRepeat = false ∧ c.lost = 0)

/-- The word of a step's first phase (R79). -/
def stepWord (b : BusNo) (d : StepDef) : HeadWord :=
  { source := if d.kind = .res then d.source else .off, negative := false
    range := if d.kind = .cap ∨ d.kind = .res ∧ d.range = .high then .high else .low
    legs := some d.legs, bus := b, attach := true }

/-- A context as a step of an index begins (R79, R85): its marks clear, the mains setting read, its sets and window empty;
`same` where the word of its first phase is the one commanded already. -/
def stepBegun (i : Nat) (d : StepDef) (mains60 same : Bool) (c : Context) : Context :=
  { c with
    index := i, mains60 := mains60, rangedUp := false, degraded := false, isRepeat := false, chargeRepeat := false
    phase := if d.kind = .res then .plus else if d.kind = .cap then .baseline else .single
    range := if d.kind = .cap ∨ d.kind = .res ∧ d.range = .high then .high else .low
    windowLen := if d.kind = .cap then 80 else d.units * (if mains60 then 400 else 160)
    settleCount := 0, accepted := 0, lost := 0, first := {}, second := {}, lastSample := none, noEcho := same }

/-- A step ends on a head: its result is listed, and the HEADS figures follow (R85, R106). -/
def recorded (h : HeadNo) (c : Context) (r : StepResult) (s : State) : State :=
  withHead h { s.heads[h] with ctx := some { c with results := c.results ++ [r] } }
    (withHeadCounts h
      { s.headCounters[h] with
        clippedSamples := min (s.headCounters[h].clippedSamples + (c.first.clips + c.second.clips)) 4294967295
        peakVoltage := max s.headCounters[h].peakVoltage (max c.first.peak c.second.peak) } s)

/-- A head and its bus are detached at the end of a measurement: the head is commanded the rest word and enters RETURNING
(R86). -/
def rested (h : HeadNo) (b : BusNo) (s : State) : State :=
  withBus b { s.buses[b] with head := none }
    (withHeadCounts h { s.headCounters[h] with measurementsEnded := raised s.headCounters[h].measurementsEnded }
      (withHead h
        { s.heads[h] with state := .returning, word := HeadWord.rest, bus := none, timer := some 0, ctx := none } s))

/-- A position of a CAP charge window is entered with a voltage and a current (R103). -/
def chargeEntered (position : Nat) (v i : Int) (m : Accum) : Accum :=
  if position ≤ 320 then { m with b := m.b + i, n := m.n + 1 }
  else { m with a := m.a + v, b := m.b + i, tail := m.tail + i, n := m.n + 1 }

/-- An accepted sample sets the peak, the clip flags and the clip count of a CAP charge window (R84, R103). -/
def marked (x : Sample) (m : Accum) : Accum :=
  { m with
    aClip := m.aClip || x.vClip, bClip := m.bClip || x.iClip
    clips := if x.vClip || x.iClip then m.clips + 1 else m.clips
    peak := max m.peak x.v.natAbs }

/-! ### Internal holders (R31, R33, R86) -/

/-- What an internal holder does that is told how its line ended: the sweep engine ends the line in flight
(`SweepLinesAreCounted`), the retest scheduler judges the retest (`LineRetestsAreJudged`). -/
def told (x : Holder) (e : LineEnd) (outcome : Reason) (v : Option Evaluation) (locked : Bool) (s : State) : State :=
  match x with
  | .origin _ => s
  | .sweep d => sweepLineEnded d e locked s
  | .retest n => retestRecord n outcome v s

/-- An internal holder that asks for no bus when it is told: a descriptor whose suspension is pending, with no request waiting
for a grant, or the LINE ticket of a retest, with nothing on the repair list. -/
abbrev Settles (x : Holder) (s : State) : Prop :=
  match x with
  | .origin _ => False
  | .sweep d => s.queue = [] ∧ s.sweeps[d].suspendPending = true
  | .retest n => (∃ t l, ticketByNumber n s = some t ∧ t.subject = .line l) ∧ s.repairList = []

/-- The program and the evaluate flag that an internal holder gives the measurement of a line (R78, R112). -/
abbrev Lends (x : Holder) (line : Nat) (p : Fin 16) (evaluate : Bool) (s : State) : Prop :=
  match x with
  | .origin _ => False
  | .sweep d => ∃ c, s.sweeps[d].config = some c ∧ c.program = p.val ∧ c.ticketFlag = evaluate
  | .retest n => evaluate = true ∧ ∃ t, ticketByNumber n s = some t ∧
      (t.isLine = true ∧ t.program = p.val ∨
        t.isLine = false ∧ ∃ m, (t.members.find? fun m => m.line == line) = some m ∧ m.program = p.val)

/-- A condition stands for seven frames as the candidate of a bus whose accepted condition is another: the next good frame with
it accepts it (R26). -/
abbrev EighthOf (b : BusNo) (c : LineCond) (s : State) : Prop :=
  c ≠ s.buses[b].accepted ∧ s.buses[b].candidate = some c ∧ s.buses[b].stable = 7

/-! ### Sweeps (R155, R160) -/

/-- A descriptor's request for a line enters the access wait queue in class 3, the line in flight in the main phase, and the
pace timer starts from 0 toward 8 × the pace of its configuration (R47, R154, R160, R164). -/
def requests (d : SweepNo) (line : Nat) (c : SweepConfig) (x : Descriptor) (s : State) : State :=
  { s with
    sweeps := s.sweeps.set d
      { x with state := .active, inFlight := some (line, .main), pace := .running 0 (8 * c.pace), requestMade := true }
    queue := s.queue ++ [{ requester := .sweep d, cls := 3, line := line, arrival := s.arrivals, waiting := false }]
    arrivals := next s.arrivals
    queuePeak := max s.queuePeak (s.queue.length + 1) }

/-- A line that a descriptor takes is neither of class 15, nor ticketed, suppressed or claimed (R160). -/
abbrev Requestable (line : Nat) (s : State) : Prop :=
  classOf line s ≠ 15 ∧ ticketed line s = false ∧ suppressed line s = false ∧ claimOf line s = none

/-! ### Outbound frames (R3, R174) -/

/-- No warning or pace is due or running. -/
abbrev NoneDue (s : State) : Prop :=
  (∀ b : BusNo, s.buses[b].mode ≠ some .warning ∧ s.buses[b].warnTimer = none) ∧
    ∀ d : SweepNo, s.sweeps[d].pace = .stopped ∨ s.sweeps[d].pace = .expired

/-- No warning and no pace has reached its limit. -/
abbrev NotDue (s : State) : Prop :=
  (∀ (b : BusNo) (n limit : Nat), s.buses[b].warnTimer = some n → s.buses[b].warnLimit = some limit → n < limit) ∧
    ∀ (d : SweepNo) (n limit : Nat), s.sweeps[d].pace = .running n limit → n < limit

/-- A pace timer after an outbound frame (R164). -/
def tickedPace : PaceTimer → PaceTimer
  | .running n limit => .running (n + 1) limit
  | p => p

/-- An outbound frame is counted beside the desk clock: past 7,999 the frame count returns to 0 and the clock rises, from its
largest value to 0 (R176). -/
def frameCounted (s : State) : State :=
  if s.frameCount < 7999 then { s with frameCount := s.frameCount + 1 }
  else { s with frameCount := 0, clock := (s.clock + 1) % 4294967296 }

/-- What the sending of a frame leaves: each generator has advanced by its increment, and the frame is counted beside the
desk clock, unless CLOCK_SECOND has counted it (R17, R176; log entry 13). -/
def sent (f : Frame) (s : State) : State :=
  let t := { s with
    outFrame := some f
    tones := Vector.ofFn fun k : Fin 4 =>
      { s.tones[k] with
        phase := (s.tones[k].phase + (2 * s.tones[k].frequency * 65536 + 8000) / 16000) % 65536 }
    freeCount := s.freeCount + 1 }
  if s.secondTaken then { t with secondTaken := false } else frameCounted t

/-- No ticket may be issued at the start of the frame: POLL mode, or nothing that may be issued pends (R129, R174). -/
abbrev NoTicket (s : State) : Prop := s.site.poll = true ∨ pendingTickets s = []

/-! ### SEIZE (R44 to R46) -/

/-- The origin is within its limit (R44): a desk has nothing waiting and holds fewer than two buses, the exchange processor
has fewer than four entries waiting. -/
abbrev WithinLimit (o : Origin) (s : State) : Prop :=
  if o.val < 6 then (∀ e ∈ s.queue, e.requester ≠ .origin o) ∧ heldCount (fun x => x == .origin o) s < 2
  else (s.queue.filter fun e => e.requester == .origin o).length < 4

/-- The origin has no entry waiting for the line. -/
abbrev NotWaiting (o : Origin) (line : Nat) (s : State) : Prop :=
  ∀ e ∈ s.queue, ¬(e.requester = .origin o ∧ e.line = line)

/-- A request of an origin for a line joins the access wait queue in a class (R43, R46). -/
def waits (o : Origin) (cls line : Nat) (s : State) : State :=
  { s with
    queue := s.queue ++
      [{ requester := .origin o, cls := cls, line := line, arrival := s.arrivals, waiting := (claimOf line s).isSome }]
    arrivals := next s.arrivals
    queuePeak := max s.queuePeak (s.queue.length + 1) }

/-- A bus takes a grant of a line: the line is claimed, the relay order is MAKE, the make timer starts, and GRANTS rises
(R27, R49). -/
def grants (b : BusNo) (holder : Holder) (line : Nat) (s : State) : State :=
  withCounts b { s.busCounters[b] with grants := raised s.busCounters[b].grants }
    (sends b {}
      (withBus b
        { s.buses[b] with
          state := .seizing, line := some line, holder := some holder, mode := none, busy := false, accepted := .none
          candidate := none, stable := 0, order := .make line, timer := some 0, lateWatch := false, cause := none }
        { s with claims := insertClaim line b s.claims
                 stamps := s.stamps.set b (some s.grantCount)
                 grantCount := (s.grantCount + 1) % 4294967296 }))

/-! ### Path entries (R12 to R16) -/

/-- The signed word a path entry's source contributes: the source store's word of the slot, or 0 where it is absent (R12). -/
def heard (slot : Option (Fin 42)) (s : State) : Int :=
  match slot with
  | none => 0
  | some i => (s.store[i]).toInt

/-- A path entry whose sources are the inbound slots 5 + i and 5 + j, each present or absent. -/
def entryOf (i j : Option (Fin 42)) (action : PathAction) : PathEntry :=
  { primary := i.map fun k => 5 + k.val, secondary := j.map fun k => 5 + k.val, action := action }

/-- Saturation at ±32,767 (R13). -/
def clamp (x : Int) : Int := max (-32767) (min x 32767)

/-- A source octet of SET PATH names a source (R180). -/
abbrev NamesSource (o : Octet) (p : Option Nat) : Prop :=
  o = 0 ∧ p = none ∨ 5 ≤ o.toNat ∧ o.toNat ≤ 46 ∧ p = some o.toNat

/-- The action and parameter octets of SET PATH name an action (R12, R180). -/
abbrev NamesAction (action parameter : Octet) (a : PathAction) : Prop :=
  action = 0 ∧ a = .idle ∨ action = 1 ∧ a = .pass ∨ action = 2 ∧ a = .invert ∨
  action = 3 ∧ -3 ≤ parameter.toInt ∧ parameter.toInt ≤ 3 ∧ a = .gain parameter.toInt ∨ action = 4 ∧ a = .mix ∨
  action = 5 ∧ ∃ k : ToneNo, parameter.toNat = k.val ∧ a = .tone k

/-! ### Measurement arithmetic (R99 to R104) -/

/-- A step result gives a value, or none, with its range qualifiers (R98, R105). -/
abbrev Gives (r : StepResult) (value : Option Int) (above below sourceFault : Bool) : Prop :=
  r.value = value ∧ r.quals.aboveRange = above ∧ r.quals.belowRange = below ∧ r.quals.sourceFault = sourceFault

/-- The accumulators of an FAC phase after its samples, entered in order (R94). -/
def entered (l : List Sample) : Accum := l.foldl (fun m x => enterSample .fac false x m) {}

/-- The kind of step and the legs that feed a code (R111). -/
def fedBy : FaultCode → Kind × Legs
  | .leakTR => (.res, .tr)
  | .leakTG => (.res, .tg)
  | .leakRG => (.res, .rg)
  | .shortTR => (.res, .tr)
  | .batteryT => (.fdc, .tg)
  | .batteryR => (.fdc, .rg)
  | .humT => (.fac, .tg)
  | .humR => (.fac, .rg)
  | .openLoop => (.cap, .tr)
  | .excessCap => (.cap, .tr)

/-- A value is a fault of a code at a threshold (R111). -/
def Faulty (x : FaultCode) (value : Int) (threshold : Nat) : Prop :=
  match x with
  | .batteryT => value < -threshold ∨ threshold < value
  | .batteryR => value < -threshold ∨ threshold < value
  | .humT => threshold < value
  | .humR => threshold < value
  | .excessCap => threshold < value
  | _ => value < threshold

/-- A record holds a step result of the kind and legs that feed a code, the first such being `res`. -/
abbrev Feeds (x : FaultCode) (results : List StepResult) (res : StepResult) : Prop :=
  ∃ before after, results = before ++ res :: after ∧ (res.kind, res.legs) = fedBy x ∧
    ∀ r ∈ before, (r.kind, r.legs) ≠ fedBy x

/-! ### Tickets (R120 to R151) -/

/-- The ticket of a number is changed. -/
def withTicket (n : Nat) (f : Ticket → Ticket) (s : State) : State :=
  { s with tickets := s.tickets.map fun t => if t.number = n then f t else t }

/-- The ticket of a number leaves the table, the repair list and the retests in flight. -/
def without (n : Nat) (s : State) : State :=
  { s with
    tickets := s.tickets.filter fun t => t.number ≠ n
    repairList := s.repairList.filter fun m => m ≠ n
    inFlight := s.inFlight.filter fun r => r.ticket ≠ n }

/-- A retest's request for a line joins the access wait queue in class 2, with its ticket's number as link (R47, R135). -/
def retests (n line : Nat) (s : State) : State :=
  { s with
    queue := s.queue ++
      [{ requester := .retest n, cls := 2, line := line, arrival := s.arrivals, waiting := (claimOf line s).isSome }]
    arrivals := next s.arrivals
    queuePeak := max s.queuePeak (s.queue.length + 1) }

/-- A ticket is pending (R128). -/
abbrev Pending (t : Ticket) (s : State) : Prop :=
  t ∈ s.tickets ∧ t.state = .raised ∧ s.site.mask.getLsbD t.severity = false

/-- A pending ticket is the first in pending order (R128). -/
abbrev FirstPending (t : Ticket) (s : State) : Prop :=
  Pending t s ∧ ∀ u, Pending u s → t.severity < u.severity ∨
    t.severity = u.severity ∧ Earlier s.raiseCounter t.raiseOrder u.raiseOrder

/-- The number of tickets ISSUED allows the issue of a ticket (R128). -/
abbrev WindowAllows (t : Ticket) (s : State) : Prop :=
  (s.tickets.filter fun u => u.state = .issued).length < if t.severity = 0 then 10 else 8

/-- A LINE ticket's retest is judged FAIL (R138). -/
def failed (n : Nat) (s : State) : State :=
  withTicket n
    (fun u => { u with
      state := .raised, position := none, retestCount := min (u.retestCount + 1) 255
      severity := u.baseSeverity - min (u.retestCount + 1) 255 / 3 })
    { s with inFlight := s.inFlight.filter fun r => r.ticket ≠ n }

/-- A LINE ticket's retest is judged INCONCLUSIVE with a reason (R139). -/
def inconclusive (t : Ticket) (reason : Reason) (s : State) : State :=
  pushNotice 6 (.retestInconclusive t.number t.subject t.code reason)
    (withTicket t.number (fun u => { u with state := .accepted, position := none })
      { s with inFlight := s.inFlight.filter fun r => r.ticket ≠ t.number })

/-- A ticket whose retest is judged PASS leaves the table (R137). -/
def closed (t : Ticket) (s : State) : State :=
  { pushNotice 6 (.ticketClosed t.number t.subject t.code t.occurrences t.retestCount s.clock)
      { s with
        tickets := s.tickets.filter fun u => u.number ≠ t.number
        inFlight := s.inFlight.filter fun r => r.ticket ≠ t.number } with
    ticketCounters := { s.ticketCounters with closed := raised s.ticketCounters.closed } }

/-- What a finding does to the fields of the ticket it is placed on (R124, R127, R148). -/
def occurred (f : Finding) (t : Ticket) : Ticket :=
  { t with
    occurrences := min (t.occurrences + 1) 255
    lastSeen := f.time
    lastValue := f.value
    lastQuals := f.quals
    program := f.program
    baseSeverity := min t.baseSeverity f.severity
    severity := if f.severity < t.baseSeverity then f.severity - t.retestCount / 3 else t.severity }

/-- The member entry that a finding makes (R147, R148). -/
def memberFrom (f : Finding) (mark : Mark) : Member :=
  { line := f.line, value := f.value, quals := f.quals, program := f.program, lastSeen := f.time, mark := mark }

/-- The LINE ticket that a finding raises (R125). -/
def fresh (f : Finding) (number raiseOrder : Nat) : Ticket :=
  { number := number, subject := .line f.line, code := f.code, linked := none, baseSeverity := f.severity
    severity := f.severity, state := .raised, occurrences := 1, firstSeen := f.time, lastSeen := f.time
    lastValue := f.value, lastQuals := f.quals, program := f.program, retestCount := 0, raiseOrder := raiseOrder }

/-- A finding on a line is placed by step 3 of R123: no LINE ticket has its key, and no CABLE ticket takes it. -/
abbrev Unfiled (f : Finding) (s : State) : Prop :=
  (∀ t ∈ s.tickets, ¬(t.subject = .line f.line ∧ t.code = f.code)) ∧
  ∀ c, cableOf f.line s = some c → ∀ t ∈ s.tickets, ¬(t.subject = .cable c.val ∧ t.code = f.code)

/-- No member list of a code holds a line. -/
abbrev NoMember (line : Nat) (x : FaultCode) (s : State) : Prop :=
  ∀ t ∈ s.tickets, t.isCable = true → t.code = x → ∀ m ∈ t.members, m.line ≠ line

/-- The number counter's value, and the one after it, are free and below 65,535. -/
abbrev NumberFree (s : State) : Prop :=
  s.numberCounter < 65534 ∧ ∀ t ∈ s.tickets, t.number ≠ s.numberCounter ∧ t.number ≠ s.numberCounter + 1

/-- A new LINE ticket enters the table (R122, R125), and TICKETS counts the finding. -/
def filed (f : Finding) (s : State) : State :=
  { s with
    tickets := s.tickets ++ [fresh f s.numberCounter s.raiseCounter]
    numberCounter := s.numberCounter + 1
    raiseCounter := next s.raiseCounter
    ticketCounters := { s.ticketCounters with
      findings := raised s.ticketCounters.findings
      raised := raised s.ticketCounters.raised
      peakOccupancy := max s.ticketCounters.peakOccupancy (s.tickets.length + 1) } }

/-- A ticket may be evicted by a finding of a severity (R126). -/
abbrev Evictable (severity : Nat) (t : Ticket) : Prop :=
  t.isLine = true ∧ t.state = .raised ∧ severity < t.severity

/-- A ticket counts toward the correlation test of a cable and code for a finding of a time (R144). -/
def Counts (c : Fin 256) (f : Finding) (s : State) (t : Ticket) : Bool :=
  match t.subject with
  | .line l =>
    t.code = f.code ∧ cableOf l s = some c ∧ t.linked = none ∧ f.time ≤ t.lastSeen + s.site.window
  | .cable _ => false

/-- The member entry that a merged LINE ticket makes (R147). -/
def memberOfLine (t : Ticket) : Member :=
  { line := match t.subject with | .line l => l | .cable _ => 0
    value := t.lastValue, quals := t.lastQuals, program := t.program, lastSeen := t.lastSeen, mark := .none }

/-! ### Sweep lines (R160 to R163) -/

/-- The dynamic fields of one descriptor are replaced. -/
def withSweep (d : SweepNo) (x : Descriptor) (s : State) : State := { s with sweeps := s.sweeps.set d x }

/-- The counts of one descriptor are replaced. -/
def withSweepCounts (d : SweepNo) (counts : SweepCounts) (s : State) : State :=
  withSweep d { s.sweeps[d] with counts := counts } s

/-- A LINE ticket stands for a line, or a member list holds it (R160). -/
abbrev Ticketed (line : Nat) (s : State) : Prop :=
  ∃ t ∈ s.tickets, t.subject = .line line ∨ ∃ m ∈ t.members, m.line = line

/-- A line lies in a cable that has a CABLE ticket (R153). -/
abbrev Suppressed (line : Nat) (s : State) : Prop :=
  ∃ c, cableOf line s = some c ∧ ∃ t ∈ s.tickets, t.subject = .cable c.val

/-- The counts of a descriptor after a line whose bus held a condition, LOCKED or not (R163). -/
def lockCounted (locked : Bool) (c : SweepCounts) : SweepCounts :=
  if locked then { c with lockedLines := raised c.lockedLines } else c

/-- A descriptor SUSPENDED at the end of its line, with its counts (R163). -/
def stoppedWith (counts : SweepCounts) (x : Descriptor) : Descriptor :=
  { x with state := .suspended, inFlight := none, suspendPending := false, counts := counts }

/-! ### Counter groups (R42, R56, R91, R106, R140, R175) -/

/-- The HIGHWAY counts in their order, the command that reads them counted. -/
def highwayGroup (s : State) : List Nat :=
  [s.highway.gains, s.highway.losses, s.highway.misses, s.highway.badFrames, s.highway.msgBad, s.highway.msgCut,
    raised s.highway.commandsTaken, s.highway.cmdDropped, s.highway.noticesLost, s.highway.noticePeak]

/-- The ACCESS counts in their order. -/
def accessGroup (s : State) : List Nat :=
  (s.busCounters.toList.flatMap fun c =>
    [c.grants, c.makeTimeouts, c.lateConfirmations, c.guardRefusals, c.releaseTimeouts, c.relayFaults, c.busFaults])
    ++ [s.queuePeak, s.preemptions]

/-- The HEADS counts and figures in their order. -/
def headsGroup (s : State) : List Nat :=
  s.headCounters.toList.flatMap fun c =>
    [c.assignments, c.measurementsEnded, c.lostSamples, c.phaseRepeats, c.rangeChanges, c.echoTimeouts, c.returnTimeouts,
      c.faultFlags, c.echoDepartures, c.headFaults, c.clippedSamples, c.peakVoltage]

/-- The TICKETS counts in their order. -/
def ticketsGroup (s : State) : List Nat :=
  [s.ticketCounters.findings, s.ticketCounters.raised, s.ticketCounters.occurrences, s.ticketCounters.membersAdded,
    s.ticketCounters.memberOverflow, s.ticketCounters.dropped, s.ticketCounters.evicted, s.ticketCounters.closed,
    s.ticketCounters.peakOccupancy]

/-! ### Tables (R182 to R184) -/

/-- A site parameter record in its ranges (R183). -/
abbrev SiteInRange (p : SiteParams) : Prop :=
  p.quota ≤ 8 ∧ 60 ≤ p.window ∧ p.window ≤ 3600 ∧ p.warning ≤ 10000 ∧ ∀ d : DeskNo, -3 ≤ p.gain[d] ∧ p.gain[d] ≤ 3

/-- A limit table entry in the ranges of its code (R109). -/
abbrev LimitInRange (i : Fin 160) (e : LimitEntry) : Prop :=
  e.severity ≤ 3 ∧
    e.threshold ≤ if i.val % 10 < 4 then 1000000000 else if i.val % 10 < 8 then 32767 else 9999999

/-- A program of up to eight steps in range, each RES and CAP step with a source (R76, R77). -/
abbrev ProgramInRange (p : List StepDef) : Prop :=
  p.length ≤ 8 ∧ ∀ d ∈ p, 1 ≤ d.units ∧ d.units ≤ 16 ∧ d.settle ≤ 500 ∧ (d.kind = .res ∨ d.kind = .cap → d.source ≠ .off)

/-- No two steps of a program have the same kind and legs (R77). -/
abbrev StepsDiffer (p : List StepDef) : Prop := p.Pairwise fun d e => (d.kind, d.legs) ≠ (e.kind, e.legs)

/-- A cable map entry in its ranges (R142). -/
abbrev CableInRange (e : Option CableRange) : Prop :=
  ∀ r, e = some r → r.first ≤ r.last ∧ r.last ≤ 16383 ∧ (r.k = 0 ∨ 2 ≤ r.k ∧ r.k ≤ 64)

/-- No two ranges of a cable map share a line (R142). -/
abbrev CablesApart (v : Vector (Option CableRange) 256) : Prop :=
  ∀ (i j : Fin 256) (a b : CableRange), i ≠ j → v[i] = some a → v[j] = some b → a.last < b.first ∨ b.last < a.first

/-- A tone table entry in its ranges (R18). -/
abbrev ToneInRange (t : Tone) : Prop := 50 ≤ t.frequency ∧ t.frequency ≤ 3950 ∧ t.amplitude ≤ 32767

/-- A sweep configuration in its ranges (R154). -/
abbrev ConfigInRange (c : SweepConfig) : Prop :=
  c.first ≤ 16383 ∧ 1 ≤ c.count ∧ c.count ≤ 16384 ∧ 1 ≤ c.stride ∧ c.stride ≤ 64 ∧ c.program ≤ 15 ∧
    c.pace ≤ 60000 ∧ c.first + (c.count - 1) * c.stride ≤ 16383

/-- Octets of a site parameter record with a field out of its range (R183). -/
abbrev BadSite (e : List Octet) : Prop :=
  1 < num1 e 0 ∨ 8 < num1 e 1 ∨ num2 e 2 < 60 ∨ 3600 < num2 e 2 ∨ 1 < num1 e 4 ∨ 15 < num1 e 5 ∨ 10000 < num2 e 6 ∨
    ∃ d : DeskNo, 7 < num1 e (8 + 2 * d.val) ∨ (octetAt e (9 + 2 * d.val)).toInt < -3 ∨
      3 < (octetAt e (9 + 2 * d.val)).toInt

/-- Octets of a limit table entry with a field out of its range (R109, R182). -/
abbrev BadLimit (e : List Octet) : Prop :=
  15 < num1 e 0 ∨ 9 < num1 e 1 ∨ 1 < num1 e 2 ∨ 3 < num1 e 3 ∨
    (if num1 e 1 < 4 then 1000000000 else if num1 e 1 < 8 then 32767 else 9999999) < num4 e 4

/-- Octets of a program table entry with a field out of its range, or with a RES or CAP step without a source (R76, R77, R182). -/
abbrev BadProgram (e : List Octet) : Prop :=
  15 < num1 e 0 ∨ 8 < num1 e 1 ∨ ∃ k : Fin 8, k.val < num1 e 1 ∧
    let field (j : Nat) : Nat := num1 e (2 + 7 * k.val + j)
    (3 < field 0 ∨ field 1 = 0 ∨ 3 < field 1 ∨ 4 < field 2 ∨ 2 < field 3 ∨ field 4 = 0 ∨ 16 < field 4 ∨
      500 < num2 e (2 + 7 * k.val + 5) ∨ 2 ≤ field 0 ∧ field 2 = 0)

/-- Octets of a cable map entry with a field out of its range (R142, R182). -/
abbrev BadCable (e : List Octet) : Prop :=
  1 < num1 e 1 ∨ num1 e 1 = 1 ∧ (num2 e 4 < num2 e 2 ∨ 16383 < num2 e 4 ∨ num1 e 6 = 1 ∨ 64 < num1 e 6)

/-- Octets of a tone table entry with a field out of its range (R18, R182). -/
abbrev BadTone (e : List Octet) : Prop :=
  3 < num1 e 0 ∨ num2 e 1 < 50 ∨ 3950 < num2 e 1 ∨ 32767 < num2 e 3

/-- Octets of a sweep configuration with a field out of its range (R154, R182). -/
abbrev BadConfig (e : List Octet) : Prop :=
  7 < num1 e 0 ∨ 16383 < num2 e 1 ∨ num2 e 3 = 0 ∨ 16384 < num2 e 3 ∨ num1 e 5 = 0 ∨ 64 < num1 e 5 ∨ 15 < num1 e 6 ∨
    60000 < num2 e 8 ∨ 16383 < num2 e 1 + (num2 e 3 - 1) * num1 e 5

/-- Of the entries of a load, each of a size, one is bad. -/
abbrev SomeEntry (bad : List Octet → Prop) (size : Nat) (count : Word) (entries : List Octet) : Prop :=
  ∃ i < count.toNat, bad ((entries.drop (i * size)).take size)

/-- A descriptor whose configuration may be loaded is IDLE or DONE (R154). -/
abbrev Loadable (d : SweepNo) (s : State) : Prop := s.sweeps[d].state = .idle ∨ s.sweeps[d].state = .done

/-- Entries of a table written in the order a load names them, a later one over an earlier (R181). -/
def written {α : Type} {n : Nat} (es : List (Fin n × α)) (v : Vector α n) : Vector α n :=
  es.foldl (fun v p => v.set p.1 p.2) v

end Sys2Proof.Stated

section Statements

open Sys2Proof Sys2Proof.Machine Sys2Proof.Stated

/-! ### Steps, resets and whole-machine rules -/

/-- A step takes the command at the front of the queue, an event being whole before the next (11.1.2, 0.12); on an empty queue
the block idles (the second clause is the model's choice, log entry 1). -/
def Obligations.StepTakesFront : Prop :=
  (∀ (c : Instr) (s : State), step { s with pending := c :: s.pending } = exec c s)
  ∧ ∀ s : State, s.pending = [] → step s = .next s

/-- No command or event touches the model's queue of those that wait (log entry 6); it is no state of the manual. -/
def Obligations.ExecLeavesQueue : Prop :=
  ∀ (c : Instr) (s t : State), exec c s = .next t → t.pending = s.pending

/-- What a power-on reset leaves (R178), every value the manual's own; the queue that it leaves as it stands is the model's
(log entry 27). -/
def Obligations.PowerOnContents : Prop :=
  ∀ s : State, ∃ t, exec .powerOnReset s = .next t ∧
    t.pending = s.pending ∧ (∃ p, t.alignment = .hunting p) ∧ t.highway = {} ∧ (∀ i : Fin 42, t.store[i] = 0) ∧
    (∀ i : Fin 30, t.paths[i] = { primary := none, secondary := none, action := .idle }) ∧
    (∀ k : ToneNo, t.tones[k] = { frequency := 1000, amplitude := 0, phase := 0 }) ∧
    (∀ b : BusNo, t.buses[b].state = .free ∧ t.buses[b].line = none ∧ t.buses[b].holder = none ∧
      t.buses[b].order = .none ∧ t.buses[b].timer = none ∧ t.buses[b].makeTimeouts = 0 ∧
      t.buses[b].accepted = .none ∧ t.busCounters[b] = {}) ∧
    t.claims = [] ∧ (∀ d : DeskNo, t.audio[d] = none) ∧ t.queue = [] ∧ t.arrivals = 0 ∧ t.rotation = 0 ∧
    t.grantCount = 0 ∧ t.queuePeak = 0 ∧ t.preemptions = 0 ∧
    (∀ h : HeadNo, t.heads[h].state = .idle ∧ t.heads[h].word = HeadWord.rest ∧ t.heads[h].bus = none ∧
      t.heads[h].timer = none ∧ t.headCounters[h] = {}) ∧
    t.headQueue = [] ∧ (∀ n : Fin 16, t.programs[n] = []) ∧ (∀ line, classOf line t = 0) ∧
    (∀ i : Fin 160, t.limits[i].enabled = false) ∧ t.tickets = [] ∧ t.numberCounter = 1 ∧ t.raiseCounter = 0 ∧
    t.repairList = [] ∧ t.inFlight = [] ∧ t.ticketCounters = {} ∧ (∀ c : Fin 256, t.cables[c] = none) ∧
    (∀ d : SweepNo, t.sweeps[d].config = none ∧ t.sweeps[d].state = .idle ∧ t.sweeps[d].deferred = [] ∧
      t.sweeps[d].pace = .stopped ∧ t.sweeps[d].counts = {}) ∧
    t.assembler = .waiting ∧ t.replies = [] ∧ t.notices = [] ∧ t.sending = [] ∧ t.clock = 0 ∧ t.frameCount = 0 ∧
    t.site = { mains60 := false, quota := 2, window := 900, poll := false, mask := 0, warning := 2000,
               authority := Vector.replicate 6 { monitorBusy := false, overrides := false, urgent := false },
               gain := Vector.replicate 6 0 }

/-- The capacities and forms that the invariants below keep hold right after a power-on reset (R178). -/
def Obligations.BoundsHoldAtReset : Prop :=
  State.reset.claimsOk = true ∧ State.reset.classesOk = true ∧ State.reset.repliesOk = true ∧
  State.reset.noticesOk = true ∧ State.reset.waitsOk = true ∧ State.reset.ticketsOk = true ∧
  State.reset.keysOk = true ∧ State.reset.membersOk = true ∧ State.reset.retestsOk = true ∧
  State.reset.deferredOk = true ∧ State.reset.countsOk = true ∧ State.reset.headsOk = true ∧ State.reset.clockOk = true

/-- The line claim table never holds a line twice (R22): every step keeps its lines strictly rising. The line class map keeps its
canonical form, classes 1 to 15 on lines 0 to 16,383 in rising order (R107). -/
def Obligations.LineTablesStayCanonical : Prop :=
  (∀ s t : State, s.claimsOk = true → step s = .next t → t.claimsOk = true) ∧
  ∀ s t : State, s.classesOk = true → step s = .next t → t.classesOk = true

/-- The reply queue holds up to 16 replies (R172) and the notice queue up to 32 notices (R173). Of the access wait queue, a desk
has at most one request waiting and the exchange processor at most four (R44); with at most one for each descriptor and four
for the retests, the queue never holds more than its 22 entries (R43). -/
def Obligations.QueuesStayBounded : Prop :=
  (∀ s t : State, s.repliesOk = true → step s = .next t → t.repliesOk = true) ∧
  (∀ s t : State, s.noticesOk = true → step s = .next t → t.noticesOk = true) ∧
  (∀ s t : State, s.waitsOk = true → step s = .next t → t.waitsOk = true) ∧
  ∀ s : State, s.waitsOk = true →
    (∀ d : SweepNo, (s.queue.filter fun e => e.requester = .sweep d).length ≤ 1) →
    (s.queue.filter fun e => purposeOf e.requester = .retest).length ≤ 4 → s.queue.length ≤ 22

/-- The ticket table holds at most 128 tickets, no two of one number, at most 10 of them ISSUED, at most 16 of them CABLE
tickets, and no CABLE ticket lists more than 64 members (R120, R122, R128). No two tickets share a kind and key, and no line
stands both as a member of a CABLE ticket and as a LINE ticket of its code (R123). -/
def Obligations.TicketTableStaysBounded : Prop :=
  (∀ s t : State, s.ticketsOk = true → step s = .next t → t.ticketsOk = true) ∧
  (∀ s t : State, s.keysOk = true → step s = .next t → t.keysOk = true) ∧
  ∀ s t : State, s.ticketsOk = true → s.keysOk = true → s.membersOk = true → step s = .next t → t.membersOk = true

/-- At most 4 retests are in flight (R135), a deferred list holds up to 16 lines, no line twice, and the counts of a descriptor
stay within 32 bits (R155). A head that is not active has the rest word, whose source is OFF, and an active one the attach
flag, the number of its bus and a measurement (R72). -/
def Obligations.RetestsAndDeferralsStayBounded : Prop :=
  (∀ s t : State, s.retestsOk = true → step s = .next t → t.retestsOk = true) ∧
  (∀ s t : State, s.deferredOk = true → step s = .next t → t.deferredOk = true) ∧
  (∀ s t : State, s.countsOk = true → step s = .next t → t.countsOk = true) ∧
  ∀ s t : State, s.headsOk = true → step s = .next t → t.headsOk = true

/-! ### The taking of commands (R169 to R173) -/

/-- A command that finds 16 replies waiting is dropped: CMD_DROPPED rises, and nothing else changes (R171). -/
def Obligations.FullReplyQueueDropsCommand : Prop :=
  ∀ (c : Instr) (hd : Header) (s : State), c.header = some hd → 16 ≤ s.replies.length →
    exec c s = .next { s with highway := { s.highway with cmdDropped := min (s.highway.cmdDropped + 1) 4294967295 } }

/-- A command whose length is not its kind's is refused BAD_LENGTH, and one whose origin is above 6 is refused BAD_FIELD; a checked
message of a kind that no command has is refused UNKNOWN_KIND, whatever its length and origin. Each changes nothing but the
count of commands and the reply queue (R171). -/
def Obligations.CommonChecksRefuse : Prop :=
  (∀ (c : Instr) (hd : Header) (kind : Octet) (length : Nat) (s : State), c.header = some hd →
    kindAndLength c = some (kind, length) → s.replies.length < 16 →
    (hd.length.toNat ≠ length → exec c s = .next (answered kind hd .badLength .empty s)) ∧
    (hd.length.toNat = length → 6 < hd.origin.toNat → exec c s = .next (answered kind hd .badField .empty s))) ∧
  ∀ (hd : Header) (kind : Octet) (body : List Octet) (s : State), (kind = 0 ∨ 26 < kind.toNat) →
    s.replies.length < 16 →
    exec (.unknownKindCommand hd kind body) s = .next (answered kind hd .unknownKind .empty s)

/-- A desk that sends a command of the exchange processor is refused NOT_PERMITTED, whatever its fields and the state, and nothing
else changes (R16, R39, R88, R130, R131, R156, R176, R177, R181). For RESTORE BUS, RESTORE HEAD and the descriptor commands,
whose checks the rules give in prose, that this refusal goes before BAD_FIELD and WRONG_STATE is the model's choice (log
entry 28, DEDUCED). -/
def Obligations.DeskRefusedProcessorCommands : Prop :=
  ∀ (c : Instr) (hd : Header) (kind : Octet) (length : Nat) (o : Origin) (s : State), c.header = some hd →
    kindAndLength c = some (kind, length) → forProcessor c = true → o.val < 6 → From o length hd s →
    exec c s = .next (answered kind hd .notPermitted .empty s)

/-- The message that spells a command, complete and with its check, is taken as that command (R170, R171, R180). That a row of the table
and its message have one effect is the model's choice (log entry 6). -/
def Obligations.MessageIsItsCommand : Prop :=
  ∀ (c : Instr) (hd : Header) (s : State), c.header = some hd → hd.length.toNat = (messageOf hd c).length →
    exec c s = .next (completeMessage (messageOf hd c) s)

/-- What a taken frame does to the assembler (R169): in ASSEMBLING a new start flag cuts the message off and begins the next, and a
message of 6 to 8 octets is complete in its first frame. A message whose check octets differ from the sum of the octets
before them is discarded under MSG_BAD (R170). -/
def Obligations.AssemblerFollowsFrames : Prop :=
  (∀ (octets before : List Octet) (promised : Nat) (s : State), s.assembler = .assembling before promised →
    assemble true true octets s =
      assemble true true octets
        { s with assembler := .waiting
                 highway := { s.highway with msgCut := min (s.highway.msgCut + 1) 4294967295 } }) ∧
  (∀ (octets : List Octet) (s : State), s.assembler = .waiting → octets.length = 8 → 6 ≤ num1 octets 0 →
    num1 octets 0 ≤ 8 → assemble true true octets s = completeMessage (octets.take (num1 octets 0)) s) ∧
  (∀ (start : Bool) (octets before : List Octet) (promised : Nat) (s : State), s.assembler = .assembling before promised →
    assemble false start octets s =
      { s with assembler := .waiting
               highway := { s.highway with msgCut := min (s.highway.msgCut + 1) 4294967295 } }) ∧
  (∀ (good start : Bool) (octets : List Octet) (s : State), s.assembler = .waiting → ¬(good = true ∧ start = true) →
    assemble good start octets s = s) ∧
  (∀ (octets : List Octet) (s : State), s.assembler = .waiting → octets.length = 8 → 8 < num1 octets 0 →
    num1 octets 0 ≤ 250 →
    assemble true true octets s = { s with assembler := .assembling octets (num1 octets 0) }) ∧
  (∀ (octets : List Octet) (s : State), s.assembler = .waiting → (num1 octets 0 < 6 ∨ 250 < num1 octets 0) →
    assemble true true octets s =
      { s with highway := { s.highway with msgBad := min (s.highway.msgBad + 1) 4294967295 } }) ∧
  (∀ (octets before : List Octet) (promised : Nat) (s : State), s.assembler = .assembling before promised →
    before.length + octets.length < promised →
    assemble true false octets s = { s with assembler := .assembling (before ++ octets) promised }) ∧
  (∀ (octets before : List Octet) (promised : Nat) (s : State), s.assembler = .assembling before promised →
    promised ≤ before.length + octets.length →
    assemble true false octets s = completeMessage ((before ++ octets).take promised) { s with assembler := .waiting }) ∧
  ∀ (front : List Octet) (check : Word) (s : State), check ≠ front.foldl (fun sum o => sum + o.zeroExtend 16) 0 →
    completeMessage (front ++ octets2 check) s =
      { s with highway := { s.highway with msgBad := min (s.highway.msgBad + 1) 4294967295 } }

/-- A notice joins a queue with room as its last entry, with the desk clock, and NOTICE_PEAK follows; at 32 it is dropped and
NOTICES_LOST rises (R173). -/
def Obligations.NoticesQueueOrAreLost : Prop :=
  (∀ (addressed : Nat) (body : NoticeBody) (s : State), s.notices.length < 32 →
    pushNotice addressed body s =
      { s with
        notices := s.notices ++ [{ addressed := addressed, clock := s.clock, body := body }]
        highway := { s.highway with noticePeak := max s.highway.noticePeak (s.notices.length + 1) } }) ∧
  ∀ (addressed : Nat) (body : NoticeBody) (s : State), 32 ≤ s.notices.length →
    pushNotice addressed body s =
      { s with highway := { s.highway with noticesLost := min (s.highway.noticesLost + 1) 4294967295 } }

/-! ### The inbound highway (R4 to R10) -/

/-- In HUNTING the pattern becomes the candidate with a confirmation count of 1 (R4); the event changes nothing where its
condition does not hold (log entry 2). A confirmation without the pattern returns to HUNTING after the first bit of the word
examined; the first with it raises the count to 2; the second gains alignment and its frame, here a plain one on a quiet
machine, is taken (R5, R8). -/
def Obligations.AlignmentIsGained : Prop :=
  (∀ (position start : Nat) (s : State), s.alignment = .hunting start → start ≤ position →
    exec (.huntPatternFound position 0b101101001110001#15) s =
      .next { s with alignment := .confirming position 1 }) ∧
  (∀ (position : Nat) (bits : BitVec 15) (s : State),
    ¬((∃ start, s.alignment = .hunting start ∧ start ≤ position) ∧ bits = 0b101101001110001#15) →
    exec (.huntPatternFound position bits) s = .next s) ∧
  (∀ (f : Frame) (order : List Act) (candidate count : Nat) (s : State), s.alignment = .confirming candidate count →
    hasPattern f = false →
    exec (.confirmationFrame f order) s = .next { s with alignment := .hunting (candidate + 768 * count + 1) }) ∧
  (∀ (f : Frame) (order : List Act) (candidate : Nat) (s : State), s.alignment = .confirming candidate 1 →
    hasPattern f = true →
    exec (.confirmationFrame f order) s = .next { s with alignment := .confirming candidate 2 }) ∧
  ∀ (f : Frame) (order : List Act) (candidate : Nat) (s : State), s.alignment = .confirming candidate 2 → Quiet s →
    Plain f →
    exec (.confirmationFrame f order) s =
      .next (pushNotice 6 .highwayRestored (stored f
        { s with alignment := .aligned (candidate + 768 * 2) 0
                 highway := { s.highway with gains := min (s.highway.gains + 1) 4294967295 } }))

/-- A plain good frame in ALIGNED sets the miss count to 0 and, on a quiet machine, changes the source store and the last
echoed words alone, in whatever order its acts are taken (R2, R6, R9, R11). -/
def Obligations.PlainFrameIsStored : Prop :=
  ∀ (f : Frame) (order : List Act) (position misses : Nat) (s : State), s.alignment = .aligned position misses →
    Quiet s → Plain f →
    exec (.inboundFrame f order) s = .next (stored f { s with alignment := .aligned (position + 768) 0 })

/-- A frame with a wrong check is counted under BAD_FRAMES, and a quiet machine takes nothing from it (R9, R10). The first three
missed frames in a row are taken as bad frames; with the fourth, alignment is lost (R6, R7), and the measurement of an active
head, here the one of a desk or of the exchange processor that awaits its echo, ends HIGHWAY_LOST (R89). That its result is
queued before HIGHWAY_LOST is the model's choice (log entry 14). -/
def Obligations.BadAndMissedFramesAreCounted : Prop :=
  (∀ (f : Frame) (order : List Act) (position misses : Nat) (s : State), s.alignment = .aligned position misses →
    Quiet s → hasPattern f = true → frameSum f ≠ f[47] →
    exec (.inboundFrame f order) s =
      .next { s with alignment := .aligned (position + 768) 0
                     highway := { s.highway with badFrames := min (s.highway.badFrames + 1) 4294967295 } }) ∧
  (∀ (f : Frame) (order : List Act) (position misses : Nat) (s : State), s.alignment = .aligned position misses →
    misses < 3 → Quiet s → hasPattern f = false →
    exec (.inboundFrame f order) s =
      .next { s with alignment := .aligned (position + 768) (misses + 1)
                     highway := { s.highway with misses := min (s.highway.misses + 1) 4294967295 } }) ∧
  (∀ (f : Frame) (order : List Act) (position : Nat) (s : State), s.alignment = .aligned position 3 → Quiet s →
    hasPattern f = false →
    exec (.inboundFrame f order) s =
      .next (pushNotice 6 .highwayLost
        { s with alignment := .hunting (position + 768 + 1)
                 highway := { s.highway with misses := min (s.highway.misses + 1) 4294967295
                                             losses := min (s.highway.losses + 1) 4294967295 }
                 store := Vector.replicate 42 0 })) ∧
  ∀ (f : Frame) (order : List Act) (position n : Nat) (h : HeadNo) (b : BusNo) (o : Origin) (c : Context) (s : State),
    s.alignment = .aligned position 3 → hasPattern f = false → NoneOwed s → (∀ k : HeadNo, k ≠ h → QuietHead k s) →
    s.heads[h].state = .awaitEcho → s.heads[h].timer = some n → n < 160 → Measures h b o c s →
    (∀ k : BusNo, k ≠ b → QuietBus k s) → s.buses[b].state = .held → s.buses[b].candidate = none →
    s.buses[b].stable = 0 →
    exec (.inboundFrame f order) s =
      .next (pushNotice 6 .highwayLost
        (stops h b o c .highwayLost
          { s with alignment := .hunting (position + 768 + 1)
                   highway := { s.highway with misses := min (s.highway.misses + 1) 4294967295
                                               losses := min (s.highway.losses + 1) 4294967295 }
                   store := Vector.replicate 42 0 }))

/-! ### Buses: relay states, the debouncer and timers (R24 to R38) -/

/-- What a relay state does to a bus (R24): MADE ends the make wait (R28); OPEN ends a release, the bus becoming FREE, or
OUT_OF_SERVICE after three make timeouts (R35); a MADE seen in a release is counted once while the late watch is set (R30);
FAULT takes a bus out of service, stuck where it carries a line, its seizure failing BUS_FAULT (R37); OPEN in GUARD or HELD
does so with its claim removed and the stuck flag clear (R38). Nothing is measured, and where a claim is removed no request
waits here. What a bus out of use keeps in its other fields, and the order of the two notices, are the model's choice (log
entries 14 and 17). -/
def Obligations.RelayStatesMoveBus : Prop :=
  (∀ (b : BusNo) (s : State), s.buses[b].state = .releasing →
    (s.buses[b].lateWatch = true →
      relayActs b .made s =
        withCounts b { s.busCounters[b] with lateConfirmations := raised s.busCounters[b].lateConfirmations }
          (withBus b { s.buses[b] with lateWatch := false } s)) ∧
    (s.buses[b].lateWatch = false → relayActs b .made s = s)) ∧
  (∀ (b : BusNo) (o : Origin) (line : Nat) (s : State), s.buses[b].holder = some (.origin o) →
    s.buses[b].line = some line → Unmeasured b s →
    (s.buses[b].state = .seizing ∨ s.buses[b].state = .guard →
      relayActs b .fault s =
        pushNotice 6 (.busFaulted b (some line) .relayFault true)
          (pushNotice o.val (.seizeFailed b line (.origin o) .busFault)
            (withCounts b (faultCounts s.busCounters[b])
              (unhears o b (sends b {} (withBus b (faulted (some line) true s.buses[b]) s)))))) ∧
    (s.buses[b].state = .held ∨ s.buses[b].state = .releasing →
      relayActs b .fault s =
        pushNotice 6 (.busFaulted b (some line) .relayFault true)
          (withCounts b (faultCounts s.busCounters[b])
            (unhears o b (sends b {} (withBus b (faulted (some line) true s.buses[b]) s))))) ∧
    (s.buses[b].state = .guard → s.queue = [] →
      relayActs b .opened s =
        pushNotice 6 (.busFaulted b (some line) .relayDropped false)
          (pushNotice o.val (.seizeFailed b line (.origin o) .busFault)
            (withCounts b (faultCounts s.busCounters[b])
              (unhears o b (sends b {} (withBus b (faulted none false s.buses[b])
                { s with claims := s.claims.filter fun p => p.2 != b })))))) ∧
    (s.buses[b].state = .held → s.queue = [] →
      relayActs b .opened s =
        pushNotice 6 (.busFaulted b (some line) .relayDropped false)
          (withCounts b (faultCounts s.busCounters[b])
            (unhears o b (sends b {} (withBus b (faulted none false s.buses[b])
              { s with claims := s.claims.filter fun p => p.2 != b })))))) ∧
  (∀ (b : BusNo) (s : State), s.buses[b].state = .seizing →
    relayActs b .made s =
      withBus b { s.buses[b] with state := .guard, makeTimeouts := 0, timer := some 0, accepted := .none,
                                  candidate := none, stable := 0 } s) ∧
  (∀ (b : BusNo) (o : Origin) (line : Nat) (s : State), s.buses[b].state = .releasing → s.buses[b].makeTimeouts < 3 →
    s.buses[b].line = some line → s.buses[b].holder = some (.origin o) → s.buses[b].cause = some .requested →
    s.queue = [] →
    relayActs b .opened s =
      pushNotice o.val (.busReleased b line (some (.origin o)) .requested)
        (withBus b { s.buses[b] with state := .free, line := none, holder := none, accepted := .none,
                                     candidate := none, stable := 0, order := .none, timer := none,
                                     lateWatch := false, cause := none }
          { s with claims := s.claims.filter fun p => p.2 != b })) ∧
  (∀ (b : BusNo) (line : Nat) (s : State), s.buses[b].state = .releasing → s.buses[b].makeTimeouts = 3 →
    s.buses[b].line = some line → s.queue = [] →
    relayActs b .opened s =
      pushNotice 6 (.busFaulted b (some line) .makeTimeouts false)
        (withCounts b { s.busCounters[b] with busFaults := raised s.busCounters[b].busFaults }
          (withBus b { s.buses[b] with state := .outOfService, line := none, holder := none, accepted := .none,
                                       candidate := none, stable := 0, order := .none, timer := none,
                                       lateWatch := false, cause := none, stuck := false }
            { s with claims := s.claims.filter fun p => p.2 != b }))) ∧
  ∀ (b : BusNo) (s : State), s.buses[b].state = .free → s.buses[b].line = none → s.buses[b].holder = none →
    relayActs b .fault s =
      pushNotice 6 (.busFaulted b none .relayFault false)
        (withCounts b { s.busCounters[b] with busFaults := raised s.busCounters[b].busFaults
                                              relayFaults := raised s.busCounters[b].relayFaults }
          (sends b {}
            (withBus b { s.buses[b] with state := .outOfService, accepted := .none, candidate := none, stable := 0,
                                         order := .none, timer := none, stuck := false, mode := none, tone := none,
                                         warnTimer := none, warnLimit := none } s)))

/-- The debouncer of a bus in GUARD or HELD short of an acceptance, and its standing still in every other state (R26). -/
def Obligations.DebouncerCounts : Prop :=
  (∀ (b : BusNo) (cond : Option LineCond) (s : State), s.buses[b].state ≠ .guard → s.buses[b].state ≠ .held →
    debounce b cond s = s) ∧
  (∀ (b : BusNo) (s : State), s.buses[b].state = .guard ∨ s.buses[b].state = .held →
    debounce b none s = withBus b { s.buses[b] with candidate := none, stable := 0 } s) ∧
  (∀ (b : BusNo) (s : State), s.buses[b].state = .guard ∨ s.buses[b].state = .held →
    debounce b (some s.buses[b].accepted) s = withBus b { s.buses[b] with candidate := none, stable := 0 } s) ∧
  (∀ (b : BusNo) (c : LineCond) (s : State), s.buses[b].state = .guard ∨ s.buses[b].state = .held →
    c ≠ s.buses[b].accepted → s.buses[b].candidate = some c → s.buses[b].stable < 7 →
    debounce b (some c) s = withBus b { s.buses[b] with stable := s.buses[b].stable + 1 } s) ∧
  ∀ (b : BusNo) (c : LineCond) (s : State), s.buses[b].state = .guard ∨ s.buses[b].state = .held →
    c ≠ s.buses[b].accepted → s.buses[b].candidate ≠ some c →
    debounce b (some c) s = withBus b { s.buses[b] with candidate := some c, stable := 1 } s

/-- The eighth consecutive good frame with a condition accepts it. In GUARD, a desk's or the exchange processor's bus is HELD
in STANDBY on IDLE or LOCKED; on CALL or RINGING it is HELD, restricted, for a desk with monitor authority; NO_LINE, and a
call without that authority, end the seizure (R26, R31). An internal holder's bus is HELD in MEASURE on IDLE or LOCKED and joins
the head wait queue, here with no head IDLE or without alignment, with a copy of its program and its evaluate flag (R31, R75,
R78); on CALL, RINGING or NO_LINE its seizure ends and it is told (R31). The count of free values is the model's own (log entry
19). -/
def Obligations.GuardAcceptsCondition : Prop :=
  (∀ (b : BusNo) (o : Origin) (line : Nat) (c : LineCond) (s : State), s.buses[b].state = .guard →
    s.buses[b].holder = some (.origin o) → s.buses[b].line = some line → NoAudio b s → c ≠ s.buses[b].accepted →
    s.buses[b].candidate = some c → s.buses[b].stable = 7 →
    (c = .idle ∨ c = .locked ∨
      ((c = .call ∨ c = .ringing) ∧ ∃ h : o.val < 6, s.site.authority[o.val].monitorBusy = true)) →
    debounce b (some c) s =
      pushNotice o.val (.busHeld b line (.origin o) c (c == .call || c == .ringing))
        (enters b .standby none none {}
          (withBus b { s.buses[b] with state := .held, accepted := c, candidate := none, stable := 0, timer := none,
                                       busy := c == .call || c == .ringing } s))) ∧
  (∀ (b : BusNo) (o : Origin) (line : Nat) (c : LineCond) (s : State), s.buses[b].state = .guard →
    s.buses[b].holder = some (.origin o) → s.buses[b].line = some line → NoAudio b s → c ≠ s.buses[b].accepted →
    s.buses[b].candidate = some c → s.buses[b].stable = 7 →
    (c = .noLine ∨
      ((c = .call ∨ c = .ringing) ∧ ∀ h : o.val < 6, s.site.authority[o.val].monitorBusy = false)) →
    debounce b (some c) s =
      pushNotice o.val (.seizeFailed b line (.origin o) (if c = .noLine then .noLine else .lineBusy))
        (withCounts b { s.busCounters[b] with guardRefusals := raised s.busCounters[b].guardRefusals }
          (sends b {}
            (withBus b (breaking line (if c = .noLine then .noLine else .lineBusy)
              { s.buses[b] with accepted := c }) s)))) ∧
  (∀ (b : BusNo) (x : Holder) (line : Nat) (p : Fin 16) (evaluate : Bool) (c : LineCond) (s : State),
    s.buses[b].state = .guard → s.buses[b].holder = some x → s.buses[b].line = some line → EighthOf b c s →
    (c = .idle ∨ c = .locked) → Lends x line p evaluate s → s.programs[p] ≠ [] → headInService s = true →
    (idleHead s = none ∨ s.alignment.isAligned = false) →
    debounce b (some c) s =
      { enters b .measure none none {}
          (withBus b { s.buses[b] with state := .held, accepted := c, candidate := none, stable := 0, timer := none,
                                       busy := false } s) with
        headQueue := s.headQueue ++
          [{ bus := b, program := p.val, steps := s.programs[p], evaluate := evaluate, holder := x, line := line }]
        freeCount := s.freeCount + 1 }) ∧
  ∀ (b : BusNo) (x : Holder) (line : Nat) (c : LineCond) (s : State), s.buses[b].state = .guard →
    s.buses[b].holder = some x → s.buses[b].line = some line → Settles x s → EighthOf b c s →
    (c = .call ∨ c = .ringing ∨ c = .noLine) →
    debounce b (some c) s =
      told x (if c = .noLine then .noLine else .deferred) (if c = .noLine then .noLine else .lineBusy) none false
        (withCounts b { s.busCounters[b] with guardRefusals := raised s.busCounters[b].guardRefusals }
          (sends b {}
            (withBus b (breaking line (if c = .noLine then .noLine else .lineBusy)
              { s.buses[b] with accepted := c }) s)))

/-- The eighth consecutive good frame with a condition on a HELD bus of a desk or the exchange processor, not in MEASURE: the
condition is accepted and reported, CALL and RINGING set the BUSY restriction, and IDLE clears it (R26, R33). A first CALL or
RINGING in MEASURE ends the measurement ABORTED_CALL, on a head or waiting for one: an outside holder's bus enters STANDBY,
restricted (R33, R69); an internal holder's is released with cause CALL, and the holder told (R33, R34). That CONDITION_CHANGED is
queued before the result is the model's choice (log entry 14). -/
def Obligations.HeldAcceptsCondition : Prop :=
  (∀ (b : BusNo) (o : Origin) (line : Nat) (c : LineCond) (s : State), s.buses[b].state = .held →
    s.buses[b].holder = some (.origin o) → s.buses[b].line = some line → s.buses[b].mode ≠ some .measure →
    c ≠ s.buses[b].accepted → s.buses[b].candidate = some c → s.buses[b].stable = 7 →
    debounce b (some c) s =
      pushNotice o.val
        (.conditionChanged b line (.origin o) s.buses[b].accepted c
          (if c = .call ∨ c = .ringing then true else if c = .idle then false else s.buses[b].busy))
        (withBus b
          { s.buses[b] with
            accepted := c, candidate := none, stable := 0
            busy := if c = .call ∨ c = .ringing then true else if c = .idle then false else s.buses[b].busy } s)) ∧
  (∀ (b : BusNo) (h : HeadNo) (o : Origin) (line : Nat) (x : Context) (c : LineCond) (s : State),
    s.buses[b].state = .held → s.buses[b].holder = some (.origin o) → s.buses[b].line = some line →
    s.buses[b].mode = some .measure → Measures h b o x s → EighthOf b c s → (c = .call ∨ c = .ringing) →
    s.buses[b].accepted ≠ .call → s.buses[b].accepted ≠ .ringing →
    debounce b (some c) s =
      stops h b o x .abortedCall
        (pushNotice o.val (.conditionChanged b line (.origin o) s.buses[b].accepted c true)
          (withBus b { s.buses[b] with accepted := c, candidate := none, stable := 0, busy := true } s))) ∧
  (∀ (b : BusNo) (o : Origin) (line : Nat) (e : HeadWait) (rest : List HeadWait) (c : LineCond) (s : State),
    s.buses[b].state = .held → s.buses[b].holder = some (.origin o) → s.buses[b].line = some line →
    s.buses[b].mode = some .measure → s.buses[b].head = none → NoAudio b s → s.headQueue = e :: rest → e.bus = b →
    e.holder = .origin o → (∀ x ∈ rest, x.bus ≠ b) → EighthOf b c s → (c = .call ∨ c = .ringing) →
    s.buses[b].accepted ≠ .call → s.buses[b].accepted ≠ .ringing →
    debounce b (some c) s =
      enters b .standby none none {}
        (pushNotice o.val
          (.measurementResult { line := e.line, bus := b, program := e.program, holder := .origin o
                                outcome := .abortedCall, results := [] })
          (pushNotice o.val (.conditionChanged b line (.origin o) s.buses[b].accepted c true)
            (withBus b { s.buses[b] with accepted := c, candidate := none, stable := 0, busy := true }
              { s with headQueue := rest })))) ∧
  (∀ (b : BusNo) (h : HeadNo) (x : Holder) (line : Nat) (m : Context) (c : LineCond) (s : State),
    s.buses[b].state = .held → s.buses[b].holder = some x → s.buses[b].line = some line → s.buses[b].head = some h →
    s.heads[h].ctx = some m → m.holder = x → (∀ e ∈ s.headQueue, e.bus ≠ b) → Settles x s → EighthOf b c s →
    (c = .call ∨ c = .ringing) → s.buses[b].accepted ≠ .call → s.buses[b].accepted ≠ .ringing →
    debounce b (some c) s =
      rested h b
        (told x .deferred .abortedCall none (s.buses[b].accepted == .locked)
          (pushNotice 6
            (.measurementResult { line := m.line, bus := b, program := m.program, holder := x, outcome := .abortedCall
                                  results := m.results })
            (sends b {} (withBus b (breaking line .call { s.buses[b] with accepted := c }) s))))) ∧
  ∀ (b : BusNo) (x : Holder) (line : Nat) (e : HeadWait) (rest : List HeadWait) (c : LineCond) (s : State),
    s.buses[b].state = .held → s.buses[b].holder = some x → s.buses[b].line = some line → s.buses[b].head = none →
    s.headQueue = e :: rest → e.bus = b → e.holder = x → (∀ y ∈ rest, y.bus ≠ b) → Settles x s → EighthOf b c s →
    (c = .call ∨ c = .ringing) → s.buses[b].accepted ≠ .call → s.buses[b].accepted ≠ .ringing →
    debounce b (some c) s =
      told x .deferred .abortedCall none (s.buses[b].accepted == .locked)
        (pushNotice 6
          (.measurementResult { line := e.line, bus := b, program := e.program, holder := x, outcome := .abortedCall
                                results := [] })
          (sends b {} (withBus b (breaking line .call { s.buses[b] with accepted := c }) { s with headQueue := rest })))

/-- MAKE_TIMEOUT, GUARD_TIMEOUT and RELEASE_TIMEOUT on a bus whose timer has reached its limit of 240, 800 or 160 frames, for an
outside holder, for a sweep whose suspension was pending, and for the retest of a LINE ticket, with no request and no repaired
ticket waiting there (R25, R29, R32, R36, R139, R162). Every frame taken, here a missed one, raises each timer that runs by one
(R25). A timer short of its limit, stopped, or of another wait makes the event change nothing (log entry 2); what a bus out
of use keeps in its other fields is the model's choice (log entry 17). -/
def Obligations.BusTimersExpire : Prop :=
  (∀ (b : BusNo) (o : Origin) (line n : Nat) (s : State), s.buses[b].state = .seizing → s.buses[b].timer = some n →
    240 ≤ n → s.buses[b].holder = some (.origin o) → s.buses[b].line = some line → NoAudio b s →
    exec (.makeTimeout b) s =
      .next (pushNotice o.val (.seizeFailed b line (.origin o) .relayTimeout)
        (withCounts b { s.busCounters[b] with makeTimeouts := raised s.busCounters[b].makeTimeouts }
          (sends b {}
            (withBus b (breaking line .makeTimeout
              { s.buses[b] with makeTimeouts := s.buses[b].makeTimeouts + 1, lateWatch := true }) s))))) ∧
  (∀ (b : BusNo) (o : Origin) (line n : Nat) (s : State), s.buses[b].state = .guard → s.buses[b].timer = some n →
    800 ≤ n → s.buses[b].holder = some (.origin o) → s.buses[b].line = some line → NoAudio b s →
    exec (.guardTimeout b) s =
      .next (pushNotice o.val (.seizeFailed b line (.origin o) .conditionUnknown)
        (withCounts b { s.busCounters[b] with guardRefusals := raised s.busCounters[b].guardRefusals }
          (sends b {} (withBus b (breaking line .conditionUnknown s.buses[b]) s))))) ∧
  (∀ (b : BusNo) (line n : Nat) (s : State), s.buses[b].state = .releasing → s.buses[b].timer = some n → 160 ≤ n →
    s.buses[b].line = some line →
    exec (.releaseTimeout b) s =
      .next (pushNotice 6 (.busFaulted b (some line) .releaseTimeout true)
        (withCounts b { s.busCounters[b] with releaseTimeouts := raised s.busCounters[b].releaseTimeouts
                                              busFaults := raised s.busCounters[b].busFaults }
          (withBus b { s.buses[b] with state := .outOfService, holder := none, accepted := .none, candidate := none,
                                       stable := 0, order := .none, timer := none, stuck := true } s)))) ∧
  (∀ (b : BusNo) (d : SweepNo) (line n : Nat) (s : State), s.buses[b].state = .seizing → s.buses[b].timer = some n →
    240 ≤ n → s.buses[b].holder = some (.sweep d) → s.buses[b].line = some line → s.queue = [] →
    s.sweeps[d].inFlight = some (line, .main) → s.sweeps[d].suspendPending = true →
    s.sweeps[d].deferred.length < 16 → line ∉ s.sweeps[d].deferred →
    exec (.makeTimeout b) s =
      .next (withSweep d
        { stoppedWith
            { s.sweeps[d].counts with deferred := raised s.sweeps[d].counts.deferred } s.sweeps[d] with
          deferred := s.sweeps[d].deferred ++ [line] }
        (withCounts b { s.busCounters[b] with makeTimeouts := raised s.busCounters[b].makeTimeouts }
          (sends b {}
            (withBus b (breaking line .makeTimeout
              { s.buses[b] with makeTimeouts := s.buses[b].makeTimeouts + 1, lateWatch := true }) s))))) ∧
  (∀ (b : BusNo) (t : Ticket) (line n l : Nat) (s : State), s.buses[b].state = .guard → s.buses[b].timer = some n →
    800 ≤ n → s.buses[b].holder = some (.retest t.number) → s.buses[b].line = some line →
    ticketByNumber t.number s = some t → t.subject = .line l → (∃ r ∈ s.inFlight, r.ticket = t.number) →
    s.repairList = [] →
    exec (.guardTimeout b) s =
      .next (inconclusive t .conditionUnknown
        (withCounts b { s.busCounters[b] with guardRefusals := raised s.busCounters[b].guardRefusals }
          (sends b {} (withBus b (breaking line .conditionUnknown s.buses[b]) s))))) ∧
  (∀ (f : Frame) (order : List Act) (position misses : Nat) (s : State), s.alignment = .aligned position misses →
    misses < 3 → hasPattern f = false → NoneOwed s → (∀ h : HeadNo, QuietHead h s) →
    (∀ (b : BusNo) (n : Nat), s.buses[b].timer = some n → n < 159) →
    exec (.inboundFrame f order) s =
      .next { s with
        alignment := .aligned (position + 768) (misses + 1)
        highway := { s.highway with misses := min (s.highway.misses + 1) 4294967295 }
        buses := s.buses.map fun x => { x with timer := x.timer.map (· + 1) } }) ∧
  ∀ (b : BusNo) (s : State),
    (s.buses[b].state ≠ .seizing ∨ (∀ n, s.buses[b].timer = some n → n < 240) → exec (.makeTimeout b) s = .next s) ∧
    (s.buses[b].state ≠ .guard ∨ (∀ n, s.buses[b].timer = some n → n < 800) → exec (.guardTimeout b) s = .next s) ∧
    (s.buses[b].state ≠ .releasing ∨ (∀ n, s.buses[b].timer = some n → n < 160) →
      exec (.releaseTimeout b) s = .next s)

/-! ### Heads and measurements (R73 to R91) -/

/-- ECHO_TIMEOUT ends the measurement of a desk or of the exchange processor HEAD_FAULT and takes the head out of service;
RETURN_TIMEOUT takes out of service a head that has no bus (R73, R74). So do, in a good frame, the head-fault flag and an echo
that departs while the head settles or integrates (R74). A departing echo in AWAIT_ECHO or RETURNING leaves all but the last
echoed word; the rest word's echo brings a head in RETURNING to IDLE, and the oldest bus that waits is given it and its first phase
begun (R73, R75, R79, R88). Elsewhere no other bus waits for a head; that the record is queued before HEAD_FAULTED is the model's choice (log entry 14). A bad or missed frame raises the echo timers that
run by one (R73), and acts on no head. A timer short of its limit makes the event change nothing (log entry 2). -/
def Obligations.HeadEchoTimersExpire : Prop :=
  (∀ (h : HeadNo) (w : HeadWords) (s : State), w.good = true → w.status.getLsbD 3 = true → s.headQueue = [] →
    (s.heads[h].state = .idle ∨ s.heads[h].state = .returning → s.heads[h].bus = none →
      headFrame h w s =
        withHeadCounts h
          { s.headCounters[h] with faultFlags := raised s.headCounters[h].faultFlags
                                   headFaults := raised s.headCounters[h].headFaults }
          (pushNotice 6 (.headFaulted h .faultFlag none s.heads[h].word (w.status &&& 0xFFE0#16))
            (headGone h (echoed h w.status s)))) ∧
    ∀ (b : BusNo) (o : Origin) (c : Context) (d : StepDef) (state : HeadState), ActiveOn h c d state s →
      (state = .awaitEcho ∨ state = .settling ∨ state = .integrating) → Measures h b o c s →
      headFrame h w s =
        withHeadCounts h
          { s.headCounters[h] with faultFlags := raised s.headCounters[h].faultFlags
                                   headFaults := raised s.headCounters[h].headFaults }
          (pushNotice 6 (.headFaulted h .faultFlag (some b) s.heads[h].word (w.status &&& 0xFFE0#16))
            (reports b o c .headFault c.results (headGone h (echoed h w.status s))))) ∧
  (∀ (h : HeadNo) (w : HeadWords) (b : BusNo) (o : Origin) (c : Context) (d : StepDef) (state : HeadState) (s : State),
    w.good = true → Departs w.status s.heads[h].word → s.headQueue = [] → ActiveOn h c d state s →
    (state = .settling ∨ state = .integrating) → Measures h b o c s →
    headFrame h w s =
      withHeadCounts h
        { s.headCounters[h] with echoDepartures := raised s.headCounters[h].echoDepartures
                                 headFaults := raised s.headCounters[h].headFaults }
        (pushNotice 6 (.headFaulted h .echoDeparted (some b) s.heads[h].word (w.status &&& 0xFFE0#16))
          (reports b o c .headFault c.results (headGone h (echoed h w.status s))))) ∧
  (∀ (h : HeadNo) (w : HeadWords) (c : Context) (d : StepDef) (s : State), w.good = true →
    Departs w.status s.heads[h].word → (ActiveOn h c d .awaitEcho s ∨ s.heads[h].state = .returning) →
    headFrame h w s = echoed h w.status s) ∧
  (∀ (h : HeadNo) (w : HeadWords) (s : State), w.good = true → Matches w.status s.heads[h].word →
    s.heads[h].state = .returning → s.headQueue = [] →
    headFrame h w s =
      withHead h { s.heads[h] with state := .idle, timer := none, echoed := w.status &&& 0xFFE0#16 } s) ∧
  (∀ (h : HeadNo) (w : HeadWords) (e : HeadWait) (rest : List HeadWait) (first : StepDef) (more : List StepDef)
    (s : State), w.good = true → Matches w.status s.heads[h].word → s.heads[h].state = .returning →
    s.heads[h].word = HeadWord.rest → s.alignment.isAligned = true → (∀ k : HeadNo, k ≠ h → s.heads[k].state ≠ .idle) →
    s.headQueue = e :: rest → e.steps = first :: more →
    headFrame h w s =
      withBus e.bus { s.buses[e.bus] with head := some h }
        (withHeadCounts h { s.headCounters[h] with assignments := raised s.headCounters[h].assignments }
          (withHead h
            { s.heads[h] with
              state := .awaitEcho, bus := some e.bus, timer := some 0, echoed := w.status &&& 0xFFE0#16
              word := stepWord e.bus first
              ctx := some (stepBegun 0 first s.site.mains60 false
                { line := e.line, program := e.program, steps := e.steps, holder := e.holder, evaluate := e.evaluate }) }
            { s with headQueue := rest }))) ∧
  (∀ (f : Frame) (order : List Act) (position misses : Nat) (s : State), s.alignment = .aligned position misses →
    misses < 3 → hasPattern f = false → NoneOwed s → (∀ b : BusNo, QuietBus b s) →
    (∀ h : HeadNo, QuietHead h s ∨ (∃ n, s.heads[h].timer = some n ∧ n < 159) ∧
      (s.heads[h].state = .returning ∧ s.heads[h].ctx = none ∨ ∃ c d, ActiveOn h c d .awaitEcho s)) →
    exec (.inboundFrame f order) s =
      .next { s with
        alignment := .aligned (position + 768) (misses + 1)
        highway := { s.highway with misses := min (s.highway.misses + 1) 4294967295 }
        heads := s.heads.map fun x => { x with timer := x.timer.map (· + 1) } }) ∧
  (∀ (h : HeadNo) (b : BusNo) (o : Origin) (c : Context) (n : Nat) (s : State), s.heads[h].state = .awaitEcho →
    s.heads[h].timer = some n → 160 ≤ n → Measures h b o c s → s.headQueue = [] →
    exec (.echoTimeout h) s =
      .next (withHeadCounts h
        { s.headCounters[h] with echoTimeouts := raised s.headCounters[h].echoTimeouts
                                 headFaults := raised s.headCounters[h].headFaults }
        (pushNotice 6 (.headFaulted h .echoTimeout (some b) s.heads[h].word s.heads[h].echoed)
          (reports b o c .headFault c.results
            (withHead h { s.heads[h] with state := .outOfService, word := HeadWord.rest, bus := none, timer := none,
                                          ctx := none } s))))) ∧
  (∀ (h : HeadNo) (n : Nat) (s : State), s.heads[h].state = .returning → s.heads[h].timer = some n → 160 ≤ n →
    s.heads[h].bus = none → s.headQueue = [] →
    exec (.returnTimeout h) s =
      .next (withHeadCounts h
        { s.headCounters[h] with returnTimeouts := raised s.headCounters[h].returnTimeouts
                                 headFaults := raised s.headCounters[h].headFaults }
        (pushNotice 6 (.headFaulted h .returnTimeout none s.heads[h].word s.heads[h].echoed)
          (withHead h { s.heads[h] with state := .outOfService, word := HeadWord.rest, bus := none, timer := none,
                                        ctx := none } s)))) ∧
  ∀ (h : HeadNo) (n : Nat) (s : State), s.heads[h].timer = some n → n < 160 →
    exec (.echoTimeout h) s = .next s ∧ exec (.returnTimeout h) s = .next s

/-- A matching echo in AWAIT_ECHO confirms the phase: with a settle the head enters SETTLING, its settle count 1; without one it
enters INTEGRATING, and the frame gives the window's first sample (R80, R81). In SETTLING a bad frame, or a good one with a
matching echo, raises the settle count by one. SETTLE_END: a head whose settle count has reached 8 × s enters INTEGRATING;
short of it, the event changes nothing (R80; log entry 2). -/
def Obligations.SettleEndsInIntegrating : Prop :=
  (∀ (h : HeadNo) (w : HeadWords) (c : Context) (d : StepDef) (s : State), ActiveOn h c d .awaitEcho s →
    w.good = true → Matches w.status s.heads[h].word →
    (c.phase ≠ .charge → 0 < d.settle →
      headFrame h w s =
        withHead h { s.heads[h] with state := .settling, timer := none, echoed := w.status &&& 0xFFE0#16
                                     ctx := some { c with settleCount := 1 } } s) ∧
    (c.phase ≠ .charge → d.settle = 0 →
      (d.kind = .res → d.range = .auto → c.range = .low →
        (sampleOf d.legs w.vt w.vr w.it w.ir).iClip = false) →
      headFrame h w s =
        withHead h { s.heads[h] with state := .integrating, timer := none, echoed := w.status &&& 0xFFE0#16
                                     ctx := some (accepting d w c) } s)) ∧
  (∀ (h : HeadNo) (w : HeadWords) (c : Context) (d : StepDef) (s : State), ActiveOn h c d .settling s →
    (w.good = false →
      headFrame h w s = withHead h { s.heads[h] with ctx := some { c with settleCount := c.settleCount + 1 } } s) ∧
    (w.good = true → Matches w.status s.heads[h].word →
      headFrame h w s =
        withHead h { s.heads[h] with echoed := w.status &&& 0xFFE0#16
                                     ctx := some { c with settleCount := c.settleCount + 1 } } s)) ∧
  (∀ (h : HeadNo) (c : Context) (d : StepDef) (s : State), s.heads[h].state = .settling → s.heads[h].ctx = some c →
    c.steps[c.index]? = some d → 8 * d.settle ≤ c.settleCount →
    exec (.settleEnd h) s = .next (withHead h { s.heads[h] with state := .integrating } s)) ∧
  ∀ (h : HeadNo) (c : Context) (d : StepDef) (s : State), s.heads[h].ctx = some c → c.steps[c.index]? = some d →
    (s.heads[h].state ≠ .settling ∨ c.settleCount < 8 * d.settle) → exec (.settleEnd h) s = .next s

/-- In INTEGRATING a good frame with a matching echo gives an accepted sample, and a bad one a lost sample, the CAP charge apart
(R81, R92, R94); a current at its limit restarts a RES step of range AUTO in HIGH (R84). WINDOW_END: a first window that lost
more than one eighth is taken again; a full window of P+ is followed by P−; and the full window of a program's last FDC or
FAC step completes the measurement (R79, R82, R85, R86). WINDOW_END and CHARGE_WINDOW_END alike: a step that is not the last is
followed by the next one's first phase (R79, R85). A measurement that completes with its evaluate flag set has its findings handed
on after its MEASUREMENT_RESULT (R86, R112, R117); that of an internal holder is then told to the holder, with the condition its
bus held, and the bus is released with cause COMPLETE (R69, R86, R163). The retest here is of a LINE ticket, and finds nothing
but its ticket's own code. That a head whose next phase word is the one commanded already stands in AWAIT_ECHO, with no echo timer
and a mark in its context, until the next frame is the model's choice (log entry 15). -/
def Obligations.WindowsAreJudged : Prop :=
  (∀ (legs : Legs) (vt vr it ir : Word),
    sampleOf legs vt vr it ir =
      { v := match legs with | .tg => vt.toInt | .rg => vr.toInt | .tr => vt.toInt - vr.toInt
        i := match legs with | .rg => ir.toInt | _ => it.toInt
        vClip := match legs with
          | .tg => vt == 0x7FFF#16 || vt == 0x8000#16
          | .rg => vr == 0x7FFF#16 || vr == 0x8000#16
          | .tr => vt == 0x7FFF#16 || vt == 0x8000#16 || vr == 0x7FFF#16 || vr == 0x8000#16
        iClip := match legs with
          | .rg => ir == 0x7FFF#16 || ir == 0x8000#16
          | _ => it == 0x7FFF#16 || it == 0x8000#16 }) ∧
  (∀ (h : HeadNo) (w : HeadWords) (c : Context) (d : StepDef) (s : State), ActiveOn h c d .integrating s →
    c.phase ≠ .charge →
    (w.good = true → Matches w.status s.heads[h].word →
      (d.kind = .res → d.range = .auto → c.range = .low →
        (sampleOf d.legs w.vt w.vr w.it w.ir).iClip = false) →
      headFrame h w s =
        withHead h { s.heads[h] with echoed := w.status &&& 0xFFE0#16, ctx := some (accepting d w c) } s) ∧
    (w.good = false →
      headFrame h w s =
        withHeadCounts h { s.headCounters[h] with lostSamples := raised s.headCounters[h].lostSamples }
          (withHead h { s.heads[h] with ctx := some { c with lost := c.lost + 1 } } s)) ∧
    ∀ b : BusNo, w.good = true → Matches w.status s.heads[h].word → s.heads[h].bus = some b → d.kind = .res →
      d.range = .auto → c.range = .low → s.heads[h].word.range = .low →
      (sampleOf d.legs w.vt w.vr w.it w.ir).iClip = true →
      headFrame h w s =
        withHeadCounts h { s.headCounters[h] with rangeChanges := raised s.headCounters[h].rangeChanges }
          (withHead h
            { s.heads[h] with
              state := .awaitEcho, timer := some 0, echoed := w.status &&& 0xFFE0#16
              word := { source := d.source, negative := false, range := .high, legs := some d.legs, bus := b,
                        attach := true }
              ctx := some { c with
                phase := .plus, range := .high, rangedUp := true, degraded := false, mains60 := s.site.mains60
                first := {}, second := {}, isRepeat := false, settleCount := 0
                windowLen := d.units * (if s.site.mains60 then 400 else 160)
                accepted := 0, lost := 0, lastSample := none, noEcho := false } } s)) ∧
  (∀ (h : HeadNo) (c : Context) (d : StepDef) (s : State), s.heads[h].state = .integrating → s.heads[h].ctx = some c →
    c.steps[c.index]? = some d → c.phase ≠ .charge → Full c → c.windowLen < 8 * c.lost → c.isRepeat = false →
    exec (.windowEnd h) s =
      .next (withHeadCounts h
        { s.headCounters[h] with phaseRepeats := raised s.headCounters[h].phaseRepeats }
        (withHead h
          { s.heads[h] with
            ctx := some { c with
              first := if c.phase = .minus then c.first else {}
              second := if c.phase = .minus then {} else c.second
              isRepeat := true, accepted := 0, lost := 0 } } s))) ∧
  (∀ (h : HeadNo) (b : BusNo) (c : Context) (d : StepDef) (s : State), s.heads[h].state = .integrating →
    s.heads[h].bus = some b → s.heads[h].ctx = some c → c.steps[c.index]? = some d → c.phase = .plus → Full c →
    8 * c.lost ≤ c.windowLen → 0 < c.accepted → s.heads[h].word.negative = false →
    exec (.windowEnd h) s =
      .next (withHead h
        { s.heads[h] with
          state := .awaitEcho, timer := some 0
          word := { source := d.source, negative := true, range := c.range, legs := some d.legs, bus := b,
                    attach := true }
          ctx := some { c with
            phase := .minus, second := {}, isRepeat := false, settleCount := 0
            windowLen := d.units * (if c.mains60 then 400 else 160)
            accepted := 0, lost := 0, lastSample := none, noEcho := false } } s)) ∧
  (∀ (h : HeadNo) (b : BusNo) (o : Origin) (c : Context) (d : StepDef) (s : State), s.heads[h].state = .integrating →
    Measures h b o c s → c.evaluate = false → c.steps[c.index]? = some d → c.index + 1 = c.steps.length →
    c.phase = .single → Full c → 8 * c.lost ≤ c.windowLen → 0 < c.accepted →
    exec (.windowEnd h) s = .next (completes h b o c (stepResultOf c d false) s)) ∧
  (∀ (i : Instr) (h : HeadNo) (b : BusNo) (c : Context) (d e : StepDef) (s : State), s.heads[h].state = .integrating →
    s.heads[h].bus = some b → s.heads[h].ctx = some c → c.steps[c.index]? = some d → c.steps[c.index + 1]? = some e →
    EndsStep i h c →
    let t := recorded h c (stepResultOf c d false) s
    let same := s.heads[h].word == stepWord b e
    exec i s =
      .next (withHead h
        { s.heads[h] with
          state := .awaitEcho, word := stepWord b e, timer := if same then none else some 0
          ctx := some (stepBegun (c.index + 1) e s.site.mains60 same
            { c with results := c.results ++ [stepResultOf c d false] }) } t)) ∧
  (∀ (i : Instr) (h : HeadNo) (b : BusNo) (o : Origin) (c : Context) (d : StepDef) (s : State),
    s.heads[h].state = .integrating → Measures h b o c s → c.evaluate = true → c.steps[c.index]? = some d →
    c.index + 1 = c.steps.length → EndsStep i h c →
    let r : Record := { line := c.line, bus := b, program := c.program, holder := .origin o, outcome := .complete
                        results := c.results ++ [stepResultOf c d false] }
    let t := pushNotice o.val (.measurementResult r) (recorded h c (stepResultOf c d false) s)
    exec i s = .next (enters b .standby none none {} (rested h b (handFindings (evaluate r t).findings t)))) ∧
  ∀ (i : Instr) (h : HeadNo) (b : BusNo) (x : Holder) (line : Nat) (c : Context) (d : StepDef) (s : State),
    s.heads[h].state = .integrating → s.heads[h].bus = some b → s.heads[h].ctx = some c → s.buses[b].head = some h →
    (∀ e ∈ s.headQueue, e.bus ≠ b) → s.buses[b].holder = some x → s.buses[b].line = some line → c.holder = x →
    Settles x s → c.steps[c.index]? = some d → c.index + 1 = c.steps.length → EndsStep i h c →
    let r : Record := { line := c.line, bus := b, program := c.program, holder := x, outcome := .complete
                        results := c.results ++ [stepResultOf c d false] }
    let t := pushNotice 6 (.measurementResult r) (recorded h c (stepResultOf c d false) s)
    let v := if c.evaluate then some (evaluate r t) else none
    (∀ (n : Nat) (k : Ticket), x = .retest n → ticketByNumber n s = some k →
      k.subject = .line c.line ∧ ∀ f ∈ (evaluate r t).findings, f.code = k.code) →
    let u := rested h b
      (told x (.complete (v.map fun y => y.findings.length)) .complete v (s.buses[b].accepted == .locked)
        (if c.evaluate then handFindings (evaluate r t).findings t else t))
    exec i s = .next (sends b {} (withBus b (breaking line .complete u.buses[b]) u))

/-- CHARGE_WINDOW_END: a first charge window that lost a sample is taken again from phase D with its sets empty; one that lost
none completes the step, and with the program's last step the measurement (R83, R85, R86). A frame of the charge phase: an
accepted sample enters its position, all of whose currents and the last 80 of whose voltages are summed, and sets the peak and the
clip marks; in a retaken window a lost sample is replaced by the last accepted one, or, before the first, by the first (R81, R83,
R84, R103). -/
def Obligations.ChargeWindowsAreJudged : Prop :=
  (∀ (h : HeadNo) (w : HeadWords) (c : Context) (d : StepDef) (s : State), ActiveOn h c d .integrating s →
    c.phase = .charge → d.kind = .cap →
    let x := sampleOf d.legs w.vt w.vr w.it w.ir
    (w.good = true → Matches w.status s.heads[h].word → (c.chargeRepeat = false ∨ 0 < c.accepted) →
      headFrame h w s =
        withHead h { s.heads[h] with
          echoed := w.status &&& 0xFFE0#16
          ctx := some { c with
            accepted := c.accepted + 1, lastSample := some (x.v, x.i)
            second := marked x (chargeEntered (c.accepted + c.lost + 1) x.v x.i c.second) } } s) ∧
    (w.good = true → Matches w.status s.heads[h].word → c.chargeRepeat = true → c.accepted = 0 →
      headFrame h w s =
        withHead h { s.heads[h] with
          echoed := w.status &&& 0xFFE0#16
          ctx := some { c with
            accepted := 1, lastSample := some (x.v, x.i)
            second := marked x
              ((List.range (c.lost + 1)).foldl (fun m j => chargeEntered (j + 1) x.v x.i m) c.second) } } s) ∧
    (w.good = false → c.chargeRepeat = false ∨ c.lastSample = none →
      headFrame h w s =
        withHeadCounts h { s.headCounters[h] with lostSamples := raised s.headCounters[h].lostSamples }
          (withHead h { s.heads[h] with ctx := some { c with lost := c.lost + 1 } } s)) ∧
    ∀ v i : Int, w.good = false → c.chargeRepeat = true → c.lastSample = some (v, i) →
      headFrame h w s =
        withHeadCounts h { s.headCounters[h] with lostSamples := raised s.headCounters[h].lostSamples }
          (withHead h { s.heads[h] with
            ctx := some { c with
              lost := c.lost + 1, second := chargeEntered (c.accepted + c.lost + 1) v i c.second } } s)) ∧
  (∀ (h : HeadNo) (b : BusNo) (c : Context) (d : StepDef) (s : State), s.heads[h].state = .integrating →
    s.heads[h].bus = some b → s.heads[h].ctx = some c → c.steps[c.index]? = some d → c.phase = .charge → Full c →
    c.chargeRepeat = false → 0 < c.lost → s.heads[h].word.source ≠ .off →
    exec (.chargeWindowEnd h) s =
      .next (withHeadCounts h
        { s.headCounters[h] with phaseRepeats := raised s.headCounters[h].phaseRepeats }
        (withHead h
          { s.heads[h] with
            state := .awaitEcho, timer := some 0
            word := { source := .off, negative := false, range := c.range, legs := some d.legs, bus := b,
                      attach := true }
            ctx := some { c with
              phase := .baseline, chargeRepeat := true, first := {}, second := {}, isRepeat := false
              settleCount := 0, windowLen := 80, accepted := 0, lost := 0, lastSample := none, noEcho := false } }
          s))) ∧
  ∀ (h : HeadNo) (b : BusNo) (o : Origin) (c : Context) (d : StepDef) (s : State), s.heads[h].state = .integrating →
    Measures h b o c s → c.evaluate = false → c.steps[c.index]? = some d → c.index + 1 = c.steps.length →
    c.phase = .charge → Full c → c.chargeRepeat = false → c.lost = 0 →
    exec (.chargeWindowEnd h) s = .next (completes h b o c (stepResultOf c d false) s)

/-! ### What outbound frames bring about (R3, R65, R164, R174, R176) -/

/-- PACE_EXPIRY: the timer of a descriptor that is not ARMED stands expired; an ARMED one takes its next line, which is
requested where it may be and no bus is FREE, its timer started toward 8 × the pace of its configuration (R159, R160, R164;
the arrival counter's width is the model's choice, log entry 5). For a timer short of its limit, or none, the event changes
nothing (log entry 2). Every outbound frame raises by one each pace timer that runs, and changes no other field of a
descriptor where no warning and no pace is due (R164). -/
def Obligations.PacesExpire : Prop :=
  (∀ (d : SweepNo) (n limit : Nat) (s : State), s.sweeps[d].pace = .running n limit → limit ≤ n →
    s.sweeps[d].state ≠ .armed →
    exec (.paceExpiry d) s =
      .next { s with sweeps := s.sweeps.set d { s.sweeps[d] with pace := .expired } }) ∧
  (∀ (d : SweepNo) (c : SweepConfig) (n limit : Nat) (s : State), s.sweeps[d].config = some c →
    s.sweeps[d].pace = .running n limit → limit ≤ n → s.sweeps[d].state = .armed →
    s.sweeps[d].deferredPhase = false → 0 < s.sweeps[d].remaining →
    Requestable (c.first + s.sweeps[d].nextIndex * c.stride) s → freeBus s = none →
    exec (.paceExpiry d) s =
      .next (requests d (c.first + s.sweeps[d].nextIndex * c.stride) c
        { s.sweeps[d] with nextIndex := s.sweeps[d].nextIndex + 1, remaining := s.sweeps[d].remaining - 1 } s)) ∧
  (∀ (d : SweepNo) (n limit : Nat) (s : State), s.sweeps[d].pace = .running n limit → n < limit →
    exec (.paceExpiry d) s = .next s) ∧
  (∀ s : State, NotDue s → ∃ t, exec .outboundFrame s = .next t ∧
    ∀ d : SweepNo, t.sweeps[d] = { s.sweeps[d] with pace := tickedPace s.sweeps[d].pace }) ∧
  ∀ (d : SweepNo) (s : State), (s.sweeps[d].pace = .stopped ∨ s.sweeps[d].pace = .expired) →
    exec (.paceExpiry d) s = .next s

/-- WARNING_EXPIRY: the bus enters TALK with the desk's talk gain of that moment; for a warning short of its limit
the event changes nothing (R58, R65; log entry 2). Every outbound frame raises by one each warning timer that runs, and
changes no other field of a bus where no warning and no pace is due (R65). -/
def Obligations.WarningEndsInTalk : Prop :=
  (∀ s : State, NotDue s → ∃ t, exec .outboundFrame s = .next t ∧
    ∀ b : BusNo, t.buses[b] = { s.buses[b] with warnTimer := s.buses[b].warnTimer.map (· + 1) }) ∧
  (∀ (b : BusNo) (d : DeskNo) (n limit : Nat) (s : State), s.buses[b].mode = some .warning →
    s.buses[b].warnTimer = some n → s.buses[b].warnLimit = some limit → limit ≤ n →
    s.buses[b].holder = some (.origin d.castSucc) →
    exec (.warningExpiry b) s =
      .next (hears d b (enters b .talk none none
        { primary := some (33 + d.val), secondary := none, action := .gain s.site.gain[d] } s))) ∧
  ∀ (b : BusNo) (n limit : Nat) (s : State), s.buses[b].warnTimer = some n → s.buses[b].warnLimit = some limit →
    n < limit → exec (.warningExpiry b) s = .next s

/-- Every outbound frame raises the frame count by one; past 7,999 it returns to 0 and the clock rises by one, from its largest
value to 0; SET CLOCK loads the clock, sets the frame count to 0 and answers the old value (R176). CLOCK_SECOND takes that
second as an event of its own before the frame that brings it, which is then not counted again, and changes nothing short of
it (the model's choice, log entries 2 and 13). Frame count and clock keep their ranges in every step (R176). -/
def Obligations.ClockCountsAndIsSet : Prop :=
  (∀ s : State, ∃ t, exec .outboundFrame s = .next t ∧ t.secondTaken = false ∧
    (s.secondTaken = false → t.frameCount = (frameCounted s).frameCount ∧ t.clock = (frameCounted s).clock) ∧
    (s.secondTaken = true → t.frameCount = s.frameCount ∧ t.clock = s.clock)) ∧
  (∀ s : State, s.frameCount < 7999 → frameCounted s = { s with frameCount := s.frameCount + 1 }) ∧
  (∀ s : State, s.frameCount = 7999 → s.clock < 4294967295 →
    frameCounted s = { s with frameCount := 0, clock := s.clock + 1 }) ∧
  (∀ s : State, s.frameCount = 7999 → s.clock = 4294967295 →
    frameCounted s = { s with frameCount := 0, clock := 0 }) ∧
  (∀ s : State, s.frameCount = 7999 → s.secondTaken = false →
    exec .clockSecond s = .next { frameCounted s with secondTaken := true }) ∧
  (∀ s : State, (s.frameCount < 7999 ∨ s.secondTaken = true) → exec .clockSecond s = .next s) ∧
  (∀ (hd : Header) (seconds : BitVec 32) (s : State), From 6 10 hd s →
    exec (.setClock hd seconds) s =
      .next (answered 25 hd .ok (.clock s.clock) { s with clock := seconds.toNat, frameCount := 0 })) ∧
  ∀ s t : State, s.clockOk = true → step s = .next t → t.clockOk = true

/-- Every outbound frame begins with the alignment pattern and ends with the sum of its words 1 to 46 (R3). With nothing to send
and nothing due, the frame carries the S flag clear, the heads' commanded words, the buses' relay orders and the path words,
and nothing but the counts, the generators and the frame itself changes (R3, R12, R17, R174, R176). A bus in TONE sends its
generator's word: of amplitude A, 0, A, 0 and −A at the quarters of the circle, odd about its half and even about its
quarter, and 7,071 of 10,000 at an eighth (R17). The count of free values, and how a second that CLOCK_SECOND has taken is
counted, are the model's own (log entries 7, 13 and 19; 11.4). -/
def Obligations.OutboundFramesAreFormed : Prop :=
  (∀ s : State, ∃ t f, exec .outboundFrame s = .next t ∧ t.outFrame = some f ∧
    (f[0]).extractLsb' 1 15 = 0b101101001110001#15 ∧ f[47] = frameSum f) ∧
  (∀ s : State, NoneDue s → s.sending = [] → s.replies = [] → s.notices = [] → NoTicket s →
    ∃ f, exec .outboundFrame s = .next (sent f s) ∧ (f[0]).getLsbD 0 = false ∧
      (∀ h : HeadNo, f[5 + h.val]'(by omega) = headCommandWord s.heads[h].word) ∧
      (∀ b : BusNo, f[9 + b.val]'(by omega) = orderWord s.buses[b].order) ∧
      (∀ i : Fin 30, f[17 + i.val]'(by omega) = BitVec.ofInt 16 (entryValue s.paths[i] s)) ∧
      ∀ (b : BusNo) (k : ToneNo), s.paths[6 + b.val] = { action := .tone k } →
        f[23 + b.val]'(by omega) = BitVec.ofInt 16 (toneValue s.tones[k])) ∧
  (∀ frequency amplitude : Nat,
    let word (phase : Nat) : Int := toneValue { frequency := frequency, amplitude := amplitude, phase := phase }
    word 0 = 0 ∧ word 16384 = amplitude ∧ word 32768 = 0 ∧ word 49152 = -amplitude ∧
    (∀ p : Nat, p < 32768 → word (p + 32768) = -word p) ∧ ∀ p : Nat, p ≤ 32768 → word (32768 - p) = word p) ∧
  toneValue { frequency := 1000, amplitude := 10000, phase := 8192 } = 7071

/-- The outbound arbiter's order (R174): a message in progress goes on; else the oldest reply starts; else in PUSH mode the
first pending ticket that may be issued, which becomes ISSUED; else the oldest notice. A message that starts has the S flag
set and its first eight octets in the frame, one that goes on has its next octets there, and a ticket that the window does not
allow to be issued lets the oldest notice start (R128, R174). The count of free values, the address and clock of a TICKET
notice, and how a second that CLOCK_SECOND has taken is counted are the model's own (log entries 7, 8, 12, 13, 19, 29 and
37). -/
def Obligations.ArbiterChoosesInOrder : Prop :=
  (∀ s : State, NoneDue s → s.sending ≠ [] →
    ∃ f, exec .outboundFrame s = .next (sent f { s with sending := s.sending.drop 8 }) ∧
      (f[0]).getLsbD 0 = false ∧
      (managementOctets f).take (min 8 s.sending.length) = s.sending.take 8) ∧
  (∀ (r : Reply) (rest : List Reply) (s : State), NoneDue s → s.sending = [] → s.replies = r :: rest →
    ∃ f, exec .outboundFrame s =
        .next (sent f { s with replies := rest, sending := (encReply s.freeCount r).drop 8 }) ∧
      (f[0]).getLsbD 0 = true ∧ managementOctets f = (encReply s.freeCount r).take 8) ∧
  (∀ (x : Ticket) (s : State), NoneDue s → s.sending = [] → s.replies = [] → s.site.poll = false →
    firstPending s = some x → mayIssue x s = true →
    ∃ f, exec .outboundFrame s =
        .next (sent f { s with
          tickets := s.tickets.map fun t => if t.number = x.number then { t with state := .issued } else t
          sending := (encNotice { addressed := 6, clock := s.clock, body := .ticket x }).drop 8 }) ∧
      (f[0]).getLsbD 0 = true ∧
      managementOctets f = (encNotice { addressed := 6, clock := s.clock, body := .ticket x }).take 8) ∧
  ∀ (n : Notice) (rest : List Notice) (s : State), NoneDue s → s.sending = [] → s.replies = [] →
    (NoTicket s ∨ ∃ x, firstPending s = some x ∧ ¬WindowAllows x s) → s.notices = n :: rest →
    ∃ f, exec .outboundFrame s = .next (sent f { s with notices := rest, sending := (encNotice n).drop 8 }) ∧
      (f[0]).getLsbD 0 = true ∧ managementOctets f = (encNotice n).take 8

/-! ### SEIZE and the access arbiter (R43 to R52) -/

/-- A SEIZE with a bus FREE, its line unclaimed and nothing waiting is granted at once the lowest-numbered free bus; the
rotation pointer moves past the origin in class 1 only (R45, R46, R51, R52, R27). The width of the arrival counter, which
rises by one, and that the grant's stamp is the grant counter's value before it rises, are the model's choice (log entries 5
and 40). -/
def Obligations.SeizeIsGrantedAtOnce : Prop :=
  ∀ (o : Origin) (hd : Header) (line : Word) (cls : Octet) (b : BusNo) (s : State), From o 9 hd s →
    line.toNat ≤ 16383 → (cls = 0 ∨ cls = 1 ∧ ∀ h : o.val < 6, s.site.authority[o.val].urgent = true) →
    s.queue = [] → WithinLimit o s → claimOf line.toNat s = none → freeBus s = some b →
    exec (.seize hd line cls) s =
      .next (answered 1 hd .ok (.seize false .none none)
        (grants b (.origin o) line.toNat
          { s with arrivals := next s.arrivals
                   queuePeak := max s.queuePeak 1
                   rotation := if cls = 0 then ⟨(o.val + 1) % 7, Nat.mod_lt _ (by decide)⟩ else s.rotation }))

/-- A NORMAL SEIZE with no bus FREE joins the access wait queue and waits, whether or not a bus that is not held claims its
line (R46, R52; the arrival counter's width is the model's choice, log entry 5). The checks of SEIZE follow, the first that
fails giving the refusal (R45). -/
def Obligations.SeizeWaitsOrIsRefused : Prop :=
  (∀ (o : Origin) (hd : Header) (line : Word) (s : State), From o 9 hd s → line.toNat ≤ 16383 → WithinLimit o s →
    NotWaiting o line.toNat s →
    (∀ c, claimOf line.toNat s = some c → s.buses[c].state = .releasing ∨ s.buses[c].state = .outOfService) →
    (∃ b : BusNo, s.buses[b].state ≠ .outOfService) → freeBus s = none →
    exec (.seize hd line 0) s =
      .next (answered 1 hd .ok (.seize (claimOf line.toNat s).isSome .none none) (waits o 1 line.toNat s))) ∧
  (∀ (o : Origin) (hd : Header) (line : Word) (cls : Octet) (s : State), From o 9 hd s →
    (16383 < line.toNat ∨ 1 < cls.toNat) →
    exec (.seize hd line cls) s = .next (answered 1 hd .badField .empty s)) ∧
  (∀ (d : DeskNo) (hd : Header) (line : Word) (s : State), From d.castSucc 9 hd s → line.toNat ≤ 16383 →
    s.site.authority[d].urgent = false →
    exec (.seize hd line 1) s = .next (answered 1 hd .notPermitted .empty s)) ∧
  (∀ (o : Origin) (hd : Header) (line : Word) (s : State), From o 9 hd s → line.toNat ≤ 16383 → ¬WithinLimit o s →
    exec (.seize hd line 0) s = .next (answered 1 hd .limit .empty s)) ∧
  (∀ (o p : Origin) (hd : Header) (line : Word) (b : BusNo) (s : State), From o 9 hd s → line.toNat ≤ 16383 →
    WithinLimit o s → claimOf line.toNat s = some b → s.buses[b].holder = some (.origin p) →
    (s.buses[b].state = .seizing ∨ s.buses[b].state = .guard ∨ s.buses[b].state = .held) →
    exec (.seize hd line 0) s = .next (answered 1 hd .lineInUse .empty s)) ∧
  ∀ (o : Origin) (hd : Header) (line : Word) (s : State), From o 9 hd s → line.toNat ≤ 16383 → WithinLimit o s →
    NotWaiting o line.toNat s → (∀ b : BusNo, s.buses[b].state = .outOfService) →
    exec (.seize hd line 0) s = .next (answered 1 hd .noBusInService .empty s)

/-- A SEIZE for a line whose bus the sweep engine holds in SEIZING or GUARD preempts that bus: it is released with cause
PREEMPT, the descriptor defers its line, here to be SUSPENDED as was pending, and the request waits for the claim to be
removed (R46, R48, R161, R163). An URGENT SEIZE for a line that is unclaimed, with no bus FREE, preempts the bus whose grant
is the latest among those the sweep engine holds, and waits; where it holds none, it waits without preempting (R46, R49). The
arrival counter's width is the model's choice, as is the reading of the grant stamps (log entries 5 and 23). -/
def Obligations.SeizePreemptsSweepBus : Prop :=
  (∀ (o : Origin) (hd : Header) (line : Word) (b : BusNo) (d : SweepNo) (taken stamp : Nat) (s : State), From o 9 hd s →
    line.toNat ≤ 16383 → (∀ h : o.val < 6, s.site.authority[o.val].urgent = true) → WithinLimit o s →
    NotWaiting o line.toNat s → claimOf line.toNat s = none → freeBus s = none →
    (s.buses[b].state = .seizing ∨ s.buses[b].state = .guard) → s.buses[b].holder = some (.sweep d) →
    s.stamps[b] = some stamp →
    (∀ c : BusNo, c ≠ b → s.buses[c].isSweepHeld = true → ∃ n, s.stamps[c] = some n ∧
      (s.grantCount + 4294967296 - stamp) % 4294967296 < (s.grantCount + 4294967296 - n) % 4294967296) →
    s.buses[b].line = some taken → Unmeasured b s → s.sweeps[d].inFlight = some (taken, .main) →
    s.sweeps[d].suspendPending = true → s.sweeps[d].deferred.length < 16 → taken ∉ s.sweeps[d].deferred →
    exec (.seize hd line 1) s =
      .next (answered 1 hd .ok (.seize false .bus (some b))
        (sends b {} (withBus b (breaking taken .preempt s.buses[b])
          { waits o 0 line.toNat s with
            preemptions := raised s.preemptions
            sweeps := s.sweeps.set d
              { s.sweeps[d] with
                state := .suspended, inFlight := none, suspendPending := false
                deferred := s.sweeps[d].deferred ++ [taken]
                counts := { s.sweeps[d].counts with deferred := raised s.sweeps[d].counts.deferred } } })))) ∧
  (∀ (o : Origin) (hd : Header) (line : Word) (s : State), From o 9 hd s → line.toNat ≤ 16383 →
    (∀ h : o.val < 6, s.site.authority[o.val].urgent = true) → WithinLimit o s → NotWaiting o line.toNat s →
    claimOf line.toNat s = none → freeBus s = none → (∃ b : BusNo, s.buses[b].state ≠ .outOfService) →
    (∀ b : BusNo, s.buses[b].isSweepHeld = false) →
    exec (.seize hd line 1) s = .next (answered 1 hd .ok (.seize false .none none) (waits o 0 line.toNat s))) ∧
  ∀ (o : Origin) (hd : Header) (line : Word) (b : BusNo) (d : SweepNo) (s : State), From o 9 hd s →
    line.toNat ≤ 16383 → WithinLimit o s → NotWaiting o line.toNat s → claimOf line.toNat s = some b →
    (s.buses[b].state = .seizing ∨ s.buses[b].state = .guard) → s.buses[b].holder = some (.sweep d) →
    s.buses[b].line = some line.toNat → s.buses[b].head = none → (∀ e ∈ s.headQueue, e.bus ≠ b) →
    s.sweeps[d].inFlight = some (line.toNat, .main) → s.sweeps[d].suspendPending = true →
    s.sweeps[d].deferred.length < 16 → line.toNat ∉ s.sweeps[d].deferred → (freeBus s = none ∨ s.queue = []) →
    exec (.seize hd line 0) s =
      .next (answered 1 hd .ok (.seize true .line (some b))
        (sends b {} (withBus b (breaking line.toNat .preempt s.buses[b])
          { waits o 1 line.toNat s with
            preemptions := raised s.preemptions
            sweeps := s.sweeps.set d
              { s.sweeps[d] with
                state := .suspended, inFlight := none, suspendPending := false
                deferred := s.sweeps[d].deferred ++ [line.toNat]
                counts := { s.sweeps[d].counts with deferred := raised s.sweeps[d].counts.deferred } } })))

/-- The winner of a grant is an eligible entry that no other eligible entry goes before: by class; in class 1 by its origin's
place in the ring from the rotation pointer on; then by age, the arrival counter's width being the model's choice (R50, R51; log
entry 5). -/
def Obligations.WinnerGoesFirst : Prop :=
  ∀ (s : State) (w : WaitEntry), winner s = some w →
    w ∈ s.queue ∧ claimOf w.line s = none ∧ (isSweep w.requester = true → sweepHeld s < s.site.quota) ∧
    ∀ e ∈ s.queue, claimOf e.line s = none → (isSweep e.requester = true → sweepHeld s < s.site.quota) →
      w.cls < e.cls ∨ w.cls = e.cls ∧
        (ringPlace s w < ringPlace s e ∨ ringPlace s w = ringPlace s e ∧ Earlier s.arrivals w.arrival e.arrival)

/-! ### The modes of a held bus (R57 to R70) -/

/-- TALK on a bus held by a desk: with the BUSY restriction clear the bus enters TALK; a break-in needs OVERRIDE and enters
WARNING with a limit of 8 frames for each ms, or TALK where the warning time is 0; in WARNING it is refused (R58, R59, R64).
That this holds of a bus already in TALK whose restriction has been set meanwhile, and that WARNING is looked at first, are
the model's choice (log entries 28 and 33). -/
def Obligations.TalkEntersTalkOrWarning : Prop :=
  (∀ (d : DeskNo) (hd : Header) (line : Word) (b : BusNo) (s : State), From d.castSucc 8 hd s →
    HeldBy d.castSucc b line s → s.buses[b].mode ≠ some .warning → s.buses[b].mode ≠ some .measure → NoOther d b s →
    (s.buses[b].busy = false ∨ s.site.authority[d].overrides = true ∧ s.site.warning = 0) →
    exec (.talk hd line) s =
      .next (answered 3 hd .ok (.mode b .talk 0 none)
        (hears d b (enters b .talk none none
          { primary := some (33 + d.val), secondary := none, action := .gain s.site.gain[d] } s)))) ∧
  (∀ (d : DeskNo) (hd : Header) (line : Word) (b : BusNo) (s : State), From d.castSucc 8 hd s →
    HeldBy d.castSucc b line s → s.buses[b].mode ≠ some .warning → s.buses[b].mode ≠ some .measure → NoOther d b s →
    s.buses[b].busy = true → s.site.authority[d].overrides = true → 0 < s.site.warning →
    exec (.talk hd line) s =
      .next (answered 3 hd .ok (.mode b .warning s.site.warning none)
        (hears d b (enters b .warning none (some (8 * s.site.warning)) { action := .tone 3 } s)))) ∧
  (∀ (d : DeskNo) (hd : Header) (line : Word) (b : BusNo) (s : State), From d.castSucc 8 hd s →
    HeldBy d.castSucc b line s → s.buses[b].mode ≠ some .warning → s.buses[b].busy = true →
    s.site.authority[d].overrides = false →
    exec (.talk hd line) s = .next (answered 3 hd .notPermitted .empty s)) ∧
  ∀ (d : DeskNo) (hd : Header) (line : Word) (b : BusNo) (s : State), From d.castSucc 8 hd s →
    HeldBy d.castSucc b line s → s.buses[b].mode = some .warning →
    exec (.talk hd line) s = .next (answered 3 hd .wrongState .empty s)

/-- MONITOR on a bus held by a desk is refused on a restricted bus without MONITOR_BUSY; else the bus enters MONITOR, and the
desk's other audio bus, if it has one, moves to STANDBY (R58, R60, R62). SEND TONE on an unrestricted held bus enters TONE
with its generator, for a desk and for the exchange processor, who has no desk-out entry; a restricted bus refuses it
LINE_BUSY (R58, R63). STANDBY, whatever the restriction, enters STANDBY, and its desk no longer hears the bus; on a bus in
STANDBY already nothing changes (R58, R61). On a bus in MEASURE each of these and TALK ends the measurement ABORTED_RELEASE,
its head returning, or its bus leaving the head wait queue (R67). Every mode command is refused BAD_FIELD for a field out of
its range, NOT_PERMITTED where no bus of its origin claims the line, and WRONG_STATE where that bus is not HELD; TALK and
MONITOR are refused the exchange processor (R59). -/
def Obligations.MonitorToneAndStandby : Prop :=
  (∀ (o : Origin) (hd : Header) (line : Word) (tone program evaluate kind : Octet) (length : Nat) (c : Instr) (s : State),
    (kind, length, c) ∈ modeCommands hd line tone program evaluate → From o length hd s →
    (16383 < line.toNat ∨ kind = 5 ∧ 3 < tone.toNat ∨ kind = 7 ∧ (15 < program.toNat ∨ 1 < evaluate.toNat) →
      exec c s = .next (answered kind hd .badField .empty s)) ∧
    (line.toNat ≤ 16383 → tone.toNat ≤ 3 → program.toNat ≤ 15 → evaluate.toNat ≤ 1 →
      ((∀ b, claimOf line.toNat s = some b → s.buses[b].holder ≠ some (.origin o)) →
        exec c s = .next (answered kind hd .notPermitted .empty s)) ∧
      (∀ b, claimOf line.toNat s = some b → s.buses[b].holder = some (.origin o) → s.buses[b].state ≠ .held →
        exec c s = .next (answered kind hd .wrongState .empty s)) ∧
      ∀ b, HeldBy o b line s → o = 6 → (kind = 3 ∨ kind = 4) →
        exec c s = .next (answered kind hd .notPermitted .empty s))) ∧
  (∀ (o : Origin) (hd : Header) (line : Word) (b : BusNo) (h : HeadNo) (c : Context) (s : State), From o 8 hd s →
    HeldBy o b line s → s.buses[b].mode = some .measure → Measures h b o c s →
    exec (.standby hd line) s =
      .next (answered 6 hd .ok (.mode b .standby 0 none) (stops h b o c .abortedRelease s)) ∧
    ∀ d : DeskNo, o = d.castSucc → s.buses[b].busy = false → s.audio[d] = none →
      exec (.talk hd line) s =
        .next (answered 3 hd .ok (.mode b .talk 0 none)
          (hears d b (enters b .talk none none
            { primary := some (33 + d.val), secondary := none, action := .gain s.site.gain[d] }
            (stops h b o c .abortedRelease s)))) ∧
      exec (.monitor hd line) s =
        .next (answered 4 hd .ok (.mode b .monitor 0 none)
          (hears d b (enters b .monitor none none {} (stops h b o c .abortedRelease s))))) ∧
  (∀ (o : Origin) (hd : Header) (line : Word) (tone : Octet) (k : ToneNo) (b : BusNo) (h : HeadNo) (c : Context)
    (s : State), From o 9 hd s → HeldBy o b line s → s.buses[b].mode = some .measure → Measures h b o c s →
    tone.toNat = k.val → s.buses[b].busy = false →
    (o = 6 →
      exec (.sendTone hd line tone) s =
        .next (answered 5 hd .ok (.mode b .tone 0 none)
          (enters b .tone (some k) none { action := .tone k } (stops h b o c .abortedRelease s)))) ∧
    ∀ d : DeskNo, o = d.castSucc → s.audio[d] = none →
      exec (.sendTone hd line tone) s =
        .next (answered 5 hd .ok (.mode b .tone 0 none)
          (hears d b (enters b .tone (some k) none { action := .tone k } (stops h b o c .abortedRelease s))))) ∧
  (∀ (o : Origin) (hd : Header) (line : Word) (b : BusNo) (e : HeadWait) (rest : List HeadWait) (s : State), From o 8 hd s →
    HeldBy o b line s → s.buses[b].mode = some .measure → s.buses[b].head = none → NoAudio b s →
    s.headQueue = e :: rest → e.bus = b → e.holder = .origin o → (∀ x ∈ rest, x.bus ≠ b) →
    exec (.standby hd line) s =
      .next (answered 6 hd .ok (.mode b .standby 0 none)
        (pushNotice o.val
          (.measurementResult { line := e.line, bus := b, program := e.program, holder := .origin o,
                                outcome := .abortedRelease, results := [] })
          (enters b .standby none none {} { s with headQueue := rest })))) ∧
  (∀ (d : DeskNo) (hd : Header) (line : Word) (b : BusNo) (s : State), From d.castSucc 8 hd s →
    HeldBy d.castSucc b line s → s.buses[b].mode ≠ some .measure → NoOther d b s →
    (s.buses[b].busy = false ∨ s.site.authority[d].monitorBusy = true) →
    exec (.monitor hd line) s =
      .next (answered 4 hd .ok (.mode b .monitor 0 none) (hears d b (enters b .monitor none none {} s)))) ∧
  (∀ (d : DeskNo) (hd : Header) (line : Word) (b c : BusNo) (s : State), From d.castSucc 8 hd s →
    HeldBy d.castSucc b line s → s.buses[b].mode ≠ some .measure → s.audio[d] = some c → c ≠ b →
    s.buses[c].holder = some (.origin d.castSucc) → s.buses[b].busy = false →
    exec (.monitor hd line) s =
      .next (answered 4 hd .ok (.mode b .monitor 0 (some c))
        (hears d b (enters b .monitor none none {} (enters c .standby none none {} s))))) ∧
  (∀ (d : DeskNo) (hd : Header) (line : Word) (b : BusNo) (s : State), From d.castSucc 8 hd s →
    HeldBy d.castSucc b line s → s.buses[b].busy = true → s.site.authority[d].monitorBusy = false →
    exec (.monitor hd line) s = .next (answered 4 hd .notPermitted .empty s)) ∧
  (∀ (d : DeskNo) (hd : Header) (line : Word) (tone : Octet) (k : ToneNo) (b : BusNo) (s : State),
    From d.castSucc 9 hd s → HeldBy d.castSucc b line s → tone.toNat = k.val → s.buses[b].mode ≠ some .measure →
    NoOther d b s → s.buses[b].busy = false →
    exec (.sendTone hd line tone) s =
      .next (answered 5 hd .ok (.mode b .tone 0 none)
        (hears d b (enters b .tone (some k) none { action := .tone k } s)))) ∧
  (∀ (hd : Header) (line : Word) (tone : Octet) (k : ToneNo) (b : BusNo) (s : State), From 6 9 hd s →
    HeldBy 6 b line s → tone.toNat = k.val → s.buses[b].mode ≠ some .measure → s.buses[b].busy = false →
    exec (.sendTone hd line tone) s =
      .next (answered 5 hd .ok (.mode b .tone 0 none) (enters b .tone (some k) none { action := .tone k } s))) ∧
  (∀ (o : Origin) (hd : Header) (line : Word) (tone : Octet) (b : BusNo) (s : State), From o 9 hd s →
    HeldBy o b line s → tone.toNat < 4 → s.buses[b].busy = true →
    exec (.sendTone hd line tone) s = .next (answered 5 hd .lineBusy .empty s)) ∧
  (∀ (o : Origin) (hd : Header) (line : Word) (b : BusNo) (s : State), From o 8 hd s → HeldBy o b line s →
    s.buses[b].mode ≠ some .standby → s.buses[b].mode ≠ some .measure →
    exec (.standby hd line) s =
      .next (answered 6 hd .ok (.mode b .standby 0 none) (unhears o b (enters b .standby none none {} s)))) ∧
  ∀ (o : Origin) (hd : Header) (line : Word) (b : BusNo) (s : State), From o 8 hd s → HeldBy o b line s →
    s.buses[b].mode = some .standby →
    exec (.standby hd line) s = .next (answered 6 hd .ok (.mode b .standby 0 none) s)

/-- MEASURE on a held, unrestricted bus not in MEASURE: the bus enters MEASURE; with no head IDLE, or without alignment, it
joins the head wait queue with a copy of the program; with a head IDLE and nothing waiting the head is assigned and is
commanded the word of the first phase (R58, R68, R75, R78, R79). It is refused LINE_BUSY on a restricted bus, WRONG_STATE in
MEASURE, EMPTY_PROGRAM for a program of no steps and NO_HEAD_IN_SERVICE, in that order (R68). -/
def Obligations.MeasureTakesHeadOrWaits : Prop :=
  (∀ (o : Origin) (hd : Header) (line : Word) (program evaluate : Octet) (b : BusNo) (s : State), From o 10 hd s →
    HeldBy o b line s → program.toNat ≤ 15 → evaluate.toNat ≤ 1 →
    (s.buses[b].busy = true →
      exec (.measure hd line program evaluate) s = .next (answered 7 hd .lineBusy .empty s)) ∧
    (s.buses[b].busy = false → s.buses[b].mode = some .measure →
      exec (.measure hd line program evaluate) s = .next (answered 7 hd .wrongState .empty s)) ∧
    (s.buses[b].busy = false → s.buses[b].mode ≠ some .measure → programSteps program.toNat s = [] →
      exec (.measure hd line program evaluate) s = .next (answered 7 hd .emptyProgram .empty s)) ∧
    (s.buses[b].busy = false → s.buses[b].mode ≠ some .measure → programSteps program.toNat s ≠ [] →
      (∀ h : HeadNo, s.heads[h].state = .outOfService) →
      exec (.measure hd line program evaluate) s = .next (answered 7 hd .noHeadInService .empty s))) ∧
  (∀ (o : Origin) (hd : Header) (line : Word) (program evaluate : Octet) (b : BusNo) (steps : List StepDef)
    (s : State), From o 10 hd s → HeldBy o b line s → s.buses[b].line = some line.toNat → program.toNat ≤ 15 →
    evaluate.toNat ≤ 1 → s.buses[b].busy = false → s.buses[b].mode ≠ some .measure →
    programSteps program.toNat s = steps → steps ≠ [] → headInService s = true →
    (idleHead s = none ∨ s.alignment.isAligned = false) →
    exec (.measure hd line program evaluate) s =
      .next (answered 7 hd .ok (.mode b .measure 0 none)
        (unhears o b (enters b .measure none none {}
          { s with headQueue := s.headQueue ++
              [{ bus := b, program := program.toNat, steps := steps, evaluate := evaluate == 1, holder := .origin o,
                 line := line.toNat }] })))) ∧
  ∀ (o : Origin) (hd : Header) (line : Word) (program evaluate : Octet) (b : BusNo) (h : HeadNo) (first : StepDef)
    (rest : List StepDef) (s : State), From o 10 hd s → HeldBy o b line s → s.buses[b].line = some line.toNat →
    program.toNat ≤ 15 → evaluate.toNat ≤ 1 → s.buses[b].busy = false → s.buses[b].mode ≠ some .measure →
    programSteps program.toNat s = first :: rest → s.headQueue = [] → s.alignment.isAligned = true →
    idleHead s = some h → s.heads[h].word = HeadWord.rest →
    exec (.measure hd line program evaluate) s =
      .next (answered 7 hd .ok (.mode b .measure 0 none)
        (unhears o b (enters b .measure none none {}
          (withBus b { s.buses[b] with head := some h }
            (withHeadCounts h { s.headCounters[h] with assignments := raised s.headCounters[h].assignments }
              (withHead h
                { s.heads[h] with
                  state := .awaitEcho, bus := some b, timer := some 0
                  word := { source := if first.kind = .res then first.source else .off, negative := false
                            range := if first.kind = .cap ∨ first.kind = .res ∧ first.range = .high then .high else .low
                            legs := some first.legs, bus := b, attach := true }
                  ctx := some
                    { line := line.toNat, program := program.toNat, steps := first :: rest, holder := .origin o
                      evaluate := evaluate == 1, index := 0, mains60 := s.site.mains60
                      phase := if first.kind = .res then .plus else if first.kind = .cap then .baseline else .single
                      range := if first.kind = .cap ∨ first.kind = .res ∧ first.range = .high then .high else .low
                      windowLen :=
                        if first.kind = .cap then 80 else first.units * (if s.site.mains60 then 400 else 160) } }
                s))))))

/-! ### Path entries (R12 to R16) -/

/-- SET PATH replaces an observation entry and answers the entry as it stood; a slot of owner ACCESS is refused NOT_PERMITTED,
and a slot outside 17 to 46, or a field that names no source or action, BAD_FIELD (R16).
That a source given as absent leaves the entry without it, whatever it held, is the model's choice (log entry 41). -/
def Obligations.SetPathReplacesEntry : Prop :=
  (∀ (hd : Header) (slot action parameter primary secondary : Octet) (i : Fin 16) (a : PathAction) (p q : Option Nat)
    (s : State), From 6 11 hd s → slot.toNat = 31 + i.val → NamesAction action parameter a → NamesSource primary p →
    NamesSource secondary q →
    exec (.setPath hd slot action parameter primary secondary) s =
      .next (answered 19 hd .ok (.path s.paths[14 + i.val])
        { s with paths := s.paths.set (14 + i.val) { primary := p, secondary := q, action := a } })) ∧
  (∀ (hd : Header) (slot action parameter primary secondary : Octet) (s : State), From 6 11 hd s →
    17 ≤ slot.toNat → slot.toNat ≤ 30 →
    exec (.setPath hd slot action parameter primary secondary) s = .next (answered 19 hd .notPermitted .empty s)) ∧
  ∀ (hd : Header) (slot action parameter primary secondary : Octet) (s : State), From 6 11 hd s →
    (slot.toNat < 17 ∨ 46 < slot.toNat ∨ 31 ≤ slot.toNat ∧
      ((∀ a, ¬NamesAction action parameter a) ∨ (∀ p, ¬NamesSource primary p) ∨ ∀ q, ¬NamesSource secondary q)) →
    exec (.setPath hd slot action parameter primary secondary) s = .next (answered 19 hd .badField .empty s)

/-- The words of IDLE, PASS, INVERT and MIX (R13) and of GAIN n (R14): multiplied and saturated, or divided and rounded toward
minus infinity. -/
def Obligations.PathActionsFormWords : Prop :=
  ∀ (i j : Option (Fin 42)) (s : State),
    entryValue (entryOf i j .idle) s = 0 ∧ entryValue (entryOf i j .pass) s = heard i s ∧
    entryValue (entryOf i j .invert) s = clamp (-heard i s) ∧
    entryValue (entryOf i j .mix) s = clamp (heard i s + heard j s) ∧
    entryValue (entryOf i j (.gain 0)) s = heard i s ∧
    (∀ n : Nat, 1 ≤ n → n ≤ 3 → entryValue (entryOf i j (.gain n)) s = clamp (heard i s * 2 ^ n)) ∧
    ∀ n : Nat, 1 ≤ n → n ≤ 3 →
      entryValue (entryOf i j (.gain (-n))) s * 2 ^ n ≤ heard i s ∧
      heard i s < (entryValue (entryOf i j (.gain (-n))) s + 1) * 2 ^ n

/-! ### Measurement arithmetic (R96 to R104) -/

/-- The mean of a sum over a count is the nearest whole number, a half rounded away from zero (R96), and the value of an FDC
step is the mean of its voltages, held at ±32,767 with ABOVE_RANGE (R99). -/
def Obligations.FdcValueIsMean : Prop :=
  (∀ (sum : Int) (n : Nat), 0 < n →
    2 * ((n : Int) * meanOf sum n - sum).natAbs ≤ n ∧
    (2 * ((n : Int) * meanOf sum n - sum).natAbs = n → sum.natAbs ≤ ((n : Int) * meanOf sum n).natAbs)) ∧
  (∀ (sum : Int) (n : Nat), 0 < n →
    (sum = 0 → meanOf sum n = 0) ∧ (0 < sum → meanOf sum n = (2 * sum + n) / (2 * n)) ∧
    (sum < 0 → meanOf sum n = -((-2 * sum + n) / (2 * n)))) ∧
  ∀ (c : Context) (d : StepDef), d.kind = .fdc →
    let mean := meanOf c.first.a c.first.n
    (-32767 ≤ mean ∧ mean ≤ 32767 → Gives (stepResultOf c d false) (some mean) false false false) ∧
    (32767 < mean → Gives (stepResultOf c d false) (some 32767) true false false) ∧
    (mean < -32767 → Gives (stepResultOf c d false) (some (-32767)) true false false)

/-- The value of an FAC step is the rms of its samples about their mean, found in whole numbers: 0 when 4P is less than n²,
else the largest r for which (2r − 1)² × n² does not exceed 4P, with P = n × Q − (ΣV)²; held at 32,767 with ABOVE_RANGE
(R100). -/
def Obligations.FacValueIsRms : Prop :=
  ∀ (c : Context) (d : StepDef) (l : List Sample), d.kind = .fac → l ≠ [] → (∀ x ∈ l, x.v.natAbs ≤ 65535) →
    c.first = entered l →
    let n : Int := l.length
    let p : Int := n * (l.map fun x => x.v * x.v).sum - (l.map Sample.v).sum * (l.map Sample.v).sum
    0 ≤ p ∧
    ∃ r : Nat, (4 * p < n * n → r = 0) ∧
      (n * n ≤ 4 * p → (2 * (r : Int) - 1) * (2 * r - 1) * (n * n) ≤ 4 * p ∧
        ∀ k : Nat, r < k → 4 * p < (2 * (k : Int) - 1) * (2 * k - 1) * (n * n)) ∧
      (r ≤ 32767 → Gives (stepResultOf c d false) (some (r : Int)) false false false) ∧
      (32767 < r → Gives (stepResultOf c d false) (some 32767) true false false)

/-- The values of RES and CAP steps, each case in its order (R101, R102, R104). -/
def Obligations.ResAndCapValues : Prop :=
  (∀ (c : Context) (d : StepDef), d.kind = .res →
    let dv := meanOf c.first.a c.first.n - meanOf c.second.a c.second.n
    let di := meanOf c.first.b c.first.n - meanOf c.second.b c.second.n
    let ohms := (2 * dv * (if c.range = .low then 10000000 else 10000) + di) / (2 * di)
    (dv < 100 → Gives (stepResultOf c d false) none false false true) ∧
    (100 ≤ dv → di < 2 → Gives (stepResultOf c d false) (some 1000000000) true false false) ∧
    (100 ≤ dv → 2 ≤ di → ohms < 1000000000 → Gives (stepResultOf c d false) (some ohms) false false false) ∧
    (100 ≤ dv → 2 ≤ di → 1000000000 ≤ ohms → Gives (stepResultOf c d false) (some 1000000000) true false false)) ∧
  ∀ (c : Context) (d : StepDef), d.kind = .cap →
    let dv := meanOf c.second.a 80 - meanOf c.first.a c.first.n
    let charge := c.second.b - 5 * c.second.tail
    let farads := (25000 * charge + dv) / (2 * dv)
    (dv < 100 → Gives (stepResultOf c d false) none false false true) ∧
    (100 ≤ dv → charge ≤ 0 → Gives (stepResultOf c d false) (some 0) false true false) ∧
    (100 ≤ dv → 0 < charge → farads = 0 → Gives (stepResultOf c d false) (some 0) false true false) ∧
    (100 ≤ dv → 0 < charge → 9999999 < farads → Gives (stepResultOf c d false) (some 9999999) true false false) ∧
    (100 ≤ dv → 0 < charge → 0 < farads → farads ≤ 9999999 →
      Gives (stepResultOf c d false) (some farads) false false false)

/-! ### Assessments and findings (R111 to R116) -/

/-- Each code's assessment, and the findings of an evaluation in code order with the fields of R116 (R113, R114). -/
def Obligations.EvaluationsFollowLimits : Prop :=
  ∀ (r : Record) (x : FaultCode) (s : State),
    (classOf r.line s = 15 → (evaluate r s).of x = .notAssessed ∧ (evaluate r s).findings = []) ∧
    ((∀ res ∈ r.results, (res.kind, res.legs) ≠ fedBy x) → (evaluate r s).of x = .notAssessed) ∧
    (∀ res : StepResult, Feeds x r.results res → res.value = none → (evaluate r s).of x = .notAssessed) ∧
    (∀ (res : StepResult) (v : Int) (e : LimitEntry), Feeds x r.results res → res.value = some v →
      classOf r.line s < 15 → s.limits.toList[classOf r.line s * 10 + faultCodeNumber x]? = some e →
      (e.enabled = false ∨ ¬Faulty x v e.threshold → (evaluate r s).of x = .clear) ∧
      (e.enabled = true → Faulty x v e.threshold → (evaluate r s).of x = .found ∧
        { line := r.line, code := x, value := v, quals := res.quals, program := r.program, severity := e.severity,
          time := s.clock : Finding } ∈ (evaluate r s).findings)) ∧
    (∀ f ∈ (evaluate r s).findings, (evaluate r s).of f.code = .found) ∧
    ((evaluate r s).findings.map fun f => faultCodeNumber f.code).Pairwise (· < ·)

/-! ### Units restored to use (R39, R88) -/

/-- RESTORE BUS returns a bus out of service to FREE and takes a grant, here for the one request that waits, or for none; where
its stuck flag is set, it releases the bus with cause RESTORE (R39, R52, R27); RESTORE HEAD commands the rest word to a head
out of service and starts its echo timer (R88). What a bus that returns to FREE keeps in its other fields, the order of the
refusals, and that the grant's stamp is the grant counter's value before it rises, are the model's choice (log entries 17, 28
and 40). -/
def Obligations.RestoreReturnsUnits : Prop :=
  (∀ (hd : Header) (bus : Octet) (b : BusNo) (o : Origin) (e : WaitEntry) (s : State), From 6 7 hd s →
    bus.toNat = b.val → s.buses[b].state = .outOfService → s.buses[b].stuck = false → freeBus s = none →
    s.queue = [e] → e.requester = .origin o → claimOf e.line s = none →
    exec (.restoreBus hd bus) s =
      .next (answered 20 hd .ok .empty
        (grants b (.origin o) e.line
          (withBus b { s.buses[b] with makeTimeouts := 0 }
            { s with queue := []
                     rotation := if e.cls = 1 then ⟨(o.val + 1) % 7, Nat.mod_lt _ (by decide)⟩ else s.rotation })))) ∧
  (∀ (hd : Header) (bus : Octet) (b : BusNo) (line : Nat) (s : State), From 6 7 hd s → bus.toNat = b.val →
    s.buses[b].state = .outOfService → s.buses[b].stuck = true → s.buses[b].line = some line →
    exec (.restoreBus hd bus) s =
      .next (answered 20 hd .ok .empty
        (withBus b { s.buses[b] with state := .releasing, order := .brk line, timer := some 0, makeTimeouts := 0,
                                     stuck := false, lateWatch := false, cause := some .restore } s))) ∧
  (∀ (hd : Header) (bus : Octet) (b : BusNo) (s : State), From 6 7 hd s → bus.toNat = b.val →
    s.buses[b].state = .outOfService → s.buses[b].stuck = false → s.queue = [] →
    exec (.restoreBus hd bus) s =
      .next (answered 20 hd .ok .empty
        (withBus b { s.buses[b] with state := .free, line := none, holder := none, accepted := .none,
                                     candidate := none, stable := 0, order := .none, timer := none,
                                     makeTimeouts := 0, lateWatch := false, cause := none } s))) ∧
  (∀ (hd : Header) (bus : Octet) (b : BusNo) (s : State), From 6 7 hd s → bus.toNat = b.val →
    s.buses[b].state ≠ .outOfService →
    exec (.restoreBus hd bus) s = .next (answered 20 hd .wrongState .empty s)) ∧
  (∀ (hd : Header) (bus : Octet) (s : State), From 6 7 hd s → 7 < bus.toNat →
    exec (.restoreBus hd bus) s = .next (answered 20 hd .badField .empty s)) ∧
  (∀ (hd : Header) (head : Octet) (h : HeadNo) (s : State), From 6 7 hd s → head.toNat = h.val →
    s.heads[h].state = .outOfService →
    exec (.restoreHead hd head) s =
      .next (answered 21 hd .ok .empty
        (withHead h { s.heads[h] with state := .returning, word := HeadWord.rest, bus := none, timer := some 0,
                                      ctx := none } s))) ∧
  (∀ (hd : Header) (head : Octet) (h : HeadNo) (s : State), From 6 7 hd s → head.toNat = h.val →
    s.heads[h].state ≠ .outOfService →
    exec (.restoreHead hd head) s = .next (answered 21 hd .wrongState .empty s)) ∧
  ∀ (hd : Header) (head : Octet) (s : State), From 6 7 hd s → 3 < head.toNat →
    exec (.restoreHead hd head) s = .next (answered 21 hd .badField .empty s)

/-! ### Ticket commands (R130 to R135) -/

/-- ACCEPT and REPAIRED move a ticket of the state they take and refuse the others WRONG_STATE; a repaired ticket joins the
repair list, and its retest is submitted where a place is free; no bus is FREE here (R131, R132, R135; the arrival counter's
width is the model's choice, log entry 5). -/
def Obligations.AcceptAndRepairedMoveTicket : Prop :=
  (∀ (hd : Header) (n : Word) (t : Ticket) (s : State), From 6 8 hd s → n ≠ 0 → ticketByNumber n.toNat s = some t →
    t.state = .issued →
    exec (.accept hd n) s =
      .next (answered 8 hd .ok .empty (withTicket n.toNat (fun u => { u with state := .accepted }) s))) ∧
  (∀ (hd : Header) (n : Word) (t : Ticket) (s : State), From 6 8 hd s → n ≠ 0 → ticketByNumber n.toNat s = some t →
    t.state = .accepted → 4 ≤ s.inFlight.length →
    exec (.repaired hd n) s =
      .next (answered 9 hd .ok .empty
        { withTicket n.toNat (fun u => { u with state := .repaired }) s with
          repairList := s.repairList ++ [n.toNat] })) ∧
  (∀ (hd : Header) (n : Word) (t : Ticket) (l : Nat) (s : State), From 6 8 hd s → n ≠ 0 →
    ticketByNumber n.toNat s = some t → t.state = .accepted → t.subject = .line l → s.repairList = [] →
    s.inFlight.length < 4 → freeBus s = none →
    exec (.repaired hd n) s =
      .next (answered 9 hd .ok .empty
        (retests n.toNat l
          { withTicket n.toNat (fun u => { u with state := .retesting }) s with
            inFlight := s.inFlight ++ [{ ticket := n.toNat, line := l }] }))) ∧
  (∀ (hd : Header) (n : Word) (t : Ticket) (s : State), From 6 8 hd s → n ≠ 0 → ticketByNumber n.toNat s = some t →
    (t.state ≠ .issued → exec (.accept hd n) s = .next (answered 8 hd .wrongState .empty s)) ∧
    (t.state ≠ .accepted → exec (.repaired hd n) s = .next (answered 9 hd .wrongState .empty s))) ∧
  (∀ (hd : Header) (n : Word) (s : State), From 6 8 hd s → n ≠ 0 → (∀ t ∈ s.tickets, t.number ≠ n.toNat) →
    exec (.accept hd n) s = .next (answered 8 hd .notFound .empty s) ∧
    exec (.repaired hd n) s = .next (answered 9 hd .notFound .empty s) ∧
    exec (.withdraw hd n) s = .next (answered 11 hd .notFound .empty s)) ∧
  ∀ (hd : Header) (s : State), From 6 8 hd s →
    exec (.accept hd 0) s = .next (answered 8 hd .badField .empty s) ∧
    exec (.repaired hd 0) s = .next (answered 9 hd .badField .empty s) ∧
    exec (.withdraw hd 0) s = .next (answered 11 hd .badField .empty s)

/-- REPAIRED KEY moves the ACCEPTED tickets that its key reaches, the CABLE ticket of the key and the LINE tickets linked to the
cable, to the end of the repair list in ascending raise order; every retest place is taken here. It is refused NOT_FOUND
where none is moved and BAD_FIELD for no code (R133). The width of the raise counter is the model's choice (log entry 5). -/
def Obligations.RepairedKeyMovesTickets : Prop :=
  (∀ (hd : Header) (cable code : Octet) (x : FaultCode) (s : State), From 6 8 hd s → code.toNat = faultCodeNumber x →
    4 ≤ s.inFlight.length →
    let reached := s.tickets.filter fun t =>
      t.code = x ∧ t.state = .accepted ∧
        (t.subject = .cable cable.toNat ∨ t.isLine = true ∧ t.linked = some cable.toNat)
    (reached = [] → exec (.repairedKey hd cable code) s = .next (answered 10 hd .notFound .empty s)) ∧
    (reached ≠ [] → ∃ l : List Ticket, l.Perm reached ∧
      l.Pairwise (fun t u => Earlier s.raiseCounter t.raiseOrder u.raiseOrder) ∧
      exec (.repairedKey hd cable code) s =
        .next (answered 10 hd .ok (.moved l.length)
          { s with
            tickets := s.tickets.map fun t =>
              if t.number ∈ l.map Ticket.number then { t with state := .repaired } else t
            repairList := s.repairList ++ l.map Ticket.number }))) ∧
  ∀ (hd : Header) (cable code : Octet) (s : State), From 6 8 hd s → 9 < code.toNat →
    exec (.repairedKey hd cable code) s = .next (answered 10 hd .badField .empty s)

/-- WITHDRAW removes a ticket of any state. The links of a LINE ticket and of a CABLE ticket are undone; a retest in flight
ends, its request removed from the queue or its bus released with cause REQUESTED (R134, R149). -/
def Obligations.WithdrawRemovesTicket : Prop :=
  (∀ (hd : Header) (n : Word) (t : Ticket) (l : Nat) (s : State), From 6 8 hd s → n ≠ 0 →
    ticketByNumber n.toNat s = some t → t.state ≠ .retesting → t.subject = .line l → t.linked = none →
    exec (.withdraw hd n) s = .next (answered 11 hd .ok .empty (without n.toNat s))) ∧
  (∀ (hd : Header) (n : Word) (t : Ticket) (l c : Nat) (s : State), From 6 8 hd s → n ≠ 0 →
    ticketByNumber n.toNat s = some t → t.state ≠ .retesting → t.subject = .line l → t.linked = some c →
    exec (.withdraw hd n) s =
      .next (answered 11 hd .ok .empty
        { without n.toNat s with
          tickets := (without n.toNat s).tickets.map fun u =>
            if u.subject = .cable c ∧ u.code = t.code then { u with linkedCount := u.linkedCount - 1 } else u })) ∧
  (∀ (hd : Header) (n : Word) (t : Ticket) (c : Nat) (s : State), From 6 8 hd s → n ≠ 0 →
    ticketByNumber n.toNat s = some t → t.state ≠ .retesting → t.subject = .cable c →
    exec (.withdraw hd n) s =
      .next (answered 11 hd .ok .empty
        { without n.toNat s with
          tickets := (without n.toNat s).tickets.map fun u =>
            if u.linked = some c ∧ u.code = t.code then { u with linked := none } else u })) ∧
  (∀ (hd : Header) (n : Word) (t : Ticket) (l : Nat) (s : State), From 6 8 hd s → n ≠ 0 →
    ticketByNumber n.toNat s = some t → t.state = .retesting → t.subject = .line l → t.linked = none →
    s.repairList = [] → (∀ b : BusNo, s.buses[b].holder ≠ some (.retest n.toNat)) →
    exec (.withdraw hd n) s =
      .next (answered 11 hd .ok .empty
        { without n.toNat s with queue := s.queue.filter fun e => e.requester ≠ .retest n.toNat })) ∧
  ∀ (hd : Header) (n : Word) (t : Ticket) (l : Nat) (b : BusNo) (s : State), From 6 8 hd s → n ≠ 0 →
    ticketByNumber n.toNat s = some t → t.state = .retesting → t.subject = .line l → t.linked = none →
    s.repairList = [] → (∀ e ∈ s.queue, e.requester ≠ .retest n.toNat) →
    (∀ c : BusNo, c ≠ b → s.buses[c].holder ≠ some (.retest n.toNat)) → s.buses[b].holder = some (.retest n.toNat) →
    (s.buses[b].state = .seizing ∨ s.buses[b].state = .guard) → s.buses[b].line = some l → s.buses[b].head = none →
    (∀ e ∈ s.headQueue, e.bus ≠ b) →
    exec (.withdraw hd n) s =
      .next (answered 11 hd .ok .empty
        (sends b {} (withBus b (breaking l .requested s.buses[b]) (without n.toNat s))))

/-- TAKE TICKET in POLL mode: NONE where no ticket is pending; else the first in pending order is issued where the window
allows it, and is refused WINDOW_FULL where it does not; in PUSH mode the command is refused WRONG_STATE (R128, R130). The
width of the raise counter is the model's choice (log entry 5). -/
def Obligations.TakeTicketIssuesFirstPending : Prop :=
  (∀ (hd : Header) (s : State), From 6 6 hd s → s.site.poll = false →
    exec (.takeTicket hd) s = .next (answered 12 hd .wrongState .empty s)) ∧
  (∀ (hd : Header) (s : State), From 6 6 hd s → s.site.poll = true → (∀ t, ¬Pending t s) →
    exec (.takeTicket hd) s = .next (answered 12 hd .none .empty s)) ∧
  ∀ (hd : Header) (t : Ticket) (s : State), From 6 6 hd s → s.site.poll = true → Pending t s →
    ∃ x, FirstPending x s ∧
      (WindowAllows x s → exec (.takeTicket hd) s =
        .next (answered 12 hd .ok (.ticket x) (withTicket x.number (fun u => { u with state := .issued }) s))) ∧
      (¬WindowAllows x s → exec (.takeTicket hd) s = .next (answered 12 hd .windowFull .empty s))

/-! ### Retests judged (R136 to R139, R150, R151) -/

/-- The judgement of a LINE ticket's retest by the assessment of its code, by an outcome without an evaluation, by a failed
seizure or by a preemption, with nothing on the repair list; a record for a number that the table no longer holds is not
judged (R136 to R139). -/
def Obligations.LineRetestsAreJudged : Prop :=
  (∀ (n l : Nat) (t : Ticket) (outcome : Reason) (e : Evaluation) (s : State), ticketByNumber n s = some t →
    t.subject = .line l → (∃ r ∈ s.inFlight, r.ticket = n) → s.repairList = [] →
    (e.of t.code = .clear → t.linked = none → retestRecord n outcome (some e) s = closed t s) ∧
    (e.of t.code = .found → retestRecord n outcome (some e) s = failed n s) ∧
    (e.of t.code = .notAssessed → retestRecord n outcome (some e) s = inconclusive t .notAssessed s)) ∧
  (∀ (n l c : Nat) (t : Ticket) (outcome : Reason) (e : Evaluation) (s : State), ticketByNumber n s = some t →
    t.subject = .line l → (∃ r ∈ s.inFlight, r.ticket = n) → s.repairList = [] → e.of t.code = .clear →
    t.linked = some c →
    retestRecord n outcome (some e) s =
      { closed t s with
        tickets := (closed t s).tickets.map fun u =>
          if u.subject = .cable c ∧ u.code = t.code then { u with linkedCount := u.linkedCount - 1 } else u }) ∧
  (∀ (n l line : Nat) (t : Ticket) (b : BusNo) (reason : Reason) (s : State), ticketByNumber n s = some t →
    t.subject = .line l → (∃ r ∈ s.inFlight, r.ticket = n) → s.repairList = [] →
    retestRecord n reason none s = inconclusive t reason s ∧
    tellSeizeFailed b line (some (.retest n)) reason s = inconclusive t reason s ∧
    tellPreempted (some (.retest n)) s = inconclusive t .abortedPreempt s) ∧
  ∀ (n : Nat) (outcome : Reason) (e : Option Evaluation) (s : State), (∀ t ∈ s.tickets, t.number ≠ n) →
    retestRecord n outcome e s = s

/-- A cable retest goes on member by member: after FAIL the member that follows is requested; the last member's judgement
settles the ticket: PASS of the last member left closes it and frees its linked tickets, and any member FAILED returns it to
RAISED (R150, R151). No bus is FREE and nothing is on the repair list; the arrival counter's width is the model's choice (log
entry 5). -/
def Obligations.CableRetestsVisitMembers : Prop :=
  (∀ (n c p : Nat) (t : Ticket) (m m' : Member) (r : Retest) (outcome : Reason) (e : Evaluation) (s : State),
    s.numbersOk = true → ticketByNumber n s = some t → t.subject = .cable c → s.inFlight = [r] → r.ticket = n →
    r.released = false → freeBus s = none → s.repairList = [] → t.position = some p → t.members[p]? = some m →
    t.members[p + 1]? = some m' → e.of t.code = .found →
    retestRecord n outcome (some e) s =
      retests n m'.line
        { withTicket n
            (fun _ => { t with members := t.members.set p { m with mark := .failed }, position := some (p + 1) }) s with
          inFlight := [{ ticket := n, line := m'.line, released := false }] }) ∧
  (∀ (n c : Nat) (t : Ticket) (m : Member) (r : Retest) (outcome : Reason) (e : Evaluation) (s : State),
    s.numbersOk = true → ticketByNumber n s = some t → t.subject = .cable c → s.inFlight = [r] → r.ticket = n →
    r.released = false → s.repairList = [] → t.position = some 0 → t.members = [m] → e.of t.code = .clear →
    retestRecord n outcome (some e) s =
      { closed t s with
        tickets := (closed t s).tickets.map fun u =>
          if u.linked = some c ∧ u.code = t.code then { u with linked := none } else u }) ∧
  ∀ (n c p : Nat) (t : Ticket) (m : Member) (r : Retest) (outcome : Reason) (e : Evaluation) (s : State),
    s.numbersOk = true → ticketByNumber n s = some t → t.subject = .cable c → s.inFlight = [r] → r.ticket = n →
    r.released = false → s.repairList = [] → t.position = some p → t.members[p]? = some m →
    t.members.length = p + 1 → e.of t.code = .notAssessed → (∃ x ∈ t.members.take p, x.mark = .failed) →
    retestRecord n outcome (some e) s =
      withTicket n
        (fun _ => { t with
          members := t.members.set p { m with mark := .inconclusive }, position := none
          firstReason := some (t.firstReason.getD .notAssessed), state := .raised
          retestCount := min (t.retestCount + 1) 255
          severity := t.baseSeverity - min (t.retestCount + 1) 255 / 3 })
        { s with inFlight := [] }

/-! ### Findings placed (R122 to R126, R144 to R148) -/

/-- A finding is added to the LINE ticket of its key, or handed to the CABLE ticket of its line's cable, whose member list it
joins, updates or overflows (R123, R124, R148). -/
def Obligations.FindingsReachTheirTicket : Prop :=
  (∀ (f : Finding) (t : Ticket) (s : State), ticketByKey (.line f.line) f.code s = some t →
    handFinding s f =
      { withTicket t.number (occurred f) s with
        ticketCounters := { s.ticketCounters with
          findings := raised s.ticketCounters.findings, occurrences := raised s.ticketCounters.occurrences } }) ∧
  ∀ (f : Finding) (c : Fin 256) (t : Ticket) (s : State), s.numbersOk = true →
    ticketByKey (.line f.line) f.code s = none → cableOf f.line s = some c →
    ticketByKey (.cable c.val) f.code s = some t →
    (∀ (before after : List Member) (m : Member), t.members = before ++ m :: after → m.line = f.line →
      (∀ x ∈ before, x.line ≠ f.line) →
      handFinding s f =
        { withTicket t.number
            (fun _ => occurred f { t with members := before ++ memberFrom f m.mark :: after }) s with
          ticketCounters := { s.ticketCounters with
            findings := raised s.ticketCounters.findings, membersAdded := raised s.ticketCounters.membersAdded } }) ∧
    ((∀ m ∈ t.members, m.line ≠ f.line) → t.members.length < 64 →
      handFinding s f =
        { withTicket t.number (fun _ => occurred f { t with members := t.members ++ [memberFrom f .none] }) s with
          ticketCounters := { s.ticketCounters with
            findings := raised s.ticketCounters.findings, membersAdded := raised s.ticketCounters.membersAdded } }) ∧
    ((∀ m ∈ t.members, m.line ≠ f.line) → 64 ≤ t.members.length →
      handFinding s f =
        { withTicket t.number (fun _ => occurred f { t with overflow := t.overflow + 1 }) s with
          ticketCounters := { s.ticketCounters with
            findings := raised s.ticketCounters.findings
            memberOverflow := raised s.ticketCounters.memberOverflow } })

/-- A finding that no ticket takes raises a LINE ticket; in a full table it first evicts the latest raised of the least severe
RAISED LINE tickets less severe than itself, and with none it is dropped. Its line here lies in no cable, and no member list
of its code holds it (R123, R125, R126). The number given to a new ticket is the first free one from the number counter on,
from 65,535 to 1 (R122); the width of the raise counter, which wraps, is the model's choice (log entry 5). -/
def Obligations.FindingsRaiseTickets : Prop :=
  (∀ (f : Finding) (s : State), Unfiled f s → NumberFree s → cableOf f.line s = none → NoMember f.line f.code s →
    s.tickets.length < 128 → handFinding s f = filed f s) ∧
  (∀ (f : Finding) (s : State), Unfiled f s → 128 ≤ s.tickets.length →
    (∀ t ∈ s.tickets, ¬Evictable f.severity t) →
    handFinding s f =
      { s with ticketCounters := { s.ticketCounters with
          findings := raised s.ticketCounters.findings, dropped := raised s.ticketCounters.dropped } }) ∧
  (∀ (f : Finding) (s : State), Unfiled f s → NumberFree s → cableOf f.line s = none → NoMember f.line f.code s →
    s.tickets.length = 128 → s.numbersOk = true → (∀ t ∈ s.tickets, t.linked = none) →
    (∃ t ∈ s.tickets, Evictable f.severity t) →
    ∃ x ∈ s.tickets, Evictable f.severity x ∧
      (∀ t ∈ s.tickets, Evictable f.severity t →
        t.severity < x.severity ∨ t.severity = x.severity ∧ Earlier s.raiseCounter t.raiseOrder x.raiseOrder) ∧
      handFinding s f =
        filed f { s with
          tickets := s.tickets.filter fun t => t.number ≠ x.number
          ticketCounters := { s.ticketCounters with evicted := raised s.ticketCounters.evicted } }) ∧
  ∀ s : State, 1 ≤ s.numberCounter → s.numberCounter ≤ 65535 → s.tickets.length ≤ 128 →
    1 ≤ numberFor s ∧ numberFor s ≤ 65535 ∧ (∀ t ∈ s.tickets, t.number ≠ numberFor s) ∧
    ∃ k, numberFor s = (s.numberCounter - 1 + k) % 65535 + 1 ∧
      ∀ j < k, ∃ t ∈ s.tickets, t.number = (s.numberCounter - 1 + j) % 65535 + 1

/-- The new LINE ticket that brings its cable's count to K forms a CABLE ticket: the counted tickets that are RAISED leave the
table and become its members in ascending raise order, the new one last, and the other counted ones are linked; a count
short of K forms none. The machine holds no CABLE ticket of the code, and at most 63 counted tickets are RAISED (R144 to
R147). The width of the raise counter, which wraps, is the model's choice (log entry 5). -/
def Obligations.CableTicketForms : Prop :=
  ∀ (f : Finding) (c : Fin 256) (range : CableRange) (s : State), Unfiled f s → NumberFree s → s.numbersOk = true →
    s.raiseCounter < 4294967296 → cableOf f.line s = some c → s.cables[c] = some range →
    (∀ t ∈ s.tickets, t.isCable = true → t.code ≠ f.code) → cableTickets s < 16 → s.tickets.length < 128 →
    f.severity ≤ 3 →
    let counted := s.tickets.filter (Counts c f s)
    let merged := counted.filter fun t => t.state = .raised
    let linked := counted.filter fun t => t.state ≠ .raised
    (range.k = 0 ∨ counted.length + 1 < range.k → handFinding s f = filed f s) ∧
    (range.k ≠ 0 → range.k ≤ counted.length + 1 → merged.length ≤ 63 →
      ∃ l : List Ticket, l.Perm merged ∧
        l.Pairwise (fun t u => Earlier (next s.raiseCounter) t.raiseOrder u.raiseOrder) ∧
        handFinding s f =
          { filed f s with
            tickets := ((s.tickets.filter fun t => t ∉ merged).map fun t =>
                if t ∈ linked then { t with linked := some c.val } else t) ++
              [{ number := s.numberCounter + 1, subject := .cable c.val, code := f.code, linked := none
                 baseSeverity := (counted.map Ticket.severity).foldl min f.severity
                 severity := (counted.map Ticket.severity).foldl min f.severity
                 state := .raised, occurrences := min ((merged.map Ticket.occurrences).sum + 1) 255
                 firstSeen := (merged.map Ticket.firstSeen).foldl min f.time
                 lastSeen := (merged.map Ticket.lastSeen).foldl max f.time
                 lastValue := f.value, lastQuals := f.quals, program := f.program, retestCount := 0
                 raiseOrder := next s.raiseCounter
                 members := l.map memberOfLine ++ [memberFrom f .none], overflow := 0
                 linkedCount := linked.length, position := none, firstReason := none }]
            numberCounter := s.numberCounter + 2
            raiseCounter := next (next s.raiseCounter) })

/-! ### Sweeps (R154 to R165) -/

/-- ARM starts a pass, whose first line is requested where it may be and no bus is FREE (R156, R159, R160). SUSPEND and RESUME
act by the descriptor's state (R157). DISARM leaves an IDLE descriptor as it is and any other IDLE, its waiting request
removed or the bus it holds released with cause REQUESTED, a measurement there ending ABORTED_RELEASE; no request that waits
can be granted in that event. A bus RELEASING for it already goes on so (R158). That ARM looks at the descriptor's state
before its configuration is the model's choice (log entry 28), as is the arrival counter's width (log entry 5). -/
def Obligations.SweepCommandsMoveDescriptor : Prop :=
  (∀ (hd : Header) (o : Octet) (d : SweepNo) (c : SweepConfig) (s : State), From 6 7 hd s → o.toNat = d.val →
    Loadable d s → s.sweeps[d].config = some c → 1 ≤ c.count → Requestable c.first s → freeBus s = none →
    exec (.arm hd o) s =
      .next (answered 14 hd .ok .empty
        (requests d c.first c { config := some c, nextIndex := 1, remaining := c.count - 1, pass := 1 } s))) ∧
  (∀ (hd : Header) (o : Octet) (d : SweepNo) (s : State), From 6 7 hd s → o.toNat = d.val →
    (Loadable d s → s.sweeps[d].config = none → exec (.arm hd o) s = .next (answered 14 hd .notFound .empty s)) ∧
    (¬Loadable d s → exec (.arm hd o) s = .next (answered 14 hd .wrongState .empty s)) ∧
    (s.sweeps[d].state = .armed →
      exec (.suspend hd o) s =
        .next (answered 15 hd .ok .empty (withSweep d { s.sweeps[d] with state := .suspended } s))) ∧
    (s.sweeps[d].state = .active →
      exec (.suspend hd o) s =
        .next (answered 15 hd .ok .empty (withSweep d { s.sweeps[d] with suspendPending := true } s))) ∧
    (s.sweeps[d].state ≠ .armed → s.sweeps[d].state ≠ .active →
      exec (.suspend hd o) s = .next (answered 15 hd .wrongState .empty s)) ∧
    (s.sweeps[d].state = .active → s.sweeps[d].suspendPending = true →
      exec (.resume hd o) s =
        .next (answered 16 hd .ok .empty (withSweep d { s.sweeps[d] with suspendPending := false } s))) ∧
    (s.sweeps[d].state ≠ .suspended → ¬(s.sweeps[d].state = .active ∧ s.sweeps[d].suspendPending = true) →
      exec (.resume hd o) s = .next (answered 16 hd .wrongState .empty s)) ∧
    (s.sweeps[d].state = .idle → exec (.disarm hd o) s = .next (answered 17 hd .ok .empty s))) ∧
  (∀ (hd : Header) (o : Octet) (d : SweepNo) (c : SweepConfig) (s : State), From 6 7 hd s → o.toNat = d.val →
    s.sweeps[d].state = .suspended → s.sweeps[d].config = some c → s.sweeps[d].deferredPhase = false →
    0 < s.sweeps[d].remaining →
    ((s.sweeps[d].pace = .stopped ∨ s.sweeps[d].pace = .expired) →
      Requestable (c.first + s.sweeps[d].nextIndex * c.stride) s → freeBus s = none →
      exec (.resume hd o) s =
        .next (answered 16 hd .ok .empty
          (requests d (c.first + s.sweeps[d].nextIndex * c.stride) c
            { s.sweeps[d] with nextIndex := s.sweeps[d].nextIndex + 1, remaining := s.sweeps[d].remaining - 1 } s))) ∧
    (∀ n limit, s.sweeps[d].pace = .running n limit → n < limit → (freeBus s = none ∨ s.queue = []) →
      exec (.resume hd o) s =
        .next (answered 16 hd .ok .empty (withSweep d { s.sweeps[d] with state := .armed } s)))) ∧
  (∀ (hd : Header) (o : Octet) (d : SweepNo) (s : State), From 6 7 hd s → o.toNat = d.val → s.sweeps[d].state ≠ .idle →
    (∀ b : BusNo, s.buses[b].holder = some (.sweep d) → s.buses[b].isHeld = false) →
    exec (.disarm hd o) s =
      .next (answered 17 hd .ok .empty
        (withSweep d
          { s.sweeps[d] with state := .idle, inFlight := none, suspendPending := false, deferredPhase := false,
                             deferred := [], pace := .stopped }
          { s with queue := s.queue.filter fun e => e.requester ≠ .sweep d }))) ∧
  (∀ (hd : Header) (o : Octet) (d : SweepNo) (b : BusNo) (line : Nat) (s : State), From 6 7 hd s → o.toNat = d.val →
    s.sweeps[d].state ≠ .idle → (∀ e ∈ s.queue, e.requester ≠ .sweep d) → (freeBus s = none ∨ s.queue = []) →
    (∀ c : BusNo, c ≠ b → s.buses[c].holder = some (.sweep d) → s.buses[c].isHeld = false) →
    s.buses[b].holder = some (.sweep d) → s.buses[b].line = some line →
    let x := { s.sweeps[d] with state := .idle, inFlight := none, suspendPending := false, deferredPhase := false,
                                deferred := [], pace := .stopped }
    ((s.buses[b].state = .seizing ∨ s.buses[b].state = .guard) → Unmeasured b s →
      exec (.disarm hd o) s =
        .next (answered 17 hd .ok .empty
          (sends b {} (withBus b (breaking line .requested s.buses[b]) (withSweep d x s))))) ∧
    ∀ (h : HeadNo) (c : Context), s.buses[b].state = .held → s.heads[h].bus = some b → s.heads[h].ctx = some c →
      s.buses[b].head = some h → c.holder = .sweep d → (∀ e ∈ s.headQueue, e.bus ≠ b) →
      exec (.disarm hd o) s =
        .next (answered 17 hd .ok .empty
          (pushNotice 6
            (.measurementResult { line := c.line, bus := b, program := c.program, holder := .sweep d,
                                  outcome := .abortedRelease, results := c.results })
            (withHeadCounts h
              { s.headCounters[h] with measurementsEnded := raised s.headCounters[h].measurementsEnded }
              (withHead h
                { s.heads[h] with state := .returning, word := HeadWord.rest, bus := none, timer := some 0
                                  ctx := none }
                (sends b {} (withBus b { breaking line .requested s.buses[b] with head := none }
                  (withSweep d x s)))))))) ∧
  ∀ (hd : Header) (o : Octet) (s : State), From 6 7 hd s → 7 < o.toNat →
    exec (.arm hd o) s = .next (answered 14 hd .badField .empty s) ∧
    exec (.suspend hd o) s = .next (answered 15 hd .badField .empty s) ∧
    exec (.resume hd o) s = .next (answered 16 hd .badField .empty s) ∧
    exec (.disarm hd o) s = .next (answered 17 hd .badField .empty s)

/-- The tests a taken line meets, in order, where no request follows: class 15, a ticket, suppression, and a claim, which
defers the line by its phase (R160, R161). How a line in flight is counted when it ends, and the descriptor with it: suspended
where that was pending, stopped with SWEEP_STOPPED on a fault where its configuration asks for it; LOCKED is counted whatever
the outcome; a report that finds no line in flight is not acted on (R162, R163; the count of faults is within 32 bits, as
every step keeps it). The end of a pass by the auto-reload flag:
DONE with SWEEP_DONE; a new pass; or, where the pass made no request, SUSPENDED with SWEEP_STOPPED (R165). -/
def Obligations.SweepLinesAreCounted : Prop :=
  (∀ (d : SweepNo) (line : Nat) (phase : LinePhase) (s : State),
    let counts := s.sweeps[d].counts
    (classOf line s = 15 →
      takeLine d line phase s = withSweepCounts d { counts with excluded := raised counts.excluded } s) ∧
    (classOf line s ≠ 15 → Ticketed line s →
      takeLine d line phase s =
        withSweepCounts d { counts with skippedTicketed := raised counts.skippedTicketed } s) ∧
    (classOf line s ≠ 15 → ¬Ticketed line s → Suppressed line s →
      takeLine d line phase s = withSweepCounts d { counts with suppressed := raised counts.suppressed } s) ∧
    (classOf line s ≠ 15 → ¬Ticketed line s → ¬Suppressed line s → claimOf line s ≠ none →
      (phase = .main → s.sweeps[d].deferred.length < 16 → line ∉ s.sweeps[d].deferred →
        takeLine d line phase s =
          withSweep d
            { s.sweeps[d] with deferred := s.sweeps[d].deferred ++ [line]
                               counts := { counts with deferred := raised counts.deferred } } s) ∧
      (phase = .deferred ∨ 16 ≤ s.sweeps[d].deferred.length ∨ line ∈ s.sweeps[d].deferred →
        takeLine d line phase s =
          withSweepCounts d { counts with unreachable := raised counts.unreachable } s))) ∧
  (∀ (d : SweepNo) (line : Nat) (phase : LinePhase) (locked : Bool) (s : State),
    s.sweeps[d].inFlight = some (line, phase) → s.sweeps[d].suspendPending = true →
    let counts := lockCounted locked s.sweeps[d].counts
    sweepLineEnded d .noLine locked s =
      withSweep d (stoppedWith { counts with noLine := raised counts.noLine } s.sweeps[d]) s ∧
    sweepLineEnded d .headFault locked s =
      withSweep d (stoppedWith { counts with headFault := raised counts.headFault } s.sweeps[d]) s ∧
    (counts.faultsFound ≤ 4294967295 →
      sweepLineEnded d (.complete none) locked s =
        withSweep d (stoppedWith { counts with tested := raised counts.tested } s.sweeps[d]) s) ∧
    (∀ k : Nat, k = 0 ∨ (∀ c, s.sweeps[d].config = some c → c.stopOnFault = false) →
      sweepLineEnded d (.complete (some k)) locked s =
        withSweep d
          (stoppedWith { counts with tested := raised counts.tested
                                     faultsFound := min (counts.faultsFound + k) 4294967295 } s.sweeps[d]) s) ∧
    (phase = .deferred →
      sweepLineEnded d .deferred locked s =
        withSweep d (stoppedWith { counts with unreachable := raised counts.unreachable } s.sweeps[d]) s) ∧
    (phase = .main → s.sweeps[d].deferred.length < 16 → line ∉ s.sweeps[d].deferred →
      sweepLineEnded d .deferred locked s =
        withSweep d
          { stoppedWith { counts with deferred := raised counts.deferred } s.sweeps[d] with
            deferred := s.sweeps[d].deferred ++ [line] } s) ∧
    (phase = .main → 16 ≤ s.sweeps[d].deferred.length ∨ line ∈ s.sweeps[d].deferred →
      sweepLineEnded d .deferred locked s =
        withSweep d (stoppedWith { counts with unreachable := raised counts.unreachable } s.sweeps[d]) s)) ∧
  (∀ (d : SweepNo) (line k : Nat) (phase : LinePhase) (locked : Bool) (c : SweepConfig) (s : State),
    s.sweeps[d].inFlight = some (line, phase) → s.sweeps[d].config = some c → c.stopOnFault = true → 0 < k →
    let counts := lockCounted locked s.sweeps[d].counts
    sweepLineEnded d (.complete (some k)) locked s =
      pushNotice 6
        (.sweepStopped d (some line) k s.sweeps[d].pass s.sweeps[d].nextIndex s.sweeps[d].remaining
          s.sweeps[d].deferredPhase)
        (withSweep d
          (stoppedWith { counts with tested := raised counts.tested
                                     faultsFound := min (counts.faultsFound + k) 4294967295 } s.sweeps[d]) s)) ∧
  (∀ (d : SweepNo) (e : LineEnd) (locked : Bool) (s : State), s.sweeps[d].inFlight = none →
    sweepLineEnded d e locked s = s) ∧
  ∀ (d : SweepNo) (c : SweepConfig) (s : State), s.sweeps[d].config = some c →
    (c.autoReload = false →
      endPass d c s =
        pushNotice 6 (.sweepDone d s.sweeps[d].pass s.sweeps[d].counts)
          (withSweep d { s.sweeps[d] with state := .done } s)) ∧
    (c.autoReload = true → s.sweeps[d].requestMade = true →
      endPass d c s =
        withSweep d { s.sweeps[d] with pass := min (s.sweeps[d].pass + 1) 65535, nextIndex := 0, remaining := c.count,
                                       deferredPhase := false, requestMade := false } s) ∧
    (c.autoReload = true → s.sweeps[d].requestMade = false →
      endPass d c s =
        pushNotice 6 (.sweepStopped d none 0 (min (s.sweeps[d].pass + 1) 65535) 0 c.count false)
          (withSweep d { s.sweeps[d] with pass := min (s.sweeps[d].pass + 1) 65535, nextIndex := 0,
                                          remaining := c.count, deferredPhase := false, requestMade := false
                                          state := .suspended } s))

/-! ### Reading (R167, R175, R184) -/

/-- READ SWEEP, READ TABLE and READ COUNTERS answer from any origin and change nothing, but for the clear that the exchange
processor may ask of READ COUNTERS: every count of the group 0 and its peaks at the present occupancies (R167, R175, R184).
A clear octet above 1 is refused before the authority is looked at, by the model's choice (log entry 28). The half octet that
an odd run of classes leaves over is a free value (the model's choice, log entry 39). -/
def Obligations.ReadsAnswer : Prop :=
  (∀ (p : Origin) (hd : Header) (o : Octet) (d : SweepNo) (s : State), From p 7 hd s → o.toNat = d.val →
    exec (.readSweep hd o) s = .next (answered 18 hd .ok (.sweep d s.sweeps[d]) s)) ∧
  (∀ (p : Origin) (hd : Header) (o : Octet) (s : State), From p 7 hd s → 7 < o.toNat →
    exec (.readSweep hd o) s = .next (answered 18 hd .badField .empty s)) ∧
  (∀ (p : Origin) (hd : Header) (first count : Word) (s : State), From p 11 hd s → 1 ≤ count.toNat →
    let run {α : Type} (l : List α) : List (α × Nat) :=
      ((l.drop first.toNat).take count.toNat).zipIdx first.toNat
    (first = 0 → count = 1 →
      exec (.readTable hd 0 first count) s = .next (answered 23 hd .ok (.table 0 0 1 (encSite s.site)) s)) ∧
    (count.toNat ≤ 464 → first.toNat + count.toNat ≤ 16384 →
      exec (.readTable hd 1 first count) s =
        .next (answered 23 hd .ok
          (.table 1 first.toNat count.toNat
            (encClasses (Config.unusedHalf s.freeCount s.replies.length)
              ((List.range count.toNat).map fun i => classOf (first.toNat + i) s))) s)) ∧
    (count.toNat ≤ 29 → first.toNat + count.toNat ≤ 160 →
      exec (.readTable hd 2 first count) s =
        .next (answered 23 hd .ok
          (.table 2 first.toNat count.toNat ((run s.limits.toList).flatMap fun p => encLimit p.2 p.1)) s)) ∧
    (count.toNat ≤ 4 → first.toNat + count.toNat ≤ 16 →
      exec (.readTable hd 3 first count) s =
        .next (answered 23 hd .ok
          (.table 3 first.toNat count.toNat ((run s.programs.toList).flatMap fun p => encProgram p.2 p.1)) s)) ∧
    (count.toNat ≤ 33 → first.toNat + count.toNat ≤ 256 →
      exec (.readTable hd 4 first count) s =
        .next (answered 23 hd .ok
          (.table 4 first.toNat count.toNat ((run s.cables.toList).flatMap fun p => encCable p.2 p.1)) s)) ∧
    (count.toNat ≤ 4 → first.toNat + count.toNat ≤ 4 →
      exec (.readTable hd 5 first count) s =
        .next (answered 23 hd .ok
          (.table 5 first.toNat count.toNat ((run s.tones.toList).flatMap fun p => encTone p.2 p.1)) s)) ∧
    (count.toNat ≤ 8 → first.toNat + count.toNat ≤ 8 →
      exec (.readTable hd 6 first count) s =
        .next (answered 23 hd .ok
          (.table 6 first.toNat count.toNat
            ((run s.sweeps.toList).flatMap fun p => enc1 p.2 ++ encConfig p.1.config)) s))) ∧
  (∀ (p : Origin) (hd : Header) (table : Octet) (first count : Word) (s : State), From p 11 hd s →
    (6 < table.toNat ∨ count = 0 ∨ table = 4 ∧ 33 < count.toNat ∨ table = 2 ∧ 160 < first.toNat + count.toNat) →
    exec (.readTable hd table first count) s = .next (answered 23 hd .badField .empty s)) ∧
  (∀ (p : Origin) (hd : Header) (s : State), From p 8 hd s →
    exec (.readCounters hd 0 0) s = .next (answered 24 hd .ok (.counters 0 (highwayGroup s)) s) ∧
    exec (.readCounters hd 1 0) s = .next (answered 24 hd .ok (.counters 1 (accessGroup s)) s) ∧
    exec (.readCounters hd 2 0) s = .next (answered 24 hd .ok (.counters 2 (headsGroup s)) s) ∧
    exec (.readCounters hd 3 0) s = .next (answered 24 hd .ok (.counters 3 (ticketsGroup s)) s)) ∧
  (∀ (hd : Header) (s : State), From 6 8 hd s →
    exec (.readCounters hd 0 1) s =
      .next { answered 24 hd .ok (.counters 0 (highwayGroup s)) s with highway := { noticePeak := s.notices.length } } ∧
    exec (.readCounters hd 1 1) s =
      .next (answered 24 hd .ok (.counters 1 (accessGroup s))
        { s with busCounters := Vector.replicate 8 {}, queuePeak := s.queue.length, preemptions := 0 }) ∧
    exec (.readCounters hd 2 1) s =
      .next (answered 24 hd .ok (.counters 2 (headsGroup s)) { s with headCounters := Vector.replicate 4 {} }) ∧
    exec (.readCounters hd 3 1) s =
      .next (answered 24 hd .ok (.counters 3 (ticketsGroup s))
        { s with ticketCounters := { peakOccupancy := s.tickets.length } })) ∧
  (∀ (p : Origin) (hd : Header) (group clear : Octet) (s : State), From p 8 hd s → (3 < group.toNat ∨ 1 < clear.toNat) →
    exec (.readCounters hd group clear) s = .next (answered 24 hd .badField .empty s)) ∧
  ∀ (d : DeskNo) (hd : Header) (group : Octet) (s : State), From d.castSucc 8 hd s → group.toNat ≤ 3 →
    exec (.readCounters hd group 1) s = .next (answered 24 hd .notPermitted .empty s)

/-! ### Loading (R181, R182) -/

/-- A load of the entries of a table in range, in the octets that READ TABLE returns for them, writes them in order and leaves
the rest of the machine as it stands; a tone restarts its phase, and the requests that a new sweep quota could let be granted
are none here. A load of the class map gives each line of its run its class, whatever an unused half octet holds, and leaves
the others. A load whose first entry, count or run is not one its table takes, or one of whose entries has a field out of its
range, is refused BAD_FIELD and leaves the table as it was (R18, R77, R108, R110, R143, R154, R181, R183). -/
def Obligations.LoadsAreCheckedAndApplied : Prop :=
  (∀ (hd : Header) (p : SiteParams) (s : State), From 6 31 hd s → SiteInRange p →
    (p.quota = s.site.quota ∨ s.queue = []) →
    exec (.loadSiteParameters hd 0 1 (encSite p)) s =
      .next (answered 22 hd .ok (.loaded 0 1) { s with site := p })) ∧
  (∀ (hd : Header) (first count : Word) (classes : List Nat) (unused : Fin 16) (s : State),
    From 6 (11 + (classes.length + 1) / 2) hd s → s.classesOk = true → (∀ x ∈ classes, x ≤ 15) →
    count.toNat = classes.length → 1 ≤ classes.length → classes.length ≤ 464 →
    first.toNat + classes.length ≤ 16384 →
    ∃ map, exec (.loadLineClassMap hd first count (encClasses unused classes)) s =
        .next (answered 22 hd .ok (.loaded 1 classes.length) { s with classMap := map }) ∧
      ∀ line, classOf line { s with classMap := map } =
        if first.toNat ≤ line then classes.getD (line - first.toNat) (classOf line s) else classOf line s) ∧
  (∀ (hd : Header) (count : Word) (es : List (Fin 160 × LimitEntry)) (s : State), From 6 (11 + es.length * 8) hd s →
    count.toNat = es.length → 1 ≤ es.length → es.length ≤ 29 → (∀ e ∈ es, LimitInRange e.1 e.2) →
    exec (.loadLimitTable hd 0 count (es.flatMap fun e => encLimit e.1 e.2)) s =
      .next (answered 22 hd .ok (.loaded 2 es.length) { s with limits := written es s.limits })) ∧
  (∀ (hd : Header) (count : Word) (es : List (Fin 16 × List StepDef)) (s : State), From 6 (11 + es.length * 58) hd s →
    count.toNat = es.length → 1 ≤ es.length → es.length ≤ 4 → (∀ e ∈ es, ProgramInRange e.2) →
    ((∀ e ∈ es, StepsDiffer e.2) →
      exec (.loadProgramTable hd 0 count (es.flatMap fun e => encProgram e.1 e.2)) s =
        .next (answered 22 hd .ok (.loaded 3 es.length) { s with programs := written es s.programs })) ∧
    (¬(∀ e ∈ es, StepsDiffer e.2) →
      exec (.loadProgramTable hd 0 count (es.flatMap fun e => encProgram e.1 e.2)) s =
        .next (answered 22 hd .duplicateStep .empty s))) ∧
  (∀ (hd : Header) (count : Word) (es : List (Fin 256 × Option CableRange)) (s : State),
    From 6 (11 + es.length * 7) hd s → count.toNat = es.length → 1 ≤ es.length → es.length ≤ 34 →
    (∀ e ∈ es, CableInRange e.2) →
    (CablesApart (written es s.cables) →
      exec (.loadCableMap hd 0 count (es.flatMap fun e => encCable e.1 e.2)) s =
        .next (answered 22 hd .ok (.loaded 4 es.length) { s with cables := written es s.cables })) ∧
    (¬CablesApart (written es s.cables) →
      exec (.loadCableMap hd 0 count (es.flatMap fun e => encCable e.1 e.2)) s =
        .next (answered 22 hd .overlap .empty s))) ∧
  (∀ (hd : Header) (count : Word) (es : List (ToneNo × Tone)) (s : State), From 6 (11 + es.length * 5) hd s →
    count.toNat = es.length → 1 ≤ es.length → es.length ≤ 4 → (∀ e ∈ es, ToneInRange e.2) →
    exec (.loadToneTable hd 0 count (es.flatMap fun e => encTone e.1 e.2)) s =
      .next (answered 22 hd .ok (.loaded 5 es.length)
        { s with tones := written (es.map fun e => (e.1, { e.2 with phase := 0 })) s.tones })) ∧
  (∀ (hd : Header) (count : Word) (es : List (SweepNo × SweepConfig)) (s : State), From 6 (11 + es.length * 10) hd s →
    count.toNat = es.length → 1 ≤ es.length → es.length ≤ 8 → (∀ e ∈ es, ConfigInRange e.2) →
    ((∀ e ∈ es, Loadable e.1 s) →
      ∃ v, exec (.loadSweepConfigurations hd 0 count (es.flatMap fun e => enc1 e.1 ++ encConfig (some e.2))) s =
          .next (answered 22 hd .ok (.loaded 6 es.length) { s with sweeps := v }) ∧
        ∀ d : SweepNo, v[d] =
          { s.sweeps[d] with config := (written (es.map fun e => (e.1, some e.2)) (s.sweeps.map Descriptor.config))[d] }) ∧
    (¬(∀ e ∈ es, Loadable e.1 s) →
      exec (.loadSweepConfigurations hd 0 count (es.flatMap fun e => enc1 e.1 ++ encConfig (some e.2))) s =
        .next (answered 22 hd .busy .empty s))) ∧
  ∀ (hd : Header) (first count : Word) (entries : List Octet) (s : State),
    (From 6 (11 + count.toNat * 20) hd s → (¬(first = 0 ∧ count = 1) ∨ BadSite entries) →
      exec (.loadSiteParameters hd first count entries) s = .next (answered 22 hd .badField .empty s)) ∧
    (From 6 (11 + (count.toNat + 1) / 2) hd s → (count = 0 ∨ 464 < count.toNat ∨ 16384 < first.toNat + count.toNat) →
      exec (.loadLineClassMap hd first count entries) s = .next (answered 22 hd .badField .empty s)) ∧
    (From 6 (11 + count.toNat * 8) hd s → (first ≠ 0 ∨ count = 0 ∨ SomeEntry BadLimit 8 count entries) →
      exec (.loadLimitTable hd first count entries) s = .next (answered 22 hd .badField .empty s)) ∧
    (From 6 (11 + count.toNat * 58) hd s → (first ≠ 0 ∨ count = 0 ∨ SomeEntry BadProgram 58 count entries) →
      exec (.loadProgramTable hd first count entries) s = .next (answered 22 hd .badField .empty s)) ∧
    (From 6 (11 + count.toNat * 7) hd s → (first ≠ 0 ∨ count = 0 ∨ SomeEntry BadCable 7 count entries) →
      exec (.loadCableMap hd first count entries) s = .next (answered 22 hd .badField .empty s)) ∧
    (From 6 (11 + count.toNat * 5) hd s →
      (first ≠ 0 ∨ count = 0 ∨ 4 < count.toNat ∨ SomeEntry BadTone 5 count entries) →
      exec (.loadToneTable hd first count entries) s = .next (answered 22 hd .badField .empty s)) ∧
    (From 6 (11 + count.toNat * 10) hd s →
      (first ≠ 0 ∨ count = 0 ∨ 8 < count.toNat ∨ SomeEntry BadConfig 10 count entries) →
      exec (.loadSweepConfigurations hd first count entries) s = .next (answered 22 hd .badField .empty s))

/-! ### RESET (R177) -/

/-- RESET with no reply waiting clears the dynamic state of every block and keeps the tables, the counters and the alignment
(R19, R41, R55, R57, R90, R141, R168, R169, R176, R177); with a reply waiting it is refused BUSY. -/
def Obligations.ResetClearsDynamicState : Prop :=
  (∀ (hd : Header) (s : State), From 6 6 hd s → s.replies = [] → ∃ t, exec (.reset hd) s = .next t ∧
    t.replies = [{ kind := 26, tag := hd.tag, addressed := hd.origin, status := .ok, data := .empty }] ∧
    t.notices = [] ∧ t.clock = 0 ∧ t.frameCount = 0 ∧ t.tickets = [] ∧ t.repairList = [] ∧ t.inFlight = [] ∧
    t.numberCounter = 1 ∧ t.raiseCounter = 0 ∧ t.queue = [] ∧ t.arrivals = 0 ∧ t.rotation = 0 ∧ t.grantCount = 0 ∧
    t.headQueue = [] ∧ (∀ d : DeskNo, t.audio[d] = none) ∧
    (∀ d : SweepNo, t.sweeps[d] = { config := s.sweeps[d].config }) ∧
    (∀ i : Fin 30, t.paths[i] = if i.val < 14 then {} else s.paths[i]) ∧
    (∀ k : ToneNo, t.tones[k] = { s.tones[k] with phase := 0 }) ∧
    (∀ b : BusNo, t.buses[b].makeTimeouts = 0 ∧ t.buses[b].lateWatch = false ∧ t.buses[b].mode = none ∧
      (s.buses[b].state = .free → t.buses[b].state = .free) ∧
      (s.buses[b].state = .outOfService → t.buses[b].state = .outOfService ∧ t.buses[b].line = s.buses[b].line ∧
        t.buses[b].stuck = s.buses[b].stuck) ∧
      (∀ line, s.buses[b].line = some line →
        s.buses[b].state = .seizing ∨ s.buses[b].state = .guard ∨ s.buses[b].state = .held →
        t.buses[b].state = .releasing ∧ t.buses[b].order = .brk line ∧ t.buses[b].line = some line ∧
        t.buses[b].timer = some 0 ∧ t.buses[b].cause = some .reset ∧ t.buses[b].holder = none) ∧
      (s.buses[b].state = .releasing →
        t.buses[b].state = .releasing ∧ t.buses[b].order = s.buses[b].order ∧ t.buses[b].line = s.buses[b].line ∧
        t.buses[b].timer = some 0 ∧ t.buses[b].cause = some .reset ∧ t.buses[b].holder = none)) ∧
    (∀ h : HeadNo, t.heads[h].echoed = s.heads[h].echoed ∧
      (s.heads[h].state = .awaitEcho ∨ s.heads[h].state = .settling ∨ s.heads[h].state = .integrating →
        t.heads[h] = { s.heads[h] with state := .returning, word := HeadWord.rest, bus := none, timer := some 0
                                       ctx := none }) ∧
      (s.heads[h].state = .idle ∨ s.heads[h].state = .returning ∨ s.heads[h].state = .outOfService →
        t.heads[h] = s.heads[h])) ∧
    t.alignment = s.alignment ∧ t.store = s.store ∧ t.assembler = .waiting ∧ t.sending = s.sending ∧
    t.outFrame = s.outFrame ∧ t.claims = s.claims ∧ t.site = s.site ∧ t.limits = s.limits ∧
    t.classMap = s.classMap ∧ t.programs = s.programs ∧ t.cables = s.cables ∧
    t.highway = { s.highway with commandsTaken := raised s.highway.commandsTaken } ∧ t.busCounters = s.busCounters ∧
    t.headCounters = s.headCounters ∧ t.ticketCounters = s.ticketCounters ∧ t.queuePeak = s.queuePeak ∧
    t.preemptions = s.preemptions) ∧
  ∀ (hd : Header) (s : State), From 6 6 hd s → s.replies ≠ [] →
    exec (.reset hd) s = .next (answered 26 hd .busy .empty s)

/-! ### The commands without a row (R35a, R135a) -/

/-- RELEASE and READ TICKET have no row of the table and come as messages (log entry 6). RELEASE removes the origin's waiting
request for the line; otherwise it releases with cause REQUESTED the origin's bus that claims the line, here one on which
nothing is measured, and is refused WRONG_STATE where that bus is released already, NOT_PERMITTED where another holds it and
NOT_FOUND where none claims the line (R35a, R53). READ TICKET gives the ticket of a number, or the one of the lowest number
above it, and changes nothing (R135a); that a selector or a first index out of range is BAD_FIELD before the ticket is looked
for is the model's choice (log entry 28). -/
def Obligations.ReleaseAndReadTicketAnswer : Prop :=
  (∀ (o : Origin) (hd : Header) (line : Word) (s : State), From o 8 hd s → line.toNat ≤ 16383 →
    ((∃ e ∈ s.queue, e.requester = .origin o ∧ e.line = line.toNat) →
      exec (.unknownKindCommand hd 2 (octets2 line)) s =
        .next (answered 2 hd .ok .empty
          { s with queue := s.queue.filter fun e => ¬(e.requester = .origin o ∧ e.line = line.toNat) })) ∧
    (NotWaiting o line.toNat s → claimOf line.toNat s = none →
      exec (.unknownKindCommand hd 2 (octets2 line)) s = .next (answered 2 hd .notFound .empty s)) ∧
    ∀ b : BusNo, NotWaiting o line.toNat s → claimOf line.toNat s = some b →
      (s.buses[b].holder ≠ some (.origin o) →
        exec (.unknownKindCommand hd 2 (octets2 line)) s = .next (answered 2 hd .notPermitted .empty s)) ∧
      (s.buses[b].holder = some (.origin o) → s.buses[b].state = .releasing →
        exec (.unknownKindCommand hd 2 (octets2 line)) s = .next (answered 2 hd .wrongState .empty s)) ∧
      (s.buses[b].holder = some (.origin o) →
        (s.buses[b].state = .seizing ∨ s.buses[b].state = .guard ∨ s.buses[b].state = .held) →
        s.buses[b].line = some line.toNat → s.buses[b].head = none → (∀ e ∈ s.headQueue, e.bus ≠ b) →
        exec (.unknownKindCommand hd 2 (octets2 line)) s =
          .next (answered 2 hd .ok .empty
            (unhears o b (sends b {} (withBus b (breaking line.toNat .requested s.buses[b]) s)))))) ∧
  (∀ (o : Origin) (hd : Header) (line : Word) (s : State), From o 8 hd s → 16383 < line.toNat →
    exec (.unknownKindCommand hd 2 (octets2 line)) s = .next (answered 2 hd .badField .empty s)) ∧
  (∀ (o : Origin) (hd : Header) (n : Word) (first : Octet) (s : State), From o 10 hd s → first.toNat ≤ 63 →
    (n = 0 → exec (.unknownKindCommand hd 13 (octets2 n ++ [0, first])) s = .next (answered 13 hd .badField .empty s)) ∧
    (n ≠ 0 → ticketByNumber n.toNat s = none →
      exec (.unknownKindCommand hd 13 (octets2 n ++ [0, first])) s = .next (answered 13 hd .notFound .empty s)) ∧
    (∀ t : Ticket, n ≠ 0 → ticketByNumber n.toNat s = some t →
      exec (.unknownKindCommand hd 13 (octets2 n ++ [0, first])) s =
        .next (answered 13 hd .ok (.fullTicket t first.toNat) s)) ∧
    ((∀ t ∈ s.tickets, t.number ≤ n.toNat) →
      exec (.unknownKindCommand hd 13 (octets2 n ++ [1, first])) s = .next (answered 13 hd .none .empty s)) ∧
    ∀ t ∈ s.tickets, n.toNat < t.number → (∀ u ∈ s.tickets, n.toNat < u.number → u ≠ t → t.number < u.number) →
      exec (.unknownKindCommand hd 13 (octets2 n ++ [1, first])) s =
        .next (answered 13 hd .ok (.fullTicket t first.toNat) s)) ∧
  ∀ (o : Origin) (hd : Header) (n : Word) (selector first : Octet) (s : State), From o 10 hd s →
    (1 < selector.toNat ∨ 63 < first.toNat) →
    exec (.unknownKindCommand hd 13 (octets2 n ++ [selector, first])) s = .next (answered 13 hd .badField .empty s)

end Statements
end

