-- ==== Sys2Proof/Laws/State.lean ====
section
/-! SUPPORT. What each update of the state leaves in each field: one lemma per field per update, and the reading of a record
just written. -/

namespace Sys2Proof.Machine

variable (s : State)

/-! ### setBus -/

@[simp] theorem State.setBus_pending (b : BusNo) (x : Bus) : (s.setBus b x).pending = s.pending := rfl
@[simp] theorem State.setBus_alignment (b : BusNo) (x : Bus) : (s.setBus b x).alignment = s.alignment := rfl
@[simp] theorem State.setBus_highway (b : BusNo) (x : Bus) : (s.setBus b x).highway = s.highway := rfl
@[simp] theorem State.setBus_store (b : BusNo) (x : Bus) : (s.setBus b x).store = s.store := rfl
@[simp] theorem State.setBus_paths (b : BusNo) (x : Bus) : (s.setBus b x).paths = s.paths := rfl
@[simp] theorem State.setBus_tones (b : BusNo) (x : Bus) : (s.setBus b x).tones = s.tones := rfl
@[simp] theorem State.setBus_outFrame (b : BusNo) (x : Bus) : (s.setBus b x).outFrame = s.outFrame := rfl
@[simp] theorem State.setBus_self (b : BusNo) (x : Bus) :
    (s.setBus b x).buses[b] = x := by simp [State.setBus]
theorem State.setBus_other (b c : BusNo) (x : Bus) (ne : b ≠ c) :
    (s.setBus b x).buses[c] = s.buses[c] := by
  simp only [State.setBus, Fin.getElem_fin]; exact Vector.getElem_set_ne _ _ (fun e => ne (Fin.ext e))
@[simp] theorem State.setBus_busCounters (b : BusNo) (x : Bus) : (s.setBus b x).busCounters = s.busCounters := rfl
@[simp] theorem State.setBus_claims (b : BusNo) (x : Bus) : (s.setBus b x).claims = s.claims := rfl
@[simp] theorem State.setBus_audio (b : BusNo) (x : Bus) : (s.setBus b x).audio = s.audio := rfl
@[simp] theorem State.setBus_queue (b : BusNo) (x : Bus) : (s.setBus b x).queue = s.queue := rfl
@[simp] theorem State.setBus_arrivals (b : BusNo) (x : Bus) : (s.setBus b x).arrivals = s.arrivals := rfl
@[simp] theorem State.setBus_rotation (b : BusNo) (x : Bus) : (s.setBus b x).rotation = s.rotation := rfl
@[simp] theorem State.setBus_grantCount (b : BusNo) (x : Bus) : (s.setBus b x).grantCount = s.grantCount := rfl
@[simp] theorem State.setBus_stamps (b : BusNo) (x : Bus) : (s.setBus b x).stamps = s.stamps := rfl
@[simp] theorem State.setBus_queuePeak (b : BusNo) (x : Bus) : (s.setBus b x).queuePeak = s.queuePeak := rfl
@[simp] theorem State.setBus_preemptions (b : BusNo) (x : Bus) : (s.setBus b x).preemptions = s.preemptions := rfl
@[simp] theorem State.setBus_heads (b : BusNo) (x : Bus) : (s.setBus b x).heads = s.heads := rfl
@[simp] theorem State.setBus_headCounters (b : BusNo) (x : Bus) : (s.setBus b x).headCounters = s.headCounters := rfl
@[simp] theorem State.setBus_headQueue (b : BusNo) (x : Bus) : (s.setBus b x).headQueue = s.headQueue := rfl
@[simp] theorem State.setBus_assignDue (b : BusNo) (x : Bus) : (s.setBus b x).assignDue = s.assignDue := rfl
@[simp] theorem State.setBus_programs (b : BusNo) (x : Bus) : (s.setBus b x).programs = s.programs := rfl
@[simp] theorem State.setBus_classMap (b : BusNo) (x : Bus) : (s.setBus b x).classMap = s.classMap := rfl
@[simp] theorem State.setBus_limits (b : BusNo) (x : Bus) : (s.setBus b x).limits = s.limits := rfl
@[simp] theorem State.setBus_tickets (b : BusNo) (x : Bus) : (s.setBus b x).tickets = s.tickets := rfl
@[simp] theorem State.setBus_numberCounter (b : BusNo) (x : Bus) : (s.setBus b x).numberCounter = s.numberCounter := rfl
@[simp] theorem State.setBus_raiseCounter (b : BusNo) (x : Bus) : (s.setBus b x).raiseCounter = s.raiseCounter := rfl
@[simp] theorem State.setBus_repairList (b : BusNo) (x : Bus) : (s.setBus b x).repairList = s.repairList := rfl
@[simp] theorem State.setBus_inFlight (b : BusNo) (x : Bus) : (s.setBus b x).inFlight = s.inFlight := rfl
@[simp] theorem State.setBus_ticketCounters (b : BusNo) (x : Bus) : (s.setBus b x).ticketCounters = s.ticketCounters := rfl
@[simp] theorem State.setBus_cables (b : BusNo) (x : Bus) : (s.setBus b x).cables = s.cables := rfl
@[simp] theorem State.setBus_sweeps (b : BusNo) (x : Bus) : (s.setBus b x).sweeps = s.sweeps := rfl
@[simp] theorem State.setBus_assembler (b : BusNo) (x : Bus) : (s.setBus b x).assembler = s.assembler := rfl
@[simp] theorem State.setBus_replies (b : BusNo) (x : Bus) : (s.setBus b x).replies = s.replies := rfl
@[simp] theorem State.setBus_notices (b : BusNo) (x : Bus) : (s.setBus b x).notices = s.notices := rfl
@[simp] theorem State.setBus_sending (b : BusNo) (x : Bus) : (s.setBus b x).sending = s.sending := rfl
@[simp] theorem State.setBus_clock (b : BusNo) (x : Bus) : (s.setBus b x).clock = s.clock := rfl
@[simp] theorem State.setBus_frameCount (b : BusNo) (x : Bus) : (s.setBus b x).frameCount = s.frameCount := rfl
@[simp] theorem State.setBus_secondTaken (b : BusNo) (x : Bus) : (s.setBus b x).secondTaken = s.secondTaken := rfl
@[simp] theorem State.setBus_site (b : BusNo) (x : Bus) : (s.setBus b x).site = s.site := rfl
@[simp] theorem State.setBus_freeCount (b : BusNo) (x : Bus) : (s.setBus b x).freeCount = s.freeCount := rfl

/-! ### setBusCounters -/

@[simp] theorem State.setBusCounters_pending (b : BusNo) (x : BusCounters) : (s.setBusCounters b x).pending = s.pending := rfl
@[simp] theorem State.setBusCounters_alignment (b : BusNo) (x : BusCounters) : (s.setBusCounters b x).alignment = s.alignment := rfl
@[simp] theorem State.setBusCounters_highway (b : BusNo) (x : BusCounters) : (s.setBusCounters b x).highway = s.highway := rfl
@[simp] theorem State.setBusCounters_store (b : BusNo) (x : BusCounters) : (s.setBusCounters b x).store = s.store := rfl
@[simp] theorem State.setBusCounters_paths (b : BusNo) (x : BusCounters) : (s.setBusCounters b x).paths = s.paths := rfl
@[simp] theorem State.setBusCounters_tones (b : BusNo) (x : BusCounters) : (s.setBusCounters b x).tones = s.tones := rfl
@[simp] theorem State.setBusCounters_outFrame (b : BusNo) (x : BusCounters) : (s.setBusCounters b x).outFrame = s.outFrame := rfl
@[simp] theorem State.setBusCounters_buses (b : BusNo) (x : BusCounters) : (s.setBusCounters b x).buses = s.buses := rfl
@[simp] theorem State.setBusCounters_self (b : BusNo) (x : BusCounters) :
    (s.setBusCounters b x).busCounters[b] = x := by simp [State.setBusCounters]
theorem State.setBusCounters_other (b c : BusNo) (x : BusCounters) (ne : b ≠ c) :
    (s.setBusCounters b x).busCounters[c] = s.busCounters[c] := by
  simp only [State.setBusCounters, Fin.getElem_fin]; exact Vector.getElem_set_ne _ _ (fun e => ne (Fin.ext e))
@[simp] theorem State.setBusCounters_claims (b : BusNo) (x : BusCounters) : (s.setBusCounters b x).claims = s.claims := rfl
@[simp] theorem State.setBusCounters_audio (b : BusNo) (x : BusCounters) : (s.setBusCounters b x).audio = s.audio := rfl
@[simp] theorem State.setBusCounters_queue (b : BusNo) (x : BusCounters) : (s.setBusCounters b x).queue = s.queue := rfl
@[simp] theorem State.setBusCounters_arrivals (b : BusNo) (x : BusCounters) : (s.setBusCounters b x).arrivals = s.arrivals := rfl
@[simp] theorem State.setBusCounters_rotation (b : BusNo) (x : BusCounters) : (s.setBusCounters b x).rotation = s.rotation := rfl
@[simp] theorem State.setBusCounters_grantCount (b : BusNo) (x : BusCounters) : (s.setBusCounters b x).grantCount = s.grantCount := rfl
@[simp] theorem State.setBusCounters_stamps (b : BusNo) (x : BusCounters) : (s.setBusCounters b x).stamps = s.stamps := rfl
@[simp] theorem State.setBusCounters_queuePeak (b : BusNo) (x : BusCounters) : (s.setBusCounters b x).queuePeak = s.queuePeak := rfl
@[simp] theorem State.setBusCounters_preemptions (b : BusNo) (x : BusCounters) : (s.setBusCounters b x).preemptions = s.preemptions := rfl
@[simp] theorem State.setBusCounters_heads (b : BusNo) (x : BusCounters) : (s.setBusCounters b x).heads = s.heads := rfl
@[simp] theorem State.setBusCounters_headCounters (b : BusNo) (x : BusCounters) : (s.setBusCounters b x).headCounters = s.headCounters := rfl
@[simp] theorem State.setBusCounters_headQueue (b : BusNo) (x : BusCounters) : (s.setBusCounters b x).headQueue = s.headQueue := rfl
@[simp] theorem State.setBusCounters_assignDue (b : BusNo) (x : BusCounters) : (s.setBusCounters b x).assignDue = s.assignDue := rfl
@[simp] theorem State.setBusCounters_programs (b : BusNo) (x : BusCounters) : (s.setBusCounters b x).programs = s.programs := rfl
@[simp] theorem State.setBusCounters_classMap (b : BusNo) (x : BusCounters) : (s.setBusCounters b x).classMap = s.classMap := rfl
@[simp] theorem State.setBusCounters_limits (b : BusNo) (x : BusCounters) : (s.setBusCounters b x).limits = s.limits := rfl
@[simp] theorem State.setBusCounters_tickets (b : BusNo) (x : BusCounters) : (s.setBusCounters b x).tickets = s.tickets := rfl
@[simp] theorem State.setBusCounters_numberCounter (b : BusNo) (x : BusCounters) : (s.setBusCounters b x).numberCounter = s.numberCounter := rfl
@[simp] theorem State.setBusCounters_raiseCounter (b : BusNo) (x : BusCounters) : (s.setBusCounters b x).raiseCounter = s.raiseCounter := rfl
@[simp] theorem State.setBusCounters_repairList (b : BusNo) (x : BusCounters) : (s.setBusCounters b x).repairList = s.repairList := rfl
@[simp] theorem State.setBusCounters_inFlight (b : BusNo) (x : BusCounters) : (s.setBusCounters b x).inFlight = s.inFlight := rfl
@[simp] theorem State.setBusCounters_ticketCounters (b : BusNo) (x : BusCounters) : (s.setBusCounters b x).ticketCounters = s.ticketCounters := rfl
@[simp] theorem State.setBusCounters_cables (b : BusNo) (x : BusCounters) : (s.setBusCounters b x).cables = s.cables := rfl
@[simp] theorem State.setBusCounters_sweeps (b : BusNo) (x : BusCounters) : (s.setBusCounters b x).sweeps = s.sweeps := rfl
@[simp] theorem State.setBusCounters_assembler (b : BusNo) (x : BusCounters) : (s.setBusCounters b x).assembler = s.assembler := rfl
@[simp] theorem State.setBusCounters_replies (b : BusNo) (x : BusCounters) : (s.setBusCounters b x).replies = s.replies := rfl
@[simp] theorem State.setBusCounters_notices (b : BusNo) (x : BusCounters) : (s.setBusCounters b x).notices = s.notices := rfl
@[simp] theorem State.setBusCounters_sending (b : BusNo) (x : BusCounters) : (s.setBusCounters b x).sending = s.sending := rfl
@[simp] theorem State.setBusCounters_clock (b : BusNo) (x : BusCounters) : (s.setBusCounters b x).clock = s.clock := rfl
@[simp] theorem State.setBusCounters_frameCount (b : BusNo) (x : BusCounters) : (s.setBusCounters b x).frameCount = s.frameCount := rfl
@[simp] theorem State.setBusCounters_secondTaken (b : BusNo) (x : BusCounters) : (s.setBusCounters b x).secondTaken = s.secondTaken := rfl
@[simp] theorem State.setBusCounters_site (b : BusNo) (x : BusCounters) : (s.setBusCounters b x).site = s.site := rfl
@[simp] theorem State.setBusCounters_freeCount (b : BusNo) (x : BusCounters) : (s.setBusCounters b x).freeCount = s.freeCount := rfl

/-! ### setHead -/

@[simp] theorem State.setHead_pending (h : HeadNo) (x : HeadRec) : (s.setHead h x).pending = s.pending := rfl
@[simp] theorem State.setHead_alignment (h : HeadNo) (x : HeadRec) : (s.setHead h x).alignment = s.alignment := rfl
@[simp] theorem State.setHead_highway (h : HeadNo) (x : HeadRec) : (s.setHead h x).highway = s.highway := rfl
@[simp] theorem State.setHead_store (h : HeadNo) (x : HeadRec) : (s.setHead h x).store = s.store := rfl
@[simp] theorem State.setHead_paths (h : HeadNo) (x : HeadRec) : (s.setHead h x).paths = s.paths := rfl
@[simp] theorem State.setHead_tones (h : HeadNo) (x : HeadRec) : (s.setHead h x).tones = s.tones := rfl
@[simp] theorem State.setHead_outFrame (h : HeadNo) (x : HeadRec) : (s.setHead h x).outFrame = s.outFrame := rfl
@[simp] theorem State.setHead_buses (h : HeadNo) (x : HeadRec) : (s.setHead h x).buses = s.buses := rfl
@[simp] theorem State.setHead_busCounters (h : HeadNo) (x : HeadRec) : (s.setHead h x).busCounters = s.busCounters := rfl
@[simp] theorem State.setHead_claims (h : HeadNo) (x : HeadRec) : (s.setHead h x).claims = s.claims := rfl
@[simp] theorem State.setHead_audio (h : HeadNo) (x : HeadRec) : (s.setHead h x).audio = s.audio := rfl
@[simp] theorem State.setHead_queue (h : HeadNo) (x : HeadRec) : (s.setHead h x).queue = s.queue := rfl
@[simp] theorem State.setHead_arrivals (h : HeadNo) (x : HeadRec) : (s.setHead h x).arrivals = s.arrivals := rfl
@[simp] theorem State.setHead_rotation (h : HeadNo) (x : HeadRec) : (s.setHead h x).rotation = s.rotation := rfl
@[simp] theorem State.setHead_grantCount (h : HeadNo) (x : HeadRec) : (s.setHead h x).grantCount = s.grantCount := rfl
@[simp] theorem State.setHead_stamps (h : HeadNo) (x : HeadRec) : (s.setHead h x).stamps = s.stamps := rfl
@[simp] theorem State.setHead_queuePeak (h : HeadNo) (x : HeadRec) : (s.setHead h x).queuePeak = s.queuePeak := rfl
@[simp] theorem State.setHead_preemptions (h : HeadNo) (x : HeadRec) : (s.setHead h x).preemptions = s.preemptions := rfl
@[simp] theorem State.setHead_self (h : HeadNo) (x : HeadRec) :
    (s.setHead h x).heads[h] = x := by simp [State.setHead]
theorem State.setHead_other (h c : HeadNo) (x : HeadRec) (ne : h ≠ c) :
    (s.setHead h x).heads[c] = s.heads[c] := by
  simp only [State.setHead, Fin.getElem_fin]; exact Vector.getElem_set_ne _ _ (fun e => ne (Fin.ext e))
@[simp] theorem State.setHead_headCounters (h : HeadNo) (x : HeadRec) : (s.setHead h x).headCounters = s.headCounters := rfl
@[simp] theorem State.setHead_headQueue (h : HeadNo) (x : HeadRec) : (s.setHead h x).headQueue = s.headQueue := rfl
@[simp] theorem State.setHead_assignDue (h : HeadNo) (x : HeadRec) : (s.setHead h x).assignDue = s.assignDue := rfl
@[simp] theorem State.setHead_programs (h : HeadNo) (x : HeadRec) : (s.setHead h x).programs = s.programs := rfl
@[simp] theorem State.setHead_classMap (h : HeadNo) (x : HeadRec) : (s.setHead h x).classMap = s.classMap := rfl
@[simp] theorem State.setHead_limits (h : HeadNo) (x : HeadRec) : (s.setHead h x).limits = s.limits := rfl
@[simp] theorem State.setHead_tickets (h : HeadNo) (x : HeadRec) : (s.setHead h x).tickets = s.tickets := rfl
@[simp] theorem State.setHead_numberCounter (h : HeadNo) (x : HeadRec) : (s.setHead h x).numberCounter = s.numberCounter := rfl
@[simp] theorem State.setHead_raiseCounter (h : HeadNo) (x : HeadRec) : (s.setHead h x).raiseCounter = s.raiseCounter := rfl
@[simp] theorem State.setHead_repairList (h : HeadNo) (x : HeadRec) : (s.setHead h x).repairList = s.repairList := rfl
@[simp] theorem State.setHead_inFlight (h : HeadNo) (x : HeadRec) : (s.setHead h x).inFlight = s.inFlight := rfl
@[simp] theorem State.setHead_ticketCounters (h : HeadNo) (x : HeadRec) : (s.setHead h x).ticketCounters = s.ticketCounters := rfl
@[simp] theorem State.setHead_cables (h : HeadNo) (x : HeadRec) : (s.setHead h x).cables = s.cables := rfl
@[simp] theorem State.setHead_sweeps (h : HeadNo) (x : HeadRec) : (s.setHead h x).sweeps = s.sweeps := rfl
@[simp] theorem State.setHead_assembler (h : HeadNo) (x : HeadRec) : (s.setHead h x).assembler = s.assembler := rfl
@[simp] theorem State.setHead_replies (h : HeadNo) (x : HeadRec) : (s.setHead h x).replies = s.replies := rfl
@[simp] theorem State.setHead_notices (h : HeadNo) (x : HeadRec) : (s.setHead h x).notices = s.notices := rfl
@[simp] theorem State.setHead_sending (h : HeadNo) (x : HeadRec) : (s.setHead h x).sending = s.sending := rfl
@[simp] theorem State.setHead_clock (h : HeadNo) (x : HeadRec) : (s.setHead h x).clock = s.clock := rfl
@[simp] theorem State.setHead_frameCount (h : HeadNo) (x : HeadRec) : (s.setHead h x).frameCount = s.frameCount := rfl
@[simp] theorem State.setHead_secondTaken (h : HeadNo) (x : HeadRec) : (s.setHead h x).secondTaken = s.secondTaken := rfl
@[simp] theorem State.setHead_site (h : HeadNo) (x : HeadRec) : (s.setHead h x).site = s.site := rfl
@[simp] theorem State.setHead_freeCount (h : HeadNo) (x : HeadRec) : (s.setHead h x).freeCount = s.freeCount := rfl

/-! ### setHeadCounters -/

@[simp] theorem State.setHeadCounters_pending (h : HeadNo) (x : HeadCounters) : (s.setHeadCounters h x).pending = s.pending := rfl
@[simp] theorem State.setHeadCounters_alignment (h : HeadNo) (x : HeadCounters) : (s.setHeadCounters h x).alignment = s.alignment := rfl
@[simp] theorem State.setHeadCounters_highway (h : HeadNo) (x : HeadCounters) : (s.setHeadCounters h x).highway = s.highway := rfl
@[simp] theorem State.setHeadCounters_store (h : HeadNo) (x : HeadCounters) : (s.setHeadCounters h x).store = s.store := rfl
@[simp] theorem State.setHeadCounters_paths (h : HeadNo) (x : HeadCounters) : (s.setHeadCounters h x).paths = s.paths := rfl
@[simp] theorem State.setHeadCounters_tones (h : HeadNo) (x : HeadCounters) : (s.setHeadCounters h x).tones = s.tones := rfl
@[simp] theorem State.setHeadCounters_outFrame (h : HeadNo) (x : HeadCounters) : (s.setHeadCounters h x).outFrame = s.outFrame := rfl
@[simp] theorem State.setHeadCounters_buses (h : HeadNo) (x : HeadCounters) : (s.setHeadCounters h x).buses = s.buses := rfl
@[simp] theorem State.setHeadCounters_busCounters (h : HeadNo) (x : HeadCounters) : (s.setHeadCounters h x).busCounters = s.busCounters := rfl
@[simp] theorem State.setHeadCounters_claims (h : HeadNo) (x : HeadCounters) : (s.setHeadCounters h x).claims = s.claims := rfl
@[simp] theorem State.setHeadCounters_audio (h : HeadNo) (x : HeadCounters) : (s.setHeadCounters h x).audio = s.audio := rfl
@[simp] theorem State.setHeadCounters_queue (h : HeadNo) (x : HeadCounters) : (s.setHeadCounters h x).queue = s.queue := rfl
@[simp] theorem State.setHeadCounters_arrivals (h : HeadNo) (x : HeadCounters) : (s.setHeadCounters h x).arrivals = s.arrivals := rfl
@[simp] theorem State.setHeadCounters_rotation (h : HeadNo) (x : HeadCounters) : (s.setHeadCounters h x).rotation = s.rotation := rfl
@[simp] theorem State.setHeadCounters_grantCount (h : HeadNo) (x : HeadCounters) : (s.setHeadCounters h x).grantCount = s.grantCount := rfl
@[simp] theorem State.setHeadCounters_stamps (h : HeadNo) (x : HeadCounters) : (s.setHeadCounters h x).stamps = s.stamps := rfl
@[simp] theorem State.setHeadCounters_queuePeak (h : HeadNo) (x : HeadCounters) : (s.setHeadCounters h x).queuePeak = s.queuePeak := rfl
@[simp] theorem State.setHeadCounters_preemptions (h : HeadNo) (x : HeadCounters) : (s.setHeadCounters h x).preemptions = s.preemptions := rfl
@[simp] theorem State.setHeadCounters_heads (h : HeadNo) (x : HeadCounters) : (s.setHeadCounters h x).heads = s.heads := rfl
@[simp] theorem State.setHeadCounters_self (h : HeadNo) (x : HeadCounters) :
    (s.setHeadCounters h x).headCounters[h] = x := by simp [State.setHeadCounters]
theorem State.setHeadCounters_other (h c : HeadNo) (x : HeadCounters) (ne : h ≠ c) :
    (s.setHeadCounters h x).headCounters[c] = s.headCounters[c] := by
  simp only [State.setHeadCounters, Fin.getElem_fin]; exact Vector.getElem_set_ne _ _ (fun e => ne (Fin.ext e))
@[simp] theorem State.setHeadCounters_headQueue (h : HeadNo) (x : HeadCounters) : (s.setHeadCounters h x).headQueue = s.headQueue := rfl
@[simp] theorem State.setHeadCounters_assignDue (h : HeadNo) (x : HeadCounters) : (s.setHeadCounters h x).assignDue = s.assignDue := rfl
@[simp] theorem State.setHeadCounters_programs (h : HeadNo) (x : HeadCounters) : (s.setHeadCounters h x).programs = s.programs := rfl
@[simp] theorem State.setHeadCounters_classMap (h : HeadNo) (x : HeadCounters) : (s.setHeadCounters h x).classMap = s.classMap := rfl
@[simp] theorem State.setHeadCounters_limits (h : HeadNo) (x : HeadCounters) : (s.setHeadCounters h x).limits = s.limits := rfl
@[simp] theorem State.setHeadCounters_tickets (h : HeadNo) (x : HeadCounters) : (s.setHeadCounters h x).tickets = s.tickets := rfl
@[simp] theorem State.setHeadCounters_numberCounter (h : HeadNo) (x : HeadCounters) : (s.setHeadCounters h x).numberCounter = s.numberCounter := rfl
@[simp] theorem State.setHeadCounters_raiseCounter (h : HeadNo) (x : HeadCounters) : (s.setHeadCounters h x).raiseCounter = s.raiseCounter := rfl
@[simp] theorem State.setHeadCounters_repairList (h : HeadNo) (x : HeadCounters) : (s.setHeadCounters h x).repairList = s.repairList := rfl
@[simp] theorem State.setHeadCounters_inFlight (h : HeadNo) (x : HeadCounters) : (s.setHeadCounters h x).inFlight = s.inFlight := rfl
@[simp] theorem State.setHeadCounters_ticketCounters (h : HeadNo) (x : HeadCounters) : (s.setHeadCounters h x).ticketCounters = s.ticketCounters := rfl
@[simp] theorem State.setHeadCounters_cables (h : HeadNo) (x : HeadCounters) : (s.setHeadCounters h x).cables = s.cables := rfl
@[simp] theorem State.setHeadCounters_sweeps (h : HeadNo) (x : HeadCounters) : (s.setHeadCounters h x).sweeps = s.sweeps := rfl
@[simp] theorem State.setHeadCounters_assembler (h : HeadNo) (x : HeadCounters) : (s.setHeadCounters h x).assembler = s.assembler := rfl
@[simp] theorem State.setHeadCounters_replies (h : HeadNo) (x : HeadCounters) : (s.setHeadCounters h x).replies = s.replies := rfl
@[simp] theorem State.setHeadCounters_notices (h : HeadNo) (x : HeadCounters) : (s.setHeadCounters h x).notices = s.notices := rfl
@[simp] theorem State.setHeadCounters_sending (h : HeadNo) (x : HeadCounters) : (s.setHeadCounters h x).sending = s.sending := rfl
@[simp] theorem State.setHeadCounters_clock (h : HeadNo) (x : HeadCounters) : (s.setHeadCounters h x).clock = s.clock := rfl
@[simp] theorem State.setHeadCounters_frameCount (h : HeadNo) (x : HeadCounters) : (s.setHeadCounters h x).frameCount = s.frameCount := rfl
@[simp] theorem State.setHeadCounters_secondTaken (h : HeadNo) (x : HeadCounters) : (s.setHeadCounters h x).secondTaken = s.secondTaken := rfl
@[simp] theorem State.setHeadCounters_site (h : HeadNo) (x : HeadCounters) : (s.setHeadCounters h x).site = s.site := rfl
@[simp] theorem State.setHeadCounters_freeCount (h : HeadNo) (x : HeadCounters) : (s.setHeadCounters h x).freeCount = s.freeCount := rfl

/-! ### setSweep -/

@[simp] theorem State.setSweep_pending (d : SweepNo) (x : Descriptor) : (s.setSweep d x).pending = s.pending := rfl
@[simp] theorem State.setSweep_alignment (d : SweepNo) (x : Descriptor) : (s.setSweep d x).alignment = s.alignment := rfl
@[simp] theorem State.setSweep_highway (d : SweepNo) (x : Descriptor) : (s.setSweep d x).highway = s.highway := rfl
@[simp] theorem State.setSweep_store (d : SweepNo) (x : Descriptor) : (s.setSweep d x).store = s.store := rfl
@[simp] theorem State.setSweep_paths (d : SweepNo) (x : Descriptor) : (s.setSweep d x).paths = s.paths := rfl
@[simp] theorem State.setSweep_tones (d : SweepNo) (x : Descriptor) : (s.setSweep d x).tones = s.tones := rfl
@[simp] theorem State.setSweep_outFrame (d : SweepNo) (x : Descriptor) : (s.setSweep d x).outFrame = s.outFrame := rfl
@[simp] theorem State.setSweep_buses (d : SweepNo) (x : Descriptor) : (s.setSweep d x).buses = s.buses := rfl
@[simp] theorem State.setSweep_busCounters (d : SweepNo) (x : Descriptor) : (s.setSweep d x).busCounters = s.busCounters := rfl
@[simp] theorem State.setSweep_claims (d : SweepNo) (x : Descriptor) : (s.setSweep d x).claims = s.claims := rfl
@[simp] theorem State.setSweep_audio (d : SweepNo) (x : Descriptor) : (s.setSweep d x).audio = s.audio := rfl
@[simp] theorem State.setSweep_queue (d : SweepNo) (x : Descriptor) : (s.setSweep d x).queue = s.queue := rfl
@[simp] theorem State.setSweep_arrivals (d : SweepNo) (x : Descriptor) : (s.setSweep d x).arrivals = s.arrivals := rfl
@[simp] theorem State.setSweep_rotation (d : SweepNo) (x : Descriptor) : (s.setSweep d x).rotation = s.rotation := rfl
@[simp] theorem State.setSweep_grantCount (d : SweepNo) (x : Descriptor) : (s.setSweep d x).grantCount = s.grantCount := rfl
@[simp] theorem State.setSweep_stamps (d : SweepNo) (x : Descriptor) : (s.setSweep d x).stamps = s.stamps := rfl
@[simp] theorem State.setSweep_queuePeak (d : SweepNo) (x : Descriptor) : (s.setSweep d x).queuePeak = s.queuePeak := rfl
@[simp] theorem State.setSweep_preemptions (d : SweepNo) (x : Descriptor) : (s.setSweep d x).preemptions = s.preemptions := rfl
@[simp] theorem State.setSweep_heads (d : SweepNo) (x : Descriptor) : (s.setSweep d x).heads = s.heads := rfl
@[simp] theorem State.setSweep_headCounters (d : SweepNo) (x : Descriptor) : (s.setSweep d x).headCounters = s.headCounters := rfl
@[simp] theorem State.setSweep_headQueue (d : SweepNo) (x : Descriptor) : (s.setSweep d x).headQueue = s.headQueue := rfl
@[simp] theorem State.setSweep_assignDue (d : SweepNo) (x : Descriptor) : (s.setSweep d x).assignDue = s.assignDue := rfl
@[simp] theorem State.setSweep_programs (d : SweepNo) (x : Descriptor) : (s.setSweep d x).programs = s.programs := rfl
@[simp] theorem State.setSweep_classMap (d : SweepNo) (x : Descriptor) : (s.setSweep d x).classMap = s.classMap := rfl
@[simp] theorem State.setSweep_limits (d : SweepNo) (x : Descriptor) : (s.setSweep d x).limits = s.limits := rfl
@[simp] theorem State.setSweep_tickets (d : SweepNo) (x : Descriptor) : (s.setSweep d x).tickets = s.tickets := rfl
@[simp] theorem State.setSweep_numberCounter (d : SweepNo) (x : Descriptor) : (s.setSweep d x).numberCounter = s.numberCounter := rfl
@[simp] theorem State.setSweep_raiseCounter (d : SweepNo) (x : Descriptor) : (s.setSweep d x).raiseCounter = s.raiseCounter := rfl
@[simp] theorem State.setSweep_repairList (d : SweepNo) (x : Descriptor) : (s.setSweep d x).repairList = s.repairList := rfl
@[simp] theorem State.setSweep_inFlight (d : SweepNo) (x : Descriptor) : (s.setSweep d x).inFlight = s.inFlight := rfl
@[simp] theorem State.setSweep_ticketCounters (d : SweepNo) (x : Descriptor) : (s.setSweep d x).ticketCounters = s.ticketCounters := rfl
@[simp] theorem State.setSweep_cables (d : SweepNo) (x : Descriptor) : (s.setSweep d x).cables = s.cables := rfl
@[simp] theorem State.setSweep_self (d : SweepNo) (x : Descriptor) :
    (s.setSweep d x).sweeps[d] = x := by simp [State.setSweep]
theorem State.setSweep_other (d c : SweepNo) (x : Descriptor) (ne : d ≠ c) :
    (s.setSweep d x).sweeps[c] = s.sweeps[c] := by
  simp only [State.setSweep, Fin.getElem_fin]; exact Vector.getElem_set_ne _ _ (fun e => ne (Fin.ext e))
@[simp] theorem State.setSweep_assembler (d : SweepNo) (x : Descriptor) : (s.setSweep d x).assembler = s.assembler := rfl
@[simp] theorem State.setSweep_replies (d : SweepNo) (x : Descriptor) : (s.setSweep d x).replies = s.replies := rfl
@[simp] theorem State.setSweep_notices (d : SweepNo) (x : Descriptor) : (s.setSweep d x).notices = s.notices := rfl
@[simp] theorem State.setSweep_sending (d : SweepNo) (x : Descriptor) : (s.setSweep d x).sending = s.sending := rfl
@[simp] theorem State.setSweep_clock (d : SweepNo) (x : Descriptor) : (s.setSweep d x).clock = s.clock := rfl
@[simp] theorem State.setSweep_frameCount (d : SweepNo) (x : Descriptor) : (s.setSweep d x).frameCount = s.frameCount := rfl
@[simp] theorem State.setSweep_secondTaken (d : SweepNo) (x : Descriptor) : (s.setSweep d x).secondTaken = s.secondTaken := rfl
@[simp] theorem State.setSweep_site (d : SweepNo) (x : Descriptor) : (s.setSweep d x).site = s.site := rfl
@[simp] theorem State.setSweep_freeCount (d : SweepNo) (x : Descriptor) : (s.setSweep d x).freeCount = s.freeCount := rfl

/-! ### setTone -/

@[simp] theorem State.setTone_pending (k : ToneNo) (x : Tone) : (s.setTone k x).pending = s.pending := rfl
@[simp] theorem State.setTone_alignment (k : ToneNo) (x : Tone) : (s.setTone k x).alignment = s.alignment := rfl
@[simp] theorem State.setTone_highway (k : ToneNo) (x : Tone) : (s.setTone k x).highway = s.highway := rfl
@[simp] theorem State.setTone_store (k : ToneNo) (x : Tone) : (s.setTone k x).store = s.store := rfl
@[simp] theorem State.setTone_paths (k : ToneNo) (x : Tone) : (s.setTone k x).paths = s.paths := rfl
@[simp] theorem State.setTone_self (k : ToneNo) (x : Tone) :
    (s.setTone k x).tones[k] = x := by simp [State.setTone]
theorem State.setTone_other (k c : ToneNo) (x : Tone) (ne : k ≠ c) :
    (s.setTone k x).tones[c] = s.tones[c] := by
  simp only [State.setTone, Fin.getElem_fin]; exact Vector.getElem_set_ne _ _ (fun e => ne (Fin.ext e))
@[simp] theorem State.setTone_outFrame (k : ToneNo) (x : Tone) : (s.setTone k x).outFrame = s.outFrame := rfl
@[simp] theorem State.setTone_buses (k : ToneNo) (x : Tone) : (s.setTone k x).buses = s.buses := rfl
@[simp] theorem State.setTone_busCounters (k : ToneNo) (x : Tone) : (s.setTone k x).busCounters = s.busCounters := rfl
@[simp] theorem State.setTone_claims (k : ToneNo) (x : Tone) : (s.setTone k x).claims = s.claims := rfl
@[simp] theorem State.setTone_audio (k : ToneNo) (x : Tone) : (s.setTone k x).audio = s.audio := rfl
@[simp] theorem State.setTone_queue (k : ToneNo) (x : Tone) : (s.setTone k x).queue = s.queue := rfl
@[simp] theorem State.setTone_arrivals (k : ToneNo) (x : Tone) : (s.setTone k x).arrivals = s.arrivals := rfl
@[simp] theorem State.setTone_rotation (k : ToneNo) (x : Tone) : (s.setTone k x).rotation = s.rotation := rfl
@[simp] theorem State.setTone_grantCount (k : ToneNo) (x : Tone) : (s.setTone k x).grantCount = s.grantCount := rfl
@[simp] theorem State.setTone_stamps (k : ToneNo) (x : Tone) : (s.setTone k x).stamps = s.stamps := rfl
@[simp] theorem State.setTone_queuePeak (k : ToneNo) (x : Tone) : (s.setTone k x).queuePeak = s.queuePeak := rfl
@[simp] theorem State.setTone_preemptions (k : ToneNo) (x : Tone) : (s.setTone k x).preemptions = s.preemptions := rfl
@[simp] theorem State.setTone_heads (k : ToneNo) (x : Tone) : (s.setTone k x).heads = s.heads := rfl
@[simp] theorem State.setTone_headCounters (k : ToneNo) (x : Tone) : (s.setTone k x).headCounters = s.headCounters := rfl
@[simp] theorem State.setTone_headQueue (k : ToneNo) (x : Tone) : (s.setTone k x).headQueue = s.headQueue := rfl
@[simp] theorem State.setTone_assignDue (k : ToneNo) (x : Tone) : (s.setTone k x).assignDue = s.assignDue := rfl
@[simp] theorem State.setTone_programs (k : ToneNo) (x : Tone) : (s.setTone k x).programs = s.programs := rfl
@[simp] theorem State.setTone_classMap (k : ToneNo) (x : Tone) : (s.setTone k x).classMap = s.classMap := rfl
@[simp] theorem State.setTone_limits (k : ToneNo) (x : Tone) : (s.setTone k x).limits = s.limits := rfl
@[simp] theorem State.setTone_tickets (k : ToneNo) (x : Tone) : (s.setTone k x).tickets = s.tickets := rfl
@[simp] theorem State.setTone_numberCounter (k : ToneNo) (x : Tone) : (s.setTone k x).numberCounter = s.numberCounter := rfl
@[simp] theorem State.setTone_raiseCounter (k : ToneNo) (x : Tone) : (s.setTone k x).raiseCounter = s.raiseCounter := rfl
@[simp] theorem State.setTone_repairList (k : ToneNo) (x : Tone) : (s.setTone k x).repairList = s.repairList := rfl
@[simp] theorem State.setTone_inFlight (k : ToneNo) (x : Tone) : (s.setTone k x).inFlight = s.inFlight := rfl
@[simp] theorem State.setTone_ticketCounters (k : ToneNo) (x : Tone) : (s.setTone k x).ticketCounters = s.ticketCounters := rfl
@[simp] theorem State.setTone_cables (k : ToneNo) (x : Tone) : (s.setTone k x).cables = s.cables := rfl
@[simp] theorem State.setTone_sweeps (k : ToneNo) (x : Tone) : (s.setTone k x).sweeps = s.sweeps := rfl
@[simp] theorem State.setTone_assembler (k : ToneNo) (x : Tone) : (s.setTone k x).assembler = s.assembler := rfl
@[simp] theorem State.setTone_replies (k : ToneNo) (x : Tone) : (s.setTone k x).replies = s.replies := rfl
@[simp] theorem State.setTone_notices (k : ToneNo) (x : Tone) : (s.setTone k x).notices = s.notices := rfl
@[simp] theorem State.setTone_sending (k : ToneNo) (x : Tone) : (s.setTone k x).sending = s.sending := rfl
@[simp] theorem State.setTone_clock (k : ToneNo) (x : Tone) : (s.setTone k x).clock = s.clock := rfl
@[simp] theorem State.setTone_frameCount (k : ToneNo) (x : Tone) : (s.setTone k x).frameCount = s.frameCount := rfl
@[simp] theorem State.setTone_secondTaken (k : ToneNo) (x : Tone) : (s.setTone k x).secondTaken = s.secondTaken := rfl
@[simp] theorem State.setTone_site (k : ToneNo) (x : Tone) : (s.setTone k x).site = s.site := rfl
@[simp] theorem State.setTone_freeCount (k : ToneNo) (x : Tone) : (s.setTone k x).freeCount = s.freeCount := rfl

/-! ### setAudio -/

@[simp] theorem State.setAudio_pending (d : DeskNo) (x : Option BusNo) : (s.setAudio d x).pending = s.pending := rfl
@[simp] theorem State.setAudio_alignment (d : DeskNo) (x : Option BusNo) : (s.setAudio d x).alignment = s.alignment := rfl
@[simp] theorem State.setAudio_highway (d : DeskNo) (x : Option BusNo) : (s.setAudio d x).highway = s.highway := rfl
@[simp] theorem State.setAudio_store (d : DeskNo) (x : Option BusNo) : (s.setAudio d x).store = s.store := rfl
@[simp] theorem State.setAudio_paths (d : DeskNo) (x : Option BusNo) : (s.setAudio d x).paths = s.paths := rfl
@[simp] theorem State.setAudio_tones (d : DeskNo) (x : Option BusNo) : (s.setAudio d x).tones = s.tones := rfl
@[simp] theorem State.setAudio_outFrame (d : DeskNo) (x : Option BusNo) : (s.setAudio d x).outFrame = s.outFrame := rfl
@[simp] theorem State.setAudio_buses (d : DeskNo) (x : Option BusNo) : (s.setAudio d x).buses = s.buses := rfl
@[simp] theorem State.setAudio_busCounters (d : DeskNo) (x : Option BusNo) : (s.setAudio d x).busCounters = s.busCounters := rfl
@[simp] theorem State.setAudio_claims (d : DeskNo) (x : Option BusNo) : (s.setAudio d x).claims = s.claims := rfl
@[simp] theorem State.setAudio_self (d : DeskNo) (x : Option BusNo) :
    (s.setAudio d x).audio[d] = x := by simp [State.setAudio]
theorem State.setAudio_other (d c : DeskNo) (x : Option BusNo) (ne : d ≠ c) :
    (s.setAudio d x).audio[c] = s.audio[c] := by
  simp only [State.setAudio, Fin.getElem_fin]; exact Vector.getElem_set_ne _ _ (fun e => ne (Fin.ext e))
@[simp] theorem State.setAudio_queue (d : DeskNo) (x : Option BusNo) : (s.setAudio d x).queue = s.queue := rfl
@[simp] theorem State.setAudio_arrivals (d : DeskNo) (x : Option BusNo) : (s.setAudio d x).arrivals = s.arrivals := rfl
@[simp] theorem State.setAudio_rotation (d : DeskNo) (x : Option BusNo) : (s.setAudio d x).rotation = s.rotation := rfl
@[simp] theorem State.setAudio_grantCount (d : DeskNo) (x : Option BusNo) : (s.setAudio d x).grantCount = s.grantCount := rfl
@[simp] theorem State.setAudio_stamps (d : DeskNo) (x : Option BusNo) : (s.setAudio d x).stamps = s.stamps := rfl
@[simp] theorem State.setAudio_queuePeak (d : DeskNo) (x : Option BusNo) : (s.setAudio d x).queuePeak = s.queuePeak := rfl
@[simp] theorem State.setAudio_preemptions (d : DeskNo) (x : Option BusNo) : (s.setAudio d x).preemptions = s.preemptions := rfl
@[simp] theorem State.setAudio_heads (d : DeskNo) (x : Option BusNo) : (s.setAudio d x).heads = s.heads := rfl
@[simp] theorem State.setAudio_headCounters (d : DeskNo) (x : Option BusNo) : (s.setAudio d x).headCounters = s.headCounters := rfl
@[simp] theorem State.setAudio_headQueue (d : DeskNo) (x : Option BusNo) : (s.setAudio d x).headQueue = s.headQueue := rfl
@[simp] theorem State.setAudio_assignDue (d : DeskNo) (x : Option BusNo) : (s.setAudio d x).assignDue = s.assignDue := rfl
@[simp] theorem State.setAudio_programs (d : DeskNo) (x : Option BusNo) : (s.setAudio d x).programs = s.programs := rfl
@[simp] theorem State.setAudio_classMap (d : DeskNo) (x : Option BusNo) : (s.setAudio d x).classMap = s.classMap := rfl
@[simp] theorem State.setAudio_limits (d : DeskNo) (x : Option BusNo) : (s.setAudio d x).limits = s.limits := rfl
@[simp] theorem State.setAudio_tickets (d : DeskNo) (x : Option BusNo) : (s.setAudio d x).tickets = s.tickets := rfl
@[simp] theorem State.setAudio_numberCounter (d : DeskNo) (x : Option BusNo) : (s.setAudio d x).numberCounter = s.numberCounter := rfl
@[simp] theorem State.setAudio_raiseCounter (d : DeskNo) (x : Option BusNo) : (s.setAudio d x).raiseCounter = s.raiseCounter := rfl
@[simp] theorem State.setAudio_repairList (d : DeskNo) (x : Option BusNo) : (s.setAudio d x).repairList = s.repairList := rfl
@[simp] theorem State.setAudio_inFlight (d : DeskNo) (x : Option BusNo) : (s.setAudio d x).inFlight = s.inFlight := rfl
@[simp] theorem State.setAudio_ticketCounters (d : DeskNo) (x : Option BusNo) : (s.setAudio d x).ticketCounters = s.ticketCounters := rfl
@[simp] theorem State.setAudio_cables (d : DeskNo) (x : Option BusNo) : (s.setAudio d x).cables = s.cables := rfl
@[simp] theorem State.setAudio_sweeps (d : DeskNo) (x : Option BusNo) : (s.setAudio d x).sweeps = s.sweeps := rfl
@[simp] theorem State.setAudio_assembler (d : DeskNo) (x : Option BusNo) : (s.setAudio d x).assembler = s.assembler := rfl
@[simp] theorem State.setAudio_replies (d : DeskNo) (x : Option BusNo) : (s.setAudio d x).replies = s.replies := rfl
@[simp] theorem State.setAudio_notices (d : DeskNo) (x : Option BusNo) : (s.setAudio d x).notices = s.notices := rfl
@[simp] theorem State.setAudio_sending (d : DeskNo) (x : Option BusNo) : (s.setAudio d x).sending = s.sending := rfl
@[simp] theorem State.setAudio_clock (d : DeskNo) (x : Option BusNo) : (s.setAudio d x).clock = s.clock := rfl
@[simp] theorem State.setAudio_frameCount (d : DeskNo) (x : Option BusNo) : (s.setAudio d x).frameCount = s.frameCount := rfl
@[simp] theorem State.setAudio_secondTaken (d : DeskNo) (x : Option BusNo) : (s.setAudio d x).secondTaken = s.secondTaken := rfl
@[simp] theorem State.setAudio_site (d : DeskNo) (x : Option BusNo) : (s.setAudio d x).site = s.site := rfl
@[simp] theorem State.setAudio_freeCount (d : DeskNo) (x : Option BusNo) : (s.setAudio d x).freeCount = s.freeCount := rfl

/-! ### setPathEntry -/

@[simp] theorem State.setPathEntry_pending (i : Fin 30) (x : PathEntry) : (s.setPathEntry i x).pending = s.pending := rfl
@[simp] theorem State.setPathEntry_alignment (i : Fin 30) (x : PathEntry) : (s.setPathEntry i x).alignment = s.alignment := rfl
@[simp] theorem State.setPathEntry_highway (i : Fin 30) (x : PathEntry) : (s.setPathEntry i x).highway = s.highway := rfl
@[simp] theorem State.setPathEntry_store (i : Fin 30) (x : PathEntry) : (s.setPathEntry i x).store = s.store := rfl
@[simp] theorem State.setPathEntry_self (i : Fin 30) (x : PathEntry) :
    (s.setPathEntry i x).paths[i] = x := by simp [State.setPathEntry]
theorem State.setPathEntry_other (i c : Fin 30) (x : PathEntry) (ne : i ≠ c) :
    (s.setPathEntry i x).paths[c] = s.paths[c] := by
  simp only [State.setPathEntry, Fin.getElem_fin]; exact Vector.getElem_set_ne _ _ (fun e => ne (Fin.ext e))
@[simp] theorem State.setPathEntry_tones (i : Fin 30) (x : PathEntry) : (s.setPathEntry i x).tones = s.tones := rfl
@[simp] theorem State.setPathEntry_outFrame (i : Fin 30) (x : PathEntry) : (s.setPathEntry i x).outFrame = s.outFrame := rfl
@[simp] theorem State.setPathEntry_buses (i : Fin 30) (x : PathEntry) : (s.setPathEntry i x).buses = s.buses := rfl
@[simp] theorem State.setPathEntry_busCounters (i : Fin 30) (x : PathEntry) : (s.setPathEntry i x).busCounters = s.busCounters := rfl
@[simp] theorem State.setPathEntry_claims (i : Fin 30) (x : PathEntry) : (s.setPathEntry i x).claims = s.claims := rfl
@[simp] theorem State.setPathEntry_audio (i : Fin 30) (x : PathEntry) : (s.setPathEntry i x).audio = s.audio := rfl
@[simp] theorem State.setPathEntry_queue (i : Fin 30) (x : PathEntry) : (s.setPathEntry i x).queue = s.queue := rfl
@[simp] theorem State.setPathEntry_arrivals (i : Fin 30) (x : PathEntry) : (s.setPathEntry i x).arrivals = s.arrivals := rfl
@[simp] theorem State.setPathEntry_rotation (i : Fin 30) (x : PathEntry) : (s.setPathEntry i x).rotation = s.rotation := rfl
@[simp] theorem State.setPathEntry_grantCount (i : Fin 30) (x : PathEntry) : (s.setPathEntry i x).grantCount = s.grantCount := rfl
@[simp] theorem State.setPathEntry_stamps (i : Fin 30) (x : PathEntry) : (s.setPathEntry i x).stamps = s.stamps := rfl
@[simp] theorem State.setPathEntry_queuePeak (i : Fin 30) (x : PathEntry) : (s.setPathEntry i x).queuePeak = s.queuePeak := rfl
@[simp] theorem State.setPathEntry_preemptions (i : Fin 30) (x : PathEntry) : (s.setPathEntry i x).preemptions = s.preemptions := rfl
@[simp] theorem State.setPathEntry_heads (i : Fin 30) (x : PathEntry) : (s.setPathEntry i x).heads = s.heads := rfl
@[simp] theorem State.setPathEntry_headCounters (i : Fin 30) (x : PathEntry) : (s.setPathEntry i x).headCounters = s.headCounters := rfl
@[simp] theorem State.setPathEntry_headQueue (i : Fin 30) (x : PathEntry) : (s.setPathEntry i x).headQueue = s.headQueue := rfl
@[simp] theorem State.setPathEntry_assignDue (i : Fin 30) (x : PathEntry) : (s.setPathEntry i x).assignDue = s.assignDue := rfl
@[simp] theorem State.setPathEntry_programs (i : Fin 30) (x : PathEntry) : (s.setPathEntry i x).programs = s.programs := rfl
@[simp] theorem State.setPathEntry_classMap (i : Fin 30) (x : PathEntry) : (s.setPathEntry i x).classMap = s.classMap := rfl
@[simp] theorem State.setPathEntry_limits (i : Fin 30) (x : PathEntry) : (s.setPathEntry i x).limits = s.limits := rfl
@[simp] theorem State.setPathEntry_tickets (i : Fin 30) (x : PathEntry) : (s.setPathEntry i x).tickets = s.tickets := rfl
@[simp] theorem State.setPathEntry_numberCounter (i : Fin 30) (x : PathEntry) : (s.setPathEntry i x).numberCounter = s.numberCounter := rfl
@[simp] theorem State.setPathEntry_raiseCounter (i : Fin 30) (x : PathEntry) : (s.setPathEntry i x).raiseCounter = s.raiseCounter := rfl
@[simp] theorem State.setPathEntry_repairList (i : Fin 30) (x : PathEntry) : (s.setPathEntry i x).repairList = s.repairList := rfl
@[simp] theorem State.setPathEntry_inFlight (i : Fin 30) (x : PathEntry) : (s.setPathEntry i x).inFlight = s.inFlight := rfl
@[simp] theorem State.setPathEntry_ticketCounters (i : Fin 30) (x : PathEntry) : (s.setPathEntry i x).ticketCounters = s.ticketCounters := rfl
@[simp] theorem State.setPathEntry_cables (i : Fin 30) (x : PathEntry) : (s.setPathEntry i x).cables = s.cables := rfl
@[simp] theorem State.setPathEntry_sweeps (i : Fin 30) (x : PathEntry) : (s.setPathEntry i x).sweeps = s.sweeps := rfl
@[simp] theorem State.setPathEntry_assembler (i : Fin 30) (x : PathEntry) : (s.setPathEntry i x).assembler = s.assembler := rfl
@[simp] theorem State.setPathEntry_replies (i : Fin 30) (x : PathEntry) : (s.setPathEntry i x).replies = s.replies := rfl
@[simp] theorem State.setPathEntry_notices (i : Fin 30) (x : PathEntry) : (s.setPathEntry i x).notices = s.notices := rfl
@[simp] theorem State.setPathEntry_sending (i : Fin 30) (x : PathEntry) : (s.setPathEntry i x).sending = s.sending := rfl
@[simp] theorem State.setPathEntry_clock (i : Fin 30) (x : PathEntry) : (s.setPathEntry i x).clock = s.clock := rfl
@[simp] theorem State.setPathEntry_frameCount (i : Fin 30) (x : PathEntry) : (s.setPathEntry i x).frameCount = s.frameCount := rfl
@[simp] theorem State.setPathEntry_secondTaken (i : Fin 30) (x : PathEntry) : (s.setPathEntry i x).secondTaken = s.secondTaken := rfl
@[simp] theorem State.setPathEntry_site (i : Fin 30) (x : PathEntry) : (s.setPathEntry i x).site = s.site := rfl
@[simp] theorem State.setPathEntry_freeCount (i : Fin 30) (x : PathEntry) : (s.setPathEntry i x).freeCount = s.freeCount := rfl

/-! ### setTickets -/

@[simp] theorem State.setTickets_pending (x : List Ticket) : (s.setTickets x).pending = s.pending := rfl
@[simp] theorem State.setTickets_alignment (x : List Ticket) : (s.setTickets x).alignment = s.alignment := rfl
@[simp] theorem State.setTickets_highway (x : List Ticket) : (s.setTickets x).highway = s.highway := rfl
@[simp] theorem State.setTickets_store (x : List Ticket) : (s.setTickets x).store = s.store := rfl
@[simp] theorem State.setTickets_paths (x : List Ticket) : (s.setTickets x).paths = s.paths := rfl
@[simp] theorem State.setTickets_tones (x : List Ticket) : (s.setTickets x).tones = s.tones := rfl
@[simp] theorem State.setTickets_outFrame (x : List Ticket) : (s.setTickets x).outFrame = s.outFrame := rfl
@[simp] theorem State.setTickets_buses (x : List Ticket) : (s.setTickets x).buses = s.buses := rfl
@[simp] theorem State.setTickets_busCounters (x : List Ticket) : (s.setTickets x).busCounters = s.busCounters := rfl
@[simp] theorem State.setTickets_claims (x : List Ticket) : (s.setTickets x).claims = s.claims := rfl
@[simp] theorem State.setTickets_audio (x : List Ticket) : (s.setTickets x).audio = s.audio := rfl
@[simp] theorem State.setTickets_queue (x : List Ticket) : (s.setTickets x).queue = s.queue := rfl
@[simp] theorem State.setTickets_arrivals (x : List Ticket) : (s.setTickets x).arrivals = s.arrivals := rfl
@[simp] theorem State.setTickets_rotation (x : List Ticket) : (s.setTickets x).rotation = s.rotation := rfl
@[simp] theorem State.setTickets_grantCount (x : List Ticket) : (s.setTickets x).grantCount = s.grantCount := rfl
@[simp] theorem State.setTickets_stamps (x : List Ticket) : (s.setTickets x).stamps = s.stamps := rfl
@[simp] theorem State.setTickets_queuePeak (x : List Ticket) : (s.setTickets x).queuePeak = s.queuePeak := rfl
@[simp] theorem State.setTickets_preemptions (x : List Ticket) : (s.setTickets x).preemptions = s.preemptions := rfl
@[simp] theorem State.setTickets_heads (x : List Ticket) : (s.setTickets x).heads = s.heads := rfl
@[simp] theorem State.setTickets_headCounters (x : List Ticket) : (s.setTickets x).headCounters = s.headCounters := rfl
@[simp] theorem State.setTickets_headQueue (x : List Ticket) : (s.setTickets x).headQueue = s.headQueue := rfl
@[simp] theorem State.setTickets_assignDue (x : List Ticket) : (s.setTickets x).assignDue = s.assignDue := rfl
@[simp] theorem State.setTickets_programs (x : List Ticket) : (s.setTickets x).programs = s.programs := rfl
@[simp] theorem State.setTickets_classMap (x : List Ticket) : (s.setTickets x).classMap = s.classMap := rfl
@[simp] theorem State.setTickets_limits (x : List Ticket) : (s.setTickets x).limits = s.limits := rfl
@[simp] theorem State.setTickets_tickets (x : List Ticket) : (s.setTickets x).tickets = x := rfl
@[simp] theorem State.setTickets_numberCounter (x : List Ticket) : (s.setTickets x).numberCounter = s.numberCounter := rfl
@[simp] theorem State.setTickets_raiseCounter (x : List Ticket) : (s.setTickets x).raiseCounter = s.raiseCounter := rfl
@[simp] theorem State.setTickets_repairList (x : List Ticket) : (s.setTickets x).repairList = s.repairList := rfl
@[simp] theorem State.setTickets_inFlight (x : List Ticket) : (s.setTickets x).inFlight = s.inFlight := rfl
@[simp] theorem State.setTickets_ticketCounters (x : List Ticket) : (s.setTickets x).ticketCounters = s.ticketCounters := rfl
@[simp] theorem State.setTickets_cables (x : List Ticket) : (s.setTickets x).cables = s.cables := rfl
@[simp] theorem State.setTickets_sweeps (x : List Ticket) : (s.setTickets x).sweeps = s.sweeps := rfl
@[simp] theorem State.setTickets_assembler (x : List Ticket) : (s.setTickets x).assembler = s.assembler := rfl
@[simp] theorem State.setTickets_replies (x : List Ticket) : (s.setTickets x).replies = s.replies := rfl
@[simp] theorem State.setTickets_notices (x : List Ticket) : (s.setTickets x).notices = s.notices := rfl
@[simp] theorem State.setTickets_sending (x : List Ticket) : (s.setTickets x).sending = s.sending := rfl
@[simp] theorem State.setTickets_clock (x : List Ticket) : (s.setTickets x).clock = s.clock := rfl
@[simp] theorem State.setTickets_frameCount (x : List Ticket) : (s.setTickets x).frameCount = s.frameCount := rfl
@[simp] theorem State.setTickets_secondTaken (x : List Ticket) : (s.setTickets x).secondTaken = s.secondTaken := rfl
@[simp] theorem State.setTickets_site (x : List Ticket) : (s.setTickets x).site = s.site := rfl
@[simp] theorem State.setTickets_freeCount (x : List Ticket) : (s.setTickets x).freeCount = s.freeCount := rfl

/-! ### setTicketCounters -/

@[simp] theorem State.setTicketCounters_pending (x : TicketCounters) : (s.setTicketCounters x).pending = s.pending := rfl
@[simp] theorem State.setTicketCounters_alignment (x : TicketCounters) : (s.setTicketCounters x).alignment = s.alignment := rfl
@[simp] theorem State.setTicketCounters_highway (x : TicketCounters) : (s.setTicketCounters x).highway = s.highway := rfl
@[simp] theorem State.setTicketCounters_store (x : TicketCounters) : (s.setTicketCounters x).store = s.store := rfl
@[simp] theorem State.setTicketCounters_paths (x : TicketCounters) : (s.setTicketCounters x).paths = s.paths := rfl
@[simp] theorem State.setTicketCounters_tones (x : TicketCounters) : (s.setTicketCounters x).tones = s.tones := rfl
@[simp] theorem State.setTicketCounters_outFrame (x : TicketCounters) : (s.setTicketCounters x).outFrame = s.outFrame := rfl
@[simp] theorem State.setTicketCounters_buses (x : TicketCounters) : (s.setTicketCounters x).buses = s.buses := rfl
@[simp] theorem State.setTicketCounters_busCounters (x : TicketCounters) : (s.setTicketCounters x).busCounters = s.busCounters := rfl
@[simp] theorem State.setTicketCounters_claims (x : TicketCounters) : (s.setTicketCounters x).claims = s.claims := rfl
@[simp] theorem State.setTicketCounters_audio (x : TicketCounters) : (s.setTicketCounters x).audio = s.audio := rfl
@[simp] theorem State.setTicketCounters_queue (x : TicketCounters) : (s.setTicketCounters x).queue = s.queue := rfl
@[simp] theorem State.setTicketCounters_arrivals (x : TicketCounters) : (s.setTicketCounters x).arrivals = s.arrivals := rfl
@[simp] theorem State.setTicketCounters_rotation (x : TicketCounters) : (s.setTicketCounters x).rotation = s.rotation := rfl
@[simp] theorem State.setTicketCounters_grantCount (x : TicketCounters) : (s.setTicketCounters x).grantCount = s.grantCount := rfl
@[simp] theorem State.setTicketCounters_stamps (x : TicketCounters) : (s.setTicketCounters x).stamps = s.stamps := rfl
@[simp] theorem State.setTicketCounters_queuePeak (x : TicketCounters) : (s.setTicketCounters x).queuePeak = s.queuePeak := rfl
@[simp] theorem State.setTicketCounters_preemptions (x : TicketCounters) : (s.setTicketCounters x).preemptions = s.preemptions := rfl
@[simp] theorem State.setTicketCounters_heads (x : TicketCounters) : (s.setTicketCounters x).heads = s.heads := rfl
@[simp] theorem State.setTicketCounters_headCounters (x : TicketCounters) : (s.setTicketCounters x).headCounters = s.headCounters := rfl
@[simp] theorem State.setTicketCounters_headQueue (x : TicketCounters) : (s.setTicketCounters x).headQueue = s.headQueue := rfl
@[simp] theorem State.setTicketCounters_assignDue (x : TicketCounters) : (s.setTicketCounters x).assignDue = s.assignDue := rfl
@[simp] theorem State.setTicketCounters_programs (x : TicketCounters) : (s.setTicketCounters x).programs = s.programs := rfl
@[simp] theorem State.setTicketCounters_classMap (x : TicketCounters) : (s.setTicketCounters x).classMap = s.classMap := rfl
@[simp] theorem State.setTicketCounters_limits (x : TicketCounters) : (s.setTicketCounters x).limits = s.limits := rfl
@[simp] theorem State.setTicketCounters_tickets (x : TicketCounters) : (s.setTicketCounters x).tickets = s.tickets := rfl
@[simp] theorem State.setTicketCounters_numberCounter (x : TicketCounters) : (s.setTicketCounters x).numberCounter = s.numberCounter := rfl
@[simp] theorem State.setTicketCounters_raiseCounter (x : TicketCounters) : (s.setTicketCounters x).raiseCounter = s.raiseCounter := rfl
@[simp] theorem State.setTicketCounters_repairList (x : TicketCounters) : (s.setTicketCounters x).repairList = s.repairList := rfl
@[simp] theorem State.setTicketCounters_inFlight (x : TicketCounters) : (s.setTicketCounters x).inFlight = s.inFlight := rfl
@[simp] theorem State.setTicketCounters_ticketCounters (x : TicketCounters) : (s.setTicketCounters x).ticketCounters = x := rfl
@[simp] theorem State.setTicketCounters_cables (x : TicketCounters) : (s.setTicketCounters x).cables = s.cables := rfl
@[simp] theorem State.setTicketCounters_sweeps (x : TicketCounters) : (s.setTicketCounters x).sweeps = s.sweeps := rfl
@[simp] theorem State.setTicketCounters_assembler (x : TicketCounters) : (s.setTicketCounters x).assembler = s.assembler := rfl
@[simp] theorem State.setTicketCounters_replies (x : TicketCounters) : (s.setTicketCounters x).replies = s.replies := rfl
@[simp] theorem State.setTicketCounters_notices (x : TicketCounters) : (s.setTicketCounters x).notices = s.notices := rfl
@[simp] theorem State.setTicketCounters_sending (x : TicketCounters) : (s.setTicketCounters x).sending = s.sending := rfl
@[simp] theorem State.setTicketCounters_clock (x : TicketCounters) : (s.setTicketCounters x).clock = s.clock := rfl
@[simp] theorem State.setTicketCounters_frameCount (x : TicketCounters) : (s.setTicketCounters x).frameCount = s.frameCount := rfl
@[simp] theorem State.setTicketCounters_secondTaken (x : TicketCounters) : (s.setTicketCounters x).secondTaken = s.secondTaken := rfl
@[simp] theorem State.setTicketCounters_site (x : TicketCounters) : (s.setTicketCounters x).site = s.site := rfl
@[simp] theorem State.setTicketCounters_freeCount (x : TicketCounters) : (s.setTicketCounters x).freeCount = s.freeCount := rfl

/-! ### setHighway -/

@[simp] theorem State.setHighway_pending (x : HighwayCounters) : (s.setHighway x).pending = s.pending := rfl
@[simp] theorem State.setHighway_alignment (x : HighwayCounters) : (s.setHighway x).alignment = s.alignment := rfl
@[simp] theorem State.setHighway_highway (x : HighwayCounters) : (s.setHighway x).highway = x := rfl
@[simp] theorem State.setHighway_store (x : HighwayCounters) : (s.setHighway x).store = s.store := rfl
@[simp] theorem State.setHighway_paths (x : HighwayCounters) : (s.setHighway x).paths = s.paths := rfl
@[simp] theorem State.setHighway_tones (x : HighwayCounters) : (s.setHighway x).tones = s.tones := rfl
@[simp] theorem State.setHighway_outFrame (x : HighwayCounters) : (s.setHighway x).outFrame = s.outFrame := rfl
@[simp] theorem State.setHighway_buses (x : HighwayCounters) : (s.setHighway x).buses = s.buses := rfl
@[simp] theorem State.setHighway_busCounters (x : HighwayCounters) : (s.setHighway x).busCounters = s.busCounters := rfl
@[simp] theorem State.setHighway_claims (x : HighwayCounters) : (s.setHighway x).claims = s.claims := rfl
@[simp] theorem State.setHighway_audio (x : HighwayCounters) : (s.setHighway x).audio = s.audio := rfl
@[simp] theorem State.setHighway_queue (x : HighwayCounters) : (s.setHighway x).queue = s.queue := rfl
@[simp] theorem State.setHighway_arrivals (x : HighwayCounters) : (s.setHighway x).arrivals = s.arrivals := rfl
@[simp] theorem State.setHighway_rotation (x : HighwayCounters) : (s.setHighway x).rotation = s.rotation := rfl
@[simp] theorem State.setHighway_grantCount (x : HighwayCounters) : (s.setHighway x).grantCount = s.grantCount := rfl
@[simp] theorem State.setHighway_stamps (x : HighwayCounters) : (s.setHighway x).stamps = s.stamps := rfl
@[simp] theorem State.setHighway_queuePeak (x : HighwayCounters) : (s.setHighway x).queuePeak = s.queuePeak := rfl
@[simp] theorem State.setHighway_preemptions (x : HighwayCounters) : (s.setHighway x).preemptions = s.preemptions := rfl
@[simp] theorem State.setHighway_heads (x : HighwayCounters) : (s.setHighway x).heads = s.heads := rfl
@[simp] theorem State.setHighway_headCounters (x : HighwayCounters) : (s.setHighway x).headCounters = s.headCounters := rfl
@[simp] theorem State.setHighway_headQueue (x : HighwayCounters) : (s.setHighway x).headQueue = s.headQueue := rfl
@[simp] theorem State.setHighway_assignDue (x : HighwayCounters) : (s.setHighway x).assignDue = s.assignDue := rfl
@[simp] theorem State.setHighway_programs (x : HighwayCounters) : (s.setHighway x).programs = s.programs := rfl
@[simp] theorem State.setHighway_classMap (x : HighwayCounters) : (s.setHighway x).classMap = s.classMap := rfl
@[simp] theorem State.setHighway_limits (x : HighwayCounters) : (s.setHighway x).limits = s.limits := rfl
@[simp] theorem State.setHighway_tickets (x : HighwayCounters) : (s.setHighway x).tickets = s.tickets := rfl
@[simp] theorem State.setHighway_numberCounter (x : HighwayCounters) : (s.setHighway x).numberCounter = s.numberCounter := rfl
@[simp] theorem State.setHighway_raiseCounter (x : HighwayCounters) : (s.setHighway x).raiseCounter = s.raiseCounter := rfl
@[simp] theorem State.setHighway_repairList (x : HighwayCounters) : (s.setHighway x).repairList = s.repairList := rfl
@[simp] theorem State.setHighway_inFlight (x : HighwayCounters) : (s.setHighway x).inFlight = s.inFlight := rfl
@[simp] theorem State.setHighway_ticketCounters (x : HighwayCounters) : (s.setHighway x).ticketCounters = s.ticketCounters := rfl
@[simp] theorem State.setHighway_cables (x : HighwayCounters) : (s.setHighway x).cables = s.cables := rfl
@[simp] theorem State.setHighway_sweeps (x : HighwayCounters) : (s.setHighway x).sweeps = s.sweeps := rfl
@[simp] theorem State.setHighway_assembler (x : HighwayCounters) : (s.setHighway x).assembler = s.assembler := rfl
@[simp] theorem State.setHighway_replies (x : HighwayCounters) : (s.setHighway x).replies = s.replies := rfl
@[simp] theorem State.setHighway_notices (x : HighwayCounters) : (s.setHighway x).notices = s.notices := rfl
@[simp] theorem State.setHighway_sending (x : HighwayCounters) : (s.setHighway x).sending = s.sending := rfl
@[simp] theorem State.setHighway_clock (x : HighwayCounters) : (s.setHighway x).clock = s.clock := rfl
@[simp] theorem State.setHighway_frameCount (x : HighwayCounters) : (s.setHighway x).frameCount = s.frameCount := rfl
@[simp] theorem State.setHighway_secondTaken (x : HighwayCounters) : (s.setHighway x).secondTaken = s.secondTaken := rfl
@[simp] theorem State.setHighway_site (x : HighwayCounters) : (s.setHighway x).site = s.site := rfl
@[simp] theorem State.setHighway_freeCount (x : HighwayCounters) : (s.setHighway x).freeCount = s.freeCount := rfl

/-! ### setQueue -/

@[simp] theorem State.setQueue_pending (x : List WaitEntry) : (s.setQueue x).pending = s.pending := rfl
@[simp] theorem State.setQueue_alignment (x : List WaitEntry) : (s.setQueue x).alignment = s.alignment := rfl
@[simp] theorem State.setQueue_highway (x : List WaitEntry) : (s.setQueue x).highway = s.highway := rfl
@[simp] theorem State.setQueue_store (x : List WaitEntry) : (s.setQueue x).store = s.store := rfl
@[simp] theorem State.setQueue_paths (x : List WaitEntry) : (s.setQueue x).paths = s.paths := rfl
@[simp] theorem State.setQueue_tones (x : List WaitEntry) : (s.setQueue x).tones = s.tones := rfl
@[simp] theorem State.setQueue_outFrame (x : List WaitEntry) : (s.setQueue x).outFrame = s.outFrame := rfl
@[simp] theorem State.setQueue_buses (x : List WaitEntry) : (s.setQueue x).buses = s.buses := rfl
@[simp] theorem State.setQueue_busCounters (x : List WaitEntry) : (s.setQueue x).busCounters = s.busCounters := rfl
@[simp] theorem State.setQueue_claims (x : List WaitEntry) : (s.setQueue x).claims = s.claims := rfl
@[simp] theorem State.setQueue_audio (x : List WaitEntry) : (s.setQueue x).audio = s.audio := rfl
@[simp] theorem State.setQueue_queue (x : List WaitEntry) : (s.setQueue x).queue = x := rfl
@[simp] theorem State.setQueue_arrivals (x : List WaitEntry) : (s.setQueue x).arrivals = s.arrivals := rfl
@[simp] theorem State.setQueue_rotation (x : List WaitEntry) : (s.setQueue x).rotation = s.rotation := rfl
@[simp] theorem State.setQueue_grantCount (x : List WaitEntry) : (s.setQueue x).grantCount = s.grantCount := rfl
@[simp] theorem State.setQueue_stamps (x : List WaitEntry) : (s.setQueue x).stamps = s.stamps := rfl
@[simp] theorem State.setQueue_queuePeak (x : List WaitEntry) : (s.setQueue x).queuePeak = s.queuePeak := rfl
@[simp] theorem State.setQueue_preemptions (x : List WaitEntry) : (s.setQueue x).preemptions = s.preemptions := rfl
@[simp] theorem State.setQueue_heads (x : List WaitEntry) : (s.setQueue x).heads = s.heads := rfl
@[simp] theorem State.setQueue_headCounters (x : List WaitEntry) : (s.setQueue x).headCounters = s.headCounters := rfl
@[simp] theorem State.setQueue_headQueue (x : List WaitEntry) : (s.setQueue x).headQueue = s.headQueue := rfl
@[simp] theorem State.setQueue_assignDue (x : List WaitEntry) : (s.setQueue x).assignDue = s.assignDue := rfl
@[simp] theorem State.setQueue_programs (x : List WaitEntry) : (s.setQueue x).programs = s.programs := rfl
@[simp] theorem State.setQueue_classMap (x : List WaitEntry) : (s.setQueue x).classMap = s.classMap := rfl
@[simp] theorem State.setQueue_limits (x : List WaitEntry) : (s.setQueue x).limits = s.limits := rfl
@[simp] theorem State.setQueue_tickets (x : List WaitEntry) : (s.setQueue x).tickets = s.tickets := rfl
@[simp] theorem State.setQueue_numberCounter (x : List WaitEntry) : (s.setQueue x).numberCounter = s.numberCounter := rfl
@[simp] theorem State.setQueue_raiseCounter (x : List WaitEntry) : (s.setQueue x).raiseCounter = s.raiseCounter := rfl
@[simp] theorem State.setQueue_repairList (x : List WaitEntry) : (s.setQueue x).repairList = s.repairList := rfl
@[simp] theorem State.setQueue_inFlight (x : List WaitEntry) : (s.setQueue x).inFlight = s.inFlight := rfl
@[simp] theorem State.setQueue_ticketCounters (x : List WaitEntry) : (s.setQueue x).ticketCounters = s.ticketCounters := rfl
@[simp] theorem State.setQueue_cables (x : List WaitEntry) : (s.setQueue x).cables = s.cables := rfl
@[simp] theorem State.setQueue_sweeps (x : List WaitEntry) : (s.setQueue x).sweeps = s.sweeps := rfl
@[simp] theorem State.setQueue_assembler (x : List WaitEntry) : (s.setQueue x).assembler = s.assembler := rfl
@[simp] theorem State.setQueue_replies (x : List WaitEntry) : (s.setQueue x).replies = s.replies := rfl
@[simp] theorem State.setQueue_notices (x : List WaitEntry) : (s.setQueue x).notices = s.notices := rfl
@[simp] theorem State.setQueue_sending (x : List WaitEntry) : (s.setQueue x).sending = s.sending := rfl
@[simp] theorem State.setQueue_clock (x : List WaitEntry) : (s.setQueue x).clock = s.clock := rfl
@[simp] theorem State.setQueue_frameCount (x : List WaitEntry) : (s.setQueue x).frameCount = s.frameCount := rfl
@[simp] theorem State.setQueue_secondTaken (x : List WaitEntry) : (s.setQueue x).secondTaken = s.secondTaken := rfl
@[simp] theorem State.setQueue_site (x : List WaitEntry) : (s.setQueue x).site = s.site := rfl
@[simp] theorem State.setQueue_freeCount (x : List WaitEntry) : (s.setQueue x).freeCount = s.freeCount := rfl

/-! ### setHeadQueue -/

@[simp] theorem State.setHeadQueue_pending (x : List HeadWait) : (s.setHeadQueue x).pending = s.pending := rfl
@[simp] theorem State.setHeadQueue_alignment (x : List HeadWait) : (s.setHeadQueue x).alignment = s.alignment := rfl
@[simp] theorem State.setHeadQueue_highway (x : List HeadWait) : (s.setHeadQueue x).highway = s.highway := rfl
@[simp] theorem State.setHeadQueue_store (x : List HeadWait) : (s.setHeadQueue x).store = s.store := rfl
@[simp] theorem State.setHeadQueue_paths (x : List HeadWait) : (s.setHeadQueue x).paths = s.paths := rfl
@[simp] theorem State.setHeadQueue_tones (x : List HeadWait) : (s.setHeadQueue x).tones = s.tones := rfl
@[simp] theorem State.setHeadQueue_outFrame (x : List HeadWait) : (s.setHeadQueue x).outFrame = s.outFrame := rfl
@[simp] theorem State.setHeadQueue_buses (x : List HeadWait) : (s.setHeadQueue x).buses = s.buses := rfl
@[simp] theorem State.setHeadQueue_busCounters (x : List HeadWait) : (s.setHeadQueue x).busCounters = s.busCounters := rfl
@[simp] theorem State.setHeadQueue_claims (x : List HeadWait) : (s.setHeadQueue x).claims = s.claims := rfl
@[simp] theorem State.setHeadQueue_audio (x : List HeadWait) : (s.setHeadQueue x).audio = s.audio := rfl
@[simp] theorem State.setHeadQueue_queue (x : List HeadWait) : (s.setHeadQueue x).queue = s.queue := rfl
@[simp] theorem State.setHeadQueue_arrivals (x : List HeadWait) : (s.setHeadQueue x).arrivals = s.arrivals := rfl
@[simp] theorem State.setHeadQueue_rotation (x : List HeadWait) : (s.setHeadQueue x).rotation = s.rotation := rfl
@[simp] theorem State.setHeadQueue_grantCount (x : List HeadWait) : (s.setHeadQueue x).grantCount = s.grantCount := rfl
@[simp] theorem State.setHeadQueue_stamps (x : List HeadWait) : (s.setHeadQueue x).stamps = s.stamps := rfl
@[simp] theorem State.setHeadQueue_queuePeak (x : List HeadWait) : (s.setHeadQueue x).queuePeak = s.queuePeak := rfl
@[simp] theorem State.setHeadQueue_preemptions (x : List HeadWait) : (s.setHeadQueue x).preemptions = s.preemptions := rfl
@[simp] theorem State.setHeadQueue_heads (x : List HeadWait) : (s.setHeadQueue x).heads = s.heads := rfl
@[simp] theorem State.setHeadQueue_headCounters (x : List HeadWait) : (s.setHeadQueue x).headCounters = s.headCounters := rfl
@[simp] theorem State.setHeadQueue_headQueue (x : List HeadWait) : (s.setHeadQueue x).headQueue = x := rfl
@[simp] theorem State.setHeadQueue_assignDue (x : List HeadWait) : (s.setHeadQueue x).assignDue = s.assignDue := rfl
@[simp] theorem State.setHeadQueue_programs (x : List HeadWait) : (s.setHeadQueue x).programs = s.programs := rfl
@[simp] theorem State.setHeadQueue_classMap (x : List HeadWait) : (s.setHeadQueue x).classMap = s.classMap := rfl
@[simp] theorem State.setHeadQueue_limits (x : List HeadWait) : (s.setHeadQueue x).limits = s.limits := rfl
@[simp] theorem State.setHeadQueue_tickets (x : List HeadWait) : (s.setHeadQueue x).tickets = s.tickets := rfl
@[simp] theorem State.setHeadQueue_numberCounter (x : List HeadWait) : (s.setHeadQueue x).numberCounter = s.numberCounter := rfl
@[simp] theorem State.setHeadQueue_raiseCounter (x : List HeadWait) : (s.setHeadQueue x).raiseCounter = s.raiseCounter := rfl
@[simp] theorem State.setHeadQueue_repairList (x : List HeadWait) : (s.setHeadQueue x).repairList = s.repairList := rfl
@[simp] theorem State.setHeadQueue_inFlight (x : List HeadWait) : (s.setHeadQueue x).inFlight = s.inFlight := rfl
@[simp] theorem State.setHeadQueue_ticketCounters (x : List HeadWait) : (s.setHeadQueue x).ticketCounters = s.ticketCounters := rfl
@[simp] theorem State.setHeadQueue_cables (x : List HeadWait) : (s.setHeadQueue x).cables = s.cables := rfl
@[simp] theorem State.setHeadQueue_sweeps (x : List HeadWait) : (s.setHeadQueue x).sweeps = s.sweeps := rfl
@[simp] theorem State.setHeadQueue_assembler (x : List HeadWait) : (s.setHeadQueue x).assembler = s.assembler := rfl
@[simp] theorem State.setHeadQueue_replies (x : List HeadWait) : (s.setHeadQueue x).replies = s.replies := rfl
@[simp] theorem State.setHeadQueue_notices (x : List HeadWait) : (s.setHeadQueue x).notices = s.notices := rfl
@[simp] theorem State.setHeadQueue_sending (x : List HeadWait) : (s.setHeadQueue x).sending = s.sending := rfl
@[simp] theorem State.setHeadQueue_clock (x : List HeadWait) : (s.setHeadQueue x).clock = s.clock := rfl
@[simp] theorem State.setHeadQueue_frameCount (x : List HeadWait) : (s.setHeadQueue x).frameCount = s.frameCount := rfl
@[simp] theorem State.setHeadQueue_secondTaken (x : List HeadWait) : (s.setHeadQueue x).secondTaken = s.secondTaken := rfl
@[simp] theorem State.setHeadQueue_site (x : List HeadWait) : (s.setHeadQueue x).site = s.site := rfl
@[simp] theorem State.setHeadQueue_freeCount (x : List HeadWait) : (s.setHeadQueue x).freeCount = s.freeCount := rfl

/-! ### setClaims -/

@[simp] theorem State.setClaims_pending (x : List (Nat × BusNo)) : (s.setClaims x).pending = s.pending := rfl
@[simp] theorem State.setClaims_alignment (x : List (Nat × BusNo)) : (s.setClaims x).alignment = s.alignment := rfl
@[simp] theorem State.setClaims_highway (x : List (Nat × BusNo)) : (s.setClaims x).highway = s.highway := rfl
@[simp] theorem State.setClaims_store (x : List (Nat × BusNo)) : (s.setClaims x).store = s.store := rfl
@[simp] theorem State.setClaims_paths (x : List (Nat × BusNo)) : (s.setClaims x).paths = s.paths := rfl
@[simp] theorem State.setClaims_tones (x : List (Nat × BusNo)) : (s.setClaims x).tones = s.tones := rfl
@[simp] theorem State.setClaims_outFrame (x : List (Nat × BusNo)) : (s.setClaims x).outFrame = s.outFrame := rfl
@[simp] theorem State.setClaims_buses (x : List (Nat × BusNo)) : (s.setClaims x).buses = s.buses := rfl
@[simp] theorem State.setClaims_busCounters (x : List (Nat × BusNo)) : (s.setClaims x).busCounters = s.busCounters := rfl
@[simp] theorem State.setClaims_claims (x : List (Nat × BusNo)) : (s.setClaims x).claims = x := rfl
@[simp] theorem State.setClaims_audio (x : List (Nat × BusNo)) : (s.setClaims x).audio = s.audio := rfl
@[simp] theorem State.setClaims_queue (x : List (Nat × BusNo)) : (s.setClaims x).queue = s.queue := rfl
@[simp] theorem State.setClaims_arrivals (x : List (Nat × BusNo)) : (s.setClaims x).arrivals = s.arrivals := rfl
@[simp] theorem State.setClaims_rotation (x : List (Nat × BusNo)) : (s.setClaims x).rotation = s.rotation := rfl
@[simp] theorem State.setClaims_grantCount (x : List (Nat × BusNo)) : (s.setClaims x).grantCount = s.grantCount := rfl
@[simp] theorem State.setClaims_stamps (x : List (Nat × BusNo)) : (s.setClaims x).stamps = s.stamps := rfl
@[simp] theorem State.setClaims_queuePeak (x : List (Nat × BusNo)) : (s.setClaims x).queuePeak = s.queuePeak := rfl
@[simp] theorem State.setClaims_preemptions (x : List (Nat × BusNo)) : (s.setClaims x).preemptions = s.preemptions := rfl
@[simp] theorem State.setClaims_heads (x : List (Nat × BusNo)) : (s.setClaims x).heads = s.heads := rfl
@[simp] theorem State.setClaims_headCounters (x : List (Nat × BusNo)) : (s.setClaims x).headCounters = s.headCounters := rfl
@[simp] theorem State.setClaims_headQueue (x : List (Nat × BusNo)) : (s.setClaims x).headQueue = s.headQueue := rfl
@[simp] theorem State.setClaims_assignDue (x : List (Nat × BusNo)) : (s.setClaims x).assignDue = s.assignDue := rfl
@[simp] theorem State.setClaims_programs (x : List (Nat × BusNo)) : (s.setClaims x).programs = s.programs := rfl
@[simp] theorem State.setClaims_classMap (x : List (Nat × BusNo)) : (s.setClaims x).classMap = s.classMap := rfl
@[simp] theorem State.setClaims_limits (x : List (Nat × BusNo)) : (s.setClaims x).limits = s.limits := rfl
@[simp] theorem State.setClaims_tickets (x : List (Nat × BusNo)) : (s.setClaims x).tickets = s.tickets := rfl
@[simp] theorem State.setClaims_numberCounter (x : List (Nat × BusNo)) : (s.setClaims x).numberCounter = s.numberCounter := rfl
@[simp] theorem State.setClaims_raiseCounter (x : List (Nat × BusNo)) : (s.setClaims x).raiseCounter = s.raiseCounter := rfl
@[simp] theorem State.setClaims_repairList (x : List (Nat × BusNo)) : (s.setClaims x).repairList = s.repairList := rfl
@[simp] theorem State.setClaims_inFlight (x : List (Nat × BusNo)) : (s.setClaims x).inFlight = s.inFlight := rfl
@[simp] theorem State.setClaims_ticketCounters (x : List (Nat × BusNo)) : (s.setClaims x).ticketCounters = s.ticketCounters := rfl
@[simp] theorem State.setClaims_cables (x : List (Nat × BusNo)) : (s.setClaims x).cables = s.cables := rfl
@[simp] theorem State.setClaims_sweeps (x : List (Nat × BusNo)) : (s.setClaims x).sweeps = s.sweeps := rfl
@[simp] theorem State.setClaims_assembler (x : List (Nat × BusNo)) : (s.setClaims x).assembler = s.assembler := rfl
@[simp] theorem State.setClaims_replies (x : List (Nat × BusNo)) : (s.setClaims x).replies = s.replies := rfl
@[simp] theorem State.setClaims_notices (x : List (Nat × BusNo)) : (s.setClaims x).notices = s.notices := rfl
@[simp] theorem State.setClaims_sending (x : List (Nat × BusNo)) : (s.setClaims x).sending = s.sending := rfl
@[simp] theorem State.setClaims_clock (x : List (Nat × BusNo)) : (s.setClaims x).clock = s.clock := rfl
@[simp] theorem State.setClaims_frameCount (x : List (Nat × BusNo)) : (s.setClaims x).frameCount = s.frameCount := rfl
@[simp] theorem State.setClaims_secondTaken (x : List (Nat × BusNo)) : (s.setClaims x).secondTaken = s.secondTaken := rfl
@[simp] theorem State.setClaims_site (x : List (Nat × BusNo)) : (s.setClaims x).site = s.site := rfl
@[simp] theorem State.setClaims_freeCount (x : List (Nat × BusNo)) : (s.setClaims x).freeCount = s.freeCount := rfl

/-! ### setInFlight -/

@[simp] theorem State.setInFlight_pending (x : List Retest) : (s.setInFlight x).pending = s.pending := rfl
@[simp] theorem State.setInFlight_alignment (x : List Retest) : (s.setInFlight x).alignment = s.alignment := rfl
@[simp] theorem State.setInFlight_highway (x : List Retest) : (s.setInFlight x).highway = s.highway := rfl
@[simp] theorem State.setInFlight_store (x : List Retest) : (s.setInFlight x).store = s.store := rfl
@[simp] theorem State.setInFlight_paths (x : List Retest) : (s.setInFlight x).paths = s.paths := rfl
@[simp] theorem State.setInFlight_tones (x : List Retest) : (s.setInFlight x).tones = s.tones := rfl
@[simp] theorem State.setInFlight_outFrame (x : List Retest) : (s.setInFlight x).outFrame = s.outFrame := rfl
@[simp] theorem State.setInFlight_buses (x : List Retest) : (s.setInFlight x).buses = s.buses := rfl
@[simp] theorem State.setInFlight_busCounters (x : List Retest) : (s.setInFlight x).busCounters = s.busCounters := rfl
@[simp] theorem State.setInFlight_claims (x : List Retest) : (s.setInFlight x).claims = s.claims := rfl
@[simp] theorem State.setInFlight_audio (x : List Retest) : (s.setInFlight x).audio = s.audio := rfl
@[simp] theorem State.setInFlight_queue (x : List Retest) : (s.setInFlight x).queue = s.queue := rfl
@[simp] theorem State.setInFlight_arrivals (x : List Retest) : (s.setInFlight x).arrivals = s.arrivals := rfl
@[simp] theorem State.setInFlight_rotation (x : List Retest) : (s.setInFlight x).rotation = s.rotation := rfl
@[simp] theorem State.setInFlight_grantCount (x : List Retest) : (s.setInFlight x).grantCount = s.grantCount := rfl
@[simp] theorem State.setInFlight_stamps (x : List Retest) : (s.setInFlight x).stamps = s.stamps := rfl
@[simp] theorem State.setInFlight_queuePeak (x : List Retest) : (s.setInFlight x).queuePeak = s.queuePeak := rfl
@[simp] theorem State.setInFlight_preemptions (x : List Retest) : (s.setInFlight x).preemptions = s.preemptions := rfl
@[simp] theorem State.setInFlight_heads (x : List Retest) : (s.setInFlight x).heads = s.heads := rfl
@[simp] theorem State.setInFlight_headCounters (x : List Retest) : (s.setInFlight x).headCounters = s.headCounters := rfl
@[simp] theorem State.setInFlight_headQueue (x : List Retest) : (s.setInFlight x).headQueue = s.headQueue := rfl
@[simp] theorem State.setInFlight_assignDue (x : List Retest) : (s.setInFlight x).assignDue = s.assignDue := rfl
@[simp] theorem State.setInFlight_programs (x : List Retest) : (s.setInFlight x).programs = s.programs := rfl
@[simp] theorem State.setInFlight_classMap (x : List Retest) : (s.setInFlight x).classMap = s.classMap := rfl
@[simp] theorem State.setInFlight_limits (x : List Retest) : (s.setInFlight x).limits = s.limits := rfl
@[simp] theorem State.setInFlight_tickets (x : List Retest) : (s.setInFlight x).tickets = s.tickets := rfl
@[simp] theorem State.setInFlight_numberCounter (x : List Retest) : (s.setInFlight x).numberCounter = s.numberCounter := rfl
@[simp] theorem State.setInFlight_raiseCounter (x : List Retest) : (s.setInFlight x).raiseCounter = s.raiseCounter := rfl
@[simp] theorem State.setInFlight_repairList (x : List Retest) : (s.setInFlight x).repairList = s.repairList := rfl
@[simp] theorem State.setInFlight_inFlight (x : List Retest) : (s.setInFlight x).inFlight = x := rfl
@[simp] theorem State.setInFlight_ticketCounters (x : List Retest) : (s.setInFlight x).ticketCounters = s.ticketCounters := rfl
@[simp] theorem State.setInFlight_cables (x : List Retest) : (s.setInFlight x).cables = s.cables := rfl
@[simp] theorem State.setInFlight_sweeps (x : List Retest) : (s.setInFlight x).sweeps = s.sweeps := rfl
@[simp] theorem State.setInFlight_assembler (x : List Retest) : (s.setInFlight x).assembler = s.assembler := rfl
@[simp] theorem State.setInFlight_replies (x : List Retest) : (s.setInFlight x).replies = s.replies := rfl
@[simp] theorem State.setInFlight_notices (x : List Retest) : (s.setInFlight x).notices = s.notices := rfl
@[simp] theorem State.setInFlight_sending (x : List Retest) : (s.setInFlight x).sending = s.sending := rfl
@[simp] theorem State.setInFlight_clock (x : List Retest) : (s.setInFlight x).clock = s.clock := rfl
@[simp] theorem State.setInFlight_frameCount (x : List Retest) : (s.setInFlight x).frameCount = s.frameCount := rfl
@[simp] theorem State.setInFlight_secondTaken (x : List Retest) : (s.setInFlight x).secondTaken = s.secondTaken := rfl
@[simp] theorem State.setInFlight_site (x : List Retest) : (s.setInFlight x).site = s.site := rfl
@[simp] theorem State.setInFlight_freeCount (x : List Retest) : (s.setInFlight x).freeCount = s.freeCount := rfl

/-! ### setRepairList -/

@[simp] theorem State.setRepairList_pending (x : List Nat) : (s.setRepairList x).pending = s.pending := rfl
@[simp] theorem State.setRepairList_alignment (x : List Nat) : (s.setRepairList x).alignment = s.alignment := rfl
@[simp] theorem State.setRepairList_highway (x : List Nat) : (s.setRepairList x).highway = s.highway := rfl
@[simp] theorem State.setRepairList_store (x : List Nat) : (s.setRepairList x).store = s.store := rfl
@[simp] theorem State.setRepairList_paths (x : List Nat) : (s.setRepairList x).paths = s.paths := rfl
@[simp] theorem State.setRepairList_tones (x : List Nat) : (s.setRepairList x).tones = s.tones := rfl
@[simp] theorem State.setRepairList_outFrame (x : List Nat) : (s.setRepairList x).outFrame = s.outFrame := rfl
@[simp] theorem State.setRepairList_buses (x : List Nat) : (s.setRepairList x).buses = s.buses := rfl
@[simp] theorem State.setRepairList_busCounters (x : List Nat) : (s.setRepairList x).busCounters = s.busCounters := rfl
@[simp] theorem State.setRepairList_claims (x : List Nat) : (s.setRepairList x).claims = s.claims := rfl
@[simp] theorem State.setRepairList_audio (x : List Nat) : (s.setRepairList x).audio = s.audio := rfl
@[simp] theorem State.setRepairList_queue (x : List Nat) : (s.setRepairList x).queue = s.queue := rfl
@[simp] theorem State.setRepairList_arrivals (x : List Nat) : (s.setRepairList x).arrivals = s.arrivals := rfl
@[simp] theorem State.setRepairList_rotation (x : List Nat) : (s.setRepairList x).rotation = s.rotation := rfl
@[simp] theorem State.setRepairList_grantCount (x : List Nat) : (s.setRepairList x).grantCount = s.grantCount := rfl
@[simp] theorem State.setRepairList_stamps (x : List Nat) : (s.setRepairList x).stamps = s.stamps := rfl
@[simp] theorem State.setRepairList_queuePeak (x : List Nat) : (s.setRepairList x).queuePeak = s.queuePeak := rfl
@[simp] theorem State.setRepairList_preemptions (x : List Nat) : (s.setRepairList x).preemptions = s.preemptions := rfl
@[simp] theorem State.setRepairList_heads (x : List Nat) : (s.setRepairList x).heads = s.heads := rfl
@[simp] theorem State.setRepairList_headCounters (x : List Nat) : (s.setRepairList x).headCounters = s.headCounters := rfl
@[simp] theorem State.setRepairList_headQueue (x : List Nat) : (s.setRepairList x).headQueue = s.headQueue := rfl
@[simp] theorem State.setRepairList_assignDue (x : List Nat) : (s.setRepairList x).assignDue = s.assignDue := rfl
@[simp] theorem State.setRepairList_programs (x : List Nat) : (s.setRepairList x).programs = s.programs := rfl
@[simp] theorem State.setRepairList_classMap (x : List Nat) : (s.setRepairList x).classMap = s.classMap := rfl
@[simp] theorem State.setRepairList_limits (x : List Nat) : (s.setRepairList x).limits = s.limits := rfl
@[simp] theorem State.setRepairList_tickets (x : List Nat) : (s.setRepairList x).tickets = s.tickets := rfl
@[simp] theorem State.setRepairList_numberCounter (x : List Nat) : (s.setRepairList x).numberCounter = s.numberCounter := rfl
@[simp] theorem State.setRepairList_raiseCounter (x : List Nat) : (s.setRepairList x).raiseCounter = s.raiseCounter := rfl
@[simp] theorem State.setRepairList_repairList (x : List Nat) : (s.setRepairList x).repairList = x := rfl
@[simp] theorem State.setRepairList_inFlight (x : List Nat) : (s.setRepairList x).inFlight = s.inFlight := rfl
@[simp] theorem State.setRepairList_ticketCounters (x : List Nat) : (s.setRepairList x).ticketCounters = s.ticketCounters := rfl
@[simp] theorem State.setRepairList_cables (x : List Nat) : (s.setRepairList x).cables = s.cables := rfl
@[simp] theorem State.setRepairList_sweeps (x : List Nat) : (s.setRepairList x).sweeps = s.sweeps := rfl
@[simp] theorem State.setRepairList_assembler (x : List Nat) : (s.setRepairList x).assembler = s.assembler := rfl
@[simp] theorem State.setRepairList_replies (x : List Nat) : (s.setRepairList x).replies = s.replies := rfl
@[simp] theorem State.setRepairList_notices (x : List Nat) : (s.setRepairList x).notices = s.notices := rfl
@[simp] theorem State.setRepairList_sending (x : List Nat) : (s.setRepairList x).sending = s.sending := rfl
@[simp] theorem State.setRepairList_clock (x : List Nat) : (s.setRepairList x).clock = s.clock := rfl
@[simp] theorem State.setRepairList_frameCount (x : List Nat) : (s.setRepairList x).frameCount = s.frameCount := rfl
@[simp] theorem State.setRepairList_secondTaken (x : List Nat) : (s.setRepairList x).secondTaken = s.secondTaken := rfl
@[simp] theorem State.setRepairList_site (x : List Nat) : (s.setRepairList x).site = s.site := rfl
@[simp] theorem State.setRepairList_freeCount (x : List Nat) : (s.setRepairList x).freeCount = s.freeCount := rfl

/-! ### setAlignment -/

@[simp] theorem State.setAlignment_pending (x : Alignment) : (s.setAlignment x).pending = s.pending := rfl
@[simp] theorem State.setAlignment_alignment (x : Alignment) : (s.setAlignment x).alignment = x := rfl
@[simp] theorem State.setAlignment_highway (x : Alignment) : (s.setAlignment x).highway = s.highway := rfl
@[simp] theorem State.setAlignment_store (x : Alignment) : (s.setAlignment x).store = s.store := rfl
@[simp] theorem State.setAlignment_paths (x : Alignment) : (s.setAlignment x).paths = s.paths := rfl
@[simp] theorem State.setAlignment_tones (x : Alignment) : (s.setAlignment x).tones = s.tones := rfl
@[simp] theorem State.setAlignment_outFrame (x : Alignment) : (s.setAlignment x).outFrame = s.outFrame := rfl
@[simp] theorem State.setAlignment_buses (x : Alignment) : (s.setAlignment x).buses = s.buses := rfl
@[simp] theorem State.setAlignment_busCounters (x : Alignment) : (s.setAlignment x).busCounters = s.busCounters := rfl
@[simp] theorem State.setAlignment_claims (x : Alignment) : (s.setAlignment x).claims = s.claims := rfl
@[simp] theorem State.setAlignment_audio (x : Alignment) : (s.setAlignment x).audio = s.audio := rfl
@[simp] theorem State.setAlignment_queue (x : Alignment) : (s.setAlignment x).queue = s.queue := rfl
@[simp] theorem State.setAlignment_arrivals (x : Alignment) : (s.setAlignment x).arrivals = s.arrivals := rfl
@[simp] theorem State.setAlignment_rotation (x : Alignment) : (s.setAlignment x).rotation = s.rotation := rfl
@[simp] theorem State.setAlignment_grantCount (x : Alignment) : (s.setAlignment x).grantCount = s.grantCount := rfl
@[simp] theorem State.setAlignment_stamps (x : Alignment) : (s.setAlignment x).stamps = s.stamps := rfl
@[simp] theorem State.setAlignment_queuePeak (x : Alignment) : (s.setAlignment x).queuePeak = s.queuePeak := rfl
@[simp] theorem State.setAlignment_preemptions (x : Alignment) : (s.setAlignment x).preemptions = s.preemptions := rfl
@[simp] theorem State.setAlignment_heads (x : Alignment) : (s.setAlignment x).heads = s.heads := rfl
@[simp] theorem State.setAlignment_headCounters (x : Alignment) : (s.setAlignment x).headCounters = s.headCounters := rfl
@[simp] theorem State.setAlignment_headQueue (x : Alignment) : (s.setAlignment x).headQueue = s.headQueue := rfl
@[simp] theorem State.setAlignment_assignDue (x : Alignment) : (s.setAlignment x).assignDue = s.assignDue := rfl
@[simp] theorem State.setAlignment_programs (x : Alignment) : (s.setAlignment x).programs = s.programs := rfl
@[simp] theorem State.setAlignment_classMap (x : Alignment) : (s.setAlignment x).classMap = s.classMap := rfl
@[simp] theorem State.setAlignment_limits (x : Alignment) : (s.setAlignment x).limits = s.limits := rfl
@[simp] theorem State.setAlignment_tickets (x : Alignment) : (s.setAlignment x).tickets = s.tickets := rfl
@[simp] theorem State.setAlignment_numberCounter (x : Alignment) : (s.setAlignment x).numberCounter = s.numberCounter := rfl
@[simp] theorem State.setAlignment_raiseCounter (x : Alignment) : (s.setAlignment x).raiseCounter = s.raiseCounter := rfl
@[simp] theorem State.setAlignment_repairList (x : Alignment) : (s.setAlignment x).repairList = s.repairList := rfl
@[simp] theorem State.setAlignment_inFlight (x : Alignment) : (s.setAlignment x).inFlight = s.inFlight := rfl
@[simp] theorem State.setAlignment_ticketCounters (x : Alignment) : (s.setAlignment x).ticketCounters = s.ticketCounters := rfl
@[simp] theorem State.setAlignment_cables (x : Alignment) : (s.setAlignment x).cables = s.cables := rfl
@[simp] theorem State.setAlignment_sweeps (x : Alignment) : (s.setAlignment x).sweeps = s.sweeps := rfl
@[simp] theorem State.setAlignment_assembler (x : Alignment) : (s.setAlignment x).assembler = s.assembler := rfl
@[simp] theorem State.setAlignment_replies (x : Alignment) : (s.setAlignment x).replies = s.replies := rfl
@[simp] theorem State.setAlignment_notices (x : Alignment) : (s.setAlignment x).notices = s.notices := rfl
@[simp] theorem State.setAlignment_sending (x : Alignment) : (s.setAlignment x).sending = s.sending := rfl
@[simp] theorem State.setAlignment_clock (x : Alignment) : (s.setAlignment x).clock = s.clock := rfl
@[simp] theorem State.setAlignment_frameCount (x : Alignment) : (s.setAlignment x).frameCount = s.frameCount := rfl
@[simp] theorem State.setAlignment_secondTaken (x : Alignment) : (s.setAlignment x).secondTaken = s.secondTaken := rfl
@[simp] theorem State.setAlignment_site (x : Alignment) : (s.setAlignment x).site = s.site := rfl
@[simp] theorem State.setAlignment_freeCount (x : Alignment) : (s.setAlignment x).freeCount = s.freeCount := rfl

/-! ### setAssembler -/

@[simp] theorem State.setAssembler_pending (x : Assembler) : (s.setAssembler x).pending = s.pending := rfl
@[simp] theorem State.setAssembler_alignment (x : Assembler) : (s.setAssembler x).alignment = s.alignment := rfl
@[simp] theorem State.setAssembler_highway (x : Assembler) : (s.setAssembler x).highway = s.highway := rfl
@[simp] theorem State.setAssembler_store (x : Assembler) : (s.setAssembler x).store = s.store := rfl
@[simp] theorem State.setAssembler_paths (x : Assembler) : (s.setAssembler x).paths = s.paths := rfl
@[simp] theorem State.setAssembler_tones (x : Assembler) : (s.setAssembler x).tones = s.tones := rfl
@[simp] theorem State.setAssembler_outFrame (x : Assembler) : (s.setAssembler x).outFrame = s.outFrame := rfl
@[simp] theorem State.setAssembler_buses (x : Assembler) : (s.setAssembler x).buses = s.buses := rfl
@[simp] theorem State.setAssembler_busCounters (x : Assembler) : (s.setAssembler x).busCounters = s.busCounters := rfl
@[simp] theorem State.setAssembler_claims (x : Assembler) : (s.setAssembler x).claims = s.claims := rfl
@[simp] theorem State.setAssembler_audio (x : Assembler) : (s.setAssembler x).audio = s.audio := rfl
@[simp] theorem State.setAssembler_queue (x : Assembler) : (s.setAssembler x).queue = s.queue := rfl
@[simp] theorem State.setAssembler_arrivals (x : Assembler) : (s.setAssembler x).arrivals = s.arrivals := rfl
@[simp] theorem State.setAssembler_rotation (x : Assembler) : (s.setAssembler x).rotation = s.rotation := rfl
@[simp] theorem State.setAssembler_grantCount (x : Assembler) : (s.setAssembler x).grantCount = s.grantCount := rfl
@[simp] theorem State.setAssembler_stamps (x : Assembler) : (s.setAssembler x).stamps = s.stamps := rfl
@[simp] theorem State.setAssembler_queuePeak (x : Assembler) : (s.setAssembler x).queuePeak = s.queuePeak := rfl
@[simp] theorem State.setAssembler_preemptions (x : Assembler) : (s.setAssembler x).preemptions = s.preemptions := rfl
@[simp] theorem State.setAssembler_heads (x : Assembler) : (s.setAssembler x).heads = s.heads := rfl
@[simp] theorem State.setAssembler_headCounters (x : Assembler) : (s.setAssembler x).headCounters = s.headCounters := rfl
@[simp] theorem State.setAssembler_headQueue (x : Assembler) : (s.setAssembler x).headQueue = s.headQueue := rfl
@[simp] theorem State.setAssembler_assignDue (x : Assembler) : (s.setAssembler x).assignDue = s.assignDue := rfl
@[simp] theorem State.setAssembler_programs (x : Assembler) : (s.setAssembler x).programs = s.programs := rfl
@[simp] theorem State.setAssembler_classMap (x : Assembler) : (s.setAssembler x).classMap = s.classMap := rfl
@[simp] theorem State.setAssembler_limits (x : Assembler) : (s.setAssembler x).limits = s.limits := rfl
@[simp] theorem State.setAssembler_tickets (x : Assembler) : (s.setAssembler x).tickets = s.tickets := rfl
@[simp] theorem State.setAssembler_numberCounter (x : Assembler) : (s.setAssembler x).numberCounter = s.numberCounter := rfl
@[simp] theorem State.setAssembler_raiseCounter (x : Assembler) : (s.setAssembler x).raiseCounter = s.raiseCounter := rfl
@[simp] theorem State.setAssembler_repairList (x : Assembler) : (s.setAssembler x).repairList = s.repairList := rfl
@[simp] theorem State.setAssembler_inFlight (x : Assembler) : (s.setAssembler x).inFlight = s.inFlight := rfl
@[simp] theorem State.setAssembler_ticketCounters (x : Assembler) : (s.setAssembler x).ticketCounters = s.ticketCounters := rfl
@[simp] theorem State.setAssembler_cables (x : Assembler) : (s.setAssembler x).cables = s.cables := rfl
@[simp] theorem State.setAssembler_sweeps (x : Assembler) : (s.setAssembler x).sweeps = s.sweeps := rfl
@[simp] theorem State.setAssembler_assembler (x : Assembler) : (s.setAssembler x).assembler = x := rfl
@[simp] theorem State.setAssembler_replies (x : Assembler) : (s.setAssembler x).replies = s.replies := rfl
@[simp] theorem State.setAssembler_notices (x : Assembler) : (s.setAssembler x).notices = s.notices := rfl
@[simp] theorem State.setAssembler_sending (x : Assembler) : (s.setAssembler x).sending = s.sending := rfl
@[simp] theorem State.setAssembler_clock (x : Assembler) : (s.setAssembler x).clock = s.clock := rfl
@[simp] theorem State.setAssembler_frameCount (x : Assembler) : (s.setAssembler x).frameCount = s.frameCount := rfl
@[simp] theorem State.setAssembler_secondTaken (x : Assembler) : (s.setAssembler x).secondTaken = s.secondTaken := rfl
@[simp] theorem State.setAssembler_site (x : Assembler) : (s.setAssembler x).site = s.site := rfl
@[simp] theorem State.setAssembler_freeCount (x : Assembler) : (s.setAssembler x).freeCount = s.freeCount := rfl

/-! ### setReplies -/

@[simp] theorem State.setReplies_pending (x : List Reply) : (s.setReplies x).pending = s.pending := rfl
@[simp] theorem State.setReplies_alignment (x : List Reply) : (s.setReplies x).alignment = s.alignment := rfl
@[simp] theorem State.setReplies_highway (x : List Reply) : (s.setReplies x).highway = s.highway := rfl
@[simp] theorem State.setReplies_store (x : List Reply) : (s.setReplies x).store = s.store := rfl
@[simp] theorem State.setReplies_paths (x : List Reply) : (s.setReplies x).paths = s.paths := rfl
@[simp] theorem State.setReplies_tones (x : List Reply) : (s.setReplies x).tones = s.tones := rfl
@[simp] theorem State.setReplies_outFrame (x : List Reply) : (s.setReplies x).outFrame = s.outFrame := rfl
@[simp] theorem State.setReplies_buses (x : List Reply) : (s.setReplies x).buses = s.buses := rfl
@[simp] theorem State.setReplies_busCounters (x : List Reply) : (s.setReplies x).busCounters = s.busCounters := rfl
@[simp] theorem State.setReplies_claims (x : List Reply) : (s.setReplies x).claims = s.claims := rfl
@[simp] theorem State.setReplies_audio (x : List Reply) : (s.setReplies x).audio = s.audio := rfl
@[simp] theorem State.setReplies_queue (x : List Reply) : (s.setReplies x).queue = s.queue := rfl
@[simp] theorem State.setReplies_arrivals (x : List Reply) : (s.setReplies x).arrivals = s.arrivals := rfl
@[simp] theorem State.setReplies_rotation (x : List Reply) : (s.setReplies x).rotation = s.rotation := rfl
@[simp] theorem State.setReplies_grantCount (x : List Reply) : (s.setReplies x).grantCount = s.grantCount := rfl
@[simp] theorem State.setReplies_stamps (x : List Reply) : (s.setReplies x).stamps = s.stamps := rfl
@[simp] theorem State.setReplies_queuePeak (x : List Reply) : (s.setReplies x).queuePeak = s.queuePeak := rfl
@[simp] theorem State.setReplies_preemptions (x : List Reply) : (s.setReplies x).preemptions = s.preemptions := rfl
@[simp] theorem State.setReplies_heads (x : List Reply) : (s.setReplies x).heads = s.heads := rfl
@[simp] theorem State.setReplies_headCounters (x : List Reply) : (s.setReplies x).headCounters = s.headCounters := rfl
@[simp] theorem State.setReplies_headQueue (x : List Reply) : (s.setReplies x).headQueue = s.headQueue := rfl
@[simp] theorem State.setReplies_assignDue (x : List Reply) : (s.setReplies x).assignDue = s.assignDue := rfl
@[simp] theorem State.setReplies_programs (x : List Reply) : (s.setReplies x).programs = s.programs := rfl
@[simp] theorem State.setReplies_classMap (x : List Reply) : (s.setReplies x).classMap = s.classMap := rfl
@[simp] theorem State.setReplies_limits (x : List Reply) : (s.setReplies x).limits = s.limits := rfl
@[simp] theorem State.setReplies_tickets (x : List Reply) : (s.setReplies x).tickets = s.tickets := rfl
@[simp] theorem State.setReplies_numberCounter (x : List Reply) : (s.setReplies x).numberCounter = s.numberCounter := rfl
@[simp] theorem State.setReplies_raiseCounter (x : List Reply) : (s.setReplies x).raiseCounter = s.raiseCounter := rfl
@[simp] theorem State.setReplies_repairList (x : List Reply) : (s.setReplies x).repairList = s.repairList := rfl
@[simp] theorem State.setReplies_inFlight (x : List Reply) : (s.setReplies x).inFlight = s.inFlight := rfl
@[simp] theorem State.setReplies_ticketCounters (x : List Reply) : (s.setReplies x).ticketCounters = s.ticketCounters := rfl
@[simp] theorem State.setReplies_cables (x : List Reply) : (s.setReplies x).cables = s.cables := rfl
@[simp] theorem State.setReplies_sweeps (x : List Reply) : (s.setReplies x).sweeps = s.sweeps := rfl
@[simp] theorem State.setReplies_assembler (x : List Reply) : (s.setReplies x).assembler = s.assembler := rfl
@[simp] theorem State.setReplies_replies (x : List Reply) : (s.setReplies x).replies = x := rfl
@[simp] theorem State.setReplies_notices (x : List Reply) : (s.setReplies x).notices = s.notices := rfl
@[simp] theorem State.setReplies_sending (x : List Reply) : (s.setReplies x).sending = s.sending := rfl
@[simp] theorem State.setReplies_clock (x : List Reply) : (s.setReplies x).clock = s.clock := rfl
@[simp] theorem State.setReplies_frameCount (x : List Reply) : (s.setReplies x).frameCount = s.frameCount := rfl
@[simp] theorem State.setReplies_secondTaken (x : List Reply) : (s.setReplies x).secondTaken = s.secondTaken := rfl
@[simp] theorem State.setReplies_site (x : List Reply) : (s.setReplies x).site = s.site := rfl
@[simp] theorem State.setReplies_freeCount (x : List Reply) : (s.setReplies x).freeCount = s.freeCount := rfl

/-! ### setNotices -/

@[simp] theorem State.setNotices_pending (x : List Notice) : (s.setNotices x).pending = s.pending := rfl
@[simp] theorem State.setNotices_alignment (x : List Notice) : (s.setNotices x).alignment = s.alignment := rfl
@[simp] theorem State.setNotices_highway (x : List Notice) : (s.setNotices x).highway = s.highway := rfl
@[simp] theorem State.setNotices_store (x : List Notice) : (s.setNotices x).store = s.store := rfl
@[simp] theorem State.setNotices_paths (x : List Notice) : (s.setNotices x).paths = s.paths := rfl
@[simp] theorem State.setNotices_tones (x : List Notice) : (s.setNotices x).tones = s.tones := rfl
@[simp] theorem State.setNotices_outFrame (x : List Notice) : (s.setNotices x).outFrame = s.outFrame := rfl
@[simp] theorem State.setNotices_buses (x : List Notice) : (s.setNotices x).buses = s.buses := rfl
@[simp] theorem State.setNotices_busCounters (x : List Notice) : (s.setNotices x).busCounters = s.busCounters := rfl
@[simp] theorem State.setNotices_claims (x : List Notice) : (s.setNotices x).claims = s.claims := rfl
@[simp] theorem State.setNotices_audio (x : List Notice) : (s.setNotices x).audio = s.audio := rfl
@[simp] theorem State.setNotices_queue (x : List Notice) : (s.setNotices x).queue = s.queue := rfl
@[simp] theorem State.setNotices_arrivals (x : List Notice) : (s.setNotices x).arrivals = s.arrivals := rfl
@[simp] theorem State.setNotices_rotation (x : List Notice) : (s.setNotices x).rotation = s.rotation := rfl
@[simp] theorem State.setNotices_grantCount (x : List Notice) : (s.setNotices x).grantCount = s.grantCount := rfl
@[simp] theorem State.setNotices_stamps (x : List Notice) : (s.setNotices x).stamps = s.stamps := rfl
@[simp] theorem State.setNotices_queuePeak (x : List Notice) : (s.setNotices x).queuePeak = s.queuePeak := rfl
@[simp] theorem State.setNotices_preemptions (x : List Notice) : (s.setNotices x).preemptions = s.preemptions := rfl
@[simp] theorem State.setNotices_heads (x : List Notice) : (s.setNotices x).heads = s.heads := rfl
@[simp] theorem State.setNotices_headCounters (x : List Notice) : (s.setNotices x).headCounters = s.headCounters := rfl
@[simp] theorem State.setNotices_headQueue (x : List Notice) : (s.setNotices x).headQueue = s.headQueue := rfl
@[simp] theorem State.setNotices_assignDue (x : List Notice) : (s.setNotices x).assignDue = s.assignDue := rfl
@[simp] theorem State.setNotices_programs (x : List Notice) : (s.setNotices x).programs = s.programs := rfl
@[simp] theorem State.setNotices_classMap (x : List Notice) : (s.setNotices x).classMap = s.classMap := rfl
@[simp] theorem State.setNotices_limits (x : List Notice) : (s.setNotices x).limits = s.limits := rfl
@[simp] theorem State.setNotices_tickets (x : List Notice) : (s.setNotices x).tickets = s.tickets := rfl
@[simp] theorem State.setNotices_numberCounter (x : List Notice) : (s.setNotices x).numberCounter = s.numberCounter := rfl
@[simp] theorem State.setNotices_raiseCounter (x : List Notice) : (s.setNotices x).raiseCounter = s.raiseCounter := rfl
@[simp] theorem State.setNotices_repairList (x : List Notice) : (s.setNotices x).repairList = s.repairList := rfl
@[simp] theorem State.setNotices_inFlight (x : List Notice) : (s.setNotices x).inFlight = s.inFlight := rfl
@[simp] theorem State.setNotices_ticketCounters (x : List Notice) : (s.setNotices x).ticketCounters = s.ticketCounters := rfl
@[simp] theorem State.setNotices_cables (x : List Notice) : (s.setNotices x).cables = s.cables := rfl
@[simp] theorem State.setNotices_sweeps (x : List Notice) : (s.setNotices x).sweeps = s.sweeps := rfl
@[simp] theorem State.setNotices_assembler (x : List Notice) : (s.setNotices x).assembler = s.assembler := rfl
@[simp] theorem State.setNotices_replies (x : List Notice) : (s.setNotices x).replies = s.replies := rfl
@[simp] theorem State.setNotices_notices (x : List Notice) : (s.setNotices x).notices = x := rfl
@[simp] theorem State.setNotices_sending (x : List Notice) : (s.setNotices x).sending = s.sending := rfl
@[simp] theorem State.setNotices_clock (x : List Notice) : (s.setNotices x).clock = s.clock := rfl
@[simp] theorem State.setNotices_frameCount (x : List Notice) : (s.setNotices x).frameCount = s.frameCount := rfl
@[simp] theorem State.setNotices_secondTaken (x : List Notice) : (s.setNotices x).secondTaken = s.secondTaken := rfl
@[simp] theorem State.setNotices_site (x : List Notice) : (s.setNotices x).site = s.site := rfl
@[simp] theorem State.setNotices_freeCount (x : List Notice) : (s.setNotices x).freeCount = s.freeCount := rfl

end Sys2Proof.Machine
end

