-- ==== Sys2Proof/Laws/Moves.lean ====
section
/-! SUPPORT. Said once, what a step can do to the collections the manual bounds: `Moves s t` holds where `t` comes from `s` by
the few kinds of change listed in `Change`, and `Course s t` where replies may join as well, each in a queue with room. A
property that every kind of change and a reply keep is kept by every step (`Course.keeps`, and `step_course` of
Laws.StepMoves). -/

namespace Sys2Proof.Machine

/-- What a property of the ticket table alone may rest on: the bounds of R120, R122 and R128. -/
structure TicketsOk (l : List Ticket) : Prop where
  size : l.length ≤ Config.ticketCapacity
  numbers : (l.map Ticket.number).Nodup
  issued : (l.filter fun t => t.state == .issued).length ≤ 10
  cables : (l.filter Ticket.isCable).length ≤ Config.cableCapacity
  members : ∀ t ∈ l, t.members.length ≤ Config.memberCapacity

/-- The key of a ticket: its line or cable, and its code (R123). -/
def Ticket.key (t : Ticket) : Subject × FaultCode := (t.subject, t.code)

/-- No two tickets share a kind and key (R123). -/
def KeysOk (l : List Ticket) : Prop := (l.map Ticket.key).Nodup

/-- The lines of a ticket's member list. -/
def Ticket.lines (t : Ticket) : List Nat := t.members.map Member.line

/-- No member list holds a line twice, nor a line that has a LINE ticket of its code (R123). -/
def MembersOk (l : List Ticket) : Prop :=
  ∀ t ∈ l, t.isCable = true → t.lines.Nodup ∧ ∀ k ∈ t.lines, ∀ u ∈ l, u.key ≠ (.line k, t.code)

/-- A change of the ticket table that keeps its bounds where they held. -/
structure Tame (l m : List Ticket) : Prop where
  bounds : TicketsOk l → TicketsOk m
  keys : KeysOk l → KeysOk m
  members : TicketsOk l → KeysOk l → MembersOk l → MembersOk m

/-- A change of the access wait queue that lengthens it for no requester. -/
def Fewer (l m : List WaitEntry) : Prop :=
  ∀ r : Holder, (l.filter fun e => e.requester == r).length ≤ (m.filter fun e => e.requester == r).length

/-- The most entries an origin may have waiting (R44). -/
def waitingLimit (o : Origin) : Nat := if o.val < 6 then 1 else 4

/-- A head is active (R71). -/
def HeadRec.active (x : HeadRec) : Prop := x.state = .awaitEcho ∨ x.state = .settling ∨ x.state = .integrating

/-- A head that is active has the attach flag, the number of its bus and a measurement; every other has the rest word
(R72). -/
structure HeadOk (x : HeadRec) : Prop where
  active : x.active → x.word.attach = true ∧ x.bus = some x.word.bus ∧ x.ctx.isSome = true
  rest : ¬x.active → x.word = HeadWord.rest

/-- The frame count and the desk clock are in their ranges (R176). -/
def ClockOk (frames clock : Nat) : Prop := frames < Config.framesPerSecond ∧ clock ≤ countMax

/-- The collections that `Change` watches are those of another state. -/
structure SameWatched (s t : State) : Prop where
  pending : t.pending = s.pending
  claims : t.claims = s.claims
  classMap : t.classMap = s.classMap
  tickets : t.tickets = s.tickets
  inFlight : t.inFlight = s.inFlight
  sweeps : t.sweeps = s.sweeps
  replies : t.replies = s.replies
  notices : t.notices = s.notices
  queue : t.queue = s.queue
  heads : t.heads = s.heads
  frameCount : t.frameCount = s.frameCount
  clock : t.clock = s.clock

/-- One change of the state. -/
inductive Change : State → State → Prop where
  /-- Anything that leaves the watched collections. -/
  | same {s t : State} (h : SameWatched s t) : Change s t
  | claim (s : State) (line : Nat) (b : BusNo) : Change s (addClaim line b s)
  | unclaim (s : State) (b : BusNo) : Change s (dropClaim b s)
  | classes (s : State) (line cls : Nat) (hl : line ≤ Config.lastLine) (hc : cls ≤ 15) :
      Change s { s with classMap := putClass line cls s.classMap }
  | fewerReplies (s : State) (l : List Reply) (h : l.length ≤ s.replies.length) : Change s { s with replies := l }
  | notice (s : State) (addressed : Nat) (body : NoticeBody) : Change s (pushNotice addressed body s)
  | fewerNotices (s : State) (l : List Notice) (h : l.length ≤ s.notices.length) : Change s { s with notices := l }
  /-- Entries leave the access wait queue or change in place. -/
  | queue (s : State) (l : List WaitEntry) (h : Fewer l s.queue) : Change s (s.setQueue l)
  /-- A request joins the access wait queue, one of an origin within its limit (R44). -/
  | join (s : State) (e : WaitEntry)
      (h : ∀ o, e.requester = .origin o →
        (s.queue.filter fun e => e.requester == .origin o).length < waitingLimit o) :
      Change s (s.setQueue (s.queue ++ [e]))
  /-- A head changes. -/
  | head (s : State) (h : HeadNo) (x : HeadRec) (ok : HeadOk s.heads[h] → HeadOk x) : Change s (s.setHead h x)
  /-- The desk clock changes. -/
  | clock (s : State) (frames clock : Nat) (h : ClockOk s.frameCount s.clock → ClockOk frames clock) :
      Change s { s with frameCount := frames, clock := clock }
  /-- A descriptor changes, its deferred list at most losing lines. -/
  | sweep (s : State) (d : SweepNo) (x : Descriptor) (h : x.deferred.Sublist s.sweeps[d].deferred)
      (counts : s.sweeps[d].counts.ok = true → x.counts.ok = true) : Change s (s.setSweep d x)
  /-- A line joins a deferred list (R161). -/
  | defer (s : State) (d : SweepNo) (x : Descriptor) (line : Nat)
      (room : s.sweeps[d].deferred.length < Config.deferredCapacity) (new : line ∉ s.sweeps[d].deferred)
      (h : x.deferred = s.sweeps[d].deferred ++ [line])
      (counts : s.sweeps[d].counts.ok = true → x.counts.ok = true) : Change s (s.setSweep d x)
  | tickets (s : State) (l : List Ticket) (h : Tame s.tickets l) : Change s (s.setTickets l)
  | retests (s : State) (l : List Retest)
      (h : s.inFlight.length ≤ Config.retestPlaces → l.length ≤ Config.retestPlaces) : Change s (s.setInFlight l)
  /-- Every watched collection but the claims, the class map and the replies is emptied (R177), or all are (R178). -/
  | emptied {s t : State} (pending : t.pending = s.pending) (claims : t.claims = s.claims ∨ t.claims = [])
      (classMap : t.classMap = s.classMap ∨ t.classMap = []) (tickets : t.tickets = []) (inFlight : t.inFlight = [])
      (sweeps : ∀ d : SweepNo, t.sweeps[d].deferred = [] ∧ t.sweeps[d].counts = {})
      (replies : t.replies = s.replies ∨ t.replies = []) (notices : t.notices = []) (queue : t.queue = [])
      (heads : ∀ h : HeadNo, HeadOk s.heads[h] → HeadOk t.heads[h]) (clock : t.frameCount = 0 ∧ t.clock = 0) :
      Change s t

/-- Some changes, one after another. -/
inductive Moves : State → State → Prop where
  | refl (s : State) : Moves s s
  | one {s t : State} (h : Change s t) : Moves s t
  | trans {s t u : State} (h : Moves s t) (h' : Moves t u) : Moves s u

/-- Moves one after another, the last given first. -/
theorem Moves.after {s t u : State} (h' : Moves t u) (h : Moves s t) : Moves s u := .trans h h'

/-- A property that every change keeps is kept. -/
theorem Moves.keeps {P : State → Prop} (h : ∀ s t, Change s t → P s → P t) {s t : State} (m : Moves s t) :
    P s → P t := by
  induction m with
  | refl => exact id
  | one c => exact h _ _ c
  | trans _ _ ih ih' => exact fun p => ih' (ih p)

theorem Moves.same {s t : State} (h : SameWatched s t) : Moves s t := .one (.same h)

/-- The collections that `Change` watches. -/
def State.watched (s : State) :=
  (s.pending, s.claims, s.classMap, s.tickets, s.inFlight, s.sweeps, s.replies, s.notices, s.queue, s.heads,
    s.frameCount, s.clock)

theorem Moves.kept {s t : State} (h : t.watched = s.watched) : Moves s t := by
  simp only [State.watched, Prod.mk.injEq] at h
  obtain ⟨h1, h2, h3, h4, h5, h6, h7, h8, h9, h10, h11, h12⟩ := h
  exact .same ⟨h1, h2, h3, h4, h5, h6, h7, h8, h9, h10, h11, h12⟩

/-- Only a reply lengthens the reply queue. -/
theorem Moves.replies {s t : State} (m : Moves s t) : t.replies.length ≤ s.replies.length := by
  induction m with
  | refl => exact Nat.le_refl _
  | one c =>
    cases c with
    | same h => exact Nat.le_of_eq (congrArg List.length h.replies)
    | fewerReplies _ h => exact h
    | notice => unfold pushNotice; split <;> exact Nat.le_refl _
    | emptied _ _ _ _ _ _ h _ _ _ _ => rcases h with h | h <;> simp [h]
    | _ => exact Nat.le_refl _
  | trans _ _ ih ih' => exact Nat.le_trans ih' ih

/-- Some changes, and replies each added to a queue with room. -/
inductive Course : State → State → Prop where
  | moves {s t : State} (m : Moves s t) : Course s t
  | reply (s : State) (r : Reply) (h : s.replies.length < Config.replyCapacity) : Course s (pushReply r s)
  | trans {s t u : State} (h : Course s t) (h' : Course t u) : Course s u

/-- A property that every change and every reply keep is kept. -/
theorem Course.keeps {P : State → Prop} (h : ∀ s t, Change s t → P s → P t)
    (hr : ∀ s r, s.replies.length < Config.replyCapacity → P s → P (pushReply r s)) {s t : State} (c : Course s t) :
    P s → P t := by
  induction c with
  | moves m => exact m.keeps h
  | reply s r room => exact hr s r room
  | trans _ _ ih ih' => exact fun p => ih' (ih p)

/-- A fold of steps, each a course, is a course. -/
theorem Course.foldl {α : Type} {f : State → α → State} (h : ∀ s a, Course s (f s a)) (l : List α) (s : State) :
    Course s (l.foldl f s) := by
  induction l generalizing s with
  | nil => exact .moves (.refl s)
  | cons a l ih => exact .trans (h s a) (ih (f s a))

/-! ### Folds -/

/-- A fold of steps that move, moves. -/
theorem Moves.foldl {α : Type} {f : State → α → State} (h : ∀ s a, Moves s (f s a)) (l : List α) (s : State) :
    Moves s (l.foldl f s) := by
  induction l generalizing s with
  | nil => exact .refl s
  | cons a l ih => exact .trans (h s a) (ih (f s a))

/-! ### Updates that leave the watched collections -/

section
variable (s : State)

theorem setBus_moves (b : BusNo) (x : Bus) : Moves s (s.setBus b x) := .kept rfl
theorem setBusCounters_moves (b : BusNo) (x : BusCounters) : Moves s (s.setBusCounters b x) :=
  .kept rfl
theorem setHead_moves (h : HeadNo) (x : HeadRec) (ok : HeadOk s.heads[h] → HeadOk x) : Moves s (s.setHead h x) :=
  .one (.head s h x ok)
theorem setHeadCounters_moves (h : HeadNo) (x : HeadCounters) : Moves s (s.setHeadCounters h x) :=
  .kept rfl
theorem setTone_moves (k : ToneNo) (x : Tone) : Moves s (s.setTone k x) := .kept rfl
theorem setAudio_moves (d : DeskNo) (x : Option BusNo) : Moves s (s.setAudio d x) :=
  .kept rfl
theorem setPathEntry_moves (i : Fin 30) (x : PathEntry) : Moves s (s.setPathEntry i x) :=
  .kept rfl
theorem setTicketCounters_moves (x : TicketCounters) : Moves s (s.setTicketCounters x) :=
  .kept rfl
theorem setHighway_moves (x : HighwayCounters) : Moves s (s.setHighway x) := .kept rfl
theorem setQueue_moves (l : List WaitEntry) (h : Fewer l s.queue) : Moves s (s.setQueue l) := .one (.queue s l h)
theorem setHeadQueue_moves (x : List HeadWait) : Moves s (s.setHeadQueue x) := .kept rfl
theorem setRepairList_moves (x : List Nat) : Moves s (s.setRepairList x) := .kept rfl
theorem setAlignment_moves (x : Alignment) : Moves s (s.setAlignment x) := .kept rfl
theorem setAssembler_moves (x : Assembler) : Moves s (s.setAssembler x) := .kept rfl
theorem countBus_moves (b : BusNo) (f : BusCounters → BusCounters) : Moves s (countBus b f s) := setBusCounters_moves ..
theorem countHead_moves (h : HeadNo) (f : HeadCounters → HeadCounters) : Moves s (countHead h f s) :=
  setHeadCounters_moves ..
theorem countTickets_moves (f : TicketCounters → TicketCounters) : Moves s (countTickets f s) :=
  setTicketCounters_moves ..
theorem countHighway_moves (f : HighwayCounters → HighwayCounters) : Moves s (countHighway f s) := setHighway_moves ..
theorem pushNotice_moves (addressed : Nat) (body : NoticeBody) : Moves s (pushNotice addressed body s) := .one (.notice s addressed body)
theorem addClaim_moves (line : Nat) (b : BusNo) : Moves s (addClaim line b s) := .one (.claim s line b)
theorem dropClaim_moves (b : BusNo) : Moves s (dropClaim b s) := .one (.unclaim s b)

theorem settleDesk_moves (holder : Option Holder) (b : BusNo) : Moves s (settleDesk holder b s) := by
  unfold settleDesk
  split
  · exact .refl s
  · split
    · exact .trans (setPathEntry_moves ..) (setAudio_moves ..)
    · exact .refl s

theorem setInFlight_moves (l : List Retest) (h : l.length ≤ s.inFlight.length) : Moves s (s.setInFlight l) :=
  .one (.retests s l (Nat.le_trans h))

end

/-! ### The access wait queue -/

theorem Fewer.sublist {l m : List WaitEntry} (h : l.Sublist m) : Fewer l m := fun _ => (h.filter _).length_le

/-- Entries change in place, none its requester. -/
theorem Fewer.map (f : WaitEntry → WaitEntry) (l : List WaitEntry) (hf : ∀ e, (f e).requester = e.requester) :
    Fewer (l.map f) l := fun r => by
  rw [List.filter_map, List.length_map]
  refine Nat.le_of_eq (congrArg (fun p => (List.filter p l).length) (funext fun e => ?_))
  simp only [Function.comp, hf]

/-! ### Heads -/

/-- A change that keeps a head's state and word, its bus and whether it measures. -/
theorem HeadOk.same {x y : HeadRec} (hs : y.state = x.state) (hw : y.word = x.word) (hb : y.bus = x.bus)
    (hc : x.ctx.isSome = true → y.ctx.isSome = true) (h : HeadOk x) : HeadOk y := by
  have e : y.active ↔ x.active := by unfold HeadRec.active; rw [hs]
  refine ⟨fun a => ?_, fun a => ?_⟩
  · have := h.active (e.mp a); exact ⟨hw ▸ this.1, by rw [hb, hw]; exact this.2.1, hc this.2.2⟩
  · rw [hw]; exact h.rest fun b => a (e.mpr b)

/-- A head at rest. -/
theorem HeadOk.ofRest {x : HeadRec} (hs : ¬x.active) (hw : x.word = HeadWord.rest) : HeadOk x :=
  ⟨fun a => absurd a hs, fun _ => hw⟩

/-- An active head that goes on to another active state. -/
theorem HeadOk.goOn {x y : HeadRec} (ha : x.active) (hs : y.active) (hw : y.word = x.word) (hb : y.bus = x.bus)
    (hc : y.ctx.isSome = true) (h : HeadOk x) : HeadOk y :=
  ⟨fun _ => ⟨hw ▸ (h.active ha).1, by rw [hb, hw]; exact (h.active ha).2.1, hc⟩, fun a => absurd hs a⟩

/-- An active head has a bus. -/
theorem HeadOk.hasBus {x : HeadRec} (h : HeadOk x) (a : x.active) : x.bus ≠ none := by
  rw [(h.active a).2.1]; simp

/-! ### The ticket table -/

theorem Ticket.isCable_of_key {t u : Ticket} (h : u.key = t.key) : u.isCable = t.isCable := by
  unfold Ticket.isCable; rw [show u.subject = t.subject from congrArg Prod.fst h]

theorem Tame.refl (l : List Ticket) : Tame l l := ⟨id, id, fun _ _ => id⟩

theorem Tame.trans {l m n : List Ticket} (h : Tame l m) (h' : Tame m n) : Tame l n :=
  ⟨fun x => h'.bounds (h.bounds x), fun x => h'.keys (h.keys x),
    fun a b c => h'.members (h.bounds a) (h.keys b) (h.members a b c)⟩

/-- Tickets leave the table. -/
theorem Tame.filter (p : Ticket → Bool) (l : List Ticket) : Tame l (l.filter p) := by
  refine ⟨fun h => ?_, fun h => ?_, fun _ _ h t ht k => ?_⟩
  · refine ⟨Nat.le_trans (List.length_filter_le ..) h.size, ?_, ?_, ?_, fun t ht => h.members t (List.mem_filter.mp ht).1⟩
    · exact List.Pairwise.sublist ((List.filter_sublist).map _) h.numbers
    · exact Nat.le_trans (((List.filter_sublist).filter _).length_le) h.issued
    · exact Nat.le_trans (((List.filter_sublist).filter _).length_le) h.cables
  · exact List.Pairwise.sublist ((List.filter_sublist).map _) h
  · have := h t (List.mem_filter.mp ht).1 k
    exact ⟨this.1, fun m hm u hu => this.2 m hm u (List.mem_filter.mp hu).1⟩

/-- A change of one ticket that the bounds of the table bear: it keeps its number and its key, does not become ISSUED, and
lists no more members. -/
structure Mild (t u : Ticket) : Prop where
  number : u.number = t.number
  state : u.state = .issued → t.state = .issued
  key : u.key = t.key
  lines : u.lines.Sublist t.lines

theorem Mild.refl (t : Ticket) : Mild t t := ⟨rfl, id, rfl, .refl _⟩

theorem Mild.trans {t u v : Ticket} (h : Mild t u) (h' : Mild u v) : Mild t v :=
  ⟨h'.number.trans h.number, fun x => h.state (h'.state x), h'.key.trans h.key, h'.lines.trans h.lines⟩

theorem Mild.kind {t u : Ticket} (h : Mild t u) : u.isCable = t.isCable := Ticket.isCable_of_key h.key

theorem Mild.members {t u : Ticket} (h : Mild t u) : u.members.length ≤ t.members.length := by
  have := h.lines.length_le
  simpa only [Ticket.lines, List.length_map] using this

/-- Tickets that keep their keys keep the table's keys apart. -/
theorem KeysOk.map {f : Ticket → Ticket} {l : List Ticket} (hf : ∀ t, (f t).key = t.key) (h : KeysOk l) :
    KeysOk (l.map f) := by
  have : Ticket.key ∘ f = Ticket.key := funext hf
  unfold KeysOk; rw [List.map_map, this]; exact h

/-- Tickets that keep their keys, each listing no more lines, keep the member lists apart. -/
theorem MembersOk.map {f : Ticket → Ticket} {l : List Ticket} (hf : ∀ t, (f t).key = t.key)
    (hl : ∀ t, (f t).lines.Sublist t.lines) (h : MembersOk l) : MembersOk (l.map f) := by
  intro u hu k
  obtain ⟨t, ht, rfl⟩ := List.mem_map.mp hu
  have := h t ht ((Ticket.isCable_of_key (hf t)).symm.trans k)
  refine ⟨this.1.sublist (hl t), fun m hm v hv => ?_⟩
  obtain ⟨w, hw, rfl⟩ := List.mem_map.mp hv
  rw [hf w, show (f t).code = t.code from congrArg Prod.snd (hf t)]
  exact this.2 m ((hl t).subset hm) w hw

/-- Tickets change in place, each mildly. -/
theorem Tame.map (f : Ticket → Ticket) (l : List Ticket) (hf : ∀ t, Mild t (f t)) : Tame l (l.map f) := by
  refine ⟨fun h => ?_, .map fun t => (hf t).key, fun _ _ => .map (fun t => (hf t).key) fun t => (hf t).lines⟩
  have hn := fun t => (hf t).number
  have hs := fun t => (hf t).state
  refine ⟨by simpa using h.size, ?_, ?_, ?_, ?_⟩
  rotate_left 2
  · have : (Ticket.isCable ∘ f) = Ticket.isCable := funext fun t => (hf t).kind
    rw [List.filter_map, List.length_map, this]; exact h.cables
  · intro u hu
    obtain ⟨t, ht, rfl⟩ := List.mem_map.mp hu
    exact Nat.le_trans (hf t).members (h.members t ht)
  · have : Ticket.number ∘ f = Ticket.number := funext hn
    simpa [List.map_map, this] using h.numbers
  · refine Nat.le_trans ?_ h.issued
    rw [List.filter_map, List.length_map]
    clear h
    induction l with
    | nil => simp
    | cons t l ih =>
      by_cases h1 : (f t).state = .issued
      · have h2 := hs t h1
        simp only [List.filter_cons, Function.comp, h1, h2, beq_self_eq_true, if_true, List.length_cons]
        exact Nat.succ_le_succ ih
      · by_cases h2 : t.state = .issued
        · simp only [List.filter_cons, Function.comp, beq_iff_eq, h1, h2, if_true, if_false, List.length_cons]
          exact Nat.le_succ_of_le ih
        · simp only [List.filter_cons, Function.comp, beq_iff_eq, h1, h2, if_false]
          exact ih

section
variable (s : State)

theorem setTickets_moves (l : List Ticket) (h : Tame s.tickets l) : Moves s (s.setTickets l) := .one (.tickets s l h)

theorem updTicket_moves (n : Nat) (f : Ticket → Ticket) (hf : ∀ t, Mild t (f t)) : Moves s (updTicket n f s) := by
  refine setTickets_moves s _ (Tame.map _ _ fun t => ?_)
  split
  · exact hf t
  · exact .refl t

theorem removeTicket_moves (n : Nat) : Moves s (removeTicket n s) := setTickets_moves s _ (Tame.filter _ _)

end

end Sys2Proof.Machine
end

