-- ==== Sys2Proof/Laws/Tickets.lean ====
section
/-! SUPPORT. The ticket unit and the cable correlator move the state (Laws.Moves): numbers given are free (R122), the table
stays within its capacity (R120, R126, R145), the issue window within ten (R128), and keys and member lists stay apart
(R123, R147). -/

namespace Sys2Proof.Machine

/-! ### A number given is free (R122) -/

/-- The `k`-th number tried from `n` on. -/
def triedNumber (n k : Nat) : Nat :=
  if n ≤ 65535 then if n + k ≤ 65535 then n + k else n + k - 65535 else if k = 0 then n else k

theorem triedNumber_zero (n : Nat) : triedNumber n 0 = n := by unfold triedNumber; split <;> simp_all

theorem nextNumber_tried (n k : Nat) (h : k < 60000) : nextNumber (triedNumber n k) = triedNumber n (k + 1) := by
  unfold nextNumber triedNumber; grind

theorem triedNumber_inj (n i j : Nat) (h : i < j) (hj : j ≤ 60000) : triedNumber n i ≠ triedNumber n j := by
  unfold triedNumber; grind

theorem freeNumber_cases (used : List Nat) (n : Nat) : ∀ fuel j, j + fuel ≤ 60000 →
    freeNumber used fuel (triedNumber n j) ∉ used ∨ ∀ i, i < fuel → triedNumber n (j + i) ∈ used := by
  intro fuel
  induction fuel with
  | zero => intro j _; right; omega
  | succ fuel ih =>
    intro j hj
    by_cases hu : triedNumber n j ∈ used
    · rw [freeNumber, if_pos hu, nextNumber_tried n j (by omega)]
      rcases ih (j + 1) (by omega) with h | h
      · exact .inl h
      · right
        intro i hi
        cases i with
        | zero => exact hu
        | succ i => have := h i (by omega); rwa [show j + 1 + i = j + (i + 1) by omega] at this
    · left
      rwa [freeNumber, if_neg hu]

/-- A list without repeats, all of whose members are in another list, is no longer than it. -/
theorem length_le_of_nodup {l m : List Nat} (h : l.Nodup) (sub : ∀ x ∈ l, x ∈ m) : l.length ≤ m.length := by
  induction l generalizing m with
  | nil => simp
  | cons a l ih =>
    have ha : a ∈ m := sub a (by simp)
    have hl := List.nodup_cons.mp h
    have := ih (m := m.erase a) hl.2 fun x hx =>
      (List.mem_erase_of_ne (fun e => hl.1 (by subst e; exact hx))).mpr (sub x (by simp [hx]))
    rw [List.length_erase_of_mem ha] at this
    have : 0 < m.length := List.length_pos_of_mem ha
    simp only [List.length_cons]; omega

theorem numberFor_free (s : State) (h : s.tickets.length ≤ 50000) : numberFor s ∉ s.tickets.map Ticket.number := by
  have key := freeNumber_cases (s.tickets.map Ticket.number) s.numberCounter (s.tickets.length + 1) 0 (by omega)
  rw [triedNumber_zero] at key
  rcases key with h1 | h1
  · exact h1
  · exfalso
    have nd : ((List.range (s.tickets.length + 1)).map (triedNumber s.numberCounter)).Nodup := by
      rw [List.Nodup, List.pairwise_map]
      refine List.Pairwise.imp_of_mem ?_ (List.pairwise_lt_range (n := s.tickets.length + 1))
      intro a b _ hb hab
      exact triedNumber_inj _ _ _ hab (by have := List.mem_range.mp hb; omega)
    have := length_le_of_nodup (m := s.tickets.map Ticket.number) nd (by
      intro x hx
      obtain ⟨i, hi, rfl⟩ := List.mem_map.mp hx
      have := h1 i (List.mem_range.mp hi)
      simpa using this)
    simp only [List.length_map, List.length_range] at this
    omega

/-! ### Entering, merging and issuing -/

/-- A ticket of a free number enters a table with room. -/
theorem TicketsOk.enter {l : List Ticket} (h : TicketsOk l) (t : Ticket) (room : l.length < Config.ticketCapacity)
    (free : t.number ∉ l.map Ticket.number) (raised : t.state ≠ .issued)
    (kind : t.isCable = true → (l.filter Ticket.isCable).length < Config.cableCapacity)
    (members : t.members.length ≤ Config.memberCapacity) : TicketsOk (l ++ [t]) := by
  refine ⟨by simp; omega, ?_, ?_, ?_, ?_⟩
  rotate_left 2
  · rw [List.filter_append, List.length_append]
    by_cases k : t.isCable = true
    · have := kind k
      simp [k]; omega
    · have : ([t].filter Ticket.isCable) = [] := by simp [k]
      rw [this]; simpa using h.cables
  · intro u hu
    rcases List.mem_append.mp hu with hu | hu
    · exact h.members u hu
    · rw [List.mem_singleton.mp hu]; exact members
  · rw [List.map_append, List.nodup_append]
    refine ⟨h.numbers, by simp, ?_⟩
    intro a ha b hb e
    simp only [List.map_cons, List.map_nil, List.mem_singleton] at hb
    exact free (by rwa [← hb, ← e])
  · rw [List.filter_append, List.length_append]
    have : ([t].filter fun t => t.state == .issued) = [] := by simp [raised]
    rw [this]; simpa using h.issued

/-- A ticket of a new key enters the table. -/
theorem KeysOk.enter {l : List Ticket} (h : KeysOk l) (t : Ticket) (new : t.key ∉ l.map Ticket.key) : KeysOk (l ++ [t]) := by
  unfold KeysOk
  rw [List.map_append, List.nodup_append]
  refine ⟨h, by simp, ?_⟩
  intro a ha b hb e
  simp only [List.map_cons, List.map_nil, List.mem_singleton] at hb
  exact new (by rwa [← hb, ← e])

/-- Members of one list with one image are one where no two images are the same. -/
theorem eq_of_nodup_map {α : Type} {f : Ticket → α} {l : List Ticket} (h : (l.map f).Nodup) {t u : Ticket} (ht : t ∈ l)
    (hu : u ∈ l) (e : f u = f t) : u = t := by
  induction l with
  | nil => cases ht
  | cons v l ih =>
    rw [List.map_cons, List.nodup_cons] at h
    rcases List.mem_cons.mp ht with rfl | ht' <;> rcases List.mem_cons.mp hu with rfl | hu'
    · rfl
    · exact absurd (e ▸ List.mem_map_of_mem hu') h.1
    · exact absurd (e ▸ List.mem_map_of_mem ht') h.1
    · exact ih h.2 ht' hu'

theorem KeysOk.same {l : List Ticket} (h : KeysOk l) {t u : Ticket} (ht : t ∈ l) (hu : u ∈ l) (e : u.key = t.key) : u = t :=
  eq_of_nodup_map h ht hu e

/-- Tickets of one number are one ticket where no two share a number. -/
theorem TicketsOk.same {l : List Ticket} (h : TicketsOk l) {t u : Ticket} (ht : t ∈ l) (hu : u ∈ l)
    (e : u.number = t.number) : u = t := eq_of_nodup_map h.numbers ht hu e

/-- A CABLE ticket enters the table, no line of its list standing as a LINE ticket of its code. -/
theorem MembersOk.enterCable {l : List Ticket} (h : MembersOk l) (t : Ticket) (k : t.isCable = true) (nd : t.lines.Nodup)
    (apart : ∀ k ∈ t.lines, ∀ u ∈ l, u.key ≠ (.line k, t.code)) : MembersOk (l ++ [t]) := by
  have self (j : Nat) (x : FaultCode) : t.key ≠ (.line j, x) := by
    intro e
    have : t.subject = .line j := congrArg Prod.fst e
    unfold Ticket.isCable at k; rw [this] at k; cases k
  intro v hv kv
  have last (u : Ticket) (hu : u ∈ l ++ [t]) : u ∈ l ∨ u = t := by simpa using hu
  rcases last v hv with hv | rfl
  · refine ⟨(h v hv kv).1, fun m hm u hu => ?_⟩
    rcases last u hu with hu | rfl
    · exact (h v hv kv).2 m hm u hu
    · exact self _ _
  · refine ⟨nd, fun m hm u hu => ?_⟩
    rcases last u hu with hu | rfl
    · exact apart m hm u hu
    · exact self _ _

/-- A ticket is entered in a state `s` whose table came from that of `s₀` and is not full. -/
theorem enterTicket_moves (make : Nat → Nat → Ticket) (s₀ s : State) (other : SameWatched s₀ (s.setTickets s₀.tickets))
    (tame : Tame s₀.tickets s.tickets) (hn : ∀ n r, (make n r).number = n) (hs : ∀ n r, (make n r).state ≠ .issued)
    (hk : ∀ n r, (make n r).isCable = true → (s.tickets.filter Ticket.isCable).length < Config.cableCapacity)
    (hm : ∀ n r, (make n r).members.length ≤ Config.memberCapacity)
    (room : TicketsOk s₀.tickets → s.tickets.length < Config.ticketCapacity)
    (new : ∀ n r, (make n r).key ∉ s.tickets.map Ticket.key)
    (apart : ∀ n r, KeysOk s₀.tickets → MembersOk s.tickets → MembersOk (s.tickets ++ [make n r])) :
    Moves s₀ (enterTicket make s) := by
  refine .trans (setTickets_moves s₀ (s.tickets ++ [make (numberFor s) s.raiseCounter]) ⟨fun h => ?_, fun h => ?_, ?_⟩)
    (.same ⟨other.pending, other.claims, other.classMap, rfl, other.inFlight, other.sweeps, other.replies, other.notices,
      other.queue, other.heads, other.frameCount, other.clock⟩)
  · have hr := room h
    refine (tame.bounds h).enter _ hr ?_ (hs _ _) (hk _ _) (hm _ _)
    rw [hn]
    exact numberFor_free s (by unfold Config.ticketCapacity at hr; omega)
  · exact (tame.keys h).enter _ (new _ _)
  · exact fun a b c => apart _ _ b (tame.members a b c)

theorem Ticket.takeSeverity_number (n : Nat) (t : Ticket) : (t.takeSeverity n).number = t.number := by
  unfold Ticket.takeSeverity; split <;> rfl
theorem Ticket.takeSeverity_state (n : Nat) (t : Ticket) : (t.takeSeverity n).state = t.state := by
  unfold Ticket.takeSeverity; split <;> rfl
theorem Ticket.takeSeverity_subject (n : Nat) (t : Ticket) : (t.takeSeverity n).subject = t.subject := by
  unfold Ticket.takeSeverity; split <;> rfl
theorem Ticket.takeSeverity_members (n : Nat) (t : Ticket) : (t.takeSeverity n).members = t.members := by
  unfold Ticket.takeSeverity; split <;> rfl
theorem Ticket.occur_members (f : Finding) (t : Ticket) : (t.occur f).members = t.members :=
  Ticket.takeSeverity_members ..
theorem Ticket.takeSeverity_code (n : Nat) (t : Ticket) : (t.takeSeverity n).code = t.code := by
  unfold Ticket.takeSeverity; split <;> rfl
theorem Ticket.occur_key (f : Finding) (t : Ticket) : (t.occur f).key = t.key := by
  unfold Ticket.key Ticket.occur; rw [Ticket.takeSeverity_subject, Ticket.takeSeverity_code]
theorem Ticket.occur_lines (f : Finding) (t : Ticket) : (t.occur f).lines = t.lines :=
  congrArg (List.map Member.line) (Ticket.occur_members ..)
theorem Ticket.occur_number (f : Finding) (t : Ticket) : (t.occur f).number = t.number := Ticket.takeSeverity_number ..
theorem Ticket.occur_state (f : Finding) (t : Ticket) : (t.occur f).state = t.state := Ticket.takeSeverity_state ..

theorem unlink_moves (t : Ticket) (s : State) : Moves s (unlink t s) := by
  unfold unlink dropLink freeLinks
  split
  · split
    · exact .refl s
    · refine setTickets_moves s _ (Tame.map _ _ fun u => ?_); split <;> exact ⟨rfl, id, rfl, .refl _⟩
  · refine setTickets_moves s _ (Tame.map _ _ fun u => ?_); split <;> exact ⟨rfl, id, rfl, .refl _⟩

theorem dropLink_moves (t : Ticket) (s : State) : Moves s (dropLink t s) := by
  unfold dropLink
  split
  · exact .refl s
  · refine setTickets_moves s _ (Tame.map _ _ fun u => ?_); split <;> exact ⟨rfl, id, rfl, .refl _⟩

/-- An occurrence changes a ticket mildly. -/
theorem Ticket.occur_mild (f : Finding) (t : Ticket) : Mild t (t.occur f) :=
  ⟨Ticket.occur_number .., fun h => (Ticket.occur_state ..).symm.trans h, Ticket.occur_key ..,
    Eq.subst (motive := fun l => l.Sublist t.lines) (Ticket.occur_lines f t).symm (.refl _)⟩

/-! ### Releasing a member (R147) -/

/-- What the release of a line does to one ticket. -/
def Ticket.released (line : Nat) (x : FaultCode) (t : Ticket) : Ticket :=
  if t.isCable && t.code == x then
    match placeOf line t.members with
    | some i => t.removeMember i
    | none => t
  else t

theorem Ticket.released_mild (line : Nat) (x : FaultCode) (t : Ticket) : Mild t (t.released line x) := by
  unfold Ticket.released
  split
  · split
    · exact ⟨rfl, id, rfl, (List.eraseIdx_sublist ..).map _⟩
    · exact .refl t
  · exact .refl t

/-- The line of a member removed from a list that held it once stands there no more. -/
theorem placeOf_erased {line : Nat} {ms : List Member} (nd : (ms.map Member.line).Nodup) {i : Nat}
    (h : placeOf line ms = some i) : line ∉ (ms.eraseIdx i).map Member.line := by
  induction ms generalizing i with
  | nil => simp [placeOf] at h
  | cons m ms ih =>
    rw [List.map_cons, List.nodup_cons] at nd
    unfold placeOf at h ih
    rw [List.findIdx?_cons] at h
    by_cases e : m.line = line
    · simp only [e, beq_self_eq_true, if_true, Option.some.injEq] at h
      subst h; rw [List.eraseIdx_cons_zero]; exact e ▸ nd.1
    · simp only [beq_iff_eq, e, if_false, Option.map_eq_some_iff] at h
      obtain ⟨j, hj, rfl⟩ := h
      rw [List.eraseIdx_cons_succ, List.map_cons, List.mem_cons]
      rintro (h | h)
      · exact e h.symm
      · exact ih nd.2 hj h

theorem placeOf_none {line : Nat} {ms : List Member} (h : placeOf line ms = none) : line ∉ ms.map Member.line := by
  unfold placeOf at h
  rw [List.findIdx?_eq_none_iff] at h
  intro m
  obtain ⟨a, ha, rfl⟩ := List.mem_map.mp m
  simpa using h a ha

theorem Ticket.released_lines {line : Nat} {t : Ticket} (k : t.isCable = true) (nd : t.lines.Nodup) :
    line ∉ (t.released line t.code).lines := by
  unfold Ticket.released
  rw [if_pos (by simp [k])]
  split
  · rename_i h; exact placeOf_erased nd h
  · rename_i h; exact placeOf_none h

/-- A LINE ticket enters the table, and its line leaves every member list of its code. -/
theorem MembersOk.enterLine {l : List Ticket} (h : MembersOk l) (t : Ticket) (line : Nat) (e : t.subject = .line line) :
    MembersOk ((l ++ [t]).map (Ticket.released line t.code)) := by
  have key (u : Ticket) : (u.released line t.code).key = u.key := (Ticket.released_mild ..).key
  have notCable : t.isCable = false := by unfold Ticket.isCable; rw [e]
  intro v hv k
  obtain ⟨u, hu, rfl⟩ := List.mem_map.mp hv
  rw [Ticket.isCable_of_key (key u)] at k
  have code : (u.released line t.code).code = u.code := congrArg Prod.snd (key u)
  rcases List.mem_append.mp hu with hu | hu
  · refine ⟨(h u hu k).1.sublist (Ticket.released_mild ..).lines, fun m hm w hw => ?_⟩
    obtain ⟨w', hw', rfl⟩ := List.mem_map.mp hw
    rw [key, code]
    rcases List.mem_append.mp hw' with hw' | hw'
    · exact (h u hu k).2 m ((Ticket.released_mild ..).lines.subset hm) w' hw'
    · rw [List.mem_singleton.mp hw']
      intro eq
      have e1 : t.subject = .line m := congrArg Prod.fst eq
      have e2 : t.code = u.code := congrArg Prod.snd eq
      rw [e, Subject.line.injEq] at e1
      subst e1
      rw [e2] at hm
      exact Ticket.released_lines k (h u hu k).1 hm
  · rw [List.mem_singleton.mp hu, notCable] at k
    cases k

theorem ticketByNumber_mem {n : Nat} {s : State} {t : Ticket} (h : ticketByNumber n s = some t) :
    t ∈ s.tickets ∧ t.number = n := by
  unfold ticketByNumber at h
  exact ⟨List.mem_of_find?_eq_some h, by simpa using List.find?_some h⟩

/-- The one ticket of a number changes, its key and number kept. -/
theorem updOne_moves (f : Ticket → Ticket) (s : State) (t : Ticket) (mem : t ∈ s.tickets)
    (hn : ∀ u, (f u).number = u.number) (hs : ∀ u, (f u).state = u.state) (hk : ∀ u, (f u).key = u.key)
    (len : TicketsOk s.tickets → (f t).members.length ≤ Config.memberCapacity)
    (lines : TicketsOk s.tickets → MembersOk s.tickets → t.isCable = true →
      (f t).lines.Nodup ∧ ∀ k ∈ (f t).lines, ∀ u ∈ s.tickets, u.key ≠ (.line k, t.code)) :
    Moves s (updTicket t.number f s) := by
  let g : Ticket → Ticket := fun u => if u.number = t.number then { f u with members := u.members } else u
  have key (u : Ticket) : (if u.number = t.number then f u else u).key = u.key := by split <;> simp [hk]
  refine setTickets_moves s _ ⟨fun ok => ?_, .map key, fun ok _ h => ?_⟩
  · have mild : TicketsOk (s.tickets.map g) := by
      refine (Tame.map g s.tickets fun u => ?_).bounds ok
      simp only [g]
      split
      · exact ⟨hn u, fun h => (hs u).symm.trans h, hk u, .refl _⟩
      · exact .refl u
    have e1 : (s.tickets.map fun u => if u.number = t.number then f u else u).map Ticket.number =
        (s.tickets.map g).map Ticket.number := by
      rw [List.map_map, List.map_map]
      refine List.map_congr_left fun u _ => ?_
      simp only [g, Function.comp]; split <;> rfl
    have filt (p : Ticket → Bool) (hp : ∀ u, p (f u) = p { f u with members := u.members }) :
        ((s.tickets.map fun u => if u.number = t.number then f u else u).filter p).length =
          ((s.tickets.map g).filter p).length := by
      rw [List.filter_map, List.filter_map, List.length_map, List.length_map]
      congr 2
      funext u
      simp only [g, Function.comp]; split
      · exact hp u
      · rfl
    refine ⟨by simpa using ok.size, by rw [e1]; exact mild.numbers, ?_, ?_, ?_⟩
    · rw [filt _ fun _ => rfl]; exact mild.issued
    · rw [filt _ fun _ => rfl]; exact mild.cables
    · intro v hv
      obtain ⟨u, hu, rfl⟩ := List.mem_map.mp hv
      split
      · rename_i e
        have := ok.same mem hu e
        subst this
        exact len ok
      · exact ok.members u hu
  · intro v hv kv
    obtain ⟨u, hu, rfl⟩ := List.mem_map.mp hv
    rw [Ticket.isCable_of_key (key u)] at kv
    rw [show (if u.number = t.number then f u else u).code = u.code from congrArg Prod.snd (key u)]
    have apart {ls : List Nat} (a : ∀ k ∈ ls, ∀ w ∈ s.tickets, w.key ≠ (.line k, u.code)) :
        ∀ k ∈ ls, ∀ w ∈ s.tickets.map (fun u => if u.number = t.number then f u else u), w.key ≠ (.line k, u.code) := by
      intro k hk' w' hw'
      obtain ⟨w, hw, rfl⟩ := List.mem_map.mp hw'
      rw [key]; exact a k hk' w hw
    split
    · rename_i e
      have := ok.same mem hu e
      subst this
      exact ⟨(lines ok h kv).1, apart (lines ok h kv).2⟩
    · exact ⟨(h u hu kv).1, apart (h u hu kv).2⟩

/-- A member entry replaced by another of its line leaves the lines of the list. -/
theorem lines_modify {ms : List Member} {i : Nat} {f : Member → Member}
    (h : ∀ m, ms[i]? = some m → (f m).line = m.line) : (ms.modify i f).map Member.line = ms.map Member.line := by
  refine List.ext_getElem? fun j => ?_
  rw [List.getElem?_map, List.getElem?_map, List.getElem?_modify]
  by_cases e : i = j
  · subst e
    cases hm : ms[i]? with
    | none => rfl
    | some m => simp [h m hm]
  · cases ms[j]? <;> simp [e]

theorem placeOf_line {line : Nat} {ms : List Member} {i : Nat} (h : placeOf line ms = some i) {m : Member}
    (hm : ms[i]? = some m) : m.line = line := by
  unfold placeOf at h
  rw [List.findIdx?_eq_some_iff_getElem] at h
  obtain ⟨hi, hp, _⟩ := h
  rw [List.getElem?_eq_getElem hi, Option.some.injEq] at hm
  subst hm; simpa using hp

/-- A CABLE ticket of a finding's code takes it, where the finding's line has no LINE ticket of the code (R148). -/
theorem memberUpdate_moves (n : Nat) (f : Finding) (s : State)
    (code : TicketsOk s.tickets → ∀ t, ticketByNumber n s = some t → t.code = f.code)
    (apart : ∀ u ∈ s.tickets, u.key ≠ (.line f.line, f.code)) : Moves s (memberUpdate n f s) := by
  unfold memberUpdate
  split
  · exact .refl s
  · rename_i t ht
    obtain ⟨mem, hnum⟩ := ticketByNumber_mem ht
    dsimp only
    split
    · rename_i i hi
      refine .trans ?_ (countTickets_moves _ _)
      have same : (t.members.modify i fun old =>
          { memberOf f.line f.value f.quals f.program f.time with mark := old.mark }).map Member.line = t.lines :=
        lines_modify fun m hm => (placeOf_line hi hm).symm
      rw [← hnum]
      refine updOne_moves _ s t mem (fun u => Ticket.occur_number ..) (fun u => Ticket.occur_state ..)
        (fun u => Ticket.occur_key ..) (fun ok => ?_) fun ok h k => ?_
      · rw [Ticket.occur_members]; simpa using ok.members t mem
      · rw [Ticket.occur_lines]; unfold Ticket.lines; rw [same]; exact h t mem k
    · rename_i none
      split
      · rename_i room
        refine .trans ?_ (countTickets_moves _ _)
        rw [← hnum]
        refine updOne_moves _ s t mem (fun u => Ticket.occur_number ..) (fun u => Ticket.occur_state ..)
          (fun u => Ticket.occur_key ..) (fun ok => ?_) fun ok h k => ?_
        · rw [Ticket.occur_members, List.length_append, List.length_singleton]; exact room
        · have e : ({ t with members := t.members ++ [memberOf f.line f.value f.quals f.program f.time] } : Ticket).lines =
              t.lines ++ [f.line] := by simp [Ticket.lines, memberOf]
          rw [Ticket.occur_lines, e]
          refine ⟨?_, fun l hl u hu => ?_⟩
          · rw [List.nodup_append]
            refine ⟨(h t mem k).1, by simp, fun a ha b hb e => ?_⟩
            rw [List.mem_singleton] at hb
            subst hb; subst e
            exact placeOf_none none ha
          · rcases List.mem_append.mp hl with hl | hl
            · exact (h t mem k).2 l hl u hu
            · rw [List.mem_singleton.mp hl, code ok t ht]; exact apart u hu
      · refine .trans (updTicket_moves s _ _ fun u => ?_) (countTickets_moves _ _)
        refine .trans (u := { u with overflow := u.overflow + 1 }) ?_ (Ticket.occur_mild f _)
        exact ⟨rfl, id, rfl, .refl _⟩

theorem insertByRaise_perm (s : State) (t : Ticket) (l : List Ticket) : (insertByRaise s t l).Perm (t :: l) := by
  induction l with
  | nil => exact .refl _
  | cons u l ih =>
    unfold insertByRaise
    split
    · exact .refl _
    · exact (ih.cons u).trans (.swap t u l)

/-- Tickets in raise order are the tickets. -/
theorem byRaise_perm (s : State) (l : List Ticket) : (byRaise s l).Perm l := by
  induction l with
  | nil => exact .refl _
  | cons t l ih => unfold byRaise at ih ⊢; rw [List.foldr_cons]; exact (insertByRaise_perm s t _).trans (ih.cons t)

theorem mergedOf_length (s : State) (new : Ticket) (all : List Ticket) : (mergedOf s new all).length ≤ Config.memberCapacity := by
  unfold mergedOf
  rw [(byRaise_perm ..).length_eq, List.length_cons, List.length_take]
  unfold Config.memberCapacity; omega

theorem mem_mergedOf (s : State) (new : Ticket) (all : List Ticket) : new ∈ mergedOf s new all := by
  unfold mergedOf; rw [(byRaise_perm ..).mem_iff]; simp

/-- A filter that drops a member shortens a list. -/
theorem length_filter_lt {α : Type} {p : α → Bool} {l : List α} (h : ∃ x ∈ l, p x = false) :
    (l.filter p).length < l.length := by
  obtain ⟨x, hx, hp⟩ := h
  exact List.length_filter_lt_length_iff_exists.mpr ⟨x, hx, by simp [hp]⟩

/-- The merged tickets are the new one and others of the counted ones (R146). -/
theorem mergedOf_mem {s : State} {new t : Ticket} {all : List Ticket} (h : t ∈ mergedOf s new all) : t = new ∨ t ∈ all := by
  unfold mergedOf at h
  rw [(byRaise_perm ..).mem_iff, List.mem_cons] at h
  refine h.imp_right fun h => ?_
  have := List.mem_of_mem_take h
  rw [(byRaise_perm ..).mem_iff] at this
  exact (List.mem_filter.mp this).1

/-- No two merged tickets share a key, where no two of the table do. -/
theorem mergedOf_keys (s : State) {new : Ticket} {all l : List Ticket} (keys : KeysOk l) (hn : new ∈ l)
    (ha : all.Sublist l) : KeysOk (mergedOf s new all) := by
  unfold KeysOk mergedOf
  dsimp only
  refine ((byRaise_perm ..).map Ticket.key).nodup_iff.mpr ?_
  rw [List.map_cons, List.nodup_cons]
  refine ⟨fun h => ?_, ?_⟩
  · obtain ⟨t, ht, e⟩ := List.mem_map.mp h
    have ht := List.mem_of_mem_take ht
    rw [(byRaise_perm ..).mem_iff, List.mem_filter] at ht
    have := keys.same hn (ha.subset ht.1) e
    subst this
    simp at ht
  · refine List.Pairwise.sublist ((List.take_sublist ..).map _) ?_
    refine ((byRaise_perm ..).map Ticket.key).nodup_iff.mpr ?_
    exact List.Pairwise.sublist (((List.filter_sublist).trans ha).map _) keys

/-- The line of a LINE ticket's member entry is its key's. -/
theorem memberOfTicket_key {t : Ticket} (h : t.isCable = false) : t.key = (.line (memberOfTicket t).line, t.code) := by
  unfold Ticket.isCable at h
  unfold Ticket.key memberOfTicket memberOf
  cases e : t.subject <;> simp_all

/-- The merged tickets leave the table, so the CABLE ticket finds room (R120, R145), and no line of its list has a LINE
ticket of its code (R123). -/
theorem formCable_moves (c : Fin 256) (new : Ticket) (all : List Ticket) (s : State) (hn : new ∈ s.tickets)
    (kind : new.isCable = false) (ha : all.Sublist s.tickets)
    (like : ∀ t ∈ all, t.isCable = false ∧ t.code = new.code) (none : ∀ t ∈ s.tickets, t.key ≠ (.cable c.val, new.code))
    (few : cableTickets s < Config.cableCapacity) : Moves s (formCable c new all s) := by
  have merged {t : Ticket} (h : t ∈ mergedOf s new all) : t ∈ s.tickets ∧ t.key = (.line (memberOfTicket t).line, new.code) := by
    rcases mergedOf_mem h with rfl | h
    · exact ⟨hn, memberOfTicket_key kind⟩
    · exact ⟨ha.subset h, by rw [memberOfTicket_key (like t h).1, (like t h).2]⟩
  have linkKey (n : List Nat) (t : Ticket) : (if t.number ∈ n then { t with linked := some c.val } else t).key = t.key := by
    split <;> rfl
  unfold formCable
  dsimp only
  refine enterTicket_moves _ s _ ⟨rfl, rfl, rfl, rfl, rfl, rfl, rfl, rfl, rfl, rfl, rfl, rfl⟩
    (Tame.trans (Tame.filter _ _) (Tame.map _ _ fun t => ?_)) (fun _ _ => rfl) (fun _ _ => by simp [formedTicket])
    (fun _ _ _ => ?_) (fun _ _ => ?_) (fun ok => ?_) (fun _ _ h => ?_) fun _ _ keys h => ?_
  · split <;> exact ⟨rfl, id, rfl, .refl _⟩
  · refine Nat.lt_of_le_of_lt ?_ few
    unfold cableTickets
    simp only [State.setTickets, List.filter_map, List.length_map]
    refine Nat.le_trans (Nat.le_of_eq (congrArg (fun p => (List.filter p _).length) (?_ : _ = Ticket.isCable))) ?_
    · funext t; simp only [Function.comp]; split <;> rfl
    · exact ((List.filter_sublist).filter _).length_le
  · simp only [formedTicket, List.length_map]; exact mergedOf_length ..
  · simp only [State.setTickets, List.length_map]
    refine Nat.lt_of_lt_of_le (length_filter_lt ⟨new, hn, ?_⟩) ok.size
    simp only [decide_eq_false_iff_not, Classical.not_not]
    exact List.mem_map_of_mem (mem_mergedOf _ new all)
  · obtain ⟨t, ht, e⟩ := List.mem_map.mp h
    obtain ⟨u, hu, rfl⟩ := List.mem_map.mp ht
    rw [linkKey] at e
    exact none u (List.mem_filter.mp hu).1 e
  · refine h.enterCable _ rfl ?_ fun k hk u hu => ?_
    · have nd := mergedOf_keys s keys hn ha
      have distinct : ((mergedOf s new all).map fun t => (memberOfTicket t).line).Nodup := by
        unfold KeysOk at nd
        rw [List.Nodup, List.pairwise_map] at nd ⊢
        exact nd.imp_of_mem fun {t u} ht hu h e => h (by rw [(merged ht).2, (merged hu).2, e])
      simpa [Ticket.lines, formedTicket, Function.comp_def] using distinct
    · obtain ⟨u', hu', rfl⟩ := List.mem_map.mp hu
      obtain ⟨hu', out⟩ := List.mem_filter.mp hu'
      rw [linkKey]
      simp only [Ticket.lines, formedTicket, List.map_map, List.mem_map, Function.comp] at hk
      obtain ⟨t, ht, rfl⟩ := hk
      intro e
      have := keys.same (merged ht).1 hu' (e.trans (merged ht).2.symm)
      subst this
      simp only [decide_eq_true_eq] at out
      exact out (List.mem_map_of_mem ht)

theorem releaseMembers_tickets (line : Nat) (x : FaultCode) (s : State) :
    (releaseMembers line x s).tickets = s.tickets.map (Ticket.released line x) := rfl

theorem counted_like {c : Fin 256} {x : FaultCode} {n : Nat} {s : State} {t : Ticket} (h : counted c x n s t = true) :
    t.isCable = false ∧ t.code = x := by
  unfold counted at h
  unfold Ticket.isCable
  split at h
  · cases h
  · rename_i e; simp only [Bool.and_eq_true, beq_iff_eq] at h; exact ⟨by first | rw [e] | rfl, h.1.1.1⟩

theorem ticketByKey_none {k : Subject} {x : FaultCode} {s : State} (h : ticketByKey k x s = none) :
    ∀ t ∈ s.tickets, t.key ≠ (k, x) := by
  unfold ticketByKey at h
  rw [List.find?_eq_none] at h
  intro t ht e
  have e1 : t.subject = k := congrArg Prod.fst e
  have e2 : t.code = x := congrArg Prod.snd e
  exact h t ht (by simp [e1, e2])

/-- The correlation test that follows the release of the new ticket's line (R144). -/
theorem correlate_moves (line : Nat) (new : Ticket) (s₀ s : State) (kind : new.isCable = false) (hn : new ∈ s.tickets)
    (m : Moves s₀ (releaseMembers line new.code s)) : Moves s₀ (correlate line new s) := by
  unfold correlate
  dsimp only
  split
  · exact m
  · split
    · exact m
    · split
      · rename_i ok
        refine .trans m (formCable_moves _ _ _ _ ?_ kind (List.filter_sublist) (fun t ht => counted_like (List.mem_filter.mp ht).2)
          (ticketByKey_none (Option.isNone_iff_eq_none.mp ok.2.1)) ok.2.2.1)
        rw [releaseMembers_tickets]
        refine List.mem_map.mpr ⟨new, hn, ?_⟩
        unfold Ticket.released; rw [if_neg (by simp [kind])]
      · exact m

theorem raiseTicket_moves (f : Finding) (s₀ s : State) (other : SameWatched s₀ (s.setTickets s₀.tickets))
    (tame : Tame s₀.tickets s.tickets) (room : TicketsOk s₀.tickets → s.tickets.length < Config.ticketCapacity)
    (new : ∀ u ∈ s.tickets, u.key ≠ (.line f.line, f.code)) : Moves s₀ (raiseTicket f s) := by
  unfold raiseTicket
  dsimp only
  refine correlate_moves _ _ _ _ rfl ?_ ?_
  · simp [countTickets, State.setTicketCounters, enterTicket]
  let t := lineTicket f (numberFor s) s.raiseCounter
  refine .trans (setTickets_moves s₀ ((s.tickets ++ [t]).map (Ticket.released f.line f.code)) ⟨fun h => ?_, fun h => ?_, ?_⟩) ?_
  · refine (Tame.map _ _ fun u => Ticket.released_mild ..).bounds ?_
    have hr := room h
    exact (tame.bounds h).enter _ hr (numberFor_free s (by unfold Config.ticketCapacity at hr; omega))
      (by simp [t, lineTicket]) (fun k => by simp [t, lineTicket, Ticket.isCable] at k) (Nat.zero_le _)
  · refine ((tame.keys h).enter _ fun h => ?_).map fun u => (Ticket.released_mild ..).key
    obtain ⟨u, hu, e⟩ := List.mem_map.mp h
    exact new u hu e
  · exact fun a b c => (tame.members a b c).enterLine t f.line rfl
  · have e := other.inFlight
    refine .trans (setInFlight_moves _ (releaseMembers f.line f.code (countTickets _ (enterTicket (lineTicket f) s))).inFlight ?_)
      (.same ⟨other.pending, other.claims, other.classMap, rfl, rfl, other.sweeps, other.replies, other.notices,
        other.queue, other.heads, other.frameCount, other.clock⟩)
    have e' : s.inFlight = s₀.inFlight := e
    simp [releaseMembers, State.setInFlight, State.setTickets, countTickets, State.setTicketCounters, enterTicket, e']

theorem evictFrom_mem {s : State} {l : List Ticket} {t : Ticket} (h : evictFrom s l = some t) : t ∈ l := by
  induction l generalizing t with
  | nil => simp [evictFrom] at h
  | cons u l ih =>
    unfold evictFrom at h
    split at h
    · simp_all
    · rename_i v hv
      split at h
      · simp only [Option.some.injEq] at h; subst h; exact List.mem_cons_of_mem _ (ih hv)
      · simp only [Option.some.injEq] at h; subst h; simp

theorem dropLink_tame (t : Ticket) (s : State) : Tame s.tickets (dropLink t s).tickets := by
  unfold dropLink
  split
  · exact Tame.refl _
  · refine Tame.map _ _ fun u => ?_; split <;> exact ⟨rfl, id, rfl, .refl _⟩

theorem dropLink_keys (t : Ticket) (s : State) : (dropLink t s).tickets.map Ticket.key = s.tickets.map Ticket.key := by
  unfold dropLink
  split
  · rfl
  · simp only [State.setTickets, List.map_map]
    refine List.map_congr_left fun u _ => ?_
    simp only [Function.comp]; split <;> rfl

theorem dropLink_length (t : Ticket) (s : State) : (dropLink t s).tickets.length = s.tickets.length := by
  unfold dropLink
  split
  · rfl
  · simp only [State.setTickets, List.length_map]

theorem dropLink_other (t : Ticket) (s : State) : SameWatched s ((dropLink t s).setTickets s.tickets) := by
  unfold dropLink
  split <;> exact ⟨rfl, rfl, rfl, rfl, rfl, rfl, rfl, rfl, rfl, rfl, rfl, rfl⟩

/-- An eviction makes room (R126). -/
theorem raiseWithRoom_moves (f : Finding) (s : State) (new : ∀ u ∈ s.tickets, u.key ≠ (.line f.line, f.code)) :
    Moves s (raiseWithRoom f s) := by
  unfold raiseWithRoom
  split
  · exact raiseTicket_moves f s s ⟨rfl, rfl, rfl, rfl, rfl, rfl, rfl, rfl, rfl, rfl, rfl, rfl⟩ (Tame.refl _) (fun _ => ‹_›) new
  · split
    · exact countTickets_moves ..
    · rename_i t ht
      have mem : t ∈ s.tickets := (List.mem_filter.mp (evictFrom_mem ht)).1
      have o := dropLink_other t
        (countTickets (fun c => { c with evicted := satInc c.evicted }) (removeTicket t.number s))
      have out : Tame s.tickets (countTickets (fun c => { c with evicted := satInc c.evicted })
          (removeTicket t.number s)).tickets := Tame.filter _ _
      refine raiseTicket_moves f s _ ⟨o.pending, o.claims, o.classMap, rfl, o.inFlight, o.sweeps, o.replies, o.notices,
          o.queue, o.heads, o.frameCount, o.clock⟩
        (Tame.trans out (dropLink_tame _ _)) (fun ok => ?_) fun u hu e => ?_
      · rw [dropLink_length]
        refine Nat.lt_of_lt_of_le (length_filter_lt ⟨t, mem, ?_⟩) ok.size
        simp
      · have := List.mem_map_of_mem (f := Ticket.key) hu
        rw [dropLink_keys, e] at this
        obtain ⟨v, hv, e⟩ := List.mem_map.mp this
        exact new v (List.mem_filter.mp hv).1 e

theorem ticketByKey_mem {k : Subject} {x : FaultCode} {s : State} {t : Ticket} (h : ticketByKey k x s = some t) :
    t ∈ s.tickets ∧ t.code = x := by
  unfold ticketByKey at h
  have := List.find?_some h
  simp only [Bool.and_eq_true, beq_iff_eq] at this
  exact ⟨List.mem_of_find?_eq_some h, this.2⟩

theorem placeFinding_moves (f : Finding) (s : State) : Moves s (placeFinding f s) := by
  unfold placeFinding
  split
  · refine .trans ?_ (countTickets_moves _ _)
    exact updTicket_moves s _ _ (Ticket.occur_mild f)
  · rename_i unfiled
    split
    · rename_i t ht
      obtain ⟨c, _, ht⟩ := Option.bind_eq_some_iff.mp ht
      obtain ⟨mem, code⟩ := ticketByKey_mem ht
      refine memberUpdate_moves _ f s (fun ok u hu => ?_) (ticketByKey_none unfiled)
      obtain ⟨hu, e⟩ := ticketByNumber_mem hu
      rw [ok.same mem hu e, code]
    · exact raiseWithRoom_moves f s (ticketByKey_none unfiled)

theorem handFinding_moves (s : State) (f : Finding) : Moves s (handFinding s f) :=
  .trans (countTickets_moves ..) (placeFinding_moves ..)

theorem handFindings_moves (l : List Finding) (s : State) : Moves s (handFindings l s) := .foldl handFinding_moves l s

/-! ### What the findings leave alone -/

/-- Nothing but the fields of the ticket unit differs: the tickets, their counters and the retests in flight. -/
def TicketsOnly (s t : State) : Prop :=
  t = { s with
    tickets := t.tickets, numberCounter := t.numberCounter, raiseCounter := t.raiseCounter
    inFlight := t.inFlight, ticketCounters := t.ticketCounters }

theorem TicketsOnly.refl (s : State) : TicketsOnly s s := rfl

theorem TicketsOnly.trans {s t u : State} (h : TicketsOnly s t) (k : TicketsOnly t u) : TicketsOnly s u := by
  unfold TicketsOnly at *; rw [k, h]

theorem countTickets_only (f : TicketCounters → TicketCounters) (s : State) : TicketsOnly s (countTickets f s) := rfl

theorem releaseMembers_only (line : Nat) (x : FaultCode) (s : State) : TicketsOnly s (releaseMembers line x s) := rfl

theorem correlate_only (line : Nat) (new : Ticket) (s : State) : TicketsOnly s (correlate line new s) := by
  have r := releaseMembers_only line new.code s
  unfold correlate
  dsimp only
  split
  · exact r
  · split
    · exact r
    · split
      · exact r.trans rfl
      · exact r

theorem raiseTicket_only (f : Finding) (s : State) : TicketsOnly s (raiseTicket f s) :=
  .trans (show TicketsOnly s (countTickets _ (enterTicket (lineTicket f) s)) from rfl) (correlate_only ..)

theorem dropLink_only (t : Ticket) (s : State) : TicketsOnly s (dropLink t s) := by
  unfold dropLink; split <;> rfl

theorem raiseWithRoom_only (f : Finding) (s : State) : TicketsOnly s (raiseWithRoom f s) := by
  unfold raiseWithRoom
  split
  · exact raiseTicket_only ..
  · split
    · exact countTickets_only ..
    · exact .trans (.trans (show TicketsOnly s (countTickets _ (removeTicket _ s)) from rfl) (dropLink_only ..))
        (raiseTicket_only ..)

theorem memberUpdate_only (n : Nat) (f : Finding) (s : State) : TicketsOnly s (memberUpdate n f s) := by
  unfold memberUpdate
  repeat' split
  all_goals rfl

theorem placeFinding_only (f : Finding) (s : State) : TicketsOnly s (placeFinding f s) := by
  unfold placeFinding
  split
  · rfl
  · split
    · exact memberUpdate_only ..
    · exact raiseWithRoom_only ..

/-- The findings of an evaluation change the ticket unit alone (R117, R123): every other field is as it was. -/
theorem handFindings_only (l : List Finding) (s : State) : TicketsOnly s (handFindings l s) := by
  unfold handFindings
  induction l generalizing s with
  | nil => exact .refl s
  | cons f l ih => exact .trans (.trans (countTickets_only ..) (placeFinding_only ..)) (ih _)

/-! ### Issue (R128) -/

theorem firstOf_mem {s : State} {l : List Ticket} {t : Ticket} (h : firstOf s l = some t) : t ∈ l := by
  induction l generalizing t with
  | nil => simp [firstOf] at h
  | cons u l ih =>
    unfold firstOf at h
    split at h
    · simp_all
    · rename_i v hv
      split at h
      · simp only [Option.some.injEq] at h; subst h; exact List.mem_cons_of_mem _ (ih hv)
      · simp only [Option.some.injEq] at h; subst h; simp

/-- Changing the one ticket of a number raises the count of ISSUED tickets by at most one. -/
theorem issued_map_le (n : Nat) (l : List Ticket) (nd : (l.map Ticket.number).Nodup) :
    ((l.map fun t => if t.number = n then { t with state := .issued } else t).filter
      fun t => t.state == .issued).length ≤ (l.filter fun t => t.state == .issued).length + 1 := by
  induction l with
  | nil => simp
  | cons t l ih =>
    rw [List.map_cons, List.nodup_cons] at nd
    by_cases h : t.number = n
    · have same : (l.map fun t => if t.number = n then { t with state := .issued } else t) = l := by
        conv => rhs; rw [← List.map_id l]
        refine List.map_congr_left fun u hu => ?_
        rw [if_neg]; · rfl
        intro e; exact nd.1 (h ▸ e ▸ List.mem_map_of_mem hu)
      rw [List.map_cons, same, if_pos h, List.filter_cons_of_pos (by simp)]
      simp only [List.length_cons, Nat.add_le_add_iff_right]
      exact ((List.sublist_cons_self t l).filter _).length_le
    · rw [List.map_cons, if_neg h, List.filter_cons, List.filter_cons]
      have := ih nd.2
      split <;> (try simp only [List.length_cons]) <;> omega

/-- Issue keeps the window within ten (R128). -/
theorem issue_moves (t : Ticket) (s : State) (h : mayIssue t s = true) : Moves s (issue t s) := by
  have key (u : Ticket) : (if u.number = t.number then { u with state := .issued } else u).key = u.key := by split <;> rfl
  have lines (u : Ticket) : (if u.number = t.number then { u with state := .issued } else u).lines.Sublist u.lines := by
    split <;> exact .refl _
  refine setTickets_moves s _ ⟨fun ok => ⟨Nat.le_trans (Nat.le_of_eq (List.length_map _)) ok.size, ?_, ?_, ?_, ?_⟩,
    .map key, fun _ _ => .map key lines⟩
  rotate_left 2
  · refine Nat.le_trans (Nat.le_of_eq ?_) ok.cables
    rw [List.filter_map, List.length_map]
    congr 2
    funext u; simp only [Function.comp]; split <;> rfl
  · intro v hv
    obtain ⟨u, hu, rfl⟩ := List.mem_map.mp hv
    dsimp only; split <;> exact ok.members u hu
  · refine Eq.mpr (congrArg _ ?_) ok.numbers
    rw [List.map_map]
    refine List.map_congr_left fun u _ => ?_
    simp only [Function.comp]; split <;> rfl
  · have w : issueWindow s < 10 := by
      unfold mayIssue at h; split at h <;> simp only [decide_eq_true_eq] at h <;> omega
    exact Nat.le_trans (issued_map_le t.number s.tickets ok.numbers) w

end Sys2Proof.Machine
end

