-- ==== Sys2Proof/Laws/SweepMoves.lean ====
section
/-! SUPPORT. The sweep engine, the arbiter and the retest scheduler move the state (Laws.Moves): deferred lists keep within
their sixteen places (R155, R161) and retests within their four (R135). -/

namespace Sys2Proof.Machine

variable (s : State)

/-! ### The sweep engine -/

theorem satInc_le (n : Nat) : satInc n ≤ countMax := Nat.min_le_right ..

theorem satAdd_le (n m : Nat) : satAdd n m ≤ countMax := Nat.min_le_right ..

/-- A count of a descriptor that is raised stays within 32 bits (R155). -/
def CountsKept (f : SweepCounts → SweepCounts) : Prop := ∀ c, c.ok = true → (f c).ok = true

theorem setSweep_moves (d : SweepNo) (x : Descriptor) (h : x.deferred.Sublist s.sweeps[d].deferred)
    (counts : s.sweeps[d].counts.ok = true → x.counts.ok = true) : Moves s (s.setSweep d x) := .one (.sweep s d x h counts)

theorem keepDeferred_moves (d : SweepNo) (x : Descriptor)
    (h : (x.deferred, x.counts) = (s.sweeps[d].deferred, s.sweeps[d].counts)) : Moves s (s.setSweep d x) :=
  setSweep_moves s d x ((Prod.mk.inj h).1 ▸ .refl _) ((Prod.mk.inj h).2 ▸ id)

theorem countSweep_moves (d : SweepNo) (f : SweepCounts → SweepCounts) (h : CountsKept f) : Moves s (countSweep d f s) :=
  setSweep_moves s d _ (.refl _) (h _)

section
variable {c : SweepCounts}

theorem SweepCounts.ok_iff : c.ok = true ↔ c.tested ≤ countMax ∧ c.skippedTicketed ≤ countMax ∧ c.suppressed ≤ countMax
    ∧ c.excluded ≤ countMax ∧ c.lockedLines ≤ countMax ∧ c.noLine ≤ countMax ∧ c.headFault ≤ countMax
    ∧ c.deferred ≤ countMax ∧ c.unreachable ≤ countMax ∧ c.faultsFound ≤ countMax := by
  simp only [SweepCounts.ok, sweepCountList, List.all_cons, List.all_nil, Bool.and_eq_true, decide_eq_true_eq, and_true]

end

theorem countTested_kept (n : Nat) :
    CountsKept fun c => { c with tested := satInc c.tested, faultsFound := satAdd c.faultsFound n } := fun c h => by
  rw [SweepCounts.ok_iff] at h ⊢; simp only [satInc_le, satAdd_le, h, and_self]
theorem countTicketed_kept : CountsKept fun c => { c with skippedTicketed := satInc c.skippedTicketed } := fun c h => by
  rw [SweepCounts.ok_iff] at h ⊢; simp only [satInc_le, h, and_self]
theorem countSuppressed_kept : CountsKept fun c => { c with suppressed := satInc c.suppressed } := fun c h => by
  rw [SweepCounts.ok_iff] at h ⊢; simp only [satInc_le, h, and_self]
theorem countExcluded_kept : CountsKept fun c => { c with excluded := satInc c.excluded } := fun c h => by
  rw [SweepCounts.ok_iff] at h ⊢; simp only [satInc_le, h, and_self]
theorem countLocked_kept : CountsKept fun c => { c with lockedLines := satInc c.lockedLines } := fun c h => by
  rw [SweepCounts.ok_iff] at h ⊢; simp only [satInc_le, h, and_self]
theorem countNoLine_kept : CountsKept fun c => { c with noLine := satInc c.noLine } := fun c h => by
  rw [SweepCounts.ok_iff] at h ⊢; simp only [satInc_le, h, and_self]
theorem countHeadFault_kept : CountsKept fun c => { c with headFault := satInc c.headFault } := fun c h => by
  rw [SweepCounts.ok_iff] at h ⊢; simp only [satInc_le, h, and_self]
theorem countDeferred_kept : CountsKept fun c => { c with deferred := satInc c.deferred } := fun c h => by
  rw [SweepCounts.ok_iff] at h ⊢; simp only [satInc_le, h, and_self]
theorem countUnreachable_kept : CountsKept fun c => { c with unreachable := satInc c.unreachable } := fun c h => by
  rw [SweepCounts.ok_iff] at h ⊢; simp only [satInc_le, h, and_self]

/-- A request enters the access wait queue, one of an origin within its limit (R43, R44). -/
theorem enterRequest_moves (r : Holder) (cls line : Nat)
    (h : ∀ o, r = .origin o → (s.queue.filter fun e => e.requester == .origin o).length < waitingLimit o) :
    Moves s (enterRequest r cls line s) :=
  .trans (.one (.join s { requester := r, cls := cls, line := line, arrival := s.arrivals, waiting := (claimOf line s).isSome } h))
    (.kept rfl)

theorem removeRequests_moves (p : WaitEntry → Bool) : Moves s (removeRequests p s) :=
  setQueue_moves _ _ (.sublist List.filter_sublist)

theorem deferLine_moves (d : SweepNo) (line : Nat) (phase : LinePhase) : Moves s (deferLine d line phase s) := by
  unfold deferLine
  split
  · dsimp only
    split
    · rename_i h
      exact .one (.defer s d _ line h.1 h.2 rfl (countDeferred_kept _))
    · exact countSweep_moves _ _ _ countUnreachable_kept
  · exact countSweep_moves _ _ _ countUnreachable_kept

theorem requestLine_moves (d : SweepNo) (line : Nat) (phase : LinePhase) : Moves s (requestLine d line phase s) :=
  .after (enterRequest_moves _ _ _ _ nofun) (keepDeferred_moves s d _ (by rfl))

theorem takeLine_moves (d : SweepNo) (line : Nat) (phase : LinePhase) : Moves s (takeLine d line phase s) := by
  unfold takeLine
  split
  · exact countSweep_moves _ _ _ countExcluded_kept
  split
  · exact countSweep_moves _ _ _ countTicketed_kept
  split
  · exact countSweep_moves _ _ _ countSuppressed_kept
  split
  · exact deferLine_moves ..
  · exact requestLine_moves ..

theorem endPass_moves (d : SweepNo) (c : SweepConfig) : Moves s (endPass d c s) := by
  unfold endPass
  dsimp only
  split
  · split
    · exact keepDeferred_moves s d _ (by rfl)
    · exact .after (pushNotice_moves ..) (keepDeferred_moves s d _ (by rfl))
  · exact .after (pushNotice_moves ..) (keepDeferred_moves s d _ (by rfl))

theorem sweepRun_moves (d : SweepNo) (fuel : Nat) : Moves s (sweepRun d fuel s) := by
  induction fuel generalizing s with
  | zero => exact .refl s
  | succ fuel ih =>
    unfold sweepRun
    dsimp only
    split
    · exact .refl s
    split
    · exact .refl s
    split
    · split
      · split
        · exact .after (ih _) (.after (takeLine_moves ..) (keepDeferred_moves s d _ (by rfl)))
        · exact .refl s
      · split
        · exact .after (ih _) (endPass_moves ..)
        · exact .after (ih _) (keepDeferred_moves s d _ (by rfl))
    · split
      · exact .after (ih _) (endPass_moves ..)
      · rename_i line rest e
        split
        · refine .after (ih _) (.after (takeLine_moves ..) (setSweep_moves s d _ ?_ id))
          rw [e]; exact List.sublist_cons_self ..
        · exact .refl s

theorem sweepStep_moves (d : SweepNo) : Moves s (sweepStep d s) := sweepRun_moves ..

theorem countLineEnd_moves (d : SweepNo) (line : Nat) (phase : LinePhase) (e : LineEnd) :
    Moves s (countLineEnd d line phase e s) := by
  unfold countLineEnd
  split
  · exact deferLine_moves ..
  · exact countSweep_moves _ _ _ countNoLine_kept
  · exact countSweep_moves _ _ _ countHeadFault_kept
  · exact countSweep_moves _ _ _ (countTested_kept _)

theorem leaveActive_moves (d : SweepNo) (line : Nat) (e : LineEnd) : Moves s (leaveActive d line e s) := by
  unfold leaveActive
  dsimp only
  split
  · exact .after (pushNotice_moves ..) (keepDeferred_moves s d _ (by rfl))
  split
  · exact keepDeferred_moves s d _ (by rfl)
  · exact .after (sweepStep_moves ..) (keepDeferred_moves s d _ (by rfl))

theorem sweepLineEnded_moves (d : SweepNo) (e : LineEnd) (locked : Bool) : Moves s (sweepLineEnded d e locked s) := by
  unfold sweepLineEnded
  dsimp only
  split
  · exact .refl s
  · refine .after (leaveActive_moves ..) ?_
    split
    · exact .after (countSweep_moves _ _ _ countLocked_kept) (.after (countLineEnd_moves ..) (keepDeferred_moves s d _ (by rfl)))
    · exact .after (countLineEnd_moves ..) (keepDeferred_moves s d _ (by rfl))

/-! ### The arbiter -/

theorem takeGrant_moves (b : BusNo) (e : WaitEntry) : Moves s (takeGrant b e s) :=
  .after (countBus_moves ..) (.after (.after (setPathEntry_moves ..) (setBus_moves ..)) (addClaim_moves ..))

theorem deferRivals_moves (line : Nat) : Moves s (deferRivals line s) :=
  .after (.foldl (fun _ _ => sweepLineEnded_moves ..) _ _) (removeRequests_moves ..)

theorem removeEntry_moves (e : WaitEntry) : Moves s (removeEntry e s) :=
  setQueue_moves s _ (.sublist List.erase_sublist)

theorem grant_moves (b : BusNo) (e : WaitEntry) : Moves s (grant b e s) :=
  .after (deferRivals_moves ..) (.after (takeGrant_moves ..) (.trans (removeEntry_moves s e) (.kept rfl)))

theorem grantSteps_moves (fuel : Nat) : Moves s (grantSteps fuel s) := by
  induction fuel generalizing s with
  | zero => exact .refl s
  | succ fuel ih =>
    unfold grantSteps
    split
    · exact .after (ih _) (grant_moves ..)
    · exact .refl s

theorem grantPass_moves : Moves s (grantPass s) := grantSteps_moves ..

theorem clearWaiting_moves (line : Option Nat) : Moves s (clearWaiting line s) :=
  setQueue_moves _ _ (.map _ _ fun e => by split <;> rfl)

theorem sweepReport_moves (d : SweepNo) (e : LineEnd) (locked : Bool) : Moves s (sweepReport d e locked s) :=
  .after (grantPass_moves _) (sweepLineEnded_moves ..)

/-! ### The retest scheduler -/

theorem requestRetest_moves (n line : Nat) : Moves s (requestRetest n line s) :=
  .after (grantPass_moves _) (enterRequest_moves _ _ _ _ nofun)

theorem freePlace_moves (n : Nat) : Moves s (freePlace n s) := setInFlight_moves s _ (List.length_filter_le ..)

theorem closeTicket_moves (t : Ticket) : Moves s (closeTicket t s) :=
  .after (unlink_moves ..) (.after (.after (countTickets_moves ..) (pushNotice_moves ..)) (removeTicket_moves ..))

theorem failTicket_moves (t : Ticket) : Moves s (failTicket t s) :=
  updTicket_moves s _ _ fun _ => ⟨rfl, (fun h => nomatch h), rfl, .refl _⟩

theorem inconclusiveTicket_moves (t : Ticket) (r : Reason) : Moves s (inconclusiveTicket t r s) :=
  .after (pushNotice_moves ..) (updTicket_moves s _ _ fun _ => ⟨rfl, (fun h => nomatch h), rfl, .refl _⟩)

theorem judgeLine_moves (t : Ticket) (j : Judgement) : Moves s (judgeLine t j s) := by
  unfold judgeLine
  split
  · exact closeTicket_moves ..
  · exact failTicket_moves ..
  · exact inconclusiveTicket_moves ..

theorem settleCable_moves (t : Ticket) : Moves s (settleCable t s) := by
  unfold settleCable
  split
  · exact closeTicket_moves ..
  split
  · exact failTicket_moves ..
  · exact inconclusiveTicket_moves ..

theorem advanceCable_moves (n : Nat) : Moves s (advanceCable n s) := by
  unfold advanceCable
  split
  · exact .refl s
  split
  · exact .after (requestRetest_moves ..) (setInFlight_moves s _ (Nat.le_of_eq (List.length_map _)))
  · exact .after (settleCable_moves ..) (freePlace_moves ..)

theorem lines_marked (ms : List Member) (p : Nat) (f : Member → Member) (h : ∀ m, (f m).line = m.line := by exact fun _ => rfl) :
    ((ms.modify p f).map Member.line).Sublist (ms.map Member.line) := by
  have e := lines_modify (ms := ms) (i := p) fun m _ => h m
  exact e ▸ .refl _

theorem judgeMember_mild (j : Judgement) (t : Ticket) : Mild t (t.judgeMember j) := by
  unfold Ticket.judgeMember
  split
  · exact .refl t
  · split
    · exact ⟨rfl, id, rfl, (List.eraseIdx_sublist ..).map _⟩
    · exact ⟨rfl, id, rfl, lines_marked ..⟩
    · exact ⟨rfl, id, rfl, lines_marked ..⟩

theorem submitTicket_moves (t : Ticket) (room : s.inFlight.length < Config.retestPlaces) :
    Moves s (submitTicket t s) := by
  have enter (r : Retest) : Moves s (s.setInFlight (s.inFlight ++ [r])) :=
    .one (.retests s _ fun _ => by rw [List.length_append]; exact room)
  unfold submitTicket
  split
  · exact .after (requestRetest_moves ..) (.after (updTicket_moves _ _ _ fun _ => ⟨rfl, (fun h => nomatch h), rfl, .refl _⟩) (enter _))
  · exact .after (advanceCable_moves ..) (.after (updTicket_moves _ _ _ fun _ => ⟨rfl, (fun h => nomatch h), rfl, by
      simp only [Ticket.lines, Ticket.beginRetest, List.map_map]; exact .refl _⟩) (enter _))

theorem submitSteps_moves (fuel : Nat) : Moves s (submitSteps fuel s) := by
  induction fuel generalizing s with
  | zero => exact .refl s
  | succ fuel ih =>
    unfold submitSteps
    split
    · exact .refl s
    split
    · rename_i room
      split
      · exact .after (ih _) (setRepairList_moves ..)
      · exact .after (ih _) (.after (submitTicket_moves _ _ room) (setRepairList_moves ..))
    · exact .refl s

theorem submitRetests_moves : Moves s (submitRetests s) := submitSteps_moves ..

theorem retestEnded_moves (n : Nat) (j : Judgement) : Moves s (retestEnded n j s) := by
  have goOn (s1 : State) (m : Moves s s1) : Moves s
      (if (retestOf n (advanceCable n s1)).isNone then submitRetests (advanceCable n s1) else advanceCable n s1) := by
    split
    · exact .after (submitRetests_moves _) (.after (advanceCable_moves ..) m)
    · exact .after (advanceCable_moves ..) m
  unfold retestEnded
  split
  · split
    · refine goOn _ ?_
      split
      · exact .refl s
      · exact updTicket_moves s _ _ (judgeMember_mild j)
    · exact .after (submitRetests_moves _) (.after (judgeLine_moves ..) (freePlace_moves ..))
  · exact .refl s

theorem retestRecord_moves (n : Nat) (o : Reason) (e : Option Evaluation) : Moves s (retestRecord n o e s) := by
  unfold retestRecord
  split
  · exact .refl s
  · exact retestEnded_moves ..

theorem tellRecord_moves (holder : Holder) (o : Reason) (e : Option Evaluation) (c : LineCond) :
    Moves s (tellRecord holder o e c s) := by
  unfold tellRecord
  split
  · exact .refl s
  · exact sweepReport_moves ..
  · exact retestRecord_moves ..

theorem tellSeizeFailed_moves (b : BusNo) (line : Nat) (holder : Option Holder) (r : Reason) :
    Moves s (tellSeizeFailed b line holder r s) := by
  unfold tellSeizeFailed
  split
  · exact .refl s
  · exact pushNotice_moves ..
  · exact sweepReport_moves ..
  · exact retestEnded_moves ..

theorem tellPreempted_moves (holder : Option Holder) : Moves s (tellPreempted holder s) := by
  unfold tellPreempted
  split
  · exact sweepReport_moves ..
  · exact retestEnded_moves ..
  · exact .refl s

end Sys2Proof.Machine
end

