-- ==== Sys2Proof/Laws/HeadMoves.lean ====
section
/-! SUPPORT. Modes, the head controller and the access controller move the state (Laws.Moves). -/

namespace Sys2Proof.Machine

variable (s : State)

/-! ### Heads -/

theorem HeadOk.returned (x : HeadRec) : HeadOk x.returned := .ofRest (by unfold HeadRec.active; simp [HeadRec.returned]) rfl

theorem HeadOk.outOfService (x : HeadRec) : HeadOk x.outOfService :=
  .ofRest (by unfold HeadRec.active; simp [HeadRec.outOfService]) rfl

/-- A head that has a bus, or is active and so has one where R72 holds of it. -/
def HeadRec.bound (x : HeadRec) : Prop := x.active ∨ x.bus ≠ none

theorem HeadRec.bound.has {x : HeadRec} (b : x.bound) (h : HeadOk x) : ∃ n, x.bus = some n := by
  rcases b with a | n
  · exact ⟨_, (h.active a).2.1⟩
  · exact Option.ne_none_iff_exists'.mp n

/-- The context of a head changes, and nothing else of it that R72 names. -/
theorem setContext_moves (h : HeadNo) (c : Context) (s : State) : Moves s (s.setHead h { s.heads[h] with ctx := some c }) :=
  setHead_moves _ _ _ (.same rfl rfl rfl fun _ => rfl)

/-! ### Modes and releases -/

theorem deskEntry_moves (b : BusNo) (m : NewMode) (h : Option Holder) : Moves s (deskEntry b m h s) := by
  unfold deskEntry
  split
  · split
    · exact .refl s
    · exact .after (setAudio_moves ..) (setPathEntry_moves ..)
  · exact settleDesk_moves ..

theorem enterMode_moves (b : BusNo) (m : NewMode) : Moves s (enterMode b m s) :=
  .after (deskEntry_moves ..) (.after (setPathEntry_moves ..) (setBus_moves ..))

theorem breakBus_moves (b : BusNo) (c : Reason) : Moves s (breakBus b c s) :=
  .after (settleDesk_moves ..) (.after (setPathEntry_moves ..) (setBus_moves ..))

/-! ### The end of a measurement -/

theorem reportMeasurement_moves (b : BusNo) (m : Measurement) (o : Reason) (c : LineCond) :
    Moves s (reportMeasurement b m o c s) := by
  unfold reportMeasurement
  dsimp only
  split
  · exact .after (tellRecord_moves ..) (.after (handFindings_moves ..) (pushNotice_moves ..))
  · exact .after (tellRecord_moves ..) (pushNotice_moves ..)

theorem returnHead_moves (b : BusNo) : Moves s (returnHead b s) := by
  unfold returnHead
  split
  · exact .refl s
  · exact .after (setBus_moves ..) (.after (countHead_moves ..) (setHead_moves _ _ _ fun _ => .returned _))

theorem settleBus_moves (b : BusNo) (h : Holder) : Moves s (settleBus b h s) := by
  unfold settleBus
  split
  · exact enterMode_moves ..
  split
  · exact .after (grantPass_moves _) (breakBus_moves ..)
  · exact breakBus_moves ..

theorem endMeasurement_moves (b : BusNo) (m : Measurement) (o : Reason) (c : LineCond) :
    Moves s (endMeasurement b m o c s) := by
  have h : Moves s (returnHead b (reportMeasurement b m o c (leaveQueue b s))) :=
    .after (returnHead_moves ..) (.after (reportMeasurement_moves ..) (setHeadQueue_moves ..))
  unfold endMeasurement
  dsimp only
  split
  · exact .after (settleBus_moves ..) h
  · exact h

theorem endMeasurementOn_moves (b : BusNo) (o : Reason) (c : LineCond) : Moves s (endMeasurementOn b o c s) := by
  unfold endMeasurementOn
  split
  · exact .refl s
  · exact endMeasurement_moves ..

/-! ### Phases and heads -/

theorem beginPhase_moves (h : HeadNo) (p : Phase) (d : StepDef) (c : Context) (b : s.heads[h].bound) :
    Moves s (beginPhase h p d c s) := by
  unfold beginPhase
  dsimp only
  split
  · rename_i e
    refine setHead_moves _ _ _ fun k => ⟨fun _ => ?_, fun n => absurd (.inl rfl) n⟩
    obtain ⟨m, hm⟩ := b.has k
    rw [← e, hm]; exact ⟨rfl, rfl, rfl⟩
  · refine setHead_moves _ _ _ fun k => ⟨fun _ => ?_, fun n => absurd (.inl rfl) n⟩
    obtain ⟨m, hm⟩ := b.has k
    rw [hm]; exact ⟨rfl, rfl, rfl⟩

theorem beginStepAt_moves (h : HeadNo) (i : Nat) (c : Context) (b : s.heads[h].bound) : Moves s (beginStepAt h i c s) := by
  unfold beginStepAt
  split
  · exact beginPhase_moves _ _ _ _ _ b
  split
  · exact .refl s
  · exact endMeasurement_moves ..

theorem endWaiting_moves : Moves s (endWaiting s) := .foldl (fun _ _ => endMeasurementOn_moves ..) _ _

theorem headOut_moves (h : HeadNo) (c : Reason) : Moves s (headOut h c s) := by
  have goOn (s2 : State) (body : NoticeBody) (m : Moves s s2) : Moves s
      (if headInService (countHead h (countHeadFault c) (pushNotice 6 body s2)) then
        countHead h (countHeadFault c) (pushNotice 6 body s2)
      else endWaiting (countHead h (countHeadFault c) (pushNotice 6 body s2))) := by
    split
    · exact .after (countHead_moves ..) (.after (pushNotice_moves ..) m)
    · exact .after (endWaiting_moves _) (.after (countHead_moves ..) (.after (pushNotice_moves ..) m))
  unfold headOut
  refine goOn _ _ ?_
  split
  · exact .after (endMeasurement_moves ..) (.after (setBus_moves ..) (setHead_moves _ _ _ fun _ => .outOfService _))
  · exact setHead_moves _ _ _ fun _ => .outOfService _

theorem assignHead_moves (h : HeadNo) (e : HeadWait) (idle : s.heads[h].state = .idle) : Moves s (assignHead h e s) := by
  refine .after (beginStepAt_moves _ _ _ _ (.inr ?_))
    (.after (countHead_moves ..) (.after (setBus_moves ..) (.after (setHead_moves _ _ _ fun k => ?_) (setHeadQueue_moves ..))))
  · rw [show ∀ (f : HeadCounters → HeadCounters) (t : State), (countHead h f t).heads = t.heads from fun _ _ => rfl,
      State.setBus_heads, State.setHead_self]
    exact Option.some_ne_none _
  · have n : ¬s.heads[h].active := by unfold HeadRec.active; rw [idle]; simp
    exact .ofRest n (k.rest n)

theorem idleHead_idle {h : HeadNo} (e : idleHead s = some h) : s.heads[h].state = .idle := by
  have := List.find?_some e
  simpa using this

theorem assignSteps_moves (fuel : Nat) : Moves s (assignSteps fuel s) := by
  induction fuel generalizing s with
  | zero => exact .refl s
  | succ fuel ih =>
    unfold assignSteps
    split
    · rename_i e _
      exact .after (ih _) (assignHead_moves _ _ _ (idleHead_idle s e))
    · exact .refl s

theorem assignmentPass_moves : Moves s (assignmentPass s) := by
  unfold assignmentPass
  split
  · exact assignSteps_moves ..
  · exact .refl s

theorem joinHeadQueue_moves (e : HeadWait) : Moves s (joinHeadQueue e s) := by
  unfold joinHeadQueue
  dsimp only
  split
  · exact endMeasurement_moves ..
  split
  · exact endMeasurement_moves ..
  · exact .after (assignmentPass_moves _) (setHeadQueue_moves ..)

theorem joinInternal_moves (b : BusNo) (h : Holder) (line : Nat) : Moves s (joinInternal b h line s) :=
  .after (joinHeadQueue_moves ..) (.kept rfl)

theorem endStep_moves (h : HeadNo) (c : Context) (d : StepDef) (n : Bool) (a : s.heads[h].active) :
    Moves s (endStep h c d n s) := by
  refine .after (beginStepAt_moves _ _ _ _ (.inl ?_)) (.after (setContext_moves ..) (countHead_moves ..))
  rw [State.setHead_self]; exact a

theorem phaseComplete_moves (h : HeadNo) (c : Context) (d : StepDef) (a : s.heads[h].active) :
    Moves s (phaseComplete h c d s) := by
  unfold phaseComplete
  split
  · exact endStep_moves _ _ _ _ _ a
  split
  · exact beginPhase_moves _ _ _ _ _ (.inl a)
  · exact beginPhase_moves _ _ _ _ _ (.inl a)
  all_goals exact endStep_moves _ _ _ _ _ a

theorem judgeWindow_moves (h : HeadNo) (c : Context) (d : StepDef) (a : s.heads[h].active) :
    Moves s (judgeWindow h c d s) := by
  unfold judgeWindow
  split
  · split
    · exact phaseComplete_moves _ _ _ _ a
    · exact .after (countHead_moves ..) (setContext_moves ..)
  · exact phaseComplete_moves _ _ _ _ a

theorem judgeCharge_moves (h : HeadNo) (c : Context) (d : StepDef) (a : s.heads[h].active) :
    Moves s (judgeCharge h c d s) := by
  unfold judgeCharge
  split
  · split <;> exact endStep_moves _ _ _ _ _ a
  split
  · exact endStep_moves _ _ _ _ _ a
  · exact .after (beginPhase_moves _ _ _ _ _ (.inl a)) (countHead_moves ..)

theorem integratingOn_active {h : HeadNo} {x : Context × StepDef} (e : integratingOn h s = some x) : s.heads[h].active := by
  unfold integratingOn at e
  split at e
  · rename_i k; exact .inr (.inr k)
  · exact nomatch e

theorem windowEnds_moves (h : HeadNo) : Moves s (windowEnds h s) := by
  unfold windowEnds
  split
  · rename_i e
    split
    · exact judgeWindow_moves _ _ _ _ (integratingOn_active s e)
    · exact .refl s
  · exact .refl s

theorem chargeWindowEnds_moves (h : HeadNo) : Moves s (chargeWindowEnds h s) := by
  unfold chargeWindowEnds
  split
  · rename_i e
    split
    · exact judgeCharge_moves _ _ _ _ (integratingOn_active s e)
    · exact .refl s
  · exact .refl s

theorem settleEnds_moves (h : HeadNo) : Moves s (settleEnds h s) := by
  unfold settleEnds
  dsimp only
  split
  · exact .refl s
  split
  · exact .refl s
  split
  · rename_i e _ _ _ k
    exact setHead_moves _ _ _ (.goOn (.inr (.inl k.1)) (.inr (.inr rfl)) rfl rfl (Option.isSome_of_eq_some e))
  · exact .refl s

/-! ### The words of a head -/

theorem acceptSample_moves (h : HeadNo) (c : Context) (d : StepDef) (x : Sample) (a : s.heads[h].active) :
    Moves s (acceptSample h c d x s) := by
  unfold acceptSample
  split
  · exact .after (beginPhase_moves _ _ _ _ _ (.inl a)) (countHead_moves ..)
  · exact setContext_moves ..

theorem loseSample_moves (h : HeadNo) (c : Context) : Moves s (loseSample h c s) :=
  .after (countHead_moves ..) (setContext_moves ..)

theorem integrateFrame_moves (h : HeadNo) (c : Context) (d : StepDef) (w : HeadWords) (a : s.heads[h].active) :
    Moves s (integrateFrame h c d w s) := by
  unfold integrateFrame
  split
  · split
    · exact headOut_moves ..
    · exact headOut_moves ..
    · exact acceptSample_moves _ _ _ _ _ a
  · exact loseSample_moves ..

theorem settleFrame_moves (h : HeadNo) (c : Context) (n : Nat) (w : HeadWords) : Moves s (settleFrame h c n w s) := by
  unfold settleFrame
  dsimp only
  split
  · split
    · exact headOut_moves ..
    · exact headOut_moves ..
    · exact setContext_moves ..
  · exact setContext_moves ..

theorem confirmPhase_moves (h : HeadNo) (c : Context) (d : StepDef) (w : HeadWords) (a : s.heads[h].active) :
    Moves s (confirmPhase h c d w s) := by
  unfold confirmPhase
  dsimp only
  split
  · exact .after (settleFrame_moves ..) (setHead_moves _ _ _ (.goOn a (.inr (.inl rfl)) rfl rfl rfl))
  · refine .after (integrateFrame_moves _ _ _ _ _ ?_) (setHead_moves _ _ _ (.goOn a (.inr (.inr rfl)) rfl rfl rfl))
    rw [State.setHead_self]; exact .inr (.inr rfl)

theorem awaitFrame_moves (h : HeadNo) (c : Context) (d : StepDef) (w : HeadWords) (a : s.heads[h].active) :
    Moves s (awaitFrame h c d w s) := by
  unfold awaitFrame
  split
  · exact confirmPhase_moves _ _ _ _ _ a
  split
  · split
    · exact headOut_moves ..
    · exact confirmPhase_moves _ _ _ _ _ a
    · exact .refl s
  · exact .refl s

theorem activeFrame_moves (h : HeadNo) (w : HeadWords) (a : s.heads[h].active) : Moves s (activeFrame h w s) := by
  unfold activeFrame
  split
  · exact .refl s
  split
  · exact .refl s
  split
  · exact awaitFrame_moves _ _ _ _ _ a
  · exact settleFrame_moves ..
  · exact integrateFrame_moves _ _ _ _ _ a
  · exact .refl s

theorem returningFrame_moves (h : HeadNo) (w : HeadWords) (n : s.heads[h].state = .returning) :
    Moves s (returningFrame h w s) := by
  have n : ¬s.heads[h].active := by unfold HeadRec.active; rw [n]; simp
  unfold returningFrame
  split
  · split
    · exact headOut_moves ..
    · exact .after (assignmentPass_moves _)
        (setHead_moves _ _ _ fun k => .ofRest (by unfold HeadRec.active; simp) (k.rest n))
    · exact .refl s
  · exact .refl s

theorem headFrame_moves (h : HeadNo) (w : HeadWords) : Moves s (headFrame h w s) := by
  have m : Moves s (if w.good then s.setHead h { s.heads[h] with echoed := echoOf w.status } else s) := by
    split
    · exact setHead_moves _ _ _ (.same rfl rfl rfl id)
    · exact .refl s
  unfold headFrame
  dsimp only
  generalize (if w.good then s.setHead h { s.heads[h] with echoed := echoOf w.status } else s) = t at m
  refine .after ?_ m
  split
  · split
    · exact headOut_moves ..
    · exact .refl _
  · rename_i e; exact returningFrame_moves _ _ _ e
  · exact .refl _
  · rename_i e; exact activeFrame_moves _ _ _ (.inl e)
  · rename_i e; exact activeFrame_moves _ _ _ (.inr (.inl e))
  · rename_i e; exact activeFrame_moves _ _ _ (.inr (.inr e))

theorem tickHead_moves (h : HeadNo) : Moves s (tickHead s h) := by
  unfold tickHead
  split
  · exact .refl s
  · exact setHead_moves _ _ _ (.same rfl rfl rfl id)

theorem echoExpires_moves (h : HeadNo) : Moves s (echoExpires h s) := by
  unfold echoExpires
  split
  · exact headOut_moves ..
  · exact .refl s

theorem returnExpires_moves (h : HeadNo) : Moves s (returnExpires h s) := by
  unfold returnExpires
  split
  · exact headOut_moves ..
  · exact .refl s

theorem loseHead_moves (h : HeadNo) : Moves s (loseHead s h) := by
  unfold loseHead
  split
  · exact endMeasurement_moves ..
  · exact .refl s

end Sys2Proof.Machine
end

