-- ==== Sys2Proof/Laws/AccessMoves.lean ====
section
/-! SUPPORT. The access controller moves the state (Laws.Moves): releases, acceptances, relay states and expiries. -/

namespace Sys2Proof.Machine

variable (s : State)

theorem passAfter_moves (x : Bus) : Moves s (passAfter x s) := by
  unfold passAfter
  split
  · exact grantPass_moves s
  · exact .refl s

/-- A release, and the end of the measurement on the bus if there was one. -/
theorem breakAndEnd_moves (b : BusNo) (cause o : Reason) (c : LineCond) (m : Option Measurement) :
    Moves s (match (generalizing := false) m with
      | none => breakBus b cause s
      | some m => endMeasurement b m o c (breakBus b cause s)) := by
  split
  · exact breakBus_moves ..
  · exact .after (endMeasurement_moves ..) (breakBus_moves ..)

theorem releaseBus_moves (b : BusNo) (cause : Reason) : Moves s (releaseBus b cause s) :=
  .after (passAfter_moves ..) (breakAndEnd_moves s b cause _ _ (measurementOn b s))

theorem preemptBus_moves (b : BusNo) : Moves s (preemptBus b s) := by
  have m : Moves s (breakBus b .preempt { s with preemptions := satInc s.preemptions }) :=
    .after (breakBus_moves ..) (.kept rfl)
  unfold preemptBus
  refine .after (passAfter_moves ..) ?_
  split
  · exact .after (tellPreempted_moves ..) m
  · exact .after (endMeasurement_moves ..) m

theorem failSeizure_moves (b : BusNo) (c r : Reason) : Moves s (failSeizure b c r s) :=
  .after (passAfter_moves ..) (.after (tellSeizeFailed_moves ..) (breakBus_moves ..))

theorem refuseGuard_moves (b : BusNo) (r : Reason) : Moves s (refuseGuard b r s) :=
  .after (failSeizure_moves ..) (countBus_moves ..)

theorem holdBus_moves (b : BusNo) (busy : Bool) (m : NewMode) : Moves s (holdBus b busy m s) :=
  .after (enterMode_moves ..) (setBus_moves ..)

theorem tellHeld_moves (b : BusNo) : Moves s (tellHeld b s) := by
  unfold tellHeld
  dsimp only
  split
  · exact pushNotice_moves ..
  · exact .refl s

theorem holdFor_moves (b : BusNo) : Moves s (holdFor b s) := by
  unfold holdFor
  dsimp only
  split
  · split
    · exact .after (tellHeld_moves ..) (holdBus_moves ..)
    · exact .after (joinInternal_moves ..) (holdBus_moves ..)
  · exact .refl s

theorem guardAccepted_moves (b : BusNo) (c : LineCond) : Moves s (guardAccepted b c s) := by
  unfold guardAccepted
  split
  · exact .refl s
  · exact holdFor_moves ..
  · exact holdFor_moves ..
  · split
    · exact .after (tellHeld_moves ..) (holdBus_moves ..)
    · exact refuseGuard_moves ..
  · split
    · exact .after (tellHeld_moves ..) (holdBus_moves ..)
    · exact refuseGuard_moves ..
  · exact refuseGuard_moves ..

theorem tellChanged_moves (b : BusNo) (old : LineCond) : Moves s (tellChanged b old s) := by
  unfold tellChanged
  dsimp only
  split
  · exact pushNotice_moves ..
  · exact .refl s

theorem callOutside_moves (b : BusNo) (old : LineCond) : Moves s (callOutside b old s) := by
  unfold callOutside
  split
  · exact .after (enterMode_moves ..) (endMeasurementOn_moves ..)
  · exact .refl s

theorem callInternal_moves (b : BusNo) (old : LineCond) : Moves s (callInternal b old s) :=
  .after (passAfter_moves ..) (breakAndEnd_moves s b .call _ _ (measurementOn b s))

theorem heldAccepted_moves (b : BusNo) (old c : LineCond) : Moves s (heldAccepted b old c s) := by
  have m : Moves s (tellChanged b old (s.setBus b { s.buses[b] with busy := busyAfter c s.buses[b].busy })) :=
    .after (tellChanged_moves ..) (setBus_moves ..)
  unfold heldAccepted
  dsimp only
  split
  · split
    · exact .after (callOutside_moves ..) m
    · exact .after (callInternal_moves ..) m
  · exact m

theorem acceptCond_moves (b : BusNo) (c : LineCond) : Moves s (acceptCond b c s) := by
  unfold acceptCond
  dsimp only
  split
  · exact .after (guardAccepted_moves ..) (setBus_moves ..)
  · exact .after (heldAccepted_moves ..) (setBus_moves ..)

theorem debounce_moves (b : BusNo) (c : Option LineCond) : Moves s (debounce b c s) := by
  unfold debounce
  dsimp only
  split
  · split
    · exact setBus_moves ..
    split
    · exact setBus_moves ..
    split
    · split
      · exact setBus_moves ..
      · exact acceptCond_moves ..
    · exact setBus_moves ..
  · exact .refl s

theorem dropCandidate_moves (b : BusNo) : Moves s (dropCandidate s b) := setBus_moves ..

theorem lateConfirmed_moves (b : BusNo) : Moves s (lateConfirmed b s) := by
  unfold lateConfirmed
  split
  · exact .after (countBus_moves ..) (setBus_moves ..)
  · exact .refl s

theorem tellReleased_moves (b : BusNo) (x : Bus) : Moves s (tellReleased b x s) := by
  unfold tellReleased
  split
  · exact pushNotice_moves ..
  · exact pushNotice_moves ..
  · exact .refl s

theorem freeLine_moves (b : BusNo) (line : Option Nat) : Moves s (freeLine b line s) :=
  .after (clearWaiting_moves ..) (dropClaim_moves ..)

theorem releaseCompleted_moves (b : BusNo) : Moves s (releaseCompleted b s) := by
  refine .after (grantPass_moves _) ?_
  split
  · exact .after (tellReleased_moves ..) (.after (setBus_moves ..) (freeLine_moves ..))
  · exact .after (pushNotice_moves ..) (.after (countBus_moves ..) (.after (setBus_moves ..) (freeLine_moves ..)))

theorem faultEnds_moves (b : BusNo) (x : Bus) (m : Option Measurement) : Moves s (faultEnds b x m s) := by
  unfold faultEnds
  split
  · exact tellSeizeFailed_moves ..
  · exact tellSeizeFailed_moves ..
  · split
    · exact .refl s
    · exact endMeasurement_moves ..
  all_goals exact .refl s

theorem faultBus_moves (b : BusNo) (dropped : Bool) : Moves s (faultBus b dropped s) := by
  have m : Moves s (countBus b (fun c => { c with busFaults := satInc c.busFaults, relayFaults := satInc c.relayFaults })
      (settleDesk s.buses[b].holder b
        ((s.setBus b (s.buses[b].faulted dropped)).setPathEntry (busOut b) idleEntry))) :=
    .after (countBus_moves ..) (.after (settleDesk_moves ..) (.after (setPathEntry_moves ..) (setBus_moves ..)))
  unfold faultBus
  cases dropped
  · exact .after (passAfter_moves ..) (.after (pushNotice_moves ..) (.after (faultEnds_moves ..) m))
  · exact .after (grantPass_moves _)
      (.after (pushNotice_moves ..) (.after (faultEnds_moves ..) (.after (freeLine_moves ..) m)))

theorem relayActs_moves (b : BusNo) (r : Relay) : Moves s (relayActs b r s) := by
  unfold relayActs
  split
  all_goals first
    | exact .refl s
    | exact faultBus_moves ..
    | exact setBus_moves ..
    | exact releaseCompleted_moves ..
    | exact lateConfirmed_moves ..

theorem conditionFrame_moves (b : BusNo) (good : Bool) (w : Word) : Moves s (conditionFrame b good w s) := by
  unfold conditionFrame
  split
  · exact .after (debounce_moves ..) (relayActs_moves ..)
  · exact .refl s

theorem tickBus_moves (b : BusNo) : Moves s (tickBus s b) := by
  unfold tickBus
  split
  · exact .refl s
  · exact setBus_moves ..

theorem makeExpires_moves (b : BusNo) : Moves s (makeExpires b s) := by
  unfold makeExpires
  dsimp only
  split
  · exact .after (failSeizure_moves ..) (.after (countBus_moves ..) (setBus_moves ..))
  · exact .refl s

theorem guardExpires_moves (b : BusNo) : Moves s (guardExpires b s) := by
  unfold guardExpires
  split
  · exact refuseGuard_moves ..
  · exact .refl s

theorem releaseExpires_moves (b : BusNo) : Moves s (releaseExpires b s) := by
  unfold releaseExpires
  dsimp only
  split
  · exact .after (pushNotice_moves ..) (.after (countBus_moves ..) (setBus_moves ..))
  · exact .refl s

theorem busExpires_moves (b : BusNo) : Moves s (busExpires b s) := by
  unfold busExpires
  split
  · exact makeExpires_moves ..
  · exact guardExpires_moves ..
  · exact releaseExpires_moves ..
  all_goals exact .refl s

theorem headExpires_moves (h : HeadNo) : Moves s (headExpires h s) :=
  .after (returnExpires_moves ..) (echoExpires_moves ..)

end Sys2Proof.Machine
end

