-- ==== Sys2Proof/Laws/CommandMoves.lean ====
section
/-! SUPPORT. The rules that own the commands move the state (Laws.Moves), so a command is a course with at most one reply,
which joins a queue with room (R171, R172). -/

namespace Sys2Proof.Machine

/-- A rule whose new state comes by moves. -/
def Rule.Moving (r : Rule) : Prop := ∀ o s, Moves s (r o s).1

/-- What is asked of the second half of a rule taken from the exchange processor alone. -/
def Tail.Moving (r : State → State × Answer) : Prop := ∀ s, Moves s (r s).1

theorem processorOnly_moving {r : State → State × Answer} (h : Tail.Moving r) : Rule.Moving (processorOnly r) := by
  intro o s
  unfold processorOnly
  split
  · exact .refl s
  · exact h s

/-- A command taken with a rule that moves is a course (R171, R172). -/
theorem taken_course (kind : Octet) (hd : Header) {rule : State → State × Answer} (h : Tail.Moving rule) (s : State) :
    Course s (taken kind hd rule s) := by
  unfold taken
  split
  · exact .moves (countHighway_moves ..)
  · rename_i room
    refine .trans (.moves (.after (h _) (countHighway_moves ..))) (.reply _ _ ?_)
    refine Nat.lt_of_le_of_lt (h _).replies ?_
    exact Nat.lt_of_not_le room

theorem checked_moving {own : Rule} (h : own.Moving) (ok : Bool) (origin : Octet) :
    Tail.Moving (checked ok origin own) := by
  intro s
  unfold checked
  split
  · split
    · exact h _ s
    · exact .refl s
  · exact .refl s

theorem takeCommand_course (kind : Octet) (hd : Header) (ok : Bool) {own : Rule} (h : own.Moving) (s : State) :
    Course s (takeCommand kind hd ok own s) := taken_course kind hd (checked_moving h ok _) s

theorem takeFixed_course (kind : Octet) (hd : Header) (n : Nat) {own : Rule} (h : own.Moving) (s : State) :
    Course s (takeFixed kind hd n own s) := takeCommand_course _ _ _ h s

/-! ### SEIZE, RELEASE, RESTORE BUS -/

theorem preemptChosen_moves (b : Option BusNo) (s : State) : Moves s (preemptChosen b s) := by
  unfold preemptChosen
  split
  · exact preemptBus_moves ..
  · exact .refl s

theorem enterSeize_moves (o : Origin) (line : Nat) (urgent : Bool) (s : State)
    (h : withinLimit o s = true) : Moves s (enterSeize o line urgent s).1 := by
  unfold enterSeize
  refine .after (grantPass_moves _) (.after (preemptChosen_moves ..) (enterRequest_moves _ _ _ _ fun p e => ?_))
  cases e
  unfold withinLimit isDesk at h
  unfold waitingLimit waitingCount at *
  split at h
  · rename_i d; simp only [decide_eq_true_eq] at d h; rw [if_pos d, h.1]; exact Nat.one_pos
  · rename_i d; simp only [decide_eq_true_eq] at d h; rw [if_neg d]; exact h

theorem seizeRule_moving (line : Word) (cls : Octet) : Rule.Moving (seizeRule line cls) := by
  intro o s
  unfold seizeRule
  split
  · exact .refl s
  · split
    · exact .refl s
    split
    · exact .refl s
    split
    · exact .refl s
    rename_i limit
    repeat (split; · exact .refl s)
    exact enterSeize_moves _ _ _ _ (by simpa using limit)

theorem releaseRule_moving (line : Word) : Rule.Moving (releaseRule line) := by
  intro o s
  unfold releaseRule
  split
  · exact .refl s
  split
  · exact removeRequests_moves ..
  split
  · exact .refl s
  split
  · split
    · exact releaseBus_moves ..
    · split <;> exact .refl s
  · exact .refl s

theorem restoreBusNo_moves (b : BusNo) (s : State) : Moves s (restoreBusNo b s) := by
  unfold restoreBusNo
  dsimp only
  split
  · exact setBus_moves ..
  · exact .after (grantPass_moves _) (setBus_moves ..)

theorem restoreBusRule_moving (bus : Octet) : Rule.Moving (restoreBusRule bus) := by
  refine processorOnly_moving fun s => ?_
  split
  · exact .refl s
  split
  · exact restoreBusNo_moves ..
  · exact .refl s

/-! ### Mode commands, SET PATH, RESTORE HEAD -/

theorem onHeldBus_moving (line : Word) (f d : Bool) {rule : Origin → BusNo → State → State × Answer}
    (h : ∀ o b s, Moves s (rule o b s).1) : Rule.Moving (onHeldBus line f d rule) := by
  intro o s
  unfold onHeldBus
  split
  · exact .refl s
  split
  · exact .refl s
  · repeat (split; · exact .refl s)
    exact h ..

theorem leaveMeasure_moves (b : BusNo) (s : State) : Moves s (leaveMeasure b s) := by
  unfold leaveMeasure
  split
  · exact endMeasurementOn_moves ..
  · exact .refl s

theorem moveOther_moves (other : Option BusNo) (s : State) : Moves s (moveOther other s) := by
  unfold moveOther
  split
  · exact enterMode_moves ..
  · exact .refl s

theorem enterCommanded_moves (o : Origin) (b : BusNo) (m : NewMode) (w : Nat) (s : State) :
    Moves s (enterCommanded o b m w s).1 :=
  .after (enterMode_moves ..) (.after (moveOther_moves ..) (leaveMeasure_moves ..))

theorem standbyOn_moves (o : Origin) (b : BusNo) (s : State) : Moves s (standbyOn o b s).1 := by
  unfold standbyOn
  split
  · exact .refl s
  · exact enterCommanded_moves ..

theorem monitorOn_moves (o : Origin) (b : BusNo) (s : State) : Moves s (monitorOn o b s).1 := by
  unfold monitorOn
  split
  · exact .refl s
  · exact enterCommanded_moves ..

theorem sendToneRule_moving (line : Word) (tone : Octet) : Rule.Moving (sendToneRule line tone) := by
  unfold sendToneRule
  split
  · exact fun _ s => .refl s
  · refine onHeldBus_moving _ _ _ fun o b s => ?_
    unfold sendToneOn
    split
    · exact .refl s
    · exact enterCommanded_moves ..

theorem talkOn_moves (o : Origin) (b : BusNo) (s : State) : Moves s (talkOn o b s).1 := by
  unfold talkOn
  split
  · exact .refl s
  split
  · exact enterCommanded_moves ..
  split
  · exact .refl s
  split <;> exact enterCommanded_moves ..

theorem measureRule_moving (line : Word) (p e : Octet) : Rule.Moving (measureRule line p e) := by
  unfold measureRule
  split
  · exact fun _ s => .refl s
  · refine onHeldBus_moving _ _ _ fun o b s => ?_
    unfold measureOn
    dsimp only
    repeat (split; · exact .refl s)
    unfold okayWith
    dsimp only
    exact .after (joinHeadQueue_moves ..) (enterMode_moves ..)

theorem warningExpires_moves (b : BusNo) (s : State) : Moves s (warningExpires b s) := by
  unfold warningExpires
  split
  · exact enterMode_moves ..
  · exact .refl s

theorem setPathRule_moving (slot a p q r : Octet) : Rule.Moving (setPathRule slot a p q r) := by
  refine processorOnly_moving fun s => ?_
  split
  · exact .refl s
  split
  · exact .refl s
  split
  · exact .refl s
  · exact setPathEntry_moves ..

theorem restoreHeadRule_moving (head : Octet) : Rule.Moving (restoreHeadRule head) := by
  refine processorOnly_moving fun s => ?_
  split
  · exact .refl s
  split
  · exact setHead_moves _ _ _ fun _ => .returned _
  · exact .refl s

/-! ### Tickets -/

theorem onTicket_moving (number : Word) {rule : Ticket → State → State × Answer}
    (h : ∀ t s, Moves s (rule t s).1) : Rule.Moving (onTicket number rule) := by
  refine processorOnly_moving fun s => ?_
  split
  · exact .refl s
  split
  · exact .refl s
  · exact h ..

theorem acceptOn_moves (t : Ticket) (s : State) : Moves s (acceptOn t s).1 := by
  unfold acceptOn
  split
  · exact updTicket_moves s _ _ fun _ => ⟨rfl, (fun h => nomatch h), rfl, .refl _⟩
  · exact .refl s

theorem repairTickets_moves (l : List Nat) (s : State) : Moves s (repairTickets l s) := by
  refine .after (submitRetests_moves _) (.after (setRepairList_moves ..) (setTickets_moves s _ (Tame.map _ _ fun t => ?_)))
  split
  · exact ⟨rfl, nofun, rfl, .refl _⟩
  · exact .refl t

theorem repairedOn_moves (t : Ticket) (s : State) : Moves s (repairedOn t s).1 := by
  unfold repairedOn
  split
  · exact repairTickets_moves ..
  · exact .refl s

theorem repairedKeyRule_moving (cable code : Octet) : Rule.Moving (repairedKeyRule cable code) := by
  refine processorOnly_moving fun s => ?_
  split
  · exact .refl s
  · unfold repairedKeyOn
    dsimp only
    split
    · exact .refl s
    · exact repairTickets_moves ..

theorem endRetest_moves (n : Nat) (s : State) : Moves s (endRetest n s) := by
  unfold endRetest
  dsimp only
  split
  · exact removeRequests_moves ..
  · exact .after (releaseBus_moves ..) (removeRequests_moves ..)

theorem withdrawOn_moves (t : Ticket) (s : State) : Moves s (withdrawOn t s).1 := by
  have m (l : List Nat) : Moves s ((freePlace t.number (unlink t (removeTicket t.number s))).setRepairList l) :=
    .after (setRepairList_moves ..) (.after (freePlace_moves ..) (.after (unlink_moves ..) (removeTicket_moves ..)))
  unfold withdrawOn okay
  dsimp only
  split
  · exact .after (submitRetests_moves _) (.after (endRetest_moves ..) (m _))
  · exact m _

theorem takeTicketRule_moving : Rule.Moving takeTicketRule := by
  refine processorOnly_moving fun s => ?_
  split
  · exact .refl s
  split
  · exact .refl s
  split
  · rename_i h; exact issue_moves _ _ h
  · exact .refl s

theorem readTicketRule_moving (n : Word) (sel first : Octet) : Rule.Moving (readTicketRule n sel first) := by
  intro o s
  unfold readTicketRule readTicketOn
  split
  · exact .refl s
  split
  · exact .refl s
  split
  · split <;> exact .refl s
  split
  · exact .refl s
  split <;> exact .refl s

/-! ### Sweeps -/

theorem onDescriptor_moving (x : Octet) {rule : SweepNo → State → State × Answer}
    (h : ∀ d s, Moves s (rule d s).1) : Rule.Moving (onDescriptor x rule) := by
  refine processorOnly_moving fun s => ?_
  split
  · exact .refl s
  · exact h ..

theorem rearm_moves (d : SweepNo) (x : Descriptor) (s : State) (h : x.deferred.Sublist s.sweeps[d].deferred)
    (counts : s.sweeps[d].counts.ok = true → x.counts.ok = true) : Moves s (rearm d x s) :=
  .after (grantPass_moves _) (.after (sweepStep_moves ..) (setSweep_moves s d { x with state := .armed } h counts))

theorem armOn_moves (d : SweepNo) (s : State) : Moves s (armOn d s).1 := by
  unfold armOn
  dsimp only
  split
  · split
    · exact .refl s
    · exact rearm_moves _ _ _ (List.nil_sublist _) fun _ => rfl
  · exact .refl s

theorem suspendOn_moves (d : SweepNo) (s : State) : Moves s (suspendOn d s).1 := by
  unfold suspendOn
  dsimp only
  split
  · exact keepDeferred_moves s d _ (by rfl)
  · exact keepDeferred_moves s d _ (by rfl)
  all_goals exact .refl s

theorem resumeOn_moves (d : SweepNo) (s : State) : Moves s (resumeOn d s).1 := by
  unfold resumeOn
  dsimp only
  split
  · exact rearm_moves _ _ _ (.refl _) id
  · split
    · exact keepDeferred_moves s d _ (by rfl)
    · exact .refl s
  all_goals exact .refl s

theorem endLine_moves (d : SweepNo) (s : State) : Moves s (endLine d s) := by
  unfold endLine
  dsimp only
  split
  · exact removeRequests_moves ..
  · exact .after (releaseBus_moves ..) (removeRequests_moves ..)

theorem disarmOn_moves (d : SweepNo) (s : State) : Moves s (disarmOn d s).1 := by
  unfold disarmOn
  split
  · exact .refl s
  · exact .after (endLine_moves ..) (setSweep_moves s d _ (List.nil_sublist _) id)

theorem readSweepRule_moving (x : Octet) : Rule.Moving (readSweepRule x) := by
  intro o s
  unfold readSweepRule
  split <;> exact .refl s

theorem paceExpires_moves (d : SweepNo) (s : State) : Moves s (paceExpires d s) := by
  unfold paceExpires
  dsimp only
  split
  · split
    · exact .after (grantPass_moves _) (.after (sweepStep_moves ..) (keepDeferred_moves s d _ (by rfl)))
    · exact keepDeferred_moves s d _ (by rfl)
  · exact .refl s

/-! ### Tables -/

theorem loadNamed_moving {α : Type} (most size : Nat) (parse : List Octet → Option α) (first count : Word)
    (entries : List Octet) {apply : List α → State → State × Answer} (h : ∀ l s, Moves s (apply l s).1) :
    Rule.Moving (loadNamed most size parse first count entries apply) := by
  refine processorOnly_moving fun s => ?_
  split
  · split
    · exact .refl s
    · exact h ..
  · exact .refl s

theorem loadSiteRule_moving (first count : Word) (entries : List Octet) :
    Rule.Moving (loadSiteRule first count entries) := by
  refine processorOnly_moving fun s => ?_
  split
  · split
    · exact .refl s
    · unfold loaded okayWith applySite
      dsimp only
      split
      · exact .kept rfl
      · exact .after (grantPass_moves _) (.kept rfl)
  · exact .refl s

theorem classAt_le (entries : List Octet) (i : Nat) : classAt entries i ≤ 15 := by
  unfold classAt num1
  have (k : Nat) : (octetAt entries k).toNat < 256 := (octetAt entries k).isLt
  split
  · have := this (i / 2); omega
  · omega

theorem applyClasses_moves (first count : Nat) (entries : List Octet) (s : State)
    (h : ∀ i, i < count → first + i ≤ Config.lastLine) : Moves s (applyClasses first count entries s) := by
  have fold (l : List Nat) (hl : ∀ i ∈ l, first + i ≤ Config.lastLine) : ∀ t : State,
      Moves t { t with classMap := l.foldl (fun m i => putClass (first + i) (classAt entries i) m) t.classMap } := by
    induction l with
    | nil => exact fun t => .refl t
    | cons i l ih =>
      intro t
      exact .trans (.one (.classes t (first + i) (classAt entries i) (hl i (by simp)) (classAt_le ..)))
        (ih (fun j hj => hl j (by simp [hj])) _)
  exact fold _ (fun i hi => h i (List.mem_range.mp hi)) s

theorem loadClassesRule_moving (first count : Word) (entries : List Octet) :
    Rule.Moving (loadClassesRule first count entries) := by
  refine processorOnly_moving fun s => ?_
  split
  · rename_i h
    simp only [classRunOk, decide_eq_true_eq] at h
    exact applyClasses_moves _ _ _ _ fun i hi => by omega
  · exact .refl s

theorem loadLimitsRule_moving (first count : Word) (entries : List Octet) :
    Rule.Moving (loadLimitsRule first count entries) := loadNamed_moving _ _ _ _ _ _ fun _ _ => .kept rfl

theorem loadProgramsRule_moving (first count : Word) (entries : List Octet) :
    Rule.Moving (loadProgramsRule first count entries) := by
  refine loadNamed_moving _ _ _ _ _ _ fun l s => ?_
  split
  · exact .refl s
  · exact .kept rfl

theorem loadCablesRule_moving (first count : Word) (entries : List Octet) :
    Rule.Moving (loadCablesRule first count entries) := by
  refine loadNamed_moving _ _ _ _ _ _ fun l s => ?_
  split
  · exact .refl s
  · exact .kept rfl

theorem loadTonesRule_moving (first count : Word) (entries : List Octet) :
    Rule.Moving (loadTonesRule first count entries) := loadNamed_moving _ _ _ _ _ _ fun _ _ => .kept rfl

theorem loadConfigsRule_moving (first count : Word) (entries : List Octet) :
    Rule.Moving (loadConfigsRule first count entries) := by
  refine loadNamed_moving _ _ _ _ _ _ fun l s => ?_
  split
  · exact .refl s
  · exact .foldl (f := applyConfig) (fun t p => keepDeferred_moves t p.1 _ (by rfl)) l s

theorem readTableRule_moving (table : Octet) (first count : Word) : Rule.Moving (readTableRule table first count) := by
  intro o s
  unfold readTableRule
  split <;> exact .refl s

/-! ### Counters, clock, resets -/

theorem clearGroup_moves (g : Group) (s : State) : Moves s (clearGroup g s) := by
  unfold clearGroup
  split <;> exact .kept rfl

theorem readCountersRule_moving (group clear : Octet) : Rule.Moving (readCountersRule group clear) := by
  intro o s
  unfold readCountersRule
  split
  · split
    · exact .refl s
    · unfold okayWith
      dsimp only
      split
      · exact clearGroup_moves ..
      · exact .refl s
  · exact .refl s

theorem setClockRule_moving (seconds : BitVec 32) : Rule.Moving (setClockRule seconds) :=
  processorOnly_moving fun s => .one (.clock s _ _ fun _ => ⟨by decide, Nat.le_pred_of_lt seconds.isLt⟩)

theorem countClock_moves (s : State) : Moves s (countClock s) := by
  unfold countClock
  split
  · rename_i h; exact .one (.clock s _ s.clock fun k => ⟨h, k.2⟩)
  · exact .one (.clock s _ _ fun _ => ⟨by decide, Nat.le_pred_of_lt (Nat.mod_lt _ (by decide))⟩)

theorem setSecondTaken_moves (s : State) (b : Bool) : Moves s { s with secondTaken := b } := .kept rfl

theorem secondPasses_moves (s : State) : Moves s (secondPasses s) := by
  unfold secondPasses
  split
  · exact .after (setSecondTaken_moves _ true) (countClock_moves s)
  · exact .refl s

theorem HeadOk.afterReset {x : HeadRec} (h : HeadOk x) : HeadOk x.afterReset := by
  unfold HeadRec.afterReset
  split
  all_goals first
    | exact .returned x
    | exact h

theorem resetState_sweeps (s : State) (d : SweepNo) :
    (resetState s).sweeps[d].deferred = [] ∧ (resetState s).sweeps[d].counts = {} := by
  unfold resetState
  simp only [Fin.getElem_fin, Vector.getElem_ofFn, and_self]

theorem resetState_heads (s : State) (h : HeadNo) (k : HeadOk s.heads[h]) : HeadOk (resetState s).heads[h] := by
  unfold resetState
  simp only [Fin.getElem_fin, Vector.getElem_ofFn]
  exact k.afterReset

theorem resetState_moves (s : State) : Moves s (resetState s) := by
  have h := resetState_sweeps s
  have k := resetState_heads s
  unfold resetState at h k ⊢
  exact .one (.emptied rfl (.inl rfl) (.inl rfl) rfl rfl h (.inl rfl) rfl rfl k ⟨rfl, rfl⟩)

theorem resetRule_moving : Rule.Moving resetRule := by
  refine processorOnly_moving fun s => ?_
  split
  · exact resetState_moves s
  · exact .refl s

theorem powerOn_sweeps (s : State) (d : SweepNo) :
    (powerOn s).sweeps[d].deferred = [] ∧ (powerOn s).sweeps[d].counts = {} := by
  unfold powerOn State.reset
  simp only [Fin.getElem_fin, Vector.getElem_replicate, and_self]

theorem powerOn_heads (s : State) (h : HeadNo) : HeadOk (powerOn s).heads[h] := by
  unfold powerOn State.reset
  simp only [Fin.getElem_fin, Vector.getElem_replicate]
  exact .ofRest (by unfold HeadRec.active; simp) rfl

theorem powerOn_moves (s : State) : Moves s (powerOn s) := by
  have h := powerOn_sweeps s
  have k := powerOn_heads s
  unfold powerOn State.reset at h k ⊢
  exact .one (.emptied rfl (.inr rfl) (.inr rfl) rfl rfl h (.inr rfl) rfl rfl (fun h _ => k h) ⟨rfl, rfl⟩)

end Sys2Proof.Machine
end

