-- ==== Sys2Proof/Laws/Commands.lean ====
section
/-! SUPPORT. What the shared parts of the commands can do, said once for each: the taking of a command with its checks and its
reply (R171, R172), and the common checks of the processor's, ticket, descriptor and mode commands (R59, R131, R156). A proof
about a command cites these and unfolds the owning rule alone. -/

namespace Sys2Proof.Machine

/-- The state an owning rule starts from: the command is counted in COMMANDS_TAKEN (R171). -/
def counted1 (s : State) : State := countHighway (fun c => { c with commandsTaken := satInc c.commandsTaken }) s

theorem originOf_of_toNat {x : Octet} {o : Origin} (h : x.toNat = o.val) : originOf x = some o := by
  have l : x.toNat < 7 := h ▸ o.isLt
  rw [originOf, dif_pos l]
  exact congrArg some (Fin.ext h)

theorem originOf_none {x : Octet} (h : 6 < x.toNat) : originOf x = none := by
  have l : ¬x.toNat < 7 := by omega
  simp only [originOf, l, dite_false]

theorem unitOf_of_toNat {n : Nat} {x : Octet} {u : Fin n} (h : x.toNat = u.val) : unitOf n x = some u := by
  have l : x.toNat < n := h ▸ u.isLt
  rw [unitOf, dif_pos l]
  exact congrArg some (Fin.ext h)

theorem unitOf_none {n : Nat} {x : Octet} (h : n ≤ x.toNat) : unitOf n x = none := by
  have l : ¬x.toNat < n := by omega
  simp only [unitOf, l, dite_false]

/-- A command that finds a full reply queue does nothing but count itself dropped (R171). -/
theorem taken_full {kind : Octet} {hd : Header} {rule : State → State × Answer} {s : State} (h : 16 ≤ s.replies.length) :
    taken kind hd rule s = countHighway (fun c => { c with cmdDropped := satInc c.cmdDropped }) s := if_pos h

/-- A command that finds room is counted, given to its rule, and answered (R171). -/
theorem taken_room {kind : Octet} {hd : Header} {rule : State → State × Answer} {s : State} (h : s.replies.length < 16) :
    taken kind hd rule s = pushReply (replyTo kind hd (rule (counted1 s)).2) (rule (counted1 s)).1 :=
  if_neg (Nat.not_le.2 h)

/-- A command of the right length from an origin is given to its owning rule and answered (R171). -/
theorem takeFixed_own {kind : Octet} {hd : Header} {n : Nat} {own : Rule} {o : Origin} {s t : State} {a : Answer}
    (hl : hd.length.toNat = n) (ho : hd.origin.toNat = o.val) (hr : s.replies.length < 16)
    (h : own o (counted1 s) = (t, a)) : takeFixed kind hd n own s = pushReply (replyTo kind hd a) t := by
  rw [takeFixed, takeCommand, taken_room hr]
  simp only [checked, hl, decide_true, if_true, originOf_of_toNat ho, h]

/-- A command of the wrong length is refused BAD_LENGTH (R171). -/
theorem takeFixed_badLength {kind : Octet} {hd : Header} {n : Nat} {own : Rule} {s : State} (hl : hd.length.toNat ≠ n)
    (hr : s.replies.length < 16) :
    takeFixed kind hd n own s = pushReply (replyTo kind hd { status := .badLength }) (counted1 s) := by
  rw [takeFixed, takeCommand, taken_room hr]
  simp [checked, hl, refuse]

/-- A command of the right length whose origin no one has is refused BAD_FIELD (R171). -/
theorem takeFixed_badOrigin {kind : Octet} {hd : Header} {n : Nat} {own : Rule} {s : State} (hl : hd.length.toNat = n)
    (ho : 6 < hd.origin.toNat) (hr : s.replies.length < 16) :
    takeFixed kind hd n own s = pushReply (replyTo kind hd { status := .badField }) (counted1 s) := by
  rw [takeFixed, takeCommand, taken_room hr]
  simp only [checked, hl, decide_true, if_true, originOf_none ho, refuse]

/-- A rule of the exchange processor refuses a desk. -/
theorem processorOnly_desk {r : State → State × Answer} {o : Origin} {s : State} (h : o.val < 6) :
    processorOnly r o s = refuse .notPermitted s := by
  simp only [processorOnly, isDesk, h, decide_true, if_true]

/-- A rule of the exchange processor acts for it. -/
theorem processorOnly_processor {r : State → State × Answer} {s : State} : processorOnly r 6 s = r s := rfl

/-- A ticket command acts on the ticket of its number (R131). -/
theorem onTicket_found {number : Word} {rule : Ticket → State → State × Answer} {t : Ticket} {s : State}
    (hn : number ≠ 0) (h : ticketByNumber number.toNat s = some t) : onTicket number rule 6 s = rule t s := by
  simp only [onTicket, processorOnly_processor, hn, if_false, h]

/-- A ticket command for a number that no ticket has is refused (R131). -/
theorem onTicket_absent {number : Word} {rule : Ticket → State → State × Answer} {s : State} (hn : number ≠ 0)
    (h : ticketByNumber number.toNat s = none) : onTicket number rule 6 s = refuse .notFound s := by
  simp only [onTicket, processorOnly_processor, hn, if_false, h]

/-- A descriptor command acts on its descriptor (R156). -/
theorem onDescriptor_found {x : Octet} {rule : SweepNo → State → State × Answer} {d : SweepNo} {s : State}
    (h : x.toNat = d.val) : onDescriptor x rule 6 s = rule d s := by
  simp only [onDescriptor, processorOnly_processor, unitOf_of_toNat h]

/-- A mode command acts on the held bus of its origin that claims the line (R59). -/
theorem onHeldBus_found {line : Word} {deskOnly : Bool} {rule : Origin → BusNo → State → State × Answer} {o : Origin}
    {b : BusNo} {s : State} (hl : line.toNat ≤ 16383) (hc : claimOf line.toNat s = some b)
    (hh : s.buses[b].holder = some (.origin o)) (hs : s.buses[b].state = .held) (hd : deskOnly = true → o.val < 6) :
    onHeldBus line true deskOnly rule o s = rule o b s := by
  have l : lineOk line = true := decide_eq_true hl
  have d : (deskOnly && !isDesk o) = false := by
    cases deskOnly
    · rfl
    · simp [isDesk, hd rfl]
  simp only [onHeldBus, l, hc, d, Bool.and_self, Bool.not_true, Bool.false_eq_true, if_false]
  rw [if_neg (not_not_intro hh), if_neg (not_not_intro hs)]

end Sys2Proof.Machine
end

