-- ==== Sys2Proof/Laws/StepMoves.lean ====
section
/-! SUPPORT. Messages, the inbound highway and the outbound frame, and with them every command, event and step, are courses
(Laws.Moves): `exec_course` and `step_course`. -/

namespace Sys2Proof.Machine

/-! ### Messages -/

theorem loadNoTable_course (hd : Header) (s : State) : Course s (loadNoTable hd s) :=
  takeCommand_course _ _ _ (processorOnly_moving fun t => .refl t) s

theorem loadMessage_course (hd : Header) (body : List Octet) (s : State) : Course s (loadMessage hd body s) := by
  unfold loadMessage
  dsimp only
  split
  · exact takeFixed_course _ _ _ (loadSiteRule_moving _ _ _) s
  · exact takeFixed_course _ _ _ (loadClassesRule_moving _ _ _) s
  · exact takeFixed_course _ _ _ (loadLimitsRule_moving _ _ _) s
  · exact takeFixed_course _ _ _ (loadProgramsRule_moving _ _ _) s
  · exact takeFixed_course _ _ _ (loadCablesRule_moving _ _ _) s
  · exact takeFixed_course _ _ _ (loadTonesRule_moving _ _ _) s
  · exact takeFixed_course _ _ _ (loadConfigsRule_moving _ _ _) s
  · exact loadNoTable_course ..

theorem messageCommand_course (hd : Header) (kind : Octet) (body : List Octet) (s : State) :
    Course s (messageCommand hd kind body s) := by
  unfold messageCommand
  split
  · exact takeFixed_course _ _ _ (seizeRule_moving _ _) s
  · exact takeFixed_course _ _ _ (releaseRule_moving _) s
  · exact takeFixed_course _ _ _ (onHeldBus_moving _ _ _ talkOn_moves) s
  · exact takeFixed_course _ _ _ (onHeldBus_moving _ _ _ monitorOn_moves) s
  · exact takeFixed_course _ _ _ (sendToneRule_moving _ _) s
  · exact takeFixed_course _ _ _ (onHeldBus_moving _ _ _ standbyOn_moves) s
  · exact takeFixed_course _ _ _ (measureRule_moving _ _ _) s
  · exact takeFixed_course _ _ _ (onTicket_moving _ acceptOn_moves) s
  · exact takeFixed_course _ _ _ (onTicket_moving _ repairedOn_moves) s
  · exact takeFixed_course _ _ _ (repairedKeyRule_moving _ _) s
  · exact takeFixed_course _ _ _ (onTicket_moving _ withdrawOn_moves) s
  · exact takeFixed_course _ _ _ takeTicketRule_moving s
  · exact takeFixed_course _ _ _ (readTicketRule_moving _ _ _) s
  · exact takeFixed_course _ _ _ (onDescriptor_moving _ armOn_moves) s
  · exact takeFixed_course _ _ _ (onDescriptor_moving _ suspendOn_moves) s
  · exact takeFixed_course _ _ _ (onDescriptor_moving _ resumeOn_moves) s
  · exact takeFixed_course _ _ _ (onDescriptor_moving _ disarmOn_moves) s
  · exact takeFixed_course _ _ _ (readSweepRule_moving _) s
  · exact takeFixed_course _ _ _ (setPathRule_moving _ _ _ _ _) s
  · exact takeFixed_course _ _ _ (restoreBusRule_moving _) s
  · exact takeFixed_course _ _ _ (restoreHeadRule_moving _) s
  · unfold loadOrShort
    split
    · exact takeCommand_course _ _ _ (fun _ t => .refl t) s
    · exact loadMessage_course ..
  · exact takeFixed_course _ _ _ (readTableRule_moving _ _ _) s
  · exact takeFixed_course _ _ _ (readCountersRule_moving _ _) s
  · exact takeFixed_course _ _ _ (setClockRule_moving _) s
  · exact takeFixed_course _ _ _ resetRule_moving s
  · exact taken_course _ _ (fun t => .refl t) s

variable (s : State)

theorem countCut_moves : Moves s (countCut s) := by
  unfold countCut
  split
  · exact .refl s
  · exact countHighway_moves ..

theorem completeMessage_course (octets : List Octet) : Course s (completeMessage octets s) := by
  unfold completeMessage
  split
  · exact messageCommand_course ..
  · exact .moves (countHighway_moves ..)

theorem gather_course (octets : List Octet) (n : Nat) : Course s (gather octets n s) := by
  unfold gather
  split
  · exact .trans (.moves (setAssembler_moves ..)) (completeMessage_course ..)
  · exact .moves (setAssembler_moves ..)

theorem beginMessage_course (octets : List Octet) : Course s (beginMessage octets s) := by
  unfold beginMessage
  dsimp only
  split
  · exact .moves (.after (countHighway_moves ..) (setAssembler_moves ..))
  · exact gather_course ..

theorem assemble_course (good start : Bool) (octets : List Octet) : Course s (assemble good start octets s) := by
  unfold assemble
  split
  · split
    · exact .trans (.moves (countCut_moves s)) (beginMessage_course ..)
    · split
      · exact .moves (.refl s)
      · exact gather_course ..
  · exact .moves (.after (setAssembler_moves ..) (countCut_moves s))

/-! ### The inbound highway -/

theorem firstPass_moves : Moves s (firstPass s) := by
  unfold firstPass
  split
  · exact .after (assignmentPass_moves _) (.kept rfl)
  · exact .refl s

theorem runAct_course (good : Bool) (f : Frame) (a : Act) : Course s (runAct good f s a) := by
  unfold runAct
  split
  · exact .moves (conditionFrame_moves ..)
  · exact .moves (headFrame_moves ..)
  · exact assemble_course ..
  · exact .moves (firstPass_moves s)
  · exact .moves (busExpires_moves ..)
  · exact .moves (headExpires_moves ..)
  · exact .moves (settleEnds_moves ..)
  · exact .moves (.after (chargeWindowEnds_moves ..) (windowEnds_moves ..))

theorem tickTimers_moves : Moves s (tickTimers s) :=
  .after (.foldl (fun _ _ => tickHead_moves ..) _ _) (.foldl (fun _ _ => tickBus_moves ..) _ _)

theorem storeFrame_moves (f : Frame) : Moves s (storeFrame f s) := by
  unfold storeFrame
  exact .same ⟨rfl, rfl, rfl, rfl, rfl, rfl, rfl, rfl, rfl, rfl, rfl, rfl⟩

theorem clearStore_moves : Moves s (clearStore s) := by
  unfold clearStore
  exact .kept rfl

theorem setAssignDue_moves (b : Bool) : Moves s { s with assignDue := b } := .kept rfl

theorem setSending_moves (l : List Octet) : Moves s { s with sending := l } := .kept rfl

theorem countOnce_moves : Moves s (countOnce s) := by
  unfold countOnce
  split
  · exact setSecondTaken_moves s false
  · exact countClock_moves s

theorem countFree_moves : Moves s (countFree s) := .kept rfl

theorem setOutFrame_moves (f : Option Frame) (l : List Octet) : Moves s { s with outFrame := f, sending := l } :=
  .kept rfl

theorem takeFrame_course (good : Bool) (f : Frame) (order : List Act) : Course s (takeFrame good f order s) := by
  refine .trans (.moves (tickTimers_moves s)) (.trans (.moves ?_) (.foldl (fun _ _ => runAct_course ..) _ _))
  split
  · exact storeFrame_moves ..
  · exact .refl _

theorem classAndTake_course (f : Frame) (order : List Act) : Course s (classAndTake f order s) := by
  unfold classAndTake
  split
  · exact takeFrame_course ..
  · exact .trans (.moves (countHighway_moves ..)) (takeFrame_course ..)

theorem headDue_moves (h : HeadNo) : Moves s (headDue s h) :=
  .after (chargeWindowEnds_moves ..) (.after (windowEnds_moves ..) (settleEnds_moves ..))

theorem inboundDue_moves : Moves s (inboundDue s) :=
  .after (.foldl (fun _ _ => headExpires_moves ..) _ _)
    (.after (.foldl (fun _ _ => busExpires_moves ..) _ _) (.foldl (fun _ _ => headDue_moves ..) _ _))

theorem loseAlignment_moves (p : Nat) : Moves s (loseAlignment p s) := by
  have a : Moves s (allHeads.foldl loseHead (allBuses.foldl dropCandidate
      (countHighway (fun c => { c with losses := satInc c.losses }) (s.setAlignment (.hunting (p + 1)))))) :=
    .after (.foldl loseHead_moves _ _)
      (.after (.foldl dropCandidate_moves _ _) (.after (countHighway_moves ..) (setAlignment_moves ..)))
  have b := Moves.after (pushNotice_moves _ 6 .highwayLost) (.after (setAssembler_moves _ .waiting) (.after (countCut_moves _) a))
  exact .after (clearStore_moves _) b

theorem gainAlignment_moves (p : Nat) : Moves s (gainAlignment p s) := by
  have a := Moves.after (pushNotice_moves _ 6 .highwayRestored) (.after (.foldl dropCandidate_moves allBuses _)
    (.after (countHighway_moves _ fun c => { c with gains := satInc c.gains }) (setAlignment_moves s (.aligned p 0))))
  exact .after (setAssignDue_moves _ true) a

theorem patternFound_moves (p : Nat) (bits : BitVec 15) : Moves s (patternFound p bits s) := by
  unfold patternFound
  split
  · split
    · exact setAlignment_moves ..
    · exact .refl s
  all_goals exact .refl s

theorem confirmFrame_course (f : Frame) (order : List Act) : Course s (confirmFrame f order s) := by
  unfold confirmFrame
  split
  · exact .moves (.refl s)
  · exact .moves (.refl s)
  · dsimp only
    split
    · split
      · exact .moves (setAlignment_moves ..)
      · exact .trans (.moves (.after (gainAlignment_moves ..) (inboundDue_moves s))) (classAndTake_course ..)
    · exact .moves (setAlignment_moves ..)

theorem missFrame_course (p m : Nat) (f : Frame) (order : List Act) : Course s (missFrame p m f order s) := by
  unfold missFrame
  dsimp only
  split
  · exact .trans (.moves (.after (setAlignment_moves ..) (countHighway_moves ..))) (takeFrame_course ..)
  · exact .moves (.after (loseAlignment_moves ..) (countHighway_moves ..))

theorem inboundFrame_course (f : Frame) (order : List Act) : Course s (inboundFrame f order s) := by
  unfold inboundFrame
  split
  · exact .moves (.refl s)
  · exact .moves (.refl s)
  · dsimp only
    split
    · exact .trans (.moves (.after (setAlignment_moves ..) (inboundDue_moves s))) (classAndTake_course ..)
    · exact .trans (.moves (inboundDue_moves s)) (missFrame_course ..)

/-! ### The outbound frame -/

theorem chooseMessage_moves : Moves s (chooseMessage s).1 := by
  unfold chooseMessage
  split
  · exact .refl s
  split
  · rename_i r rest e
    exact .after (setSending_moves _ _) (.one (.fewerReplies s rest (by rw [e]; exact Nat.le_succ _)))
  split
  · rename_i t h
    refine .after (setSending_moves _ _) (issue_moves t s ?_)
    unfold pushedTicket at h
    split at h
    · exact nomatch h
    · have := Option.filter_eq_some_iff.mp h
      exact this.2
  split
  · rename_i n rest e
    exact .after (setSending_moves _ _) (.one (.fewerNotices s rest (by rw [e]; exact Nat.le_succ _)))
  · exact .refl s

theorem tickWarning_moves (b : BusNo) : Moves s (tickWarning s b) := by
  unfold tickWarning
  split
  · exact .refl s
  · exact setBus_moves ..

theorem tickPace_moves (d : SweepNo) : Moves s (tickPace s d) := by
  unfold tickPace
  split
  · exact .refl s
  · exact .refl s
  · exact keepDeferred_moves s d _ (by rfl)

theorem countFrame_moves : Moves s (countFrame s) :=
  .after (countFree_moves _) (.after (countOnce_moves _) (.after (.foldl tickPace_moves allSweeps _) (.foldl tickWarning_moves allBuses s)))

theorem outboundDue_moves : Moves s (outboundDue s) :=
  .after (.foldl (fun _ _ => paceExpires_moves ..) _ _)
    (.foldl (fun _ _ => warningExpires_moves ..) _ _)

theorem sendFrame_moves (start : Bool) : Moves s (sendFrame start s) :=
  .after (.foldl (fun t k => setTone_moves t k _) _ _) (setOutFrame_moves _ _ _)

theorem outboundFrame_moves : Moves s (outboundFrame s) :=
  .after (countFrame_moves _) (.after (sendFrame_moves ..) (.after (chooseMessage_moves _) (outboundDue_moves s)))

/-! ### Every command, event and step -/

theorem exec_course {i : Instr} {t : State} (h : exec i s = .next t) : Course s t := by
  cases i <;> (unfold exec at h; injection h with h; subst h)
  case powerOnReset => exact .moves (powerOn_moves s)
  case huntPatternFound => exact .moves (patternFound_moves ..)
  case confirmationFrame => exact confirmFrame_course ..
  case inboundFrame => exact inboundFrame_course ..
  case makeTimeout => exact .moves (makeExpires_moves ..)
  case guardTimeout => exact .moves (guardExpires_moves ..)
  case releaseTimeout => exact .moves (releaseExpires_moves ..)
  case echoTimeout => exact .moves (echoExpires_moves ..)
  case returnTimeout => exact .moves (returnExpires_moves ..)
  case settleEnd => exact .moves (settleEnds_moves ..)
  case windowEnd => exact .moves (windowEnds_moves ..)
  case chargeWindowEnd => exact .moves (chargeWindowEnds_moves ..)
  case paceExpiry => exact .moves (paceExpires_moves ..)
  case warningExpiry => exact .moves (warningExpires_moves ..)
  case outboundFrame => exact .moves (outboundFrame_moves s)
  case clockSecond => exact .moves (secondPasses_moves s)
  case unknownKindCommand => exact messageCommand_course ..
  case seize => exact takeFixed_course _ _ _ (seizeRule_moving _ _) s
  case talk => exact takeFixed_course _ _ _ (onHeldBus_moving _ _ _ talkOn_moves) s
  case monitor => exact takeFixed_course _ _ _ (onHeldBus_moving _ _ _ monitorOn_moves) s
  case sendTone => exact takeFixed_course _ _ _ (sendToneRule_moving _ _) s
  case standby => exact takeFixed_course _ _ _ (onHeldBus_moving _ _ _ standbyOn_moves) s
  case measure => exact takeFixed_course _ _ _ (measureRule_moving _ _ _) s
  case accept => exact takeFixed_course _ _ _ (onTicket_moving _ acceptOn_moves) s
  case repaired => exact takeFixed_course _ _ _ (onTicket_moving _ repairedOn_moves) s
  case repairedKey => exact takeFixed_course _ _ _ (repairedKeyRule_moving _ _) s
  case withdraw => exact takeFixed_course _ _ _ (onTicket_moving _ withdrawOn_moves) s
  case takeTicket => exact takeFixed_course _ _ _ takeTicketRule_moving s
  case arm => exact takeFixed_course _ _ _ (onDescriptor_moving _ armOn_moves) s
  case suspend => exact takeFixed_course _ _ _ (onDescriptor_moving _ suspendOn_moves) s
  case resume => exact takeFixed_course _ _ _ (onDescriptor_moving _ resumeOn_moves) s
  case disarm => exact takeFixed_course _ _ _ (onDescriptor_moving _ disarmOn_moves) s
  case readSweep => exact takeFixed_course _ _ _ (readSweepRule_moving _) s
  case setPath => exact takeFixed_course _ _ _ (setPathRule_moving _ _ _ _ _) s
  case restoreBus => exact takeFixed_course _ _ _ (restoreBusRule_moving _) s
  case restoreHead => exact takeFixed_course _ _ _ (restoreHeadRule_moving _) s
  case loadSiteParameters => exact takeFixed_course _ _ _ (loadSiteRule_moving _ _ _) s
  case loadLineClassMap => exact takeFixed_course _ _ _ (loadClassesRule_moving _ _ _) s
  case loadLimitTable => exact takeFixed_course _ _ _ (loadLimitsRule_moving _ _ _) s
  case loadProgramTable => exact takeFixed_course _ _ _ (loadProgramsRule_moving _ _ _) s
  case loadCableMap => exact takeFixed_course _ _ _ (loadCablesRule_moving _ _ _) s
  case loadToneTable => exact takeFixed_course _ _ _ (loadTonesRule_moving _ _ _) s
  case loadSweepConfigurations => exact takeFixed_course _ _ _ (loadConfigsRule_moving _ _ _) s
  case readTable => exact takeFixed_course _ _ _ (readTableRule_moving _ _ _) s
  case readCounters => exact takeFixed_course _ _ _ (readCountersRule_moving _ _) s
  case setClock => exact takeFixed_course _ _ _ (setClockRule_moving _) s
  case reset => exact takeFixed_course _ _ _ resetRule_moving s

/-- Every step that answers a next state is a course from the state without the command it took. -/
theorem step_course {t : State} (h : step s = .next t) : ∃ rest, Course { s with pending := rest } t := by
  unfold step at h
  split at h
  · injection h with h; subst h; exact ⟨s.pending, .moves (.refl s)⟩
  · exact ⟨_, exec_course _ h⟩

end Sys2Proof.Machine
end

