-- ==== Sys2Proof/Laws/Forms.lean ====
section
/-! SUPPORT. What the forms of Safety say, each as the proposition that `Change` is stated with (Laws.Moves), and the induction
over the changes of a step, said once. -/

namespace Sys2Proof.Machine

/-- A property that stands whatever command waits, and that every change and every reply keep, is kept by every step. -/
theorem step_keeps {P : State → Prop} (waiting : ∀ s rest, P s → P { s with pending := rest })
    (change : ∀ s t, Change s t → P s → P t)
    (reply : ∀ s r, s.replies.length < Config.replyCapacity → P s → P (pushReply r s)) {s t : State} (k : P s)
    (e : step s = .next t) : P t := by
  obtain ⟨rest, c⟩ := step_course s e
  exact c.keeps change reply (waiting s rest k)

theorem mem_allDesks (d : DeskNo) : d ∈ allDesks := by revert d; decide
theorem mem_allBuses (b : BusNo) : b ∈ allBuses := by revert b; decide
theorem mem_allHeads (h : HeadNo) : h ∈ allHeads := by revert h; decide
theorem mem_allSweeps (d : SweepNo) : d ∈ allSweeps := by revert d; decide

theorem waitsOk_iff (s : State) : s.waitsOk = true ↔ ∀ o : Origin, waitingCount o s ≤ waitingLimit o := by
  unfold State.waitsOk waitingLimit
  simp only [Bool.and_eq_true, List.all_eq_true, decide_eq_true_eq]
  refine ⟨fun h o => ?_, fun h => ⟨fun d _ => ?_, h 6⟩⟩
  · split
    · rename_i k; exact h.1 ⟨o.val, k⟩ (mem_allDesks _)
    · have : o = 6 := Fin.ext (by have := o.isLt; omega)
      subst this; exact h.2
  · have := h d.castSucc
    simp only [Fin.val_castSucc, d.isLt, if_true] at this; exact this

theorem countsOk_iff (s : State) : s.countsOk = true ↔ ∀ d : SweepNo, s.sweeps[d].counts.ok = true := by
  unfold State.countsOk
  simp only [List.all_eq_true]
  exact ⟨fun h d => h d (mem_allSweeps d), fun h d _ => h d⟩

theorem headsOk_iff (s : State) : s.headsOk = true ↔ ∀ h : HeadNo, HeadOk s.heads[h] := by
  unfold State.headsOk
  simp only [List.all_eq_true]
  refine ⟨fun k h => ?_, fun k h _ => ?_⟩
  · have := k h (mem_allHeads h)
    split at this
    · rename_i a
      simp only [Bool.and_eq_true, beq_iff_eq] at this
      exact ⟨fun _ => ⟨this.1.1, this.1.2, this.2⟩, fun n => absurd a n⟩
    · rename_i a
      exact ⟨fun n => absurd n a, fun _ => beq_iff_eq.mp this⟩
  · have := k h
    split
    · rename_i a
      obtain ⟨p, q, r⟩ := this.active a
      simp only [Bool.and_eq_true, beq_iff_eq]; exact ⟨⟨p, q⟩, r⟩
    · rename_i a; exact beq_iff_eq.mpr (this.rest a)

theorem clockOk_iff (s : State) : s.clockOk = true ↔ ClockOk s.frameCount s.clock := by
  unfold State.clockOk ClockOk; exact decide_eq_true_iff

theorem ticketsOk_iff (s : State) : s.ticketsOk = true ↔ TicketsOk s.tickets := by
  unfold State.ticketsOk State.tableOk State.numbersOk State.cablesOk State.windowOk cableTickets issueWindow
  simp only [Bool.and_eq_true, decide_eq_true_eq, List.all_eq_true]
  exact ⟨fun ⟨⟨⟨a, b⟩, c, d⟩, e⟩ => ⟨a, b, e, c, d⟩, fun ⟨a, b, e, c, d⟩ => ⟨⟨⟨a, b⟩, c, d⟩, e⟩⟩

theorem keysOk_iff (s : State) : s.keysOk = true ↔ KeysOk s.tickets := by
  unfold State.keysOk KeysOk; exact decide_eq_true_iff

theorem membersOk_iff (s : State) : s.membersOk = true ↔ MembersOk s.tickets := by
  unfold State.membersOk MembersOk
  simp only [List.all_eq_true]
  refine forall_congr' fun t => forall_congr' fun _ => ?_
  have key (k : Nat) (u : Ticket) : (!(u.isOnLine k && u.code == t.code)) = true ↔ u.key ≠ (.line k, t.code) := by
    unfold Ticket.key Ticket.isOnLine
    simp only [Bool.not_eq_true', ← Bool.not_eq_true, Bool.and_eq_true, beq_iff_eq, ne_eq, Prod.mk.injEq]
  have lines : (t.members.all fun m => s.tickets.all fun u => !(u.isOnLine m.line && u.code == t.code)) = true
      ↔ ∀ k ∈ t.lines, ∀ u ∈ s.tickets, u.key ≠ (.line k, t.code) := by
    unfold Ticket.lines
    simp only [List.all_eq_true, key, List.mem_map, forall_exists_index, and_imp, forall_apply_eq_imp_iff₂]
  rw [Bool.or_eq_true, Bool.and_eq_true, decide_eq_true_eq, lines]
  have kind : t.isLine = true ↔ ¬t.isCable = true := by
    unfold Ticket.isLine; cases t.isCable <;> decide
  rw [kind]
  exact ⟨fun h c => h.resolve_left fun n => n c, fun h => by
    by_cases c : t.isCable = true
    · exact .inr (h c)
    · exact .inl c⟩

end Sys2Proof.Machine
end

