-- ==== Sys2Proof/Laws/PerInstr.lean ====
section
/-! SUPPORT. Statements about every command and event as syntax, one lemma for each constructor of `Instr`. -/

namespace Sys2Proof.Laws

/-- A well-formed message has a length that the management channel carries, 6 to 250 octets (R180). -/
def LengthCarried.Statement (i : Instr) : Prop :=
  i.wf = true → ∀ hd, i.header = some hd → 6 ≤ hd.length.toNat ∧ hd.length.toNat ≤ 250

/-- An event carries no message. -/
theorem LengthCarried.of_event {i : Instr} (h : i.header = none) : LengthCarried.Statement i := by
  intro _ hd hh
  simp [h] at hh

/-- A command is well formed only if its header is. -/
theorem LengthCarried.of_header {i : Instr} {hd : Header} (h : i.header = some hd) (hw : i.wf = true → hd.wf = true) :
    LengthCarried.Statement i := by
  intro hi hd' hh
  rw [h, Option.some.injEq] at hh
  subst hh
  simpa [Header.wf] using hw hi

theorem LengthCarried.powerOnReset : LengthCarried.Statement .powerOnReset :=
  LengthCarried.of_event rfl

theorem LengthCarried.huntPatternFound (position : Nat) (bits : BitVec 15) :
    LengthCarried.Statement (.huntPatternFound position bits) :=
  LengthCarried.of_event rfl

theorem LengthCarried.confirmationFrame (f : Frame) (order : List Act) :
    LengthCarried.Statement (.confirmationFrame f order) :=
  LengthCarried.of_event rfl

theorem LengthCarried.inboundFrame (f : Frame) (order : List Act) : LengthCarried.Statement (.inboundFrame f order) :=
  LengthCarried.of_event rfl

theorem LengthCarried.makeTimeout (b : BusNo) : LengthCarried.Statement (.makeTimeout b) :=
  LengthCarried.of_event rfl

theorem LengthCarried.guardTimeout (b : BusNo) : LengthCarried.Statement (.guardTimeout b) :=
  LengthCarried.of_event rfl

theorem LengthCarried.releaseTimeout (b : BusNo) : LengthCarried.Statement (.releaseTimeout b) :=
  LengthCarried.of_event rfl

theorem LengthCarried.echoTimeout (h : HeadNo) : LengthCarried.Statement (.echoTimeout h) :=
  LengthCarried.of_event rfl

theorem LengthCarried.returnTimeout (h : HeadNo) : LengthCarried.Statement (.returnTimeout h) :=
  LengthCarried.of_event rfl

theorem LengthCarried.settleEnd (h : HeadNo) : LengthCarried.Statement (.settleEnd h) :=
  LengthCarried.of_event rfl

theorem LengthCarried.windowEnd (h : HeadNo) : LengthCarried.Statement (.windowEnd h) :=
  LengthCarried.of_event rfl

theorem LengthCarried.chargeWindowEnd (h : HeadNo) : LengthCarried.Statement (.chargeWindowEnd h) :=
  LengthCarried.of_event rfl

theorem LengthCarried.paceExpiry (d : SweepNo) : LengthCarried.Statement (.paceExpiry d) :=
  LengthCarried.of_event rfl

theorem LengthCarried.warningExpiry (b : BusNo) : LengthCarried.Statement (.warningExpiry b) :=
  LengthCarried.of_event rfl

theorem LengthCarried.outboundFrame : LengthCarried.Statement .outboundFrame :=
  LengthCarried.of_event rfl

theorem LengthCarried.clockSecond : LengthCarried.Statement .clockSecond :=
  LengthCarried.of_event rfl

theorem LengthCarried.unknownKindCommand (hd : Header) (kind : Octet) (body : List Octet) :
    LengthCarried.Statement (.unknownKindCommand hd kind body) :=
  LengthCarried.of_header rfl fun h => by simp_all [Instr.wf, Header.fitsBody]

theorem LengthCarried.seize (hd : Header) (line : Word) (cls : Octet) :
    LengthCarried.Statement (.seize hd line cls) :=
  LengthCarried.of_header rfl id

theorem LengthCarried.talk (hd : Header) (line : Word) : LengthCarried.Statement (.talk hd line) :=
  LengthCarried.of_header rfl id

theorem LengthCarried.monitor (hd : Header) (line : Word) : LengthCarried.Statement (.monitor hd line) :=
  LengthCarried.of_header rfl id

theorem LengthCarried.sendTone (hd : Header) (line : Word) (tone : Octet) :
    LengthCarried.Statement (.sendTone hd line tone) :=
  LengthCarried.of_header rfl id

theorem LengthCarried.standby (hd : Header) (line : Word) : LengthCarried.Statement (.standby hd line) :=
  LengthCarried.of_header rfl id

theorem LengthCarried.measure (hd : Header) (line : Word) (program : Octet) (evaluate : Octet) :
    LengthCarried.Statement (.measure hd line program evaluate) :=
  LengthCarried.of_header rfl id

theorem LengthCarried.accept (hd : Header) (number : Word) : LengthCarried.Statement (.accept hd number) :=
  LengthCarried.of_header rfl id

theorem LengthCarried.repaired (hd : Header) (number : Word) : LengthCarried.Statement (.repaired hd number) :=
  LengthCarried.of_header rfl id

theorem LengthCarried.repairedKey (hd : Header) (cable : Octet) (code : Octet) :
    LengthCarried.Statement (.repairedKey hd cable code) :=
  LengthCarried.of_header rfl id

theorem LengthCarried.withdraw (hd : Header) (number : Word) : LengthCarried.Statement (.withdraw hd number) :=
  LengthCarried.of_header rfl id

theorem LengthCarried.takeTicket (hd : Header) : LengthCarried.Statement (.takeTicket hd) :=
  LengthCarried.of_header rfl id

theorem LengthCarried.arm (hd : Header) (descriptor : Octet) : LengthCarried.Statement (.arm hd descriptor) :=
  LengthCarried.of_header rfl id

theorem LengthCarried.suspend (hd : Header) (descriptor : Octet) : LengthCarried.Statement (.suspend hd descriptor) :=
  LengthCarried.of_header rfl id

theorem LengthCarried.resume (hd : Header) (descriptor : Octet) : LengthCarried.Statement (.resume hd descriptor) :=
  LengthCarried.of_header rfl id

theorem LengthCarried.disarm (hd : Header) (descriptor : Octet) : LengthCarried.Statement (.disarm hd descriptor) :=
  LengthCarried.of_header rfl id

theorem LengthCarried.readSweep (hd : Header) (descriptor : Octet) :
    LengthCarried.Statement (.readSweep hd descriptor) :=
  LengthCarried.of_header rfl id

theorem LengthCarried.setPath (hd : Header) (slot : Octet) (action : Octet) (parameter : Octet) (primary : Octet) (secondary : Octet) :
    LengthCarried.Statement (.setPath hd slot action parameter primary secondary) :=
  LengthCarried.of_header rfl id

theorem LengthCarried.restoreBus (hd : Header) (bus : Octet) : LengthCarried.Statement (.restoreBus hd bus) :=
  LengthCarried.of_header rfl id

theorem LengthCarried.restoreHead (hd : Header) (head : Octet) : LengthCarried.Statement (.restoreHead hd head) :=
  LengthCarried.of_header rfl id

theorem LengthCarried.loadSiteParameters (hd : Header) (first : Word) (count : Word) (entries : List Octet) :
    LengthCarried.Statement (.loadSiteParameters hd first count entries) :=
  LengthCarried.of_header rfl fun h => by simp_all [Instr.wf, Header.fitsEntries]

theorem LengthCarried.loadLineClassMap (hd : Header) (first : Word) (count : Word) (entries : List Octet) :
    LengthCarried.Statement (.loadLineClassMap hd first count entries) :=
  LengthCarried.of_header rfl fun h => by simp_all [Instr.wf, Header.fitsEntries]

theorem LengthCarried.loadLimitTable (hd : Header) (first : Word) (count : Word) (entries : List Octet) :
    LengthCarried.Statement (.loadLimitTable hd first count entries) :=
  LengthCarried.of_header rfl fun h => by simp_all [Instr.wf, Header.fitsEntries]

theorem LengthCarried.loadProgramTable (hd : Header) (first : Word) (count : Word) (entries : List Octet) :
    LengthCarried.Statement (.loadProgramTable hd first count entries) :=
  LengthCarried.of_header rfl fun h => by simp_all [Instr.wf, Header.fitsEntries]

theorem LengthCarried.loadCableMap (hd : Header) (first : Word) (count : Word) (entries : List Octet) :
    LengthCarried.Statement (.loadCableMap hd first count entries) :=
  LengthCarried.of_header rfl fun h => by simp_all [Instr.wf, Header.fitsEntries]

theorem LengthCarried.loadToneTable (hd : Header) (first : Word) (count : Word) (entries : List Octet) :
    LengthCarried.Statement (.loadToneTable hd first count entries) :=
  LengthCarried.of_header rfl fun h => by simp_all [Instr.wf, Header.fitsEntries]

theorem LengthCarried.loadSweepConfigurations (hd : Header) (first : Word) (count : Word) (entries : List Octet) :
    LengthCarried.Statement (.loadSweepConfigurations hd first count entries) :=
  LengthCarried.of_header rfl fun h => by simp_all [Instr.wf, Header.fitsEntries]

theorem LengthCarried.readTable (hd : Header) (table : Octet) (first : Word) (count : Word) :
    LengthCarried.Statement (.readTable hd table first count) :=
  LengthCarried.of_header rfl id

theorem LengthCarried.readCounters (hd : Header) (group : Octet) (clear : Octet) :
    LengthCarried.Statement (.readCounters hd group clear) :=
  LengthCarried.of_header rfl id

theorem LengthCarried.setClock (hd : Header) (seconds : BitVec 32) : LengthCarried.Statement (.setClock hd seconds) :=
  LengthCarried.of_header rfl id

theorem LengthCarried.reset (hd : Header) : LengthCarried.Statement (.reset hd) :=
  LengthCarried.of_header rfl id

end Sys2Proof.Laws
end

