-- ==== Sys2Proof/Tests/Slice0.lean ====
section
/-! SUPPORT. Tests on small states: the checks of well-formedness, the manual's worked figures, and for every statement with
hypotheses a machine and operands that meet them. Each expected figure is the manual's own, named at the test. -/

namespace Sys2Proof.Tests

open Sys2Proof.Machine Sys2Proof.Stated

-- Kernel evaluations one at a time, so that none of them holds a thread while it waits for those before it.
set_option Elab.async false

/-- A header of a length and an origin. -/
def hdr (length origin : Octet) : Header := { length := length, tag := 7, origin := origin }

/-- The machine after reset with one bus replaced. -/
def onBus (b : BusNo) (x : Bus) : State := State.reset.setBus b x

/-- The machine after reset with one head replaced. -/
def onHead (h : HeadNo) (x : HeadRec) : State := State.reset.setHead h x

/-- The machine after reset with one descriptor replaced. -/
def onSweep (d : SweepNo) (x : Descriptor) : State := State.reset.setSweep d x

/-- The machine after reset with some tickets. -/
def onTickets (l : List Ticket) : State := State.reset.setTickets l

/-- No bus is FREE: all are held by the exchange processor. -/
def taken8 (s : State) : State :=
  { s with buses := Vector.replicate 8 { state := .held, line := some 5, holder := some (.origin 6) } }

/-- The state a command leaves. -/
def after (o : Host.Outcome State Fault Refusal) : State :=
  match o with
  | .next s => s
  | _ => State.reset

/-! ### Ill-formed terms -/

theorem test_wf_short_message : (Instr.takeTicket (hdr 5 6)).wf = false := by decide
theorem test_wf_long_message : (Instr.takeTicket (hdr 251 6)).wf = false := by decide
theorem test_wf_load_length : (Instr.loadToneTable (hdr 11 6) 0 1 [0, 3, 232, 0, 0]).wf = false := by decide
theorem test_wf_body_length : (Instr.unknownKindCommand (hdr 7 6) 99 []).wf = false := by decide
theorem test_wf_known_kind : (Instr.unknownKindCommand (hdr 6 6) 12 []).wf = false := by decide
theorem test_wf_order_twice : (Instr.inboundFrame (Vector.replicate 48 0) [.management, .management]).wf = false := by
  decide
theorem test_wf_confirmation_twice : (Instr.confirmationFrame (Vector.replicate 48 0) [.head 0, .head 0]).wf = false := by
  decide
theorem test_wf_load_fits : (Instr.loadToneTable (hdr 16 6) 0 1 [0, 3, 232, 0, 0]).wf = true := by decide

/-! ### The manual's figures -/

/-- The table of R13 and R14: INVERT and MIX at the edge of the word, GAIN +2 of 9,000, −2 of −9, −3 of −1. -/
theorem test_gain_edges :
    gainValue 2 9000 = 32767 ∧ gainValue 1 (-16384) = -32767 ∧ gainValue 3 1000 = 8000 ∧ gainValue (-2) (-9) = -3 ∧
      gainValue (-2) 9 = 2 ∧ gainValue (-3) (-1) = -1 ∧ gainValue (-1) (-32768) = -16384 := by decide

/-- 1.5.2: the sum 8,999 of 12,000 and −3,001, and its half rounded down, −1,501 of −3,001. -/
theorem test_observed_desk : saturate (12000 + -3001) = 8999 ∧ gainValue (-1) (-3001) = -1501 := by decide

/-- The increments of R17: 50, 425, 1,000 and 3,950 Hz. -/
theorem test_tone_increments :
    toneIncrement 50 = 410 ∧ toneIncrement 425 = 3482 ∧ toneIncrement 1000 = 8192 ∧ toneIncrement 3950 = 32358 := by
  decide

/-- 1.6.1: the words of a generator of 1,000 Hz and amplitude 10,000. -/
theorem test_tone_words :
    ([0, 8192, 16384, 24576, 32768, 40960, 49152, 57344].map fun p => toneValue { amplitude := 10000, phase := p }) =
      [0, 7071, 10000, 7071, 0, -7071, -10000, -7071] := by decide

/-- The table of R96. -/
theorem test_means :
    [meanOf 797920 160, meanOf 1000 80, meanOf (-1000) 80, meanOf 1001 160, meanOf (-79) 160, meanOf (-80) 160] =
      [4987, 13, -13, 6, 0, -1] := by decide

/-- 6.7.1: a sound pair, 50,246,231 Ω. -/
theorem test_res_sound_pair :
    computeRes .low { a := 797920, b := 161600, n := 160 } { a := -801920, b := -156800, n := 160 } =
      (some 50246231, .none) := by decide

/-- 6.7.4: the step that ranged up, 490,245 Ω. -/
theorem test_res_ranged_up :
    computeRes .high { a := 799680, b := 16640, n := 160 } { a := -800480, b := -16000, n := 160 } =
      (some 490245, .none) := by decide

/-- 6.7.2: a loop of 250,000 pF. -/
theorem test_cap_loop :
    computeCap { n := 80 } { a := 400000, b := 104000, tail := 800, n := 400 } = (some 250000, .none) := by decide

/-- 6.7.3: hum of 1,500 counts beside 200 counts of direct voltage. -/
theorem test_fac_hum : computeFac { a := 32000, q := 366400000, n := 160 } = (1500, .none) := by decide

/-- R100: 32,767.5 rounded upward is out of range. -/
theorem test_fac_edge : computeFac { a := -80, q := 171793449040, n := 160 } = (32767, .above) := by decide

/-- 1.2.2: the third consecutive miss is taken and the fourth loses alignment; the search starts one bit on. -/
theorem test_fourth_miss :
    let t := after (exec (.inboundFrame (Vector.replicate 48 0) []) { State.reset with alignment := .aligned 0 3 })
    (after (exec (.inboundFrame (Vector.replicate 48 0) []) { State.reset with alignment := .aligned 0 2 })).alignment =
        .aligned 768 3 ∧
      t.alignment = .hunting 769 ∧ t.highway.losses = 1 ∧ t.notices.length = 1 := by decide +kernel

/-- R127: base severity 2 and five failed retests give 1. -/
theorem test_severity : severityOf 2 5 = 1 := by decide

/-- The limits of class 3 in 7.7. -/
def limits77 : Vector LimitEntry 160 :=
  ((((Vector.replicate 160 {}).set 31 { enabled := true, threshold := 500000, severity := 2 }).set 35
    { enabled := true, threshold := 500, severity := 1 }).set 38 { enabled := true, threshold := 50000, severity := 1 }).set
    34 { enabled := true, threshold := 500, severity := 1 }

/-- The record of 7.7, its steps 0, 1, 5, 6 and 7. -/
def record77 : Record where
  line := 9412
  bus := 0
  program := 7
  holder := .sweep 4
  outcome := .complete
  results :=
    [{ index := 0, kind := .fdc, legs := .tg, value := some 212, quals := {} },
     { index := 1, kind := .fdc, legs := .rg, value := some (-1840), quals := {} },
     { index := 5, kind := .res, legs := .tg, value := some 184320, quals := { degraded := true } },
     { index := 6, kind := .res, legs := .rg, value := none, quals := { sourceFault := true } },
     { index := 7, kind := .cap, legs := .tr, value := some 0, quals := { belowRange := true } }]

/-- The machine of 7.7. -/
def state77 : State := { State.reset with classMap := [(9412, 3)], limits := limits77, clock := 41200 }

/-- 7.7: LEAK_TG, BATTERY_R and OPEN_LOOP are FOUND, in code order and with their severities; BATTERY_T is CLEAR. -/
theorem test_worked_evaluation :
    ((evaluate record77 state77).findings.map fun f => (f.code, f.value, f.severity, f.time)) =
        [(.leakTG, 184320, 2, 41200), (.batteryR, -1840, 1, 41200), (.openLoop, 0, 1, 41200)] ∧
      (evaluate record77 state77).of .batteryT = .clear ∧ (evaluate record77 state77).of .leakRG = .notAssessed := by
  decide

/-- R180: the octets of a SET CLOCK reply, 12 octets, status OK, the old clock, and the check of the sum. -/
theorem test_reply_octets :
    encReply 0 { kind := 25, tag := 7, addressed := 6, status := .ok, data := .clock 258 } =
      [12, 25, 7, 7, 6, 0, 0, 0, 1, 2, 0, 60] := by decide

/-! ### Witnesses: a machine and operands that meet the hypotheses of each statement, clause by clause -/

/-- A plain good frame: the pattern, and every other word 0. -/
def plainFrame : Frame := (Vector.replicate 48 0).set 0 0xB4E2

/-- A frame with the pattern and a wrong check. -/
def badFrame : Frame := plainFrame.set 47 1

/-- The machine aligned, with a miss count. -/
def aligned (misses : Nat) : State := { State.reset with alignment := .aligned 0 misses }

/-- A LINE ticket of LEAK_TR with its number as raise order. -/
def ticket (n l : Nat) (st : TicketState) : Ticket where
  number := n
  subject := .line l
  code := .leakTR
  linked := none
  baseSeverity := 2
  severity := 2
  state := st
  occurrences := 1
  firstSeen := 0
  lastSeen := 0
  lastValue := 5
  lastQuals := {}
  program := 0
  retestCount := 0
  raiseOrder := n

/-- A member entry of a line. -/
def member (l : Nat) (mark : Mark) : Member :=
  { line := l, value := 5, quals := {}, program := 0, lastSeen := 0, mark := mark }

/-- A CABLE ticket of LEAK_TR with members. -/
def cableTicket (n c : Nat) (st : TicketState) (members : List Member) : Ticket :=
  { ticket n 0 st with subject := .cable c, members := members }

/-- A LEAK_TR finding of severity 1 on a line. -/
def finding (l : Nat) : Finding :=
  { line := l, code := .leakTR, value := 5, quals := {}, program := 0, severity := 1, time := 0 }

/-- Bus 7 HELD by an origin on line 16,383. -/
def held (o : Origin) (x : Bus) : State :=
  { onBus 7 { x with state := .held, line := some 16383, holder := some (.origin o) } with claims := [(16383, 7)] }

/-- A reply, to fill its queue. -/
def aReply : Reply := { kind := 25, tag := 0, addressed := 6, status := .ok, data := .empty }

/-- The step of program steps in these tests: 16 units, no settle time. -/
def aStep (kind : Kind) : StepDef :=
  { kind := kind, legs := .rg, source := .v100, range := .auto, units := 16, settle := 500 }

/-- A measurement of desk 5 on line 16,383 with one step. -/
def aContext (kind : Kind) : Context :=
  { line := 16383, program := 15, steps := [aStep kind], holder := .origin 5, evaluate := false }

/-- Head 3 measures on bus 7 for desk 5. -/
def measuring (st : HeadState) (timer : Option Nat) (c : Context) : State :=
  (held 5 { mode := some .measure, head := some 3 }).setHead 3
    { state := st, bus := some 7, timer := timer, ctx := some c, word := { source := .v100, attach := true, bus := 7 } }

theorem witness_StepTakesFront : State.reset.pending = [] := rfl

theorem witness_ExecLeavesQueue : ∃ t, exec (.powerOnReset) State.reset = .next t := ⟨_, rfl⟩

/-- An entry of the access wait queue. -/
def entry (r : Holder) (cls line arrival : Nat) : WaitEntry :=
  { requester := r, cls := cls, line := line, arrival := arrival, waiting := false }

/-- The access wait queue with its 22 entries: each desk, the exchange processor, each descriptor and the four retests. -/
def fullQueue : List WaitEntry :=
  allDesks.map (fun d => entry (.origin d.castSucc) 1 0 d.val) ++ List.replicate 4 (entry (.origin 6) 1 0 6)
    ++ allSweeps.map (fun d => entry (.sweep d) 3 0 10) ++ List.replicate 4 (entry (.retest 1) 2 0 18)

/-- A step from a state with its tables filled to their bounds. -/
def filled : State :=
  { State.reset with
    pending := [.settleEnd 0]
    claims := [(0, 0), (16383, 7)]
    classMap := [(16383, 15)]
    replies := List.replicate 16 aReply
    notices := List.replicate 32 { addressed := 6, clock := 0, body := .highwayLost }
    tickets := [ticket 1 0 .issued, ticket 65535 16383 .issued, cableTicket 2 255 .raised [member 1 .none]]
    queue := fullQueue
    inFlight := List.replicate 4 { ticket := 1, line := 0 } }

theorem witness_LineTablesStayCanonical :
    filled.claimsOk = true ∧ filled.classesOk = true ∧ ∃ t, step filled = .next t := ⟨by decide, by decide, _, rfl⟩

theorem witness_QueuesStayBounded :
    filled.repliesOk = true ∧ filled.noticesOk = true ∧ filled.waitsOk = true ∧
      (∀ d : SweepNo, (filled.queue.filter fun e => e.requester = .sweep d).length ≤ 1) ∧
      (filled.queue.filter fun e => purposeOf e.requester = .retest).length ≤ 4 ∧ filled.queue.length = 22 ∧
      ∃ t, step filled = .next t :=
  ⟨by decide +kernel, by decide +kernel, by decide +kernel, by decide +kernel, by decide +kernel, rfl, _, rfl⟩

theorem witness_TicketTableStaysBounded :
    filled.ticketsOk = true ∧ filled.keysOk = true ∧ filled.membersOk = true ∧ ∃ t, step filled = .next t :=
  ⟨by decide +kernel, by decide +kernel, by decide +kernel, _, rfl⟩

theorem witness_RetestsAndDeferralsStayBounded :
    filled.retestsOk = true ∧ filled.deferredOk = true ∧ filled.countsOk = true ∧ filled.headsOk = true ∧
      ∃ t, step filled = .next t :=
  ⟨by decide +kernel, by decide +kernel, by decide +kernel, by decide +kernel, _, rfl⟩

theorem witness_FullReplyQueueDropsCommand :
    (Instr.reset (hdr 6 6)).header = some (hdr 6 6) ∧ 16 ≤ filled.replies.length := by decide

theorem witness_CommonChecksRefuse :
    let c := Instr.takeTicket (hdr 7 7)
    let d := Instr.takeTicket (hdr 6 7)
    (c.header = some (hdr 7 7) ∧ kindAndLength c = some (12, 6) ∧ State.reset.replies.length < 16 ∧
        (hdr 7 7).length.toNat ≠ 6) ∧
      (d.header = some (hdr 6 7) ∧ kindAndLength d = some (12, 6) ∧ (hdr 6 7).length.toNat = 6 ∧
        6 < (hdr 6 7).origin.toNat) ∧
      26 < (27 : Octet).toNat := by decide

theorem witness_DeskRefusedProcessorCommands :
    let c := Instr.takeTicket (hdr 6 5)
    c.header = some (hdr 6 5) ∧ kindAndLength c = some (12, 6) ∧ forProcessor c = true ∧ (5 : Origin).val < 6 ∧
      From 5 6 (hdr 6 5) State.reset := by decide

theorem witness_MessageIsItsCommand :
    let c := Instr.restoreBus (hdr 7 6) 7
    let u := Instr.unknownKindCommand (hdr 250 6) 255 (List.replicate 244 0)
    (c.header = some (hdr 7 6) ∧ (hdr 7 6).length.toNat = (messageOf (hdr 7 6) c).length) ∧
      u.header = some (hdr 250 6) ∧ (hdr 250 6).length.toNat = (messageOf (hdr 250 6) u).length := by decide +kernel

theorem witness_AssemblerFollowsFrames :
    let s := { State.reset with assembler := .assembling (List.replicate 8 0) 16 }
    (s.assembler = .assembling (List.replicate 8 0) 16 ∧ State.reset.assembler = .waiting ∧
        ¬(true = true ∧ false = true)) ∧
      (let short : List Octet := 6 :: List.replicate 7 0
       short.length = 8 ∧ 6 ≤ num1 short 0 ∧ num1 short 0 ≤ 8 ∧ 8 ≤ num1 (8 :: List.replicate 7 (0 : Octet)) 0) ∧
      (let first : List Octet := 250 :: List.replicate 7 0
       first.length = 8 ∧ 8 < num1 first 0 ∧ num1 first 0 ≤ 250) ∧
      (num1 (5 :: List.replicate 7 (0 : Octet)) 0 < 6 ∧ 250 < num1 (251 :: List.replicate 7 (0 : Octet)) 0) ∧
      ((List.replicate 8 (0 : Octet)).length + (List.replicate 7 (0 : Octet)).length < 16) ∧
      (16 ≤ (List.replicate 8 (0 : Octet)).length + (List.replicate 8 (0 : Octet)).length) ∧
      (1 : Word) ≠ ([] : List Octet).foldl (fun sum o => sum + o.zeroExtend 16) 0 := by decide +kernel

theorem witness_NoticesQueueOrAreLost : State.reset.notices.length < 32 ∧ 32 ≤ filled.notices.length := by decide +kernel

theorem witness_AlignmentIsGained :
    (State.reset.alignment = .hunting 0 ∧ 0 ≤ 0) ∧
      (¬((∃ start, State.reset.alignment = .hunting start ∧ start ≤ 5) ∧
        (0 : BitVec 15) = 0b101101001110001#15)) ∧
      hasPattern (Vector.replicate 48 0) = false ∧ hasPattern plainFrame = true ∧
      (let s := { State.reset with alignment := .confirming 0 2 }
       s.alignment = .confirming 0 2 ∧ Quiet s ∧ Plain plainFrame) :=
  ⟨by decide, fun h => absurd h.2 (by decide), by decide, by decide, by decide +kernel⟩

theorem witness_PlainFrameIsStored : (aligned 3).alignment = .aligned 0 3 ∧ Quiet (aligned 3) ∧ Plain plainFrame := by
  decide +kernel

theorem witness_BadAndMissedFramesAreCounted :
    ((aligned 3).alignment = .aligned 0 3 ∧ Quiet (aligned 3) ∧ hasPattern badFrame = true ∧
        frameSum badFrame ≠ badFrame[47]) ∧
      ((aligned 2).alignment = .aligned 0 2 ∧ Quiet (aligned 2)) ∧ hasPattern (Vector.replicate 48 0) = false := by
  decide +kernel

theorem witness_BadAndMissedFramesAreCounted_head :
    let s := { measuring .awaitEcho (some 159) (aContext .fdc) with alignment := .aligned 0 3 }
    s.alignment = .aligned 0 3 ∧ NoneOwed s ∧ (∀ k : HeadNo, k ≠ 3 → QuietHead k s) ∧
      s.heads[(3 : HeadNo)].state = .awaitEcho ∧ s.heads[(3 : HeadNo)].timer = some 159 ∧
      Measures 3 7 5 (aContext .fdc) s ∧ (∀ k : BusNo, k ≠ 7 → QuietBus k s) ∧ s.buses[(7 : BusNo)].state = .held ∧
      s.buses[(7 : BusNo)].candidate = none ∧ s.buses[(7 : BusNo)].stable = 0 := by decide +kernel

/-- Bus 7 in a state with its timer, for desk 5. -/
def timed (st : BusState) (n : Nat) : State :=
  onBus 7 { state := st, line := some 16383, holder := some (.origin 5), timer := some n }

theorem witness_RelayStatesMoveBus :
    (onBus 7 { state := .seizing }).buses[(7 : BusNo)].state = .seizing ∧
      (let s := onBus 7 { state := .releasing, makeTimeouts := 2, line := some 16383, holder := some (.origin 6)
                          cause := some .requested }
       s.buses[(7 : BusNo)].state = .releasing ∧ s.buses[(7 : BusNo)].makeTimeouts < 3 ∧
         s.buses[(7 : BusNo)].line = some 16383 ∧ s.buses[(7 : BusNo)].holder = some (.origin 6) ∧
         s.buses[(7 : BusNo)].cause = some .requested ∧ s.queue = []) ∧
      (let s := onBus 7 { state := .releasing, makeTimeouts := 3, line := some 16383 }
       s.buses[(7 : BusNo)].state = .releasing ∧ s.buses[(7 : BusNo)].makeTimeouts = 3 ∧
         s.buses[(7 : BusNo)].line = some 16383 ∧ s.queue = []) ∧
      (let s := onBus 7 { state := .releasing, lateWatch := true }
       s.buses[(7 : BusNo)].state = .releasing ∧ s.buses[(7 : BusNo)].lateWatch = true ∧
         (onBus 7 { state := .releasing }).buses[(7 : BusNo)].lateWatch = false) ∧
      (∀ st ∈ [BusState.seizing, .guard, .held, .releasing],
        let s := timed st 0
        s.buses[(7 : BusNo)].state = st ∧ s.buses[(7 : BusNo)].holder = some (.origin 5) ∧
          s.buses[(7 : BusNo)].line = some 16383 ∧ Unmeasured 7 s ∧ s.queue = []) ∧
      State.reset.buses[(7 : BusNo)].state = .free ∧ State.reset.buses[(7 : BusNo)].line = none ∧
      State.reset.buses[(7 : BusNo)].holder = none := by decide +kernel

theorem witness_DebouncerCounts :
    (State.reset.buses[(0 : BusNo)].state ≠ .guard ∧ State.reset.buses[(0 : BusNo)].state ≠ .held) ∧
      (let s := onBus 7 { state := .guard, candidate := some .call, stable := 6 }
       s.buses[(7 : BusNo)].state = .guard ∧ LineCond.call ≠ s.buses[(7 : BusNo)].accepted ∧
         s.buses[(7 : BusNo)].candidate = some .call ∧ s.buses[(7 : BusNo)].stable < 7 ∧
         LineCond.idle ≠ s.buses[(7 : BusNo)].accepted ∧ s.buses[(7 : BusNo)].candidate ≠ some .idle) := by decide +kernel

/-- Bus 7 in GUARD for an origin with a condition stable for seven frames. -/
def guarding (o : Origin) (c : LineCond) : State :=
  onBus 7 { state := .guard, line := some 16383, holder := some (.origin o), candidate := some c, stable := 7 }

theorem witness_GuardAcceptsCondition :
    let s := guarding 6 .idle
    let t := { guarding 0 .call with
      site := { authority := Vector.replicate 6 { monitorBusy := true } } }
    let u := guarding 0 .ringing
    (s.buses[(7 : BusNo)].state = .guard ∧ s.buses[(7 : BusNo)].holder = some (.origin 6) ∧
        s.buses[(7 : BusNo)].line = some 16383 ∧ NoAudio 7 s ∧ LineCond.idle ≠ s.buses[(7 : BusNo)].accepted ∧
        s.buses[(7 : BusNo)].candidate = some .idle ∧ s.buses[(7 : BusNo)].stable = 7) ∧
      (t.buses[(7 : BusNo)].holder = some (.origin 0) ∧ NoAudio 7 t ∧
        ∃ h : (0 : Origin).val < 6, t.site.authority[(0 : Origin).val].monitorBusy = true) ∧
      (u.buses[(7 : BusNo)].holder = some (.origin 0) ∧ NoAudio 7 u ∧ u.buses[(7 : BusNo)].candidate = some .ringing ∧
        ∀ h : (0 : Origin).val < 6, u.site.authority[(0 : Origin).val].monitorBusy = false) ∧
      (guarding 5 .noLine).buses[(7 : BusNo)].candidate = some .noLine := by decide +kernel

theorem witness_HeldAcceptsCondition :
    let s := held 5 { mode := some .talk, accepted := .idle, candidate := some .call, stable := 7 }
    s.buses[(7 : BusNo)].state = .held ∧ s.buses[(7 : BusNo)].holder = some (.origin 5) ∧
      s.buses[(7 : BusNo)].line = some 16383 ∧ s.buses[(7 : BusNo)].mode ≠ some .measure ∧
      LineCond.call ≠ s.buses[(7 : BusNo)].accepted ∧ s.buses[(7 : BusNo)].candidate = some .call ∧
      s.buses[(7 : BusNo)].stable = 7 := by decide +kernel

/-- All buses are taken, bus 7 in GUARD for descriptor 7 on line 16,383. -/
def sweeping (x : Descriptor) : State :=
  { taken8 (onSweep 7 x) with
    claims := [(16383, 7)]
    buses := (taken8 State.reset).buses.set 7 { state := .guard, line := some 16383, holder := some (.sweep 7) } }

theorem witness_BusTimersExpire :
    (let s := timed .seizing 240
     s.buses[(7 : BusNo)].state = .seizing ∧ s.buses[(7 : BusNo)].timer = some 240 ∧
       s.buses[(7 : BusNo)].holder = some (.origin 5) ∧ s.buses[(7 : BusNo)].line = some 16383 ∧ NoAudio 7 s) ∧
      (let s := timed .guard 800
       s.buses[(7 : BusNo)].state = .guard ∧ s.buses[(7 : BusNo)].timer = some 800 ∧
         s.buses[(7 : BusNo)].holder = some (.origin 5) ∧ s.buses[(7 : BusNo)].line = some 16383 ∧ NoAudio 7 s) ∧
      (let s := timed .releasing 160
       s.buses[(7 : BusNo)].state = .releasing ∧ s.buses[(7 : BusNo)].timer = some 160 ∧
         s.buses[(7 : BusNo)].line = some 16383) ∧
      (let s := { sweeping
                    { state := .active, inFlight := some (16383, .main), suspendPending := true
                      deferred := List.range 15 } with
                  buses := (taken8 State.reset).buses.set 7
                    { state := .seizing, line := some 16383, holder := some (.sweep 7), timer := some 240 } }
       s.buses[(7 : BusNo)].state = .seizing ∧ s.buses[(7 : BusNo)].timer = some 240 ∧
         s.buses[(7 : BusNo)].holder = some (.sweep 7) ∧ s.buses[(7 : BusNo)].line = some 16383 ∧ s.queue = [] ∧
         s.sweeps[(7 : SweepNo)].inFlight = some (16383, .main) ∧ s.sweeps[(7 : SweepNo)].suspendPending = true ∧
         s.sweeps[(7 : SweepNo)].deferred.length < 16 ∧ 16383 ∉ s.sweeps[(7 : SweepNo)].deferred) ∧
      (let t := ticket 65535 16383 .retesting
       let s := { onTickets [t] with
                  inFlight := [{ ticket := 65535, line := 16383 }]
                  buses := State.reset.buses.set 7
                    { state := .guard, line := some 16383, holder := some (.retest 65535), timer := some 800 } }
       s.buses[(7 : BusNo)].state = .guard ∧ s.buses[(7 : BusNo)].timer = some 800 ∧
         s.buses[(7 : BusNo)].holder = some (.retest t.number) ∧ s.buses[(7 : BusNo)].line = some 16383 ∧
         ticketByNumber t.number s = some t ∧ t.subject = .line 16383 ∧ (∃ r ∈ s.inFlight, r.ticket = t.number) ∧
         s.repairList = []) ∧
      (let s := { timed .seizing 158 with alignment := .aligned 0 2 }
       s.alignment = .aligned 0 2 ∧ hasPattern (Vector.replicate 48 0) = false ∧ NoneOwed s ∧
         (∀ h : HeadNo, QuietHead h s) ∧ (∀ b : BusNo, ∀ n ∈ s.buses[b].timer, n < 159)) ∧
      (timed .seizing 239).buses[(7 : BusNo)].timer = some 239 ∧ (timed .guard 799).buses[(7 : BusNo)].timer = some 799 ∧
      (timed .releasing 159).buses[(7 : BusNo)].timer = some 159 := by decide +kernel

theorem witness_HeadEchoTimersExpire :
    (let s := measuring .awaitEcho (some 160) (aContext .fdc)
     s.heads[(3 : HeadNo)].state = .awaitEcho ∧ s.heads[(3 : HeadNo)].timer = some 160 ∧
       Measures 3 7 5 (aContext .fdc) s ∧ s.headQueue = []) ∧
      (let s := onHead 3 { state := .returning, timer := some 160 }
       s.heads[(3 : HeadNo)].state = .returning ∧ s.heads[(3 : HeadNo)].timer = some 160 ∧
         s.heads[(3 : HeadNo)].bus = none ∧ s.headQueue = []) ∧
      (onHead 3 { state := .returning, timer := some 159 }).heads[(3 : HeadNo)].timer = some 159 := by decide +kernel

/-- The words of a head in a frame: a status word, good or not, and a sample of 3 V across the legs and 4 in each. -/
def words (good : Bool) (status : Word) : HeadWords :=
  { good := good, status := status, vt := 5, vr := 3, it := 4, ir := 4 }

/-- Head 3's measurement with steps of a kind and no settle time. -/
def unsettled (kind : Kind) : Context := { aContext kind with steps := [{ aStep kind with settle := 0 }] }

/-- The status word of a head that is ready and echoes the word of `measuring`. -/
def echo : Word := headCommandWord { source := .v100, attach := true, bus := 7 } ||| 16

theorem witness_HeadEchoTimersExpire_frames :
    let s (st : HeadState) (n : Option Nat) := measuring st n (aContext .fdc)
    let back := onHead 3 { state := .returning, timer := some 158 }
    let missed := { onHead 2 { state := .returning, timer := some 158 } with
                    heads := (onHead 2 { state := .returning, timer := some 158 }).heads.set 3
                      (measuring .awaitEcho (some 0) (aContext .fdc)).heads[(3 : HeadNo)]
                    alignment := .aligned 0 2 }
    ((words true 8).status.getLsbD 3 = true ∧ State.reset.headQueue = [] ∧
        State.reset.heads[(3 : HeadNo)].state = .idle ∧ State.reset.heads[(3 : HeadNo)].bus = none) ∧
      (∀ st ∈ [HeadState.awaitEcho, .settling, .integrating],
        ActiveOn 3 (aContext .fdc) (aStep .fdc) st (s st none) ∧ Measures 3 7 5 (aContext .fdc) (s st none) ∧
          (s st none).headQueue = [] ∧ Departs (words true 0).status (s st none).heads[(3 : HeadNo)].word) ∧
      (back.heads[(3 : HeadNo)].state = .returning ∧ Departs (words true 0).status back.heads[(3 : HeadNo)].word ∧
        Departs (words true 0x4010).status back.heads[(3 : HeadNo)].word ∧
        Matches (words true 16).status back.heads[(3 : HeadNo)].word ∧ back.headQueue = []) ∧
      missed.alignment = .aligned 0 2 ∧ hasPattern (Vector.replicate 48 0) = false ∧ NoneOwed missed ∧
      (∀ b : BusNo, QuietBus b missed) ∧ (∀ h : HeadNo, h ≠ 2 → h ≠ 3 → QuietHead h missed) ∧
      (missed.heads[(2 : HeadNo)].timer = some 158 ∧ missed.heads[(2 : HeadNo)].state = .returning ∧
        missed.heads[(2 : HeadNo)].ctx = none) ∧
      missed.heads[(3 : HeadNo)].timer = some 0 ∧ ActiveOn 3 (aContext .fdc) (aStep .fdc) .awaitEcho missed := by
  refine ⟨?_, ?_, ?_, ?_, ?_, ?_, ?_, ?_, ?_, ?_⟩ <;> decide +kernel

theorem witness_SettleEndsInIntegrating :
    (let c := { aContext .fdc with settleCount := 4000 }
     let s := measuring .settling none c
     s.heads[(3 : HeadNo)].state = .settling ∧ s.heads[(3 : HeadNo)].ctx = some c ∧
       c.steps[c.index]? = some (aStep .fdc) ∧ 8 * (aStep .fdc).settle ≤ c.settleCount) ∧
      (let c := { aContext .fdc with settleCount := 3999 }
       let s := measuring .settling none c
       s.heads[(3 : HeadNo)].ctx = some c ∧ c.steps[c.index]? = some (aStep .fdc) ∧
         c.settleCount < 8 * (aStep .fdc).settle) ∧
      (let s := measuring .awaitEcho (some 0) (aContext .cap)
       ActiveOn 3 (aContext .cap) (aStep .cap) .awaitEcho s ∧ (words true echo).good = true ∧
         Matches (words true echo).status s.heads[(3 : HeadNo)].word ∧ (aContext .cap).phase ≠ .charge ∧
         0 < (aStep .cap).settle) ∧
      (let c := { unsettled .res with phase := .minus }
       let s := measuring .awaitEcho (some 0) c
       ActiveOn 3 c { aStep .res with settle := 0 } .awaitEcho s ∧ Matches echo s.heads[(3 : HeadNo)].word ∧
         c.phase ≠ .charge ∧ (sampleOf .rg 5 3 4 4).iClip = false) ∧
      (let s := measuring .settling none (aContext .fdc)
       ActiveOn 3 (aContext .fdc) (aStep .fdc) .settling s ∧ (words false echo).good = false ∧
         Matches echo s.heads[(3 : HeadNo)].word) := by decide +kernel

/-- A window of 160 frames of a context with some lost. -/
def window (kind : Kind) (phase : Phase) (lost : Nat) : Context :=
  { aContext kind with phase := phase, windowLen := 160, accepted := 160 - lost, lost := lost }

theorem witness_WindowsAreJudged :
    (let c := window .fdc .single 21
     let s := measuring .integrating none c
     s.heads[(3 : HeadNo)].state = .integrating ∧ s.heads[(3 : HeadNo)].ctx = some c ∧
       c.steps[c.index]? = some (aStep .fdc) ∧ c.phase ≠ .charge ∧ Full c ∧ c.windowLen < 8 * c.lost ∧
       c.isRepeat = false) ∧
      (let c := window .res .plus 20
       let s := measuring .integrating none c
       s.heads[(3 : HeadNo)].state = .integrating ∧ s.heads[(3 : HeadNo)].bus = some 7 ∧
         s.heads[(3 : HeadNo)].ctx = some c ∧ c.steps[c.index]? = some (aStep .res) ∧ c.phase = .plus ∧ Full c ∧
         8 * c.lost ≤ c.windowLen ∧ 0 < c.accepted ∧ s.heads[(3 : HeadNo)].word.negative = false) ∧
      (let c := window .fac .single 20
       let s := measuring .integrating none c
       s.heads[(3 : HeadNo)].state = .integrating ∧ Measures 3 7 5 c s ∧ c.evaluate = false ∧
         c.steps[c.index]? = some (aStep .fac) ∧ c.index + 1 = c.steps.length ∧ c.phase = .single ∧ Full c ∧
         8 * c.lost ≤ c.windowLen ∧ 0 < c.accepted) ∧
      (let c := window .fac .single 159
       let s := measuring .integrating none c
       ActiveOn 3 c (aStep .fac) .integrating s ∧ c.phase ≠ .charge ∧ Matches echo s.heads[(3 : HeadNo)].word) ∧
      (let c := window .res .plus 159
       let s := measuring .integrating none c
       ActiveOn 3 c (aStep .res) .integrating s ∧ c.phase ≠ .charge ∧ s.heads[(3 : HeadNo)].bus = some 7 ∧
         (aStep .res).kind = .res ∧ (aStep .res).range = .auto ∧ c.range = .low ∧
         s.heads[(3 : HeadNo)].word.range = .low ∧ Matches echo s.heads[(3 : HeadNo)].word ∧
         (sampleOf (aStep .res).legs 5 3 4 0x8000).iClip = true) := by decide +kernel

theorem witness_ChargeWindowsAreJudged :
    (let c := window .cap .charge 1
     let s := measuring .integrating none c
     s.heads[(3 : HeadNo)].state = .integrating ∧ s.heads[(3 : HeadNo)].bus = some 7 ∧
       s.heads[(3 : HeadNo)].ctx = some c ∧ c.steps[c.index]? = some (aStep .cap) ∧ c.phase = .charge ∧ Full c ∧
       c.chargeRepeat = false ∧ 0 < c.lost ∧ s.heads[(3 : HeadNo)].word.source ≠ .off) ∧
      (let c := window .cap .charge 0
       let s := measuring .integrating none c
       s.heads[(3 : HeadNo)].state = .integrating ∧ Measures 3 7 5 c s ∧ c.evaluate = false ∧
         c.steps[c.index]? = some (aStep .cap) ∧ c.index + 1 = c.steps.length ∧ c.phase = .charge ∧ Full c ∧
         c.chargeRepeat = false ∧ c.lost = 0) := by decide +kernel

/-- The last configuration of the range: line 16,383, one line, the slowest pace. -/
def lastConfig : SweepConfig where
  first := 16383
  count := 1
  stride := 64
  program := 15
  ticketFlag := true
  stopOnFault := true
  autoReload := false
  pace := 60000

/-- Cable 0 holds the last hundred lines, with threshold 2. -/
def cabled (s : State) : State := { s with cables := s.cables.set 0 (some { first := 16284, last := 16383, k := 2 }) }

theorem witness_PacesExpire :
    (let s := onSweep 7 { config := some lastConfig, pace := .running 480000 480000 }
     s.sweeps[(7 : SweepNo)].config = some lastConfig ∧ s.sweeps[(7 : SweepNo)].pace = .running 480000 480000 ∧ s.sweeps[(7 : SweepNo)].state ≠ .armed) ∧
      (let s := cabled (taken8
         (onSweep 7 { config := some lastConfig, pace := .running 480000 480000, state := .armed, remaining := 1 }))
       s.sweeps[(7 : SweepNo)].state = .armed ∧ s.sweeps[(7 : SweepNo)].deferredPhase = false ∧
         0 < s.sweeps[(7 : SweepNo)].remaining ∧
         Requestable (lastConfig.first + s.sweeps[(7 : SweepNo)].nextIndex * lastConfig.stride) s ∧ freeBus s = none) ∧
      (let s := onSweep 7 { config := some lastConfig, pace := .running 479999 480000 }
       s.sweeps[(7 : SweepNo)].pace = .running 479999 480000 ∧ 479999 < 480000) ∧
      State.reset.sweeps[(7 : SweepNo)].pace = .stopped := by decide +kernel

/-- No warning and no pace is due where each timer that runs is short of its limit. -/
theorem notDue_of {s : State}
    (hb : ∀ b : BusNo, ∀ n ∈ s.buses[b].warnTimer, ∀ limit ∈ s.buses[b].warnLimit, n < limit)
    (hd : ∀ d : SweepNo, (match s.sweeps[d].pace with | .running n limit => decide (n < limit) | _ => true) = true) :
    NotDue s := by
  refine ⟨fun b n limit h h' => hb b n h limit h', fun d n limit h => ?_⟩
  have := hd d
  rw [h] at this
  exact of_decide_eq_true this

/-- The warning of bus 7 and the pace of descriptor 7 run, both one short of their limits. -/
theorem witness_NotDue :
    NotDue ((held 5 { mode := some .warning, warnTimer := some 79999, warnLimit := some 80000 }).setSweep 7
      { config := some lastConfig, pace := .running 479999 480000 }) :=
  notDue_of (by decide +kernel) (by decide +kernel)

theorem witness_WarningEndsInTalk :
    (let s := held 5 { mode := some .warning, warnTimer := some 80000, warnLimit := some 80000 }
     s.buses[(7 : BusNo)].mode = some .warning ∧ s.buses[(7 : BusNo)].warnTimer = some 80000 ∧
       s.buses[(7 : BusNo)].warnLimit = some 80000 ∧
       s.buses[(7 : BusNo)].holder = some (.origin (5 : DeskNo).castSucc)) ∧ 79999 < 80000 := by decide +kernel

theorem witness_ClockCountsAndIsSet :
    (let s := { State.reset with frameCount := 7999, clock := 4294967294 }
     s.frameCount = 7999 ∧ s.clock < 4294967295 ∧ s.secondTaken = false ∧ s.clockOk = true ∧
       ∃ t, step { s with pending := [.clockSecond] } = .next t) ∧
      (let s := { State.reset with frameCount := 7999, clock := 4294967295, secondTaken := true }
       s.frameCount = 7999 ∧ s.clock = 4294967295 ∧ s.secondTaken = true ∧ s.clockOk = true) ∧
      State.reset.frameCount < 7999 ∧ From 6 10 (hdr 10 6) State.reset :=
  ⟨⟨rfl, by decide, rfl, by decide, _, rfl⟩, by decide, by decide, by decide⟩

theorem witness_OutboundFramesAreFormed :
    let s := { State.reset with frameCount := 7999 }
    (NoneDue s ∧ s.sending = [] ∧ s.replies = [] ∧ s.notices = [] ∧ NoTicket s) ∧
      let t := { s with paths := s.paths.set 13 { action := .tone 3 } }
      NoneDue t ∧ NoTicket t ∧ t.paths[6 + (7 : BusNo).val] = { action := .tone 3 } := by decide +kernel

theorem witness_ArbiterChoosesInOrder :
    (let s := { State.reset with sending := [60] }
     NoneDue s ∧ s.sending ≠ []) ∧
      (let s := { State.reset with replies := [aReply] }
       NoneDue s ∧ s.sending = [] ∧ s.replies = [aReply]) ∧
      (let s := onTickets [ticket 1 16383 .raised, ticket 2 0 .raised]
       NoneDue s ∧ s.sending = [] ∧ s.replies = [] ∧ s.site.poll = false ∧
         firstPending s = some (ticket 1 16383 .raised) ∧ mayIssue (ticket 1 16383 .raised) s = true) ∧
      (let s := { onTickets [ticket 1 16383 .issued] with
                  notices := [{ addressed := 6, clock := 0, body := .highwayLost }] }
       NoneDue s ∧ s.sending = [] ∧ s.replies = [] ∧ NoTicket s ∧
         s.notices = [{ addressed := 6, clock := 0, body := .highwayLost }]) ∧
      (let s := { onTickets (List.replicate 8 (ticket 2 0 .issued) ++ [ticket 1 16383 .raised]) with
                  notices := [{ addressed := 6, clock := 0, body := .highwayLost }] }
       NoneDue s ∧ s.sending = [] ∧ s.replies = [] ∧ firstPending s = some (ticket 1 16383 .raised) ∧
         ¬WindowAllows (ticket 1 16383 .raised) s) := by decide +kernel

theorem witness_SeizeIsGrantedAtOnce :
    (From 6 9 (hdr 9 6) State.reset ∧ (0x3FFF : Word).toNat ≤ 16383 ∧ State.reset.queue = [] ∧
        WithinLimit 6 State.reset ∧ claimOf (0x3FFF : Word).toNat State.reset = none ∧ freeBus State.reset = some 0 ∧
        ∀ h : (6 : Origin).val < 6, State.reset.site.authority[(6 : Origin).val].urgent = true) ∧
      (let s := held 5 {}
       From 5 9 (hdr 9 5) s ∧ WithinLimit 5 s ∧ s.queue = [] ∧ claimOf 0 s = none ∧ freeBus s = some 0) := by
  decide +kernel

theorem witness_SeizeWaitsOrIsRefused :
    (let s := { taken8 State.reset with
                claims := [(16383, 7)]
                buses := (taken8 State.reset).buses.set 7 { state := .releasing, line := some 16383 } }
     From 5 9 (hdr 9 5) s ∧ WithinLimit 5 s ∧ NotWaiting 5 16383 s ∧ claimOf 16383 s = some 7 ∧
       (∀ c, claimOf 16383 s = some c → s.buses[c].state = .releasing ∨ s.buses[c].state = .outOfService) ∧
       (∃ b : BusNo, s.buses[b].state ≠ .outOfService) ∧ freeBus s = none) ∧
      (16383 < (0x4000 : Word).toNat ∧ 1 < (2 : Octet).toNat) ∧
      (From (5 : DeskNo).castSucc 9 (hdr 9 5) State.reset ∧ State.reset.site.authority[(5 : DeskNo)].urgent = false) ∧
      (let s := { State.reset with
                  queue := [{ requester := .origin 5, cls := 1, line := 0, arrival := 0, waiting := true }] }
       From 5 9 (hdr 9 5) s ∧ ¬WithinLimit 5 s) ∧
      (let s := held 4 {}
       From 5 9 (hdr 9 5) s ∧ WithinLimit 5 s ∧ claimOf 16383 s = some 7 ∧
         s.buses[(7 : BusNo)].holder = some (.origin 4) ∧ s.buses[(7 : BusNo)].state = .held) ∧
      (let s := { State.reset with buses := Vector.replicate 8 { state := .outOfService } }
       WithinLimit 5 s ∧ NotWaiting 5 0 s ∧ ∀ b : BusNo, s.buses[b].state = .outOfService) := by decide +kernel

theorem witness_SeizePreemptsSweepBus :
    let s := sweeping { state := .active, inFlight := some (16383, .main), suspendPending := true
                        deferred := List.range 15 }
    From 5 9 (hdr 9 5) s ∧ WithinLimit 5 s ∧ NotWaiting 5 16383 s ∧ claimOf 16383 s = some 7 ∧
      s.buses[(7 : BusNo)].state = .guard ∧ s.buses[(7 : BusNo)].holder = some (.sweep 7) ∧
      s.buses[(7 : BusNo)].line = some 16383 ∧ s.buses[(7 : BusNo)].head = none ∧ (∀ e ∈ s.headQueue, e.bus ≠ 7) ∧
      s.sweeps[(7 : SweepNo)].inFlight = some (16383, .main) ∧ s.sweeps[(7 : SweepNo)].suspendPending = true ∧
      s.sweeps[(7 : SweepNo)].deferred.length < 16 ∧ 16383 ∉ s.sweeps[(7 : SweepNo)].deferred ∧ freeBus s = none := by
  decide +kernel

/-- All buses are taken, buses 6 and 7 in GUARD for descriptors 6 and 7, bus 7 by the later grant, the grant count having
wrapped. -/
def urgent : State :=
  let x (d : SweepNo) : Bus := { state := .guard, line := some (16376 + d.val), holder := some (.sweep d) }
  { sweeping { state := .active, inFlight := some (16383, .main), suspendPending := true, deferred := List.range 15 } with
    buses := ((taken8 State.reset).buses.set 6 (x 6)).set 7 (x 7)
    claims := [(16382, 6), (16383, 7)]
    stamps := (State.reset.stamps.set 6 (some 4294967295)).set 7 (some 0)
    grantCount := 1
    site := { authority := Vector.replicate 6 { urgent := true } } }

theorem witness_SeizePreemptsSweepBus_urgent :
    (From 5 9 (hdr 9 5) urgent ∧ (∀ h : (5 : Origin).val < 6, urgent.site.authority[(5 : Origin).val].urgent = true) ∧
        WithinLimit 5 urgent ∧ NotWaiting 5 0 urgent ∧ claimOf 0 urgent = none ∧ freeBus urgent = none ∧
        urgent.buses[(7 : BusNo)].state = .guard ∧ urgent.buses[(7 : BusNo)].holder = some (.sweep 7) ∧
        urgent.stamps[(7 : BusNo)] = some 0 ∧
        (∀ c : BusNo, c ≠ 7 → urgent.buses[c].isSweepHeld = true → ∃ n ∈ [4294967295], urgent.stamps[c] = some n ∧
          (urgent.grantCount + 4294967296 - 0) % 4294967296 < (urgent.grantCount + 4294967296 - n) % 4294967296) ∧
        urgent.buses[(7 : BusNo)].line = some 16383 ∧ Unmeasured 7 urgent ∧
        urgent.sweeps[(7 : SweepNo)].inFlight = some (16383, .main) ∧
        urgent.sweeps[(7 : SweepNo)].suspendPending = true ∧ urgent.sweeps[(7 : SweepNo)].deferred.length < 16 ∧
        16383 ∉ urgent.sweeps[(7 : SweepNo)].deferred) ∧
      let s := taken8 State.reset
      From 6 9 (hdr 9 6) s ∧ WithinLimit 6 s ∧ NotWaiting 6 0 s ∧ claimOf 0 s = none ∧ freeBus s = none ∧
        (∃ b : BusNo, s.buses[b].state ≠ .outOfService) ∧ (∀ b : BusNo, s.buses[b].isSweepHeld = false) := by
  decide +kernel

theorem witness_WinnerGoesFirst :
    let w : WaitEntry := { requester := .sweep 7, cls := 3, line := 16383, arrival := 0, waiting := false }
    winner { State.reset with queue := [w] } = some w := by decide +kernel

theorem witness_TalkEntersTalkOrWarning :
    let line : Word := 0x3FFF
    (let s := held 5 { mode := some .standby }
     From (5 : DeskNo).castSucc 8 (hdr 8 5) s ∧ HeldBy (5 : DeskNo).castSucc 7 line s ∧
       s.buses[(7 : BusNo)].mode ≠ some .warning ∧ s.buses[(7 : BusNo)].mode ≠ some .measure ∧ NoOther 5 7 s ∧
       s.buses[(7 : BusNo)].busy = false) ∧
      (let s := { held 5 { mode := some .standby, busy := true } with
                  site := { authority := Vector.replicate 6 { overrides := true }, warning := 0 } }
       From (5 : DeskNo).castSucc 8 (hdr 8 5) s ∧ HeldBy (5 : DeskNo).castSucc 7 line s ∧ NoOther 5 7 s ∧
         s.site.authority[(5 : DeskNo)].overrides = true ∧ s.site.warning = 0) ∧
      (let s := { held 5 { mode := some .standby, busy := true } with
                  site := { authority := Vector.replicate 6 { overrides := true }, warning := 1 } }
       HeldBy (5 : DeskNo).castSucc 7 line s ∧ NoOther 5 7 s ∧ s.buses[(7 : BusNo)].busy = true ∧ 0 < s.site.warning) ∧
      (let s := held 5 { mode := some .standby, busy := true }
       HeldBy (5 : DeskNo).castSucc 7 line s ∧ s.buses[(7 : BusNo)].busy = true ∧
         s.site.authority[(5 : DeskNo)].overrides = false) ∧
      (let s := held 5 { mode := some .warning }
       HeldBy (5 : DeskNo).castSucc 7 line s ∧ s.buses[(7 : BusNo)].mode = some .warning) := by decide +kernel

theorem witness_MonitorToneAndStandby :
    let line : Word := 0x3FFF
    let s := held 5 { mode := some .talk }
    let two := { s with audio := s.audio.set 5 (some 0), buses := s.buses.set 0 { holder := some (.origin 5) } }
    let busy := held 5 { mode := some .talk, busy := true }
    (From (5 : DeskNo).castSucc 8 (hdr 8 5) s ∧ HeldBy (5 : DeskNo).castSucc 7 line s ∧
        s.buses[(7 : BusNo)].mode ≠ some .measure ∧ NoOther 5 7 s ∧ s.buses[(7 : BusNo)].busy = false) ∧
      (HeldBy (5 : DeskNo).castSucc 7 line two ∧ two.audio[(5 : DeskNo)] = some 0 ∧ (0 : BusNo) ≠ 7 ∧
        two.buses[(0 : BusNo)].holder = some (.origin (5 : DeskNo).castSucc)) ∧
      (From (5 : DeskNo).castSucc 8 (hdr 8 5) busy ∧ HeldBy (5 : DeskNo).castSucc 7 line busy ∧
        busy.buses[(7 : BusNo)].busy = true ∧ busy.site.authority[(5 : DeskNo)].monitorBusy = false) ∧
      (From (5 : DeskNo).castSucc 9 (hdr 9 5) s ∧ (3 : Octet).toNat = (3 : ToneNo).val) ∧
      (From 6 9 (hdr 9 6) (held 6 {}) ∧ HeldBy 6 7 line (held 6 {}) ∧
        (held 6 {}).buses[(7 : BusNo)].mode ≠ some .measure ∧ (held 6 {}).buses[(7 : BusNo)].busy = false) ∧
      (From 5 9 (hdr 9 5) busy ∧ HeldBy 5 7 line busy ∧ (3 : Octet).toNat < 4) ∧
      (From 5 8 (hdr 8 5) s ∧ HeldBy 5 7 line s ∧ s.buses[(7 : BusNo)].mode ≠ some .standby) ∧
      HeldBy 5 7 line (held 5 { mode := some .standby }) ∧
      (held 5 { mode := some .standby }).buses[(7 : BusNo)].mode = some .standby := by
  refine ⟨?_, ?_, ?_, ?_, ?_, ?_, ?_, ?_, ?_⟩ <;> decide +kernel

theorem witness_MonitorToneAndStandby_refusals :
    let line : Word := 0x3FFF
    let s := held 4 {}
    let seizing := (held 5 {}).setBus 7 { state := .seizing, line := some 16383, holder := some (.origin 5) }
    (4, 8, Instr.monitor (hdr 8 5) line) ∈ modeCommands (hdr 8 5) line 0 0 0 ∧ From 5 8 (hdr 8 5) s ∧
      16383 < (0x4000 : Word).toNat ∧ 3 < (4 : Octet).toNat ∧ 15 < (16 : Octet).toNat ∧ 1 < (2 : Octet).toNat ∧
      (∀ b, claimOf line.toNat s = some b → s.buses[b].holder ≠ some (.origin 5)) ∧
      (claimOf line.toNat seizing = some 7 ∧ seizing.buses[(7 : BusNo)].holder = some (.origin 5) ∧
        seizing.buses[(7 : BusNo)].state ≠ .held) ∧
      From 6 8 (hdr 8 6) (held 6 {}) ∧ HeldBy 6 7 line (held 6 {}) := by decide +kernel

theorem witness_MonitorToneAndStandby_measure :
    let line : Word := 0x3FFF
    let s := measuring .integrating none (aContext .fdc)
    let sys := { measuring .settling none { aContext .fdc with holder := .origin 6 } with
                 buses := (held 6 { mode := some .measure, head := some 3 }).buses }
    let e : HeadWait := { bus := 7, program := 15, steps := [aStep .fdc], evaluate := false, holder := .origin 5,
                          line := 16383 }
    let queued := { held 5 { mode := some .measure } with headQueue := [e, { e with bus := 0 }] }
    (From 5 8 (hdr 8 5) s ∧ HeldBy 5 7 line s ∧ s.buses[(7 : BusNo)].mode = some .measure ∧
        Measures 3 7 5 (aContext .fdc) s ∧ (5 : Origin) = (5 : DeskNo).castSucc ∧ s.buses[(7 : BusNo)].busy = false ∧
        s.audio[(5 : DeskNo)] = none) ∧
      (From 6 9 (hdr 9 6) sys ∧ HeldBy 6 7 line sys ∧ sys.buses[(7 : BusNo)].mode = some .measure ∧
        Measures 3 7 6 { aContext .fdc with holder := .origin 6 } sys ∧ (3 : Octet).toNat = (3 : ToneNo).val ∧
        sys.buses[(7 : BusNo)].busy = false) ∧
      From 5 8 (hdr 8 5) queued ∧ HeldBy 5 7 line queued ∧ queued.buses[(7 : BusNo)].mode = some .measure ∧
      queued.buses[(7 : BusNo)].head = none ∧ NoAudio 7 queued ∧ queued.headQueue = [e, { e with bus := 0 }] ∧
      e.bus = 7 ∧ e.holder = .origin 5 ∧ ∀ x ∈ [{ e with bus := 0 }], x.bus ≠ 7 := by decide +kernel

theorem witness_MeasureTakesHeadOrWaits :
    let line : Word := 0x3FFF
    let s := { held 5 { mode := some .standby } with programs := State.reset.programs.set 15 [aStep .cap] }
    let t := { s with alignment := .aligned 0 0 }
    (From 5 10 (hdr 10 5) s ∧ HeldBy 5 7 line s ∧ s.buses[(7 : BusNo)].line = some line.toNat ∧
        (15 : Octet).toNat ≤ 15 ∧ (1 : Octet).toNat ≤ 1 ∧ s.buses[(7 : BusNo)].busy = false ∧
        s.buses[(7 : BusNo)].mode ≠ some .measure ∧ programSteps 15 s = [aStep .cap] ∧ headInService s = true ∧
        s.alignment.isAligned = false) ∧
      HeldBy 5 7 line t ∧ programSteps 15 t = [aStep .cap] ∧ t.headQueue = [] ∧ t.alignment.isAligned = true ∧
      (idleHead t = some 0 ∧ t.heads[(0 : HeadNo)].word = HeadWord.rest) ∧
      (held 5 { busy := true }).buses[(7 : BusNo)].busy = true ∧
      (held 5 { mode := some .measure }).buses[(7 : BusNo)].mode = some .measure ∧ programSteps 15 (held 5 {}) = [] ∧
      ∀ h : HeadNo, { s with heads := Vector.replicate 4 { state := .outOfService } }.heads[h].state = .outOfService := by
  decide +kernel

theorem witness_SetPathReplacesEntry :
    (From 6 11 (hdr 11 6) State.reset ∧ (46 : Octet).toNat = 31 + (15 : Fin 16).val ∧ NamesAction 3 0xFD (.gain (-3)) ∧
        NamesAction 5 3 (.tone 3) ∧ NamesSource 5 (some 5) ∧ NamesSource 46 (some 46) ∧ NamesSource 0 none) ∧
      (17 ≤ (17 : Octet).toNat ∧ (30 : Octet).toNat ≤ 30) ∧ (16 : Octet).toNat < 17 ∧ 46 < (47 : Octet).toNat ∧
      (∀ a, ¬NamesAction 6 0 a) ∧ (∀ a, ¬NamesAction 3 4 a) ∧ (∀ a, ¬NamesAction 5 4 a) ∧ ∀ p, ¬NamesSource 4 p := by
  refine ⟨by decide +kernel, by decide, by decide, by decide, ?_, ?_, ?_, ?_⟩ <;> intro a h <;>
    simp [NamesAction, NamesSource, BitVec.toInt] at h
  omega

theorem witness_FdcValueIsMean :
    0 < 1 ∧ (aStep .fdc).kind = .fdc ∧ meanOf (32767 * 160) 160 = 32767 ∧ meanOf (-32767 * 160) 160 = -32767 ∧
      32767 < meanOf (32768 * 160) 160 ∧ meanOf (-32768 * 160) 160 < -32767 := by decide +kernel

/-- A sample of a voltage, no current and no clip. -/
def volts (v : Int) : Sample := { v := v, i := 0, vClip := false, iClip := false }

theorem witness_FacValueIsRms :
    let l := [volts 65535, volts (-65535)]
    let c := { aContext .fac with first := entered l }
    (aStep .fac).kind = .fac ∧ l ≠ [] ∧ (∀ x ∈ l, x.v.natAbs ≤ 65535) ∧ c.first = entered l := by decide +kernel

/-- A RES context of a mean voltage and current over a frame each way. -/
def ohms (range : Range) (dv di : Int) : Context :=
  { aContext .res with range := range, first := { a := dv * 80, b := di * 80, n := 80 }, second := { n := 80 } }

/-- A CAP context of a mean voltage and a charge. -/
def charged (dv charge : Int) : Context :=
  { aContext .cap with first := { n := 80 }, second := { a := dv * 80, b := charge, n := 400 } }

theorem witness_ResAndCapValues :
    let dv (c : Context) := meanOf c.first.a c.first.n - meanOf c.second.a c.second.n
    let di (c : Context) := meanOf c.first.b c.first.n - meanOf c.second.b c.second.n
    let value (c : Context) := (2 * dv c * (if c.range = .low then 10000000 else 10000) + di c) / (2 * di c)
    let dvCap (c : Context) := meanOf c.second.a 80 - meanOf c.first.a c.first.n
    let charge (c : Context) := c.second.b - 5 * c.second.tail
    let farads (c : Context) := (25000 * charge c + dvCap c) / (2 * dvCap c)
    ((aStep .res).kind = .res ∧ dv (ohms .low 99 2) < 100 ∧ 100 ≤ dv (ohms .low 100 1) ∧ di (ohms .low 100 1) < 2 ∧
        2 ≤ di (ohms .high 100 2) ∧ value (ohms .high 100 2) < 1000000000 ∧ 2 ≤ di (ohms .low 200 2) ∧
        1000000000 ≤ value (ohms .low 200 2)) ∧
      (aStep .cap).kind = .cap ∧ dvCap (charged 99 1) < 100 ∧ 100 ≤ dvCap (charged 100 0) ∧ charge (charged 100 0) ≤ 0 ∧
      (0 < charge (charged 50000 1) ∧ farads (charged 50000 1) = 0) ∧ 9999999 < farads (charged 100 80000) ∧
      0 < farads (charged 100 79999) ∧ farads (charged 100 79999) ≤ 9999999 := by decide +kernel

/-- A RES result between the legs, in a record of its own. -/
def between (v : Option Int) : StepResult := { index := 0, kind := .res, legs := .tr, value := v, quals := {} }

/-- The record of one result. -/
def recordOf (r : StepResult) : Record := { record77 with results := [r] }

theorem feeds_leakTR (v : Option Int) : Feeds .leakTR (recordOf (between v)).results (between v) :=
  ⟨[], [], by simp [recordOf], by simp [between, fedBy], by simp⟩

theorem witness_EvaluationsFollowLimits :
    (classOf 9412 { state77 with classMap := [(9412, 15)] } = 15 ∧ classOf record77.line state77 < 15) ∧
      (∀ x ∈ record77.results, (x.kind, x.legs) ≠ fedBy .leakTR) ∧
      Feeds .leakTR (recordOf (between none)).results (between none) ∧
      Feeds .leakTR (recordOf (between (some 4))).results (between (some 4)) ∧ (between none).value = none ∧
      limits77.toList[34]? = some { enabled := true, threshold := 500, severity := 1 } ∧
      Faulty .batteryT (-501) 500 ∧ ¬Faulty .batteryT (-500) 500 ∧ Faulty .leakTR 499 500 ∧ ¬Faulty .leakTR 500 500 :=
  ⟨by decide +kernel, by decide, feeds_leakTR none, feeds_leakTR (some 4), rfl, by decide +kernel, by simp [Faulty],
    by simp [Faulty], by simp [Faulty], by simp [Faulty]⟩

theorem witness_RestoreReturnsUnits :
    (let e := entry (.origin 5) 1 16383 4294967295
     let s := { taken8 State.reset with
                buses := (taken8 State.reset).buses.set 7 { state := .outOfService, makeTimeouts := 3 }, queue := [e] }
     From 6 7 (hdr 7 6) s ∧ s.buses[(7 : BusNo)].state = .outOfService ∧ s.buses[(7 : BusNo)].stuck = false ∧
       freeBus s = none ∧ s.queue = [e] ∧ e.requester = .origin 5 ∧ claimOf e.line s = none) ∧
    (let s := onBus 7 { state := .outOfService, stuck := true, line := some 16383 }
     From 6 7 (hdr 7 6) s ∧ (7 : Octet).toNat = (7 : BusNo).val ∧ s.buses[(7 : BusNo)].state = .outOfService ∧
       s.buses[(7 : BusNo)].stuck = true ∧ s.buses[(7 : BusNo)].line = some 16383) ∧
      (let s := onBus 7 { state := .outOfService }
       s.buses[(7 : BusNo)].state = .outOfService ∧ s.buses[(7 : BusNo)].stuck = false ∧ s.queue = []) ∧
      State.reset.buses[(7 : BusNo)].state ≠ .outOfService ∧ 7 < (8 : Octet).toNat ∧
      ((3 : Octet).toNat = (3 : HeadNo).val ∧
        (onHead 3 { state := .outOfService }).heads[(3 : HeadNo)].state = .outOfService) ∧
      State.reset.heads[(3 : HeadNo)].state ≠ .outOfService ∧ 3 < (4 : Octet).toNat := by decide +kernel

/-- The origin's command meets a table with one ticket. -/
theorem witness_AcceptAndRepairedMoveTicket :
    let n : Word := 0xFFFF
    let s (st : TicketState) := onTickets [ticket 65535 16383 st]
    let full := { s .accepted with inFlight := List.replicate 4 { ticket := 1, line := 0 } }
    let three := taken8 { s .accepted with inFlight := List.replicate 3 { ticket := 1, line := 0 } }
    (From 6 8 (hdr 8 6) (s .issued) ∧ n ≠ 0 ∧
        ticketByNumber n.toNat (s .issued) = some (ticket 65535 16383 .issued)) ∧
      (ticketByNumber n.toNat full = some (ticket 65535 16383 .accepted) ∧ 4 ≤ full.inFlight.length) ∧
      (ticketByNumber n.toNat three = some (ticket 65535 16383 .accepted) ∧ three.repairList = [] ∧
        three.inFlight.length < 4 ∧ freeBus three = none ∧ (ticket 65535 16383 .accepted).subject = .line 16383) ∧
      ((ticket 65535 16383 .raised).state ≠ .issued ∧ (ticket 65535 16383 .raised).state ≠ .accepted) ∧
      ∀ t ∈ State.reset.tickets, t.number ≠ n.toNat := by decide +kernel

theorem witness_RepairedKeyMovesTickets :
    let s := { onTickets [ticket 1 16383 .accepted, cableTicket 2 255 .accepted []] with
               inFlight := List.replicate 4 { ticket := 3, line := 0 } }
    let reached := s.tickets.filter fun t =>
      t.code = .leakTR ∧ t.state = .accepted ∧
        (t.subject = .cable (255 : Octet).toNat ∨ t.isLine = true ∧ t.linked = some (255 : Octet).toNat)
    From 6 8 (hdr 8 6) s ∧ (0 : Octet).toNat = faultCodeNumber .leakTR ∧ 4 ≤ s.inFlight.length ∧ reached ≠ [] ∧
      (9 : Octet).toNat = faultCodeNumber .excessCap ∧ 9 < (10 : Octet).toNat := by decide +kernel

theorem witness_WithdrawRemovesTicket :
    let n : Word := 1
    let one := onTickets [ticket 1 16383 .raised]
    let linked := onTickets [{ ticket 1 16383 .raised with linked := some 255 }]
    let cable := onTickets [cableTicket 1 255 .raised []]
    let queued := { onTickets [ticket 1 16383 .retesting] with
      queue := [{ requester := .retest 1, cls := 2, line := 16383, arrival := 0, waiting := false }] }
    let seizing := (onTickets [ticket 1 16383 .retesting]).setBus 7
      { state := .guard, line := some 16383, holder := some (.retest 1) }
    (From 6 8 (hdr 8 6) one ∧ n ≠ 0 ∧ ticketByNumber n.toNat one = some (ticket 1 16383 .raised) ∧
        (ticket 1 16383 .raised).linked = none) ∧
      ticketByNumber n.toNat linked = some { ticket 1 16383 .raised with linked := some 255 } ∧
      ticketByNumber n.toNat cable = some (cableTicket 1 255 .raised []) ∧
      (ticketByNumber n.toNat queued = some (ticket 1 16383 .retesting) ∧ queued.repairList = [] ∧
        ∀ b : BusNo, queued.buses[b].holder ≠ some (.retest n.toNat)) ∧
      ticketByNumber n.toNat seizing = some (ticket 1 16383 .retesting) ∧ seizing.repairList = [] ∧
      (∀ e ∈ seizing.queue, e.requester ≠ .retest n.toNat) ∧
      (∀ c : BusNo, c ≠ 7 → seizing.buses[c].holder ≠ some (.retest n.toNat)) ∧
      seizing.buses[(7 : BusNo)].holder = some (.retest n.toNat) ∧ seizing.buses[(7 : BusNo)].state = .guard ∧
      seizing.buses[(7 : BusNo)].line = some 16383 ∧ seizing.buses[(7 : BusNo)].head = none ∧
      ∀ e ∈ seizing.headQueue, e.bus ≠ 7 := by decide +kernel

/-- Tickets ISSUED, as many as asked for, and one RAISED. -/
def issuing (n : Nat) : State :=
  { onTickets ((List.range n).map (fun k => ticket (k + 2) 0 .issued) ++ [ticket 1 16383 .raised]) with
    site := { poll := true } }

theorem witness_TakeTicketIssuesFirstPending :
    (From 6 6 (hdr 6 6) State.reset ∧ State.reset.site.poll = false) ∧
      (let s := { State.reset with site := { poll := true } }
       s.site.poll = true ∧ ∀ t, ¬Pending t s) ∧
      (From 6 6 (hdr 6 6) (issuing 7) ∧ (issuing 7).site.poll = true ∧ Pending (ticket 1 16383 .raised) (issuing 7) ∧
        WindowAllows (ticket 1 16383 .raised) (issuing 7)) ∧
      Pending (ticket 1 16383 .raised) (issuing 8) ∧ ¬WindowAllows (ticket 1 16383 .raised) (issuing 8) :=
  ⟨by decide, ⟨rfl, fun _ h => nomatch h.1⟩, by decide +kernel, by decide +kernel, by decide +kernel⟩

/-- The evaluations of a line of class 15, of a sound line and of a leaking one. -/
def untested : Evaluation := evaluate record77 { state77 with classMap := [(9412, 15)] }

/-- A record of the leak of R111 alone. -/
def leak (v : Int) : Evaluation :=
  evaluate (recordOf (between (some v)))
    { state77 with limits := state77.limits.set 30 { enabled := true, threshold := 500, severity := 1 } }

theorem witness_LineRetestsAreJudged :
    let s := { onTickets [ticket 1 16383 .retesting] with inFlight := [{ ticket := 1, line := 16383 }] }
    let t := { onTickets [{ ticket 1 16383 .retesting with linked := some 255 }] with
               inFlight := [{ ticket := 1, line := 16383 }] }
    (ticketByNumber 1 s = some (ticket 1 16383 .retesting) ∧ (ticket 1 16383 .retesting).subject = .line 16383 ∧
        (∃ r ∈ s.inFlight, r.ticket = 1) ∧ s.repairList = [] ∧ (ticket 1 16383 .retesting).linked = none) ∧
      (leak 500).of .leakTR = .clear ∧ (leak 499).of .leakTR = .found ∧ untested.of .leakTR = .notAssessed ∧
      ticketByNumber 1 t = some { ticket 1 16383 .retesting with linked := some 255 } ∧
      ∀ t ∈ State.reset.tickets, t.number ≠ 1 := by decide +kernel

theorem witness_CableRetestsVisitMembers :
    let retesting (p : Nat) (l : List Member) := { cableTicket 1 255 .retesting l with position := some p }
    let s (t : Ticket) := taken8 { onTickets [t] with inFlight := [{ ticket := 1, line := 16382 }] }
    let two := retesting 0 [member 16382 .none, member 16383 .none]
    let last := retesting 0 [member 16382 .none]
    let second := retesting 1 [member 16383 .failed, member 16382 .none]
    ((s two).numbersOk = true ∧ ticketByNumber 1 (s two) = some two ∧ two.subject = .cable 255 ∧
        (s two).inFlight = [{ ticket := 1, line := 16382 }] ∧ freeBus (s two) = none ∧ (s two).repairList = [] ∧
        two.position = some 0 ∧ two.members[0]? = some (member 16382 .none) ∧
        two.members[0 + 1]? = some (member 16383 .none) ∧ (leak 499).of two.code = .found) ∧
      ((s last).numbersOk = true ∧ ticketByNumber 1 (s last) = some last ∧ last.position = some 0 ∧
        last.members = [member 16382 .none] ∧ (leak 500).of last.code = .clear) ∧
      (s second).numbersOk = true ∧ ticketByNumber 1 (s second) = some second ∧ second.position = some 1 ∧
      second.members[1]? = some (member 16382 .none) ∧ second.members.length = 1 + 1 ∧
      untested.of second.code = .notAssessed ∧ ∃ x ∈ second.members.take 1, x.mark = .failed := by decide +kernel

theorem witness_FindingsReachTheirTicket :
    let one := onTickets [ticket 65535 16383 .raised]
    let s (l : List Member) := cabled (onTickets [cableTicket 1 0 .issued l])
    let before := List.replicate 63 (member 0 .none)
    (ticketByKey (.line 16383) .leakTR one = some (ticket 65535 16383 .raised)) ∧
      ((s (before ++ [member 16383 .failed])).numbersOk = true ∧
        ticketByKey (.line 16383) .leakTR (s (before ++ [member 16383 .failed])) = none ∧
        cableOf 16383 (s (before ++ [member 16383 .failed])) = some 0 ∧
        ticketByKey (.cable 0) .leakTR (s (before ++ [member 16383 .failed])) =
          some (cableTicket 1 0 .issued (before ++ [member 16383 .failed])) ∧
        ∀ x ∈ before, x.line ≠ 16383) ∧
      (ticketByKey (.cable 0) .leakTR (s before) = some (cableTicket 1 0 .issued before) ∧
        (∀ m ∈ before, m.line ≠ 16383) ∧ before.length < 64) ∧
      let all := List.replicate 64 (member 0 .none)
      ticketByKey (.cable 0) .leakTR (s all) = some (cableTicket 1 0 .issued all) ∧
        (∀ m ∈ all, m.line ≠ 16383) ∧ 64 ≤ all.length := by decide +kernel

/-- A full ticket table: 128 LINE tickets in one state. -/
def crowded (st : TicketState) : State :=
  { onTickets ((List.range 128).map fun k => ticket (k + 1) k st) with numberCounter := 200, raiseCounter := 129 }

theorem witness_FindingsRaiseTickets :
    let f := finding 16383
    (Unfiled f State.reset ∧ NumberFree State.reset ∧ cableOf f.line State.reset = none ∧
        NoMember f.line f.code State.reset ∧ State.reset.tickets.length < 128) ∧
      (Unfiled f (crowded .issued) ∧ 128 ≤ (crowded .issued).tickets.length ∧
        ∀ t ∈ (crowded .issued).tickets, ¬Evictable f.severity t) ∧
      (Unfiled f (crowded .raised) ∧ NumberFree (crowded .raised) ∧ cableOf f.line (crowded .raised) = none ∧
        NoMember f.line f.code (crowded .raised) ∧ (crowded .raised).tickets.length = 128 ∧
        (crowded .raised).numbersOk = true ∧ (∀ t ∈ (crowded .raised).tickets, t.linked = none) ∧
        ∃ t ∈ (crowded .raised).tickets, Evictable f.severity t) ∧
      let s := { onTickets [ticket 65535 0 .raised] with numberCounter := 65535 }
      1 ≤ s.numberCounter ∧ s.numberCounter ≤ 65535 ∧ s.tickets.length ≤ 128 :=
  ⟨by decide +kernel, by decide +kernel, by decide +kernel, by decide +kernel⟩

theorem witness_CableTicketForms :
    let f := finding 16383
    let range : CableRange := { first := 16284, last := 16383, k := 2 }
    let s := { cabled (onTickets [ticket 1 16382 .raised, ticket 2 16381 .issued]) with
               numberCounter := 65533, raiseCounter := 3 }
    let counted := s.tickets.filter (Counts 0 f s)
    Unfiled f s ∧ NumberFree s ∧ s.numbersOk = true ∧ s.raiseCounter < 4294967296 ∧
      cableOf f.line s = some 0 ∧ s.cables[(0 : Fin 256)] = some range ∧
      (∀ t ∈ s.tickets, t.isCable = true → t.code ≠ f.code) ∧ cableTickets s < 16 ∧ s.tickets.length < 128 ∧
      f.severity ≤ 3 ∧ range.k ≠ 0 ∧ range.k ≤ counted.length + 1 ∧
      (counted.filter fun t => t.state = .raised).length ≤ 63 ∧
      let none := { cabled State.reset with raiseCounter := 3 }
      Unfiled f none ∧ (none.tickets.filter (Counts 0 f none)).length + 1 < range.k := by decide +kernel

theorem witness_SweepCommandsMoveDescriptor :
    let c := { lastConfig with count := 16384 }
    let done := cabled (taken8 (onSweep 7 { config := some c, state := .done }))
    let is (st : SweepState) := onSweep 7 { config := some lastConfig, state := st, suspendPending := true }
    let waiting := cabled (taken8
      (onSweep 7 { config := some lastConfig, state := .suspended, remaining := 1, pace := .expired }))
    let pacing := onSweep 7 { config := some lastConfig, state := .suspended, remaining := 1, pace := .running 479999 480000 }
    (From 6 7 (hdr 7 6) done ∧ (7 : Octet).toNat = (7 : SweepNo).val ∧ Loadable 7 done ∧
        done.sweeps[(7 : SweepNo)].config = some c ∧ 1 ≤ c.count ∧ Requestable c.first done ∧ freeBus done = none) ∧
      (Loadable 7 State.reset ∧ State.reset.sweeps[(7 : SweepNo)].config = none ∧ ¬Loadable 7 (is .armed) ∧
        (is .armed).sweeps[(7 : SweepNo)].state = .armed ∧ (is .active).sweeps[(7 : SweepNo)].state = .active ∧
        (is .active).sweeps[(7 : SweepNo)].suspendPending = true ∧
        State.reset.sweeps[(7 : SweepNo)].state = .idle) ∧
      (waiting.sweeps[(7 : SweepNo)].state = .suspended ∧ waiting.sweeps[(7 : SweepNo)].config = some lastConfig ∧
        waiting.sweeps[(7 : SweepNo)].deferredPhase = false ∧ 0 < waiting.sweeps[(7 : SweepNo)].remaining ∧
        waiting.sweeps[(7 : SweepNo)].pace = .expired ∧ Requestable 16383 waiting ∧ freeBus waiting = none) ∧
      (pacing.sweeps[(7 : SweepNo)].pace = .running 479999 480000 ∧ 479999 < 480000 ∧ pacing.queue = []) ∧
      (∀ b : BusNo, (is .suspended).buses[b].holder = some (.sweep 7) → (is .suspended).buses[b].isHeld = false) ∧
      (let s := sweeping { config := some lastConfig, state := .active, inFlight := some (16383, .main) }
       s.sweeps[(7 : SweepNo)].state ≠ .idle ∧ (∀ e ∈ s.queue, e.requester ≠ .sweep 7) ∧
         freeBus s = none ∧
         (∀ b : BusNo, b ≠ 7 → s.buses[b].holder = some (.sweep 7) → s.buses[b].isHeld = false) ∧
         s.buses[(7 : BusNo)].holder = some (.sweep 7) ∧ s.buses[(7 : BusNo)].state = .guard ∧
         s.buses[(7 : BusNo)].line = some 16383 ∧ Unmeasured 7 s) ∧
      (let s := onBus 7 { state := .releasing, line := some 16383, holder := some (.sweep 7) }
       ∀ b : BusNo, s.buses[b].holder = some (.sweep 7) → s.buses[b].isHeld = false) ∧
      (let m := { aContext .fdc with holder := .sweep 7 }
       let s := { measuring .integrating none m with
                  sweeps := State.reset.sweeps.set 7 { state := .active, inFlight := some (16383, .main) }
                  buses := State.reset.buses.set 7 { state := .held, line := some 16383, holder := some (.sweep 7)
                                                     mode := some .measure, head := some 3 } }
       s.sweeps[(7 : SweepNo)].state ≠ .idle ∧ s.queue = [] ∧ s.buses[(7 : BusNo)].state = .held ∧
         s.buses[(7 : BusNo)].holder = some (.sweep 7) ∧ s.buses[(7 : BusNo)].line = some 16383 ∧
         s.heads[(3 : HeadNo)].bus = some 7 ∧ s.heads[(3 : HeadNo)].ctx = some m ∧
         s.buses[(7 : BusNo)].head = some 3 ∧ m.holder = .sweep 7 ∧ ∀ e ∈ s.headQueue, e.bus ≠ 7) ∧
      7 < (8 : Octet).toNat := by
  refine ⟨?_, ?_, ?_, ?_, ?_, ?_, ?_, ?_, ?_⟩ <;> decide +kernel

theorem witness_SweepLinesAreCounted :
    let excluded := { State.reset with classMap := [(16383, 15)] }
    let ticketed := onTickets [cableTicket 1 0 .raised [member 16383 .none]]
    let cable := cabled (onTickets [cableTicket 1 0 .raised []])
    let claimed (l : List Nat) := { onSweep 7 { deferred := l } with claims := [(16383, 7)] }
    let flying (p : LinePhase) := onSweep 7
      { config := some lastConfig, inFlight := some (16383, p), suspendPending := true, deferred := List.range 15 }
    classOf 16383 excluded = 15 ∧ (classOf 16383 ticketed ≠ 15 ∧ Ticketed 16383 ticketed) ∧
      (¬Ticketed 16383 cable ∧ Suppressed 16383 cable) ∧
      (¬Ticketed 16383 (claimed []) ∧ ¬Suppressed 16383 (claimed []) ∧ claimOf 16383 (claimed []) ≠ none ∧
        (claimed (List.range 15)).sweeps[(7 : SweepNo)].deferred.length < 16 ∧
        16383 ∉ (claimed (List.range 15)).sweeps[(7 : SweepNo)].deferred ∧
        16 ≤ (claimed (List.range 16)).sweeps[(7 : SweepNo)].deferred.length) ∧
      ((flying .main).sweeps[(7 : SweepNo)].inFlight = some (16383, .main) ∧
        (flying .main).sweeps[(7 : SweepNo)].suspendPending = true ∧
        (flying .main).sweeps[(7 : SweepNo)].counts.faultsFound ≤ 4294967295 ∧
        (flying .main).sweeps[(7 : SweepNo)].deferred.length < 16 ∧
        16383 ∉ (flying .main).sweeps[(7 : SweepNo)].deferred) ∧
      ((flying .deferred).sweeps[(7 : SweepNo)].config = some lastConfig ∧ lastConfig.stopOnFault = true ∧ 0 < 1) ∧
      State.reset.sweeps[(7 : SweepNo)].inFlight = none ∧ lastConfig.autoReload = false ∧
      (let s := onSweep 7 { config := some { lastConfig with autoReload := true }, requestMade := true, pass := 65535 }
       s.sweeps[(7 : SweepNo)].config = some { lastConfig with autoReload := true } ∧
         s.sweeps[(7 : SweepNo)].requestMade = true) := by
  refine ⟨by decide +kernel, ⟨by decide +kernel, _, List.mem_singleton_self _, Or.inr ⟨_, List.mem_singleton_self _, rfl⟩⟩,
    ⟨?_, ⟨0, by decide +kernel, _, List.mem_singleton_self _, rfl⟩⟩,
    ⟨(fun ⟨_, h, _⟩ => nomatch h), (fun ⟨_, _, _, h, _⟩ => nomatch h), by decide +kernel⟩, by decide +kernel⟩
  rintro ⟨t, ht, h⟩
  obtain rfl := List.mem_singleton.mp ht
  rcases h with h | ⟨m, hm, _⟩
  · exact nomatch h
  · exact nomatch hm

theorem witness_ReadsAnswer :
    let s := State.reset
    (From 5 7 (hdr 7 5) s ∧ (7 : Octet).toNat = (7 : SweepNo).val ∧ 7 < (8 : Octet).toNat) ∧
      (From 5 11 (hdr 11 5) s ∧ 1 ≤ (464 : Word).toNat ∧ (464 : Word).toNat ≤ 464 ∧
        (15920 : Word).toNat + (464 : Word).toNat ≤ 16384 ∧ (131 : Word).toNat + (29 : Word).toNat ≤ 160 ∧
        (12 : Word).toNat + (4 : Word).toNat ≤ 16 ∧ (223 : Word).toNat + (33 : Word).toNat ≤ 256 ∧
        (0 : Word).toNat + (4 : Word).toNat ≤ 4 ∧ (0 : Word).toNat + (8 : Word).toNat ≤ 8) ∧
      (6 < (7 : Octet).toNat ∧ 33 < (34 : Word).toNat ∧ 160 < (132 : Word).toNat + (29 : Word).toNat) ∧
      (From 5 8 (hdr 8 5) s ∧ From 6 8 (hdr 8 6) s ∧ 3 < (4 : Octet).toNat ∧ 1 < (2 : Octet).toNat) ∧
      From (5 : DeskNo).castSucc 8 (hdr 8 5) s ∧ (3 : Octet).toNat ≤ 3 := by decide

theorem witness_LoadsAreCheckedAndApplied :
    let s := State.reset
    let site : SiteParams := { quota := 8, window := 3600, warning := 10000, gain := Vector.replicate 6 (-3) }
    let limit : LimitEntry := { threshold := 1000000000, severity := 3 }
    let range : CableRange := { first := 16383, last := 16383, k := 64 }
    let wide : CableRange := { first := 0, last := 16383, k := 0 }
    let tone : Tone := { frequency := 3950, amplitude := 32767 }
    let busy := onSweep 7 { state := .armed }
    (From 6 31 (hdr 31 6) s ∧ SiteInRange site ∧ s.queue = []) ∧
      (From 6 (11 + ([15] : List Nat).length) (hdr 12 6) s ∧ s.classesOk = true ∧
        (0x3FFF : Word).toNat + ([15] : List Nat).length ≤ 16384) ∧
      (From 6 (11 + 1 * 8) (hdr 19 6) s ∧ LimitInRange 153 limit) ∧
      (From 6 (11 + 1 * 58) (hdr 69 6) s ∧ ProgramInRange [aStep .res, aStep .cap] ∧
        StepsDiffer [aStep .res, aStep .cap] ∧ ProgramInRange [aStep .res, aStep .res] ∧
        ¬StepsDiffer [aStep .res, aStep .res]) ∧
      (From 6 (11 + 2 * 7) (hdr 25 6) s ∧ CableInRange (some range) ∧ CableInRange (some wide) ∧
        CablesApart (written [(0, none), (255, some range)] s.cables) ∧
        ¬CablesApart (written [(0, some wide), (255, some range)] s.cables)) ∧
      (From 6 (11 + 1 * 5) (hdr 16 6) s ∧ ToneInRange tone) ∧
      (From 6 (11 + 1 * 10) (hdr 21 6) s ∧ ConfigInRange lastConfig ∧ Loadable 7 s ∧ ¬Loadable 7 busy) ∧
      ¬((1 : Word) = 0 ∧ (1 : Word) = 1) ∧ 464 < (465 : Word).toNat ∧ 4 < (5 : Word).toNat ∧ 8 < (9 : Word).toNat := by
  refine ⟨by decide +kernel, by decide +kernel, by decide +kernel, by decide +kernel, ⟨by decide +kernel, ?_, ?_, ?_, ?_⟩,
    by decide +kernel, by decide +kernel, by decide +kernel, by decide, by decide, by decide⟩
  · rintro r ⟨⟩
    decide
  · rintro r ⟨⟩
    decide
  · intro i j a b hij hi hj
    have h : ∀ k : Fin 256, k ≠ 255 → (written [(0, none), (255, some ⟨16383, 16383, 64⟩)] State.reset.cables)[k] = none := by
      decide +kernel
    by_cases hi' : i = 255
    · rw [h j (by rintro rfl; exact hij hi')] at hj
      cases hj
    · rw [h i hi'] at hi
      cases hi
  · intro h
    have := h 0 255 _ _ (by decide) rfl rfl
    simp at this

theorem witness_LoadsAreCheckedAndApplied_refused :
    BadSite (List.replicate 20 2) ∧ (From 6 (11 + 1 * 20) (hdr 31 6) State.reset) ∧
      SomeEntry BadLimit 8 1 ([0, 4, 0, 0] ++ enc4 32768) ∧ SomeEntry BadProgram 58 1 (1 :: 9 :: List.replicate 56 0) ∧
      SomeEntry BadProgram 58 1 ([1, 1, 2, 1, 0, 0, 1] ++ List.replicate 51 0) ∧
      SomeEntry BadCable 7 2 ([0, 0, 0, 0, 0, 0, 0] ++ [1, 1, 0, 9, 0, 8, 0]) ∧ SomeEntry BadTone 5 1 [0, 0, 49, 0, 0] ∧
      SomeEntry BadConfig 10 1 [0, 0x3F, 0xFF, 0, 2, 1, 0, 0, 0, 0] := by
  refine ⟨by decide +kernel, by decide, ⟨0, by decide, by decide +kernel⟩, ⟨0, by decide, by decide +kernel⟩,
    ⟨0, by decide, by decide +kernel⟩, ⟨1, by decide, by decide +kernel⟩, ⟨0, by decide, by decide +kernel⟩,
    ⟨0, by decide, by decide +kernel⟩⟩

theorem witness_ResetClearsDynamicState :
    let s := { held 5 { mode := some .talk } with heads := State.reset.heads.set 3 { state := .integrating } }
    (From 6 6 (hdr 6 6) s ∧ s.replies = [] ∧ s.buses[(7 : BusNo)].line = some 16383 ∧
        s.buses[(7 : BusNo)].state = .held ∧ s.heads[(3 : HeadNo)].state = .integrating) ∧
      (let t := { State.reset with replies := [aReply] }
       From 6 6 (hdr 6 6) t ∧ t.replies ≠ []) := by decide +kernel

theorem witness_PathActionsFormWords : (1 ≤ 1 ∧ 1 ≤ 3) ∧ 1 ≤ 3 ∧ 3 ≤ 3 := by decide

theorem witness_ReleaseAndReadTicketAnswer :
    let line : Word := 0x3FFF
    let n : Word := 0xFFFE
    let e : WaitEntry := { requester := .origin 5, cls := 1, line := 16383, arrival := 0, waiting := false }
    let tickets := onTickets [ticket 65535 16383 .raised, ticket 65534 0 .issued]
    (From 5 8 (hdr 8 5) State.reset ∧ line.toNat ≤ 16383 ∧ NotWaiting 5 line.toNat State.reset ∧
        claimOf line.toNat State.reset = none) ∧
      (let s := { State.reset with queue := [e] }
       From 5 8 (hdr 8 5) s ∧ ∃ e ∈ s.queue, e.requester = .origin 5 ∧ e.line = line.toNat) ∧
      (let s := held 5 { mode := some .talk }
       NotWaiting 5 line.toNat s ∧ claimOf line.toNat s = some 7 ∧ s.buses[(7 : BusNo)].holder = some (.origin 5) ∧
         s.buses[(7 : BusNo)].state = .held ∧ s.buses[(7 : BusNo)].line = some line.toNat ∧
         s.buses[(7 : BusNo)].head = none ∧ ∀ e ∈ s.headQueue, e.bus ≠ 7) ∧
      (let s := (held 5 {}).setBus 7 { state := .releasing, line := some 16383, holder := some (.origin 5) }
       NotWaiting 5 line.toNat s ∧ claimOf line.toNat s = some 7 ∧ s.buses[(7 : BusNo)].holder = some (.origin 5) ∧
         s.buses[(7 : BusNo)].state = .releasing) ∧
      (let s := held 6 {}
       NotWaiting 5 line.toNat s ∧ claimOf line.toNat s = some 7 ∧ s.buses[(7 : BusNo)].holder ≠ some (.origin 5)) ∧
      (From 0 10 (hdr 10 0) tickets ∧ (63 : Octet).toNat ≤ 63 ∧ n ≠ 0 ∧
        ticketByNumber n.toNat tickets = some (ticket 65534 0 .issued) ∧
        ticketByNumber n.toNat State.reset = none ∧ (∀ t ∈ State.reset.tickets, t.number ≤ n.toNat) ∧
        ticket 65535 16383 .raised ∈ tickets.tickets ∧ n.toNat < (ticket 65535 16383 .raised).number ∧
        ∀ u ∈ tickets.tickets, n.toNat < u.number → u ≠ ticket 65535 16383 .raised →
          (ticket 65535 16383 .raised).number < u.number) ∧ 1 < (2 : Octet).toNat ∧ 63 < (64 : Octet).toNat := by
  decide +kernel

/-! ### Internal holders and the ends of steps -/

/-- Bus 7 is held for an internal holder on line 16,383: for descriptor 7, its suspension pending, or for the retest of LINE
ticket 65,535. -/
def inner (x : Holder) (y : Bus) : State :=
  let s := onSweep 7
    { config := some lastConfig, state := .active, inFlight := some (16383, .main), suspendPending := true
      deferred := List.range 15 }
  { s with
    claims := [(16383, 7)]
    programs := s.programs.set 15 [aStep .fdc]
    tickets := [{ ticket 65535 16383 .retesting with program := 15 }]
    inFlight := [{ ticket := 65535, line := 16383 }]
    buses := s.buses.set 7 { y with line := some 16383, holder := some x } }

theorem inner_settles (y : Bus) : Settles (.sweep 7) (inner (.sweep 7) y) ∧ Settles (.retest 65535) (inner (.retest 65535) y) :=
  ⟨⟨rfl, rfl⟩, ⟨_, 16383, rfl, rfl⟩, rfl⟩

theorem witness_GuardAcceptsCondition_internal :
    let y (c : LineCond) : Bus := { state := .guard, candidate := some c, stable := 7 }
    let s := inner (.sweep 7) (y .locked)
    let t := inner (.retest 65535) (y .idle)
    let m := { member 16383 .none with program := 15 }
    let u := { t with tickets := [cableTicket 65535 255 .retesting [m]] }
    (s.buses[(7 : BusNo)].state = .guard ∧ s.buses[(7 : BusNo)].holder = some (.sweep 7) ∧
        s.buses[(7 : BusNo)].line = some 16383 ∧ EighthOf 7 .locked s ∧ s.programs[(15 : Fin 16)] ≠ [] ∧
        headInService s = true ∧ s.alignment.isAligned = false) ∧
      Lends (.sweep 7) 16383 15 true s ∧
      (t.buses[(7 : BusNo)].holder = some (.retest 65535) ∧ EighthOf 7 .idle t) ∧
      Lends (.retest 65535) 16383 15 true t ∧ Lends (.retest 65535) 16383 15 true u ∧
      (∀ c ∈ [LineCond.call, .ringing, .noLine], EighthOf 7 c (inner (.sweep 7) (y c))) ∧
      Settles (.sweep 7) (inner (.sweep 7) (y .noLine)) ∧ Settles (.retest 65535) (inner (.retest 65535) (y .call)) := by
  refine ⟨by decide +kernel, ⟨lastConfig, rfl, rfl, rfl⟩, by decide +kernel, ⟨rfl, _, rfl, .inl ⟨rfl, rfl⟩⟩,
    ⟨rfl, _, rfl, .inr ⟨rfl, _, rfl, rfl⟩⟩, by decide +kernel, (inner_settles _).1, (inner_settles _).2⟩

/-- A bus waiting for a head in MEASURE, before another. -/
def waitingFor (o : Holder) : List HeadWait :=
  [{ bus := 7, program := 15, steps := [aStep .fdc], evaluate := true, holder := o, line := 16383 },
    { bus := 6, program := 15, steps := [aStep .cap], evaluate := true, holder := .origin 4, line := 0 }]

/-- A bus in MEASURE whose line has shown CALL for seven frames. -/
def called (head : Option HeadNo) : Bus :=
  { state := .held, mode := some .measure, accepted := .locked, candidate := some .call, stable := 7, head := head }

theorem witness_HeldAcceptsCondition_measuring :
    (let s := (measuring .integrating none (aContext .fdc)).setBus 7
       { called (some 3) with line := some 16383, holder := some (.origin 5) }
     s.buses[(7 : BusNo)].state = .held ∧ s.buses[(7 : BusNo)].holder = some (.origin 5) ∧
       s.buses[(7 : BusNo)].line = some 16383 ∧ s.buses[(7 : BusNo)].mode = some .measure ∧
       Measures 3 7 5 (aContext .fdc) s ∧ EighthOf 7 .call s ∧ s.buses[(7 : BusNo)].accepted = .locked) ∧
      (let s := { held 5 (called none) with headQueue := waitingFor (.origin 5) }
       s.buses[(7 : BusNo)].head = none ∧ NoAudio 7 s ∧ EighthOf 7 .call s ∧
         (∀ x ∈ (waitingFor (.origin 5)).tail, x.bus ≠ 7)) ∧
      (let s := (inner (.sweep 7) (called (some 3))).setHead 3
         { state := .integrating, ctx := some { aContext .fdc with holder := .sweep 7 } }
       (s.buses[(7 : BusNo)].state = .held ∧ s.buses[(7 : BusNo)].holder = some (.sweep 7) ∧
         s.buses[(7 : BusNo)].line = some 16383 ∧ s.buses[(7 : BusNo)].head = some 3 ∧
         s.heads[(3 : HeadNo)].ctx = some { aContext .fdc with holder := .sweep 7 } ∧ s.headQueue = [] ∧
         EighthOf 7 .call s) ∧ Settles (.sweep 7) s) ∧
      (let s := { inner (.retest 65535) (called none) with headQueue := waitingFor (.retest 65535) }
       (s.buses[(7 : BusNo)].holder = some (.retest 65535) ∧ s.buses[(7 : BusNo)].head = none ∧ EighthOf 7 .call s ∧
         (∀ x ∈ (waitingFor (.retest 65535)).tail, x.bus ≠ 7)) ∧ Settles (.retest 65535) s) := by
  refine ⟨by decide +kernel, by decide +kernel, ⟨by decide +kernel, rfl, rfl⟩, by decide +kernel, ⟨_, 16383, rfl, rfl⟩, rfl⟩

theorem witness_HeadEchoTimersExpire_assigned :
    let s := { onHead 3 { state := .returning, timer := some 159 } with
      alignment := .aligned 0 0, headQueue := waitingFor (.origin 5) }
    let t := { s with heads := ((s.heads.set 0 { state := .outOfService }).set 1 { state := .settling }).set 2
                        { state := .returning } }
    Matches (words true 16).status t.heads[(3 : HeadNo)].word ∧ t.heads[(3 : HeadNo)].state = .returning ∧
      t.heads[(3 : HeadNo)].word = HeadWord.rest ∧ t.alignment.isAligned = true ∧
      (∀ k : HeadNo, k ≠ 3 → t.heads[k].state ≠ .idle) ∧ t.headQueue = waitingFor (.origin 5) := by decide +kernel

/-- The window of a measurement's last step, or of a step before another, as it ends. -/
def ending (kind : Kind) (phase : Phase) (more : List StepDef) (x : Holder) : Context :=
  { window kind phase 0 with steps := aStep kind :: more, holder := x, evaluate := true }

theorem witness_WindowsAreJudged_ends :
    (let c := ending .cap .charge [aStep .res] (.origin 5)
     let s := measuring .integrating none c
     s.heads[(3 : HeadNo)].state = .integrating ∧ s.heads[(3 : HeadNo)].bus = some 7 ∧
       s.heads[(3 : HeadNo)].ctx = some c ∧ c.steps[c.index]? = some (aStep .cap) ∧
       c.steps[c.index + 1]? = some (aStep .res) ∧ EndsStep (.chargeWindowEnd 3) 3 c) ∧
      (let c := ending .res .minus [] (.origin 5)
       let s := measuring .integrating none c
       Measures 3 7 5 c s ∧ c.evaluate = true ∧ c.index + 1 = c.steps.length ∧ EndsStep (.windowEnd 3) 3 c) ∧
      (∀ x ∈ [Holder.sweep 7, .retest 65535],
        let c := ending .fdc .single [] x
        let s := (inner x (called (some 3))).setHead 3 { state := .integrating, bus := some 7, ctx := some c }
        s.heads[(3 : HeadNo)].state = .integrating ∧ s.heads[(3 : HeadNo)].bus = some 7 ∧
          s.heads[(3 : HeadNo)].ctx = some c ∧ s.buses[(7 : BusNo)].head = some 3 ∧ s.headQueue = [] ∧
          s.buses[(7 : BusNo)].holder = some x ∧ s.buses[(7 : BusNo)].line = some 16383 ∧ c.holder = x ∧
          EndsStep (.windowEnd 3) 3 c ∧
          (ticketByNumber 65535 s).map Ticket.subject = some (.line c.line) ∧
          (evaluate { line := c.line, bus := 7, program := 15, holder := x, outcome := .complete
                      results := [stepResultOf c (aStep .fdc) false] }
            (pushNotice 6
              (.measurementResult { line := c.line, bus := 7, program := 15, holder := x, outcome := .complete
                                    results := [stepResultOf c (aStep .fdc) false] })
              (recorded 3 c (stepResultOf c (aStep .fdc) false) s))).findings = []) ∧
      ∀ y, Settles (.sweep 7) (inner (.sweep 7) y) ∧ Settles (.retest 65535) (inner (.retest 65535) y) :=
  ⟨by decide +kernel, by decide +kernel, by decide +kernel, inner_settles⟩

theorem witness_ChargeWindowsAreJudged_frames :
    let c (accepted lost : Nat) (again : Bool) (last : Option (Int × Int)) :=
      { window .cap .charge 0 with windowLen := 400, accepted := accepted, lost := lost, chargeRepeat := again
                                   lastSample := last }
    (∀ x ∈ [c 319 0 false none, c 320 0 false none, c 319 1 true (some (2, 4)), c 0 320 true none],
      ActiveOn 3 x (aStep .cap) .integrating (measuring .integrating none x) ∧ x.phase = .charge ∧
        (aStep .cap).kind = .cap ∧
        Matches echo (measuring .integrating none x).heads[(3 : HeadNo)].word) := by decide +kernel

theorem witness_SweepLinesAreCounted_faults :
    (fun s : State => s.sweeps[(7 : SweepNo)].inFlight = some (16383, .main) ∧
        s.sweeps[(7 : SweepNo)].suspendPending = true ∧
        (∀ c, s.sweeps[(7 : SweepNo)].config = some c → c.stopOnFault = false) ∧
        16 ≤ s.sweeps[(7 : SweepNo)].deferred.length)
      (onSweep 7 { config := some { lastConfig with stopOnFault := false }, inFlight := some (16383, .main)
                   suspendPending := true, deferred := List.range 16 }) :=
  ⟨rfl, rfl, (by rintro c ⟨⟩; rfl), by decide⟩

theorem witness_SeizePreemptsSweepBus_free :
    let s := { onSweep 7 { state := .active, inFlight := some (16383, .main), suspendPending := true } with
      claims := [(16383, 7)]
      buses := State.reset.buses.set 7 { state := .guard, line := some 16383, holder := some (.sweep 7) } }
    From 5 9 (hdr 9 5) s ∧ WithinLimit 5 s ∧ NotWaiting 5 16383 s ∧ claimOf 16383 s = some 7 ∧
      s.buses[(7 : BusNo)].state = .guard ∧ s.buses[(7 : BusNo)].head = none ∧
      s.sweeps[(7 : SweepNo)].inFlight = some (16383, .main) ∧ s.sweeps[(7 : SweepNo)].suspendPending = true ∧
      s.queue = [] ∧ freeBus s = some 0 := by decide +kernel

end Sys2Proof.Tests
end

section
/-! The words of the path actions (R13, R14): what each function of the slot path unit gives, then O40. -/

namespace Sys2Proof.Proofs

open Sys2Proof.Machine Sys2Proof.Stated

/-! ### Saturation, sources and gains -/

theorem saturate_eq_clamp (x : Int) : saturate x = clamp x := by
  unfold saturate clamp
  split
  · omega
  · split <;> omega

/-- The slot number 5 + i, once stored in an entry, leads back to word i of the source store. -/
@[simp] theorem sourceValue_eq_heard (i : Option (Fin 42)) (s : State) :
    sourceValue (i.map fun k => 5 + k.val) s = heard i s := by
  cases i with
  | none => rfl
  | some k =>
    have hslot : 5 ≤ 5 + k.val ∧ 5 + k.val < 47 := by omega
    simp [sourceValue, heard, signedWord, hslot]

theorem gainValue_zero (x : Int) : gainValue 0 x = x := rfl

theorem gainValue_of_pos {n : Nat} (hn : 1 ≤ n) (x : Int) : gainValue n x = clamp (x * 2 ^ n) := by
  have hne : (n : Int) ≠ 0 := by omega
  have hpos : 0 < (n : Int) := by omega
  simp only [gainValue, if_neg hne, if_pos hpos, saturate_eq_clamp, Int.toNat_natCast]

theorem gainValue_of_neg {n : Nat} (hn : 1 ≤ n) (x : Int) : gainValue (-n) x = x / 2 ^ n := by
  have hne : -(n : Int) ≠ 0 := by omega
  have hneg : ¬ 0 < -(n : Int) := by omega
  simp only [gainValue, if_neg hne, if_neg hneg, Int.neg_neg, Int.toNat_natCast]

/-- The quotient of a negative gain is the word divided and rounded toward minus infinity (R14). -/
theorem gainValue_neg_bounds {n : Nat} (hn : 1 ≤ n) (x : Int) :
    gainValue (-n) x * 2 ^ n ≤ x ∧ x < (gainValue (-n) x + 1) * 2 ^ n := by
  have hpow : (0 : Int) < 2 ^ n := Int.pow_pos (by decide)
  rw [gainValue_of_neg hn]
  exact ⟨Int.ediv_mul_le x (Int.ne_of_gt hpow), Int.lt_ediv_add_one_mul_self x hpow⟩

/-! ### The word of a path entry, by its action -/

section EntryValue
variable (i j : Option (Fin 42)) (s : State)

theorem entryValue_idle : entryValue (entryOf i j .idle) s = 0 := rfl

theorem entryValue_pass : entryValue (entryOf i j .pass) s = heard i s :=
  sourceValue_eq_heard i s

theorem entryValue_invert : entryValue (entryOf i j .invert) s = clamp (-heard i s) := by
  simp [entryValue, entryOf, saturate_eq_clamp]

theorem entryValue_mix : entryValue (entryOf i j .mix) s = clamp (heard i s + heard j s) := by
  simp [entryValue, entryOf, saturate_eq_clamp]

theorem entryValue_gain (n : Int) : entryValue (entryOf i j (.gain n)) s = gainValue n (heard i s) := by
  simp [entryValue, entryOf]

end EntryValue

/-- Settles O40: each action's word is the rule's on the words heard, a negative gain's quotient bounded from both sides. -/
theorem pathActionsFormWords : Obligations.PathActionsFormWords := by
  intro i j s
  refine ⟨entryValue_idle i j s, entryValue_pass i j s, entryValue_invert i j s, entryValue_mix i j s, ?_, ?_, ?_⟩
  · rw [entryValue_gain, gainValue_zero]
  · intro n hn _
    rw [entryValue_gain, gainValue_of_pos hn]
  · intro n hn _
    rw [entryValue_gain]
    exact gainValue_neg_bounds hn (heard i s)

end Sys2Proof.Proofs
end

section
/-! Measurement arithmetic (R96 to R104): means, what a step result takes from the computation of its kind, and the values of
FDC, FAC, RES and CAP; then O41, O42 and O43. -/

namespace Sys2Proof.Proofs

open Sys2Proof.Machine Sys2Proof.Stated

/-! ### Means (R96) -/

@[simp] theorem meanOf_zero (n : Nat) : meanOf 0 n = 0 := rfl

theorem meanOf_of_pos {sum : Int} (hsum : 0 < sum) (n : Nat) : meanOf sum n = (2 * sum + n) / (2 * n) := by
  rw [meanOf, if_neg (Int.ne_of_gt hsum), if_pos hsum]

theorem meanOf_of_neg {sum : Int} (hsum : sum < 0) (n : Nat) : meanOf sum n = -((-2 * sum + n) / (2 * n)) := by
  rw [meanOf, if_neg (Int.ne_of_lt hsum), if_neg (Int.not_lt.2 (Int.le_of_lt hsum)), Int.mul_neg, Int.neg_mul]

/-- The rounding is symmetric in the sign of the sum, which is what takes a half away from zero on both sides. -/
theorem meanOf_neg (sum : Int) (n : Nat) : meanOf (-sum) n = -meanOf sum n := by
  rcases Int.lt_trichotomy sum 0 with hneg | rfl | hpos
  · rw [meanOf_of_pos (Int.neg_pos_of_neg hneg), meanOf_of_neg hneg, Int.mul_neg, Int.neg_mul, Int.neg_neg]
  · rfl
  · rw [meanOf_of_neg (Int.neg_neg_of_pos hpos), meanOf_of_pos hpos, Int.neg_mul_neg]

/-- `mean` is a nearest whole number to sum / n, and of two nearest ones the one farther from zero (R96). -/
def RoundsAway (sum : Int) (n : Nat) (mean : Int) : Prop :=
  2 * ((n : Int) * mean - sum).natAbs ≤ n ∧
    (2 * ((n : Int) * mean - sum).natAbs = n → sum.natAbs ≤ ((n : Int) * mean).natAbs)

theorem RoundsAway.neg {sum mean : Int} {n : Nat} (h : RoundsAway sum n mean) : RoundsAway (-sum) n (-mean) := by
  unfold RoundsAway at h ⊢
  rw [Int.mul_neg]
  omega

/-- The quotient of (2S + n) / (2n), times n, lies within half of n of S, the half above included and the half below not. -/
theorem mul_halfUp_bounds (sum : Int) {n : Nat} (hn : 0 < n) :
    2 * sum - n < 2 * ((n : Int) * ((2 * sum + n) / (2 * n))) ∧ 2 * ((n : Int) * ((2 * sum + n) / (2 * n))) ≤ 2 * sum + n := by
  have hpos : (0 : Int) < 2 * n := by omega
  have hle := Int.mul_ediv_self_le (x := 2 * sum + n) (Int.ne_of_gt hpos)
  have hlt := Int.lt_mul_ediv_self_add (x := 2 * sum + n) hpos
  rw [Int.mul_assoc] at hle hlt
  omega

theorem meanOf_roundsAway (sum : Int) {n : Nat} (hn : 0 < n) : RoundsAway sum n (meanOf sum n) := by
  have of_pos {x : Int} (hx : 0 < x) : RoundsAway x n (meanOf x n) := by
    obtain ⟨hlow, hhigh⟩ := mul_halfUp_bounds x hn
    rw [meanOf_of_pos hx]
    unfold RoundsAway
    omega
  rcases Int.lt_trichotomy sum 0 with hneg | rfl | hpos
  · have h := (of_pos (Int.neg_pos_of_neg hneg)).neg
    rwa [meanOf_neg, Int.neg_neg, Int.neg_neg] at h
  · rw [meanOf_zero, RoundsAway, Int.mul_zero]
    omega
  · exact of_pos hpos

/-! ### What a step result takes from the computation of its kind (R97, R105) -/

section Gives
variable {c : Context} {d : StepDef} {mark : RangeMark}

theorem gives_of_computeStep {v : Option Int} (h : computeStep d.kind c.range c.first c.second = (v, mark)) :
    Gives (stepResultOf c d false) v (mark == .above) (mark == .below) (mark == .sourceFault) := by
  have hresult : stepResultOf c d false =
      { index := c.index, kind := d.kind, legs := d.legs, value := v
        quals := qualsOf d.kind mark false c.degraded c.rangedUp c.first c.second } := by
    rw [stepResultOf, if_neg Bool.false_ne_true, h]
  rw [hresult]
  exact ⟨rfl, rfl, rfl, rfl⟩

theorem gives_of_computeFdc {v : Int} (hd : d.kind = .fdc) (h : computeFdc c.first = (v, mark)) :
    Gives (stepResultOf c d false) (some v) (mark == .above) (mark == .below) (mark == .sourceFault) :=
  gives_of_computeStep (by rw [hd, computeStep, h])

theorem gives_of_computeFac {v : Int} (hd : d.kind = .fac) (h : computeFac c.first = (v, mark)) :
    Gives (stepResultOf c d false) (some v) (mark == .above) (mark == .below) (mark == .sourceFault) :=
  gives_of_computeStep (by rw [hd, computeStep, h])

theorem gives_of_computeRes {v : Option Int} (hd : d.kind = .res) (h : computeRes c.range c.first c.second = (v, mark)) :
    Gives (stepResultOf c d false) v (mark == .above) (mark == .below) (mark == .sourceFault) :=
  gives_of_computeStep (by rw [hd, computeStep, h])

theorem gives_of_computeCap {v : Option Int} (hd : d.kind = .cap) (h : computeCap c.first c.second = (v, mark)) :
    Gives (stepResultOf c d false) v (mark == .above) (mark == .below) (mark == .sourceFault) :=
  gives_of_computeStep (by rw [hd, computeStep, h])

end Gives

/-! ### FDC (R99) -/

section Fdc
variable {m : Accum}

theorem computeFdc_within (hlow : -32767 ≤ meanOf m.a m.n) (hhigh : meanOf m.a m.n ≤ 32767) :
    computeFdc m = (meanOf m.a m.n, .none) := by
  rw [computeFdc, if_neg (Int.not_lt.2 hhigh), if_neg (Int.not_lt.2 hlow)]

theorem computeFdc_above (h : 32767 < meanOf m.a m.n) : computeFdc m = (32767, .above) :=
  if_pos h

theorem computeFdc_below (h : meanOf m.a m.n < -32767) : computeFdc m = (-32767, .above) := by
  rw [computeFdc, if_neg (by omega), if_pos h]

end Fdc

/-- Settles O41: the mean rounds a half away from zero by its symmetry in the sign, and FDC holds it at ±32,767. -/
theorem fdcValueIsMean : Obligations.FdcValueIsMean := by
  refine ⟨fun sum n hn => meanOf_roundsAway sum hn, fun sum n _ => ⟨?_, ?_, ?_⟩, fun c d hd => ⟨?_, ?_, ?_⟩⟩
  · rintro rfl
    exact meanOf_zero n
  · exact fun hpos => meanOf_of_pos hpos n
  · exact fun hneg => meanOf_of_neg hneg n
  · exact fun ⟨hlow, hhigh⟩ => gives_of_computeFdc hd (computeFdc_within hlow hhigh)
  · exact fun h => gives_of_computeFdc hd (computeFdc_above h)
  · exact fun h => gives_of_computeFdc hd (computeFdc_below h)

/-! ### The accumulators of an FAC phase (R94) -/

section Enter
variable (x : Sample) (m : Accum)

theorem enterSample_n : (enterSample .fac false x m).n = m.n + 1 := rfl

theorem enterSample_a : (enterSample .fac false x m).a = m.a + x.v := rfl

theorem enterSample_q : ((enterSample .fac false x m).q : Int) = m.q + x.v * x.v := by
  rw [← Int.natAbs_mul_self, ← Int.natCast_add]
  rfl

end Enter

/-- An FAC phase that goes on from a set of accumulators. -/
def enteredFrom (m : Accum) (l : List Sample) : Accum := l.foldl (fun m x => enterSample .fac false x m) m

theorem entered_eq (l : List Sample) : entered l = enteredFrom {} l := rfl

theorem enteredFrom_cons (m : Accum) (x : Sample) (l : List Sample) :
    enteredFrom m (x :: l) = enteredFrom (enterSample .fac false x m) l := rfl

/-- ΣV over the samples. -/
def voltageSum (l : List Sample) : Int := (l.map Sample.v).sum

theorem voltageSum_nil : voltageSum [] = 0 := rfl

theorem voltageSum_cons (x : Sample) (l : List Sample) : voltageSum (x :: l) = x.v + voltageSum l := rfl

/-- The sum of the squared voltages of the samples. -/
def squareSum (l : List Sample) : Int := (l.map fun x => x.v * x.v).sum

theorem squareSum_nil : squareSum [] = 0 := rfl

theorem squareSum_cons (x : Sample) (l : List Sample) : squareSum (x :: l) = x.v * x.v + squareSum l := rfl

theorem enteredFrom_n (m : Accum) (l : List Sample) : (enteredFrom m l).n = m.n + l.length := by
  induction l generalizing m with
  | nil => rfl
  | cons x l ih => rw [enteredFrom_cons, ih, enterSample_n, List.length_cons, Nat.add_assoc, Nat.add_comm 1]

theorem enteredFrom_a (m : Accum) (l : List Sample) : (enteredFrom m l).a = m.a + voltageSum l := by
  induction l generalizing m with
  | nil => exact (Int.add_zero m.a).symm
  | cons x l ih => rw [enteredFrom_cons, ih, enterSample_a, voltageSum_cons, Int.add_assoc]

theorem enteredFrom_q (m : Accum) (l : List Sample) : ((enteredFrom m l).q : Int) = m.q + squareSum l := by
  induction l generalizing m with
  | nil => exact (Int.add_zero m.q).symm
  | cons x l ih => rw [enteredFrom_cons, ih, enterSample_q, squareSum_cons, Int.add_assoc]

theorem entered_n (l : List Sample) : (entered l).n = l.length := by
  rw [entered_eq, enteredFrom_n]
  exact Nat.zero_add _

theorem entered_a (l : List Sample) : (entered l).a = voltageSum l := by
  rw [entered_eq, enteredFrom_a]
  exact Int.zero_add _

theorem entered_q (l : List Sample) : ((entered l).q : Int) = squareSum l := by
  rw [entered_eq, enteredFrom_q]
  exact Int.zero_add _

/-! ### P of R100 and its bounds -/

theorem acPower_entered (l : List Sample) :
    acPower (entered l) = l.length * squareSum l - voltageSum l * voltageSum l := by
  rw [acPower, entered_n, entered_q, entered_a]

theorem square_nonneg (x : Int) : 0 ≤ x * x :=
  Int.natAbs_mul_self (a := x) ▸ Int.natCast_nonneg _

/-- The sum of the squares (V − y)² over the samples is not negative. -/
theorem two_mul_voltageSum_le (y : Int) (l : List Sample) :
    2 * (y * voltageSum l) ≤ squareSum l + l.length * (y * y) := by
  induction l with
  | nil => simp only [voltageSum_nil, squareSum_nil, List.length_nil]; omega
  | cons x l ih =>
    have hsquare := square_nonneg (x.v - y)
    simp only [Int.sub_mul, Int.mul_sub, Int.mul_comm y x.v] at hsquare
    simp only [voltageSum_cons, squareSum_cons, List.length_cons, Int.natCast_add, Int.natCast_one, Int.add_mul, Int.one_mul,
      Int.mul_add, Int.mul_comm y x.v]
    omega

/-- (ΣV)² ≤ n × Q, the inequality of Cauchy and Schwarz against the constant 1. -/
theorem voltageSum_mul_self_le (l : List Sample) : voltageSum l * voltageSum l ≤ l.length * squareSum l := by
  induction l with
  | nil => simp only [voltageSum_nil, List.length_nil]; omega
  | cons x l ih =>
    have hcross := two_mul_voltageSum_le x.v l
    simp only [voltageSum_cons, squareSum_cons, List.length_cons, Int.natCast_add, Int.natCast_one, Int.add_mul, Int.one_mul,
      Int.mul_add, Int.mul_comm (voltageSum l) x.v]
    omega

theorem acPower_entered_nonneg (l : List Sample) : 0 ≤ acPower (entered l) := by
  rw [acPower_entered]
  exact Int.sub_nonneg.2 (voltageSum_mul_self_le l)

theorem squareSum_le {l : List Sample} (hl : ∀ x ∈ l, x.v.natAbs ≤ 65535) :
    squareSum l ≤ l.length * (65535 * 65535) := by
  induction l with
  | nil => rw [squareSum_nil, List.length_nil]; omega
  | cons x l ih =>
    obtain ⟨hx, hrest⟩ := List.forall_mem_cons.1 hl
    have hsquare : ((x.v.natAbs * x.v.natAbs : Nat) : Int) ≤ (65535 * 65535 : Nat) :=
      Int.ofNat_le.2 (Nat.mul_le_mul hx hx)
    rw [Int.natAbs_mul_self] at hsquare
    have hsum := ih hrest
    rw [squareSum_cons, List.length_cons]
    omega

/-- Samples of at most 65,535 in size hold P to n² times its square. -/
theorem acPower_entered_le {l : List Sample} (hl : ∀ x ∈ l, x.v.natAbs ≤ 65535) :
    acPower (entered l) ≤ (l.length : Int) * l.length * (65535 * 65535) := by
  have hq := Int.mul_le_mul_of_nonneg_left (squareSum_le hl) (Int.natCast_nonneg l.length)
  have hv := square_nonneg (voltageSum l)
  rw [acPower_entered, Int.mul_assoc]
  omega

/-! ### The search for the rms (R100) -/

/-- The rms reaches r: (2r − 1)² × n² does not exceed 4P. -/
def RmsReaches (p4 n2 : Int) (r : Nat) : Prop := (2 * (r : Int) - 1) * (2 * r - 1) * n2 ≤ p4

theorem rmsSearch_succ_of_reaches {p4 n2 : Int} {k r : Nat} (h : RmsReaches p4 n2 (r + 2 ^ k)) :
    rmsSearch p4 n2 (k + 1) r = rmsSearch p4 n2 k (r + 2 ^ k) :=
  if_pos h

theorem rmsSearch_succ_of_not_reaches {p4 n2 : Int} {k r : Nat} (h : ¬RmsReaches p4 n2 (r + 2 ^ k)) :
    rmsSearch p4 n2 (k + 1) r = rmsSearch p4 n2 k r :=
  if_neg h

/-- Trying the bits from the highest down keeps a reached r below an unreached r + 2^k, so it ends between neighbours. -/
theorem rmsSearch_brackets {p4 n2 : Int} (k r : Nat) (hr : RmsReaches p4 n2 r) (htop : ¬RmsReaches p4 n2 (r + 2 ^ k)) :
    RmsReaches p4 n2 (rmsSearch p4 n2 k r) ∧ ¬RmsReaches p4 n2 (rmsSearch p4 n2 k r + 1) := by
  induction k generalizing r with
  | zero => exact ⟨hr, htop⟩
  | succ k ih =>
    by_cases h : RmsReaches p4 n2 (r + 2 ^ k)
    · rw [rmsSearch_succ_of_reaches h]
      exact ih _ h (by rwa [Nat.add_assoc, ← Nat.two_mul, ← Nat.pow_succ'])
    · rw [rmsSearch_succ_of_not_reaches h]
      exact ih _ hr h

theorem rmsSearch_of_none_reached {p4 n2 : Int} (h : ∀ r, ¬RmsReaches p4 n2 r) (k r : Nat) : rmsSearch p4 n2 k r = r := by
  induction k with
  | zero => rfl
  | succ k ih => rw [rmsSearch_succ_of_not_reaches (h _), ih]

/-- What reaches a number reaches every smaller one from 1 on. -/
theorem RmsReaches.of_le {p4 n2 : Int} (hn2 : 0 ≤ n2) {j k : Nat} (hj : 1 ≤ j) (hjk : j ≤ k) (h : RmsReaches p4 n2 k) :
    RmsReaches p4 n2 j := by
  have hsq : (2 * (j : Int) - 1) * (2 * j - 1) ≤ (2 * (k : Int) - 1) * (2 * k - 1) :=
    Int.mul_self_le_mul_self (by omega) (by omega)
  exact Int.le_trans (Int.mul_le_mul_of_nonneg_right hsq hn2) h

/-- Nothing is reached while 4P is less than n², since every (2r − 1)² is at least 1. -/
theorem not_rmsReaches_of_lt {p4 n2 : Int} (hn2 : 0 ≤ n2) (h : p4 < n2) (r : Nat) : ¬RmsReaches p4 n2 r := by
  have hodd : 2 * (r : Int) - 1 ≠ 0 := by omega
  have hsq : 1 ≤ (2 * (r : Int) - 1) * (2 * r - 1) :=
    Int.lt_iff_le_and_ne.2 ⟨square_nonneg _, (Int.mul_ne_zero hodd hodd).symm⟩
  have hle := Int.mul_le_mul_of_nonneg_right hsq hn2
  rw [Int.one_mul] at hle
  exact Int.not_le.2 (Int.lt_of_lt_of_le h hle)

section Rms
variable {m : Accum}

theorem rmsOf_eq_zero (h : 4 * acPower m < (m.n : Int) * m.n) : rmsOf m = 0 :=
  rmsSearch_of_none_reached (not_rmsReaches_of_lt (square_nonneg _) h) 17 0

/-- From 4P = n² on, where P stays below the 17 bits of the search, r is the largest number reached. -/
theorem rmsOf_is_largest (hlow : (m.n : Int) * m.n ≤ 4 * acPower m)
    (htop : ¬RmsReaches (4 * acPower m) ((m.n : Int) * m.n) (2 ^ 17)) :
    RmsReaches (4 * acPower m) ((m.n : Int) * m.n) (rmsOf m) ∧
      ∀ k, rmsOf m < k → ¬RmsReaches (4 * acPower m) ((m.n : Int) * m.n) k := by
  have hzero : RmsReaches (4 * acPower m) ((m.n : Int) * m.n) 0 := by
    rw [RmsReaches, show (2 * ((0 : Nat) : Int) - 1) * (2 * (0 : Nat) - 1) = 1 from rfl, Int.one_mul]
    exact hlow
  obtain ⟨hreach, hnext⟩ := rmsSearch_brackets 17 0 hzero (by rwa [Nat.zero_add])
  exact ⟨hreach, fun k hk h => hnext (h.of_le (square_nonneg _) (Nat.le_add_left _ _) hk)⟩

theorem computeFac_within (h : rmsOf m ≤ 32767) : computeFac m = ((rmsOf m : Int), .none) :=
  if_pos h

theorem computeFac_above (h : 32767 < rmsOf m) : computeFac m = (32767, .above) :=
  if_neg (Nat.not_le.2 h)

end Rms

/-- Samples of at most 65,535 in size keep the rms within the 17 bits of the search. -/
theorem not_rmsReaches_top {l : List Sample} (hne : l ≠ []) (hl : ∀ x ∈ l, x.v.natAbs ≤ 65535) :
    ¬RmsReaches (4 * acPower (entered l)) (((entered l).n : Int) * (entered l).n) (2 ^ 17) := by
  rw [entered_n]
  have hlen : (0 : Int) < l.length := Int.natCast_pos.2 (List.length_pos_iff.2 hne)
  have hpos : (0 : Int) < (l.length : Int) * l.length := Int.mul_pos hlen hlen
  have hle := acPower_entered_le hl
  rw [RmsReaches, show (2 * ((2 ^ 17 : Nat) : Int) - 1) * (2 * (2 ^ 17 : Nat) - 1) = 262143 * 262143 from rfl]
  omega

/-- Settles O42: the bitwise search ends at the largest number reached, which P's bound keeps within its 17 bits. -/
theorem facValueIsRms : Obligations.FacValueIsRms := by
  intro c d l hd hne hl hfirst n p
  have hlen : l.length = c.first.n := by rw [hfirst, entered_n]
  have hn : n = c.first.n := congrArg Nat.cast hlen
  have hp : p = acPower c.first := by
    rw [hfirst]
    exact (acPower_entered l).symm
  have htop := not_rmsReaches_top hne hl
  rw [← hfirst] at htop
  rw [hn, hp]
  refine ⟨hfirst ▸ acPower_entered_nonneg l, rmsOf c.first, rmsOf_eq_zero, fun hlow => ?_, fun h => ?_, fun h => ?_⟩
  · obtain ⟨hreach, hmax⟩ := rmsOf_is_largest hlow htop
    exact ⟨hreach, fun k hk => Int.not_le.1 (hmax k hk)⟩
  · exact gives_of_computeFac hd (computeFac_within h)
  · exact gives_of_computeFac hd (computeFac_above h)

/-! ### RES (R101, R102) -/

section Res
variable (range : Range) (plus minus : Accum)

/-- ΔV of R101. -/
def resVoltage : Int := meanOf plus.a plus.n - meanOf minus.a minus.n

/-- ΔI of R101. -/
def resCurrent : Int := meanOf plus.b plus.n - meanOf minus.b minus.n

/-- The whole part that R102 forms, in ohms. -/
def resOhms : Int :=
  (2 * resVoltage plus minus * (if range = .low then 10000000 else 10000) + resCurrent plus minus) /
    (2 * resCurrent plus minus)

theorem computeRes_eq :
    computeRes range plus minus =
      if resVoltage plus minus < 100 then (none, .sourceFault)
      else if resCurrent plus minus < 2 then (some 1000000000, .above)
      else if resOhms range plus minus < 1000000000 then (some (resOhms range plus minus), .none)
      else (some 1000000000, .above) := by
  cases range <;> rfl

variable {range plus minus}

theorem computeRes_sourceFault (hv : resVoltage plus minus < 100) : computeRes range plus minus = (none, .sourceFault) :=
  if_pos hv

theorem computeRes_noCurrent (hv : 100 ≤ resVoltage plus minus) (hi : resCurrent plus minus < 2) :
    computeRes range plus minus = (some 1000000000, .above) := by
  rw [computeRes_eq, if_neg (Int.not_lt.2 hv), if_pos hi]

theorem computeRes_within (hv : 100 ≤ resVoltage plus minus) (hi : 2 ≤ resCurrent plus minus)
    (hr : resOhms range plus minus < 1000000000) :
    computeRes range plus minus = (some (resOhms range plus minus), .none) := by
  rw [computeRes_eq, if_neg (Int.not_lt.2 hv), if_neg (Int.not_lt.2 hi), if_pos hr]

theorem computeRes_above (hv : 100 ≤ resVoltage plus minus) (hi : 2 ≤ resCurrent plus minus)
    (hr : 1000000000 ≤ resOhms range plus minus) : computeRes range plus minus = (some 1000000000, .above) := by
  rw [computeRes_eq, if_neg (Int.not_lt.2 hv), if_neg (Int.not_lt.2 hi), if_neg (Int.not_lt.2 hr)]

end Res

/-! ### CAP (R104) -/

section Cap
variable (baseline charge : Accum)

/-- ΔVc of R104. -/
def capVoltage : Int := meanOf charge.a 80 - meanOf baseline.a baseline.n

/-- Qc of R104. -/
def capCharge : Int := charge.b - 5 * charge.tail

/-- The whole part that R104 forms, in picofarads. -/
def capFarads : Int := (25000 * capCharge charge + capVoltage baseline charge) / (2 * capVoltage baseline charge)

theorem computeCap_eq :
    computeCap baseline charge =
      if capVoltage baseline charge < 100 then (none, .sourceFault)
      else if capCharge charge ≤ 0 then (some 0, .below)
      else if capFarads baseline charge = 0 then (some 0, .below)
      else if 9999999 < capFarads baseline charge then (some 9999999, .above)
      else (some (capFarads baseline charge), .none) :=
  rfl

variable {baseline charge}

theorem computeCap_sourceFault (hv : capVoltage baseline charge < 100) : computeCap baseline charge = (none, .sourceFault) :=
  if_pos hv

theorem computeCap_noCharge (hv : 100 ≤ capVoltage baseline charge) (hq : capCharge charge ≤ 0) :
    computeCap baseline charge = (some 0, .below) := by
  rw [computeCap_eq, if_neg (Int.not_lt.2 hv), if_pos hq]

theorem computeCap_of_charge (hv : 100 ≤ capVoltage baseline charge) (hq : 0 < capCharge charge) :
    computeCap baseline charge =
      if capFarads baseline charge = 0 then (some 0, .below)
      else if 9999999 < capFarads baseline charge then (some 9999999, .above)
      else (some (capFarads baseline charge), .none) := by
  rw [computeCap_eq, if_neg (Int.not_lt.2 hv), if_neg (Int.not_le.2 hq)]

theorem computeCap_below (hv : 100 ≤ capVoltage baseline charge) (hq : 0 < capCharge charge)
    (hc : capFarads baseline charge = 0) : computeCap baseline charge = (some 0, .below) := by
  rw [computeCap_of_charge hv hq, if_pos hc]

theorem computeCap_above (hv : 100 ≤ capVoltage baseline charge) (hq : 0 < capCharge charge)
    (hc : 9999999 < capFarads baseline charge) : computeCap baseline charge = (some 9999999, .above) := by
  rw [computeCap_of_charge hv hq, if_neg (by omega), if_pos hc]

theorem computeCap_within (hv : 100 ≤ capVoltage baseline charge) (hq : 0 < capCharge charge)
    (hpos : 0 < capFarads baseline charge) (hc : capFarads baseline charge ≤ 9999999) :
    computeCap baseline charge = (some (capFarads baseline charge), .none) := by
  rw [computeCap_of_charge hv hq, if_neg (Int.ne_of_gt hpos), if_neg (Int.not_lt.2 hc)]

end Cap

/-- Settles O43: each outcome of RES and of CAP, by the case of the rule it falls under. -/
theorem resAndCapValues : Obligations.ResAndCapValues := by
  refine ⟨fun c d hd => ⟨?_, ?_, ?_, ?_⟩, fun c d hd => ⟨?_, ?_, ?_, ?_, ?_⟩⟩
  · exact fun hv => gives_of_computeRes hd (computeRes_sourceFault hv)
  · exact fun hv hi => gives_of_computeRes hd (computeRes_noCurrent hv hi)
  · exact fun hv hi hr => gives_of_computeRes hd (computeRes_within hv hi hr)
  · exact fun hv hi hr => gives_of_computeRes hd (computeRes_above hv hi hr)
  · exact fun hv => gives_of_computeCap hd (computeCap_sourceFault hv)
  · exact fun hv hq => gives_of_computeCap hd (computeCap_noCharge hv hq)
  · exact fun hv hq hc => gives_of_computeCap hd (computeCap_below hv hq hc)
  · exact fun hv hq hc => gives_of_computeCap hd (computeCap_above hv hq hc)
  · exact fun hv hq hpos hc => gives_of_computeCap hd (computeCap_within hv hq hpos hc)

end Sys2Proof.Proofs
end

section
/-! The limit evaluator (R111 to R118): the step result that feeds a code, a code's assessment, what an evaluation holds of each
code and its findings in code order; then O44. -/

namespace Sys2Proof.Proofs

open Sys2Proof.Machine Sys2Proof.Stated

/-! ### The table of codes (R111) -/

theorem fedBy_eq (x : FaultCode) : fedBy x = (codeKind x, codeLegs x) := by
  cases x <;> rfl

theorem codeIndex_val (x : FaultCode) : (codeIndex x).val = faultCodeNumber x := by
  cases x <;> rfl

/-- The model tests the size of a BATTERY value, the rule the value on both sides of zero. -/
theorem lt_natAbs_iff (t : Nat) (v : Int) : t < v.natAbs ↔ v < -t ∨ t < v := by
  omega

theorem codeTest_iff (x : FaultCode) (v : Int) (t : Nat) : codeTest x v t = true ↔ Faulty x v t := by
  cases x <;> simp [codeTest, Faulty, lt_natAbs_iff]

theorem allCodes_ascend : allCodes.Pairwise fun x y => faultCodeNumber x < faultCodeNumber y := by
  decide

theorem mem_allCodes (x : FaultCode) : x ∈ allCodes := by
  cases x <;> decide

theorem find?_allCodes (x : FaultCode) : allCodes.find? (· == x) = some x := by
  cases x <;> rfl

/-! ### The step result that feeds a code (R111, R114) -/

section Feeding
variable {x : FaultCode} {results : List StepResult} {res : StepResult}

theorem feeding_iff : (res.kind == codeKind x && res.legs == codeLegs x) = true ↔ (res.kind, res.legs) = fedBy x := by
  simp [fedBy_eq]

theorem feedingResult_eq_none (h : ∀ r ∈ results, (r.kind, r.legs) ≠ fedBy x) : feedingResult x results = none :=
  List.find?_eq_none.2 fun r hr hfeeds => h r hr (feeding_iff.1 hfeeds)

theorem feedingResult_of_feeds (h : Feeds x results res) : feedingResult x results = some res := by
  obtain ⟨before, after, rfl, hres, hbefore⟩ := h
  have hskip : feedingResult x before = none := feedingResult_eq_none hbefore
  rw [feedingResult] at hskip ⊢
  rw [List.find?_append, hskip, Option.none_or]
  exact List.find?_cons_of_pos (feeding_iff.2 hres)

end Feeding

/-! ### The assessment of a code (R113, R114) -/

theorem limitOf_eq {cls : Nat} {x : FaultCode} {s : State} {e : LimitEntry}
    (h : s.limits.toList[cls * 10 + faultCodeNumber x]? = some e) : limitOf cls x s = e := by
  rw [limitOf, codeIndex_val, List.getD_eq_getElem?_getD, h, Option.getD_some]

section Assess
variable {cls : Nat} {x : FaultCode} {results : List StepResult} {res : StepResult} {v : Int} (s : State)

theorem assess_unassessedClass (x : FaultCode) (results : List StepResult) : assess 15 x results s = .notAssessed :=
  rfl

theorem assess_of_feedingResult_none (h : feedingResult x results = none) : assess cls x results s = .notAssessed := by
  simp [assess, h]

theorem assess_of_value_none (h : feedingResult x results = some res) (hv : res.value = none) :
    assess cls x results s = .notAssessed := by
  simp [assess, h, hv]

theorem assess_of_value (hcls : cls ≠ 15) (h : feedingResult x results = some res) (hv : res.value = some v) :
    assess cls x results s =
      if (limitOf cls x s).enabled = false then .clear
      else if codeTest x v (limitOf cls x s).threshold then .found
      else .clear := by
  simp only [assess, if_neg hcls, h, hv]

variable {s}

theorem assess_clear (hcls : cls ≠ 15) (h : feedingResult x results = some res) (hv : res.value = some v)
    (hclear : (limitOf cls x s).enabled = false ∨ ¬Faulty x v (limitOf cls x s).threshold) :
    assess cls x results s = .clear := by
  rw [assess_of_value s hcls h hv]
  rcases hclear with hoff | hgood
  · rw [if_pos hoff]
  · rw [if_neg (mt (codeTest_iff x v _).1 hgood), ite_self]

theorem assess_found (hcls : cls ≠ 15) (h : feedingResult x results = some res) (hv : res.value = some v)
    (hon : (limitOf cls x s).enabled = true) (hfault : Faulty x v (limitOf cls x s).threshold) :
    assess cls x results s = .found := by
  rw [assess_of_value s hcls h hv, if_neg (ne_false_of_eq_true hon), if_pos ((codeTest_iff x v _).2 hfault)]

end Assess

/-! ### The finding of a code (R116) -/

section Finding
variable {cls : Nat} {x : FaultCode} {r : Record} {s : State}

theorem findingOf_of_found {res : StepResult} {v : Int} (hfound : assess cls x r.results s = .found)
    (h : feedingResult x r.results = some res) (hv : res.value = some v) :
    findingOf cls x r s =
      some { line := r.line, code := x, value := v, quals := res.quals, program := r.program,
             severity := (limitOf cls x s).severity, time := s.clock } := by
  simp only [findingOf, hfound, h, hv, Option.getD_some]

/-- Only a FOUND assessment forms a finding, and the finding is of the code assessed. -/
theorem found_of_findingOf {f : Finding} (h : findingOf cls x r s = some f) :
    assess cls x r.results s = .found ∧ f.code = x := by
  unfold findingOf at h
  split at h
  · next hfound _ =>
    cases h
    exact ⟨hfound, rfl⟩
  · cases h

end Finding

/-! ### What an evaluation holds (R118) -/

section Evaluate
variable (r : Record) (s : State)

theorem evaluate_of (x : FaultCode) : (evaluate r s).of x = assess (classOf r.line s) x r.results s := by
  have hfind : ((fun p : FaultCode × Assessment => p.1 == x) ∘ fun y => (y, assess (classOf r.line s) y r.results s)) =
      (· == x) := rfl
  simp only [Evaluation.of, evaluate, List.find?_map, hfind, find?_allCodes, Option.map_some, Option.getD_some]

variable {r s}

theorem mem_findings_iff {f : Finding} :
    f ∈ (evaluate r s).findings ↔ ∃ x, findingOf (classOf r.line s) x r s = some f := by
  simp [evaluate, mem_allCodes]

theorem found_of_mem_findings {f : Finding} (h : f ∈ (evaluate r s).findings) : (evaluate r s).of f.code = .found := by
  obtain ⟨x, hx⟩ := mem_findings_iff.1 h
  obtain ⟨hfound, rfl⟩ := found_of_findingOf hx
  rw [evaluate_of, hfound]

theorem findings_unassessedClass (h : classOf r.line s = 15) : (evaluate r s).findings = [] := by
  refine List.eq_nil_iff_forall_not_mem.2 fun f hf => ?_
  have hfound := found_of_mem_findings hf
  rw [evaluate_of, h, assess_unassessedClass] at hfound
  cases hfound

variable (r s) in
theorem findings_ascend : ((evaluate r s).findings.map fun f => faultCodeNumber f.code).Pairwise (· < ·) := by
  refine List.pairwise_map.2 (List.pairwise_filterMap.2 (allCodes_ascend.imp fun hlt f hf g hg => ?_))
  rw [(found_of_findingOf hf).2, (found_of_findingOf hg).2]
  exact hlt

end Evaluate

/-- Settles O44: each code by what feeds it and by its limit entry, then the findings by the assessments they come from. -/
theorem evaluationsFollowLimits : Obligations.EvaluationsFollowLimits := by
  intro r x s
  refine ⟨fun hcls => ⟨?_, findings_unassessedClass hcls⟩, fun hnone => ?_, fun res hfeeds hv => ?_, ?_,
    fun f hf => found_of_mem_findings hf, findings_ascend r s⟩
  · rw [evaluate_of, hcls, assess_unassessedClass]
  · rw [evaluate_of, assess_of_feedingResult_none s (feedingResult_eq_none hnone)]
  · rw [evaluate_of, assess_of_value_none s (feedingResult_of_feeds hfeeds) hv]
  · intro res v e hfeeds hv hlt he
    obtain rfl := limitOf_eq he
    have hcls : classOf r.line s ≠ 15 := Nat.ne_of_lt hlt
    have hres := feedingResult_of_feeds hfeeds
    refine ⟨fun hclear => ?_, fun hon hfault => ?_⟩
    · rw [evaluate_of, assess_clear hcls hres hv hclear]
    · have hfound := assess_found hcls hres hv hon hfault
      exact ⟨(evaluate_of r s x).trans hfound, mem_findings_iff.2 ⟨x, findingOf_of_found hfound hres hv⟩⟩

end Sys2Proof.Proofs
end

section
/-! The placing of a finding on a ticket (R117, R123, R124, R148): reading and changing the ticket of a number, what a finding
does to a ticket and to its member list, and which ticket a finding goes to; then O52. -/

namespace Sys2Proof.Proofs

open Sys2Proof.Machine Sys2Proof.Stated

/-! ### One ticket of the table (R120, R122) -/

theorem updTicket_eq_withTicket (n : Nat) (g : Ticket → Ticket) (s : State) : updTicket n g s = withTicket n g s :=
  rfl

section OneNumber
variable {s : State} {t : Ticket} (hok : s.numbersOk = true) (ht : t ∈ s.tickets)
include hok ht

/-- Where no two tickets share a number, a ticket of the table is the only one of its number. -/
theorem eq_of_number_eq {u : Ticket} (hu : u ∈ s.tickets) (h : u.number = t.number) : u = t :=
  eq_of_nodup_map (of_decide_eq_true hok) ht hu h

theorem ticketByNumber_of_mem : ticketByNumber t.number s = some t := by
  cases h : ticketByNumber t.number s with
  | none => exact absurd (beq_self_eq_true t.number) (List.find?_eq_none.1 h t ht)
  | some u =>
    obtain ⟨hu, hnumber⟩ := ticketByNumber_mem h
    rw [eq_of_number_eq hok ht hu hnumber]

/-- A change of the one ticket of a number is its replacement by the changed ticket. -/
theorem withTicket_eq_replace (g : Ticket → Ticket) :
    withTicket t.number g s = withTicket t.number (fun _ => g t) s := by
  have hmap : (s.tickets.map fun u => if u.number = t.number then g u else u) =
      s.tickets.map fun u => if u.number = t.number then g t else u := by
    refine List.map_congr_left fun u hu => ite_congr rfl (fun hnumber => ?_) fun _ => rfl
    rw [eq_of_number_eq hok ht hu hnumber]
  rw [withTicket, hmap, withTicket]

end OneNumber

/-! ### What a finding does to its ticket (R124, R127, R148) -/

/-- The more severe of two base severities is the smaller number; the severity is formed again where it changes. -/
theorem occur_eq_occurred (f : Finding) (t : Ticket) : t.occur f = occurred f t := by
  by_cases h : f.severity < t.baseSeverity
  · rw [occurred, if_pos h, Nat.min_eq_right (Nat.le_of_lt h)]
    exact if_pos h
  · rw [occurred, if_neg h, Nat.min_eq_left (Nat.le_of_not_lt h)]
    exact if_neg h

theorem placeOf_eq_length {line : Nat} {before after : List Member} {m : Member} (hm : m.line = line)
    (hbefore : ∀ x ∈ before, x.line ≠ line) : placeOf line (before ++ m :: after) = some before.length := by
  have hskip : before.findIdx? (fun x => x.line == line) = none :=
    List.findIdx?_eq_none_iff.2 fun x hx => beq_eq_false_iff_ne.2 (hbefore x hx)
  have hhit : (m :: after).findIdx? (fun x => x.line == line) = some 0 := by
    rw [List.findIdx?_cons, if_pos (beq_iff_eq.2 hm)]
  rw [placeOf, List.findIdx?_append, hskip, hhit, Option.none_or, Option.map_some, Nat.zero_add]

theorem placeOf_eq_none {line : Nat} {l : List Member} (h : ∀ m ∈ l, m.line ≠ line) : placeOf line l = none :=
  List.findIdx?_eq_none_iff.2 fun m hm => beq_eq_false_iff_ne.2 (h m hm)

theorem modify_length_append {α : Type} (g : α → α) (x : α) (after before : List α) :
    (before ++ x :: after).modify before.length g = before ++ g x :: after := by
  induction before with
  | nil => exact List.modify_zero_cons ..
  | cons y before ih => rw [List.cons_append, List.length_cons, List.modify_succ_cons, ih, List.cons_append]

section MemberUpdate
variable {f : Finding} {t : Ticket} {s : State}

/-- A change that ends in an occurrence of the finding, made on the one ticket of its number. -/
theorem updTicket_occur (hok : s.numbersOk = true) (ht : t ∈ s.tickets) (g : Ticket → Ticket) :
    updTicket t.number (fun u => (g u).occur f) s = withTicket t.number (fun _ => occurred f (g t)) s := by
  rw [updTicket_eq_withTicket, withTicket_eq_replace hok ht, occur_eq_occurred]

theorem memberUpdate_listed (hok : s.numbersOk = true) (ht : t ∈ s.tickets) {before after : List Member} {m : Member}
    (hmembers : t.members = before ++ m :: after) (hm : m.line = f.line) (hbefore : ∀ x ∈ before, x.line ≠ f.line) :
    memberUpdate t.number f s =
      countTickets (fun c => { c with membersAdded := raised c.membersAdded })
        (withTicket t.number (fun _ => occurred f { t with members := before ++ memberFrom f m.mark :: after }) s) := by
  have hplace : placeOf f.line t.members = some before.length := hmembers ▸ placeOf_eq_length hm hbefore
  have hmodify : t.members.modify before.length (fun old => memberFrom f old.mark) =
      before ++ memberFrom f m.mark :: after := by
    rw [hmembers, modify_length_append]
  have hchange := updTicket_occur (f := f) hok ht fun u =>
    { u with members := u.members.modify before.length fun old => memberFrom f old.mark }
  simp only [hmodify] at hchange
  simp only [memberUpdate, ticketByNumber_of_mem hok ht, hplace]
  exact congrArg _ hchange

theorem memberUpdate_joins (hok : s.numbersOk = true) (ht : t ∈ s.tickets) (hnew : ∀ m ∈ t.members, m.line ≠ f.line)
    (hroom : t.members.length < 64) :
    memberUpdate t.number f s =
      countTickets (fun c => { c with membersAdded := raised c.membersAdded })
        (withTicket t.number (fun _ => occurred f { t with members := t.members ++ [memberFrom f .none] }) s) := by
  simp only [memberUpdate, ticketByNumber_of_mem hok ht, placeOf_eq_none hnew]
  exact (if_pos hroom).trans
    (congrArg _ (updTicket_occur hok ht fun u => { u with members := u.members ++ [memberFrom f .none] }))

theorem memberUpdate_overflows (hok : s.numbersOk = true) (ht : t ∈ s.tickets)
    (hnew : ∀ m ∈ t.members, m.line ≠ f.line) (hfull : 64 ≤ t.members.length) :
    memberUpdate t.number f s =
      countTickets (fun c => { c with memberOverflow := raised c.memberOverflow })
        (withTicket t.number (fun _ => occurred f { t with overflow := t.overflow + 1 }) s) := by
  simp only [memberUpdate, ticketByNumber_of_mem hok ht, placeOf_eq_none hnew]
  exact (if_neg (Nat.not_lt.2 hfull)).trans
    (congrArg _ (updTicket_occur hok ht fun u => { u with overflow := u.overflow + 1 }))

end MemberUpdate

/-! ### Where a finding is placed (R117, R123) -/

/-- The state in which a finding is placed: TICKETS has counted it (R117). -/
def counting (s : State) : State := countTickets (fun c => { c with findings := satInc c.findings }) s

theorem handFinding_to_line {f : Finding} {t : Ticket} {s : State} (hkey : ticketByKey (.line f.line) f.code s = some t) :
    handFinding s f =
      countTickets (fun c => { c with occurrences := satInc c.occurrences })
        (updTicket t.number (Ticket.occur f) (counting s)) := by
  have hkey' : ticketByKey (.line f.line) f.code (counting s) = some t := hkey
  rw [handFinding, ← counting, placeFinding, hkey']

theorem handFinding_to_cable {f : Finding} {c : Fin 256} {t : Ticket} {s : State}
    (hline : ticketByKey (.line f.line) f.code s = none) (hcable : cableOf f.line s = some c)
    (hkey : ticketByKey (.cable c.val) f.code s = some t) : handFinding s f = memberUpdate t.number f (counting s) := by
  have hline' : ticketByKey (.line f.line) f.code (counting s) = none := hline
  have hcable' : cableOf f.line (counting s) = some c := hcable
  have hkey' : ticketByKey (.cable c.val) f.code (counting s) = some t := hkey
  rw [handFinding, ← counting, placeFinding, hline', hcable', Option.bind_some, hkey']

/-- Settles O52: the finding goes to the ticket that R123 names; in a CABLE ticket by the place of its line in the list. -/
theorem findingsReachTheirTicket : Obligations.FindingsReachTheirTicket := by
  refine ⟨fun f t s hkey => ?_, fun f c t s hok hline hcable hkey => ?_⟩
  · rw [handFinding_to_line hkey, funext (occur_eq_occurred f)]
    rfl
  · have hok' : (counting s).numbersOk = true := hok
    have ht : t ∈ (counting s).tickets := (ticketByKey_mem hkey).1
    rw [handFinding_to_cable hline hcable hkey]
    refine ⟨fun before after m hmembers hm hbefore => ?_, fun hnew hroom => ?_, fun hnew hfull => ?_⟩
    · exact memberUpdate_listed hok' ht hmembers hm hbefore
    · exact memberUpdate_joins hok' ht hnew hroom
    · exact memberUpdate_overflows hok' ht hnew hfull

end Sys2Proof.Proofs
end

section
/-! The judgement of a LINE ticket's retest (R136 to R139): a judgement reaches the ticket and nothing else is submitted where
the repair list is empty, and each judgement leaves the ticket as its rule says; then O50. -/

namespace Sys2Proof.Proofs

open Sys2Proof.Machine Sys2Proof.Stated

/-! ### The end of a LINE ticket's retest (R136) -/

theorem ticketByNumber_eq_none {n : Nat} {s : State} (h : ∀ t ∈ s.tickets, t.number ≠ n) : ticketByNumber n s = none :=
  List.find?_eq_none.2 fun t ht hn => h t ht (beq_iff_eq.1 hn)

theorem submitRetests_of_nil {s : State} (h : s.repairList = []) : submitRetests s = s := by
  rw [submitRetests, h]
  rfl

theorem isCable_of_line {t : Ticket} {l : Nat} (h : t.subject = .line l) : t.isCable = false := by
  rw [Ticket.isCable, h]

@[simp] theorem pushNotice_repairList (a : Nat) (body : NoticeBody) (s : State) :
    (pushNotice a body s).repairList = s.repairList := by
  unfold pushNotice
  split <;> rfl

@[simp] theorem pushNotice_ticketCounters (a : Nat) (body : NoticeBody) (s : State) :
    (pushNotice a body s).ticketCounters = s.ticketCounters := by
  unfold pushNotice
  split <;> rfl

@[simp] theorem unlink_repairList (t : Ticket) (s : State) : (unlink t s).repairList = s.repairList := by
  unfold unlink
  split
  · unfold dropLink
    split <;> rfl
  · rfl

@[simp] theorem judgeLine_repairList (t : Ticket) (j : Judgement) (s : State) :
    (judgeLine t j s).repairList = s.repairList := by
  cases j with
  | pass => exact (unlink_repairList ..).trans (pushNotice_repairList ..)
  | fail => rfl
  | inconclusive r => exact pushNotice_repairList ..

section LineRetest
variable {n l : Nat} {t : Ticket} {s : State}

/-- With nothing on the repair list, no other ticket takes the place that the judgement frees. -/
theorem retestEnded_line (ht : ticketByNumber n s = some t) (hline : t.subject = .line l)
    (hflight : ∃ r ∈ s.inFlight, r.ticket = n) (hrepair : s.repairList = []) (j : Judgement) :
    retestEnded n j s = judgeLine t j (freePlace n s) := by
  obtain ⟨r, hr⟩ : ∃ r, retestOf n s = some r := by
    obtain ⟨r, hr, hn⟩ := hflight
    exact Option.isSome_iff_exists.1 (List.find?_isSome.2 ⟨r, hr, beq_iff_eq.2 hn⟩)
  have hnil : (judgeLine t j (freePlace n s)).repairList = [] := (judgeLine_repairList ..).trans hrepair
  simp only [retestEnded, hr, ht, isCable_of_line hline, Bool.false_eq_true, if_false, submitRetests_of_nil hnil]

/-- A record settles the ticket by the judgement that the assessment of its code gives. -/
theorem retestRecord_line (ht : ticketByNumber n s = some t) (hline : t.subject = .line l)
    (hflight : ∃ r ∈ s.inFlight, r.ticket = n) (hrepair : s.repairList = []) (outcome : Reason) (e : Option Evaluation) :
    retestRecord n outcome e s = judgeLine t (judgementOf t.code outcome e) (freePlace n s) := by
  rw [retestRecord, ht]
  exact retestEnded_line ht hline hflight hrepair _

theorem retestRecord_of_absent (h : ∀ t ∈ s.tickets, t.number ≠ n) (outcome : Reason) (e : Option Evaluation) :
    retestRecord n outcome e s = s := by
  rw [retestRecord, ticketByNumber_eq_none h]

end LineRetest

/-! ### The judgements of a LINE ticket (R137 to R139) -/

theorem countTickets_eq (g : TicketCounters → TicketCounters) (s : State) :
    countTickets g s = { s with ticketCounters := g s.ticketCounters } :=
  rfl

theorem bne_eq_decide_ne (m n : Nat) : (m != n) = decide (m ≠ n) :=
  Bool.eq_iff_iff.2 (bne_iff_ne.trans decide_eq_true_iff.symm)

theorem freePlace_eq (n : Nat) (s : State) :
    freePlace n s = { s with inFlight := s.inFlight.filter fun r => r.ticket ≠ n } := by
  simp only [freePlace, bne_eq_decide_ne]
  rfl

theorem removeTicket_eq (n : Nat) (s : State) :
    removeTicket n s = { s with tickets := s.tickets.filter fun t => t.number ≠ n } := by
  simp only [removeTicket, bne_eq_decide_ne]
  rfl

section Judged
variable (t : Ticket) (s : State)

theorem closeTicket_freePlace : closeTicket t (freePlace t.number s) = unlink t (closed t s) := by
  simp only [closeTicket, countTickets_eq, pushNotice_ticketCounters, removeTicket_eq, freePlace_eq]
  rfl

theorem failTicket_freePlace : failTicket t (freePlace t.number s) = failed t.number s := by
  rw [freePlace_eq]
  rfl

theorem inconclusiveTicket_freePlace (reason : Reason) :
    inconclusiveTicket t reason (freePlace t.number s) = inconclusive t reason s := by
  rw [freePlace_eq]
  rfl

variable {t} {l : Nat} (hline : t.subject = .line l)
include hline

theorem unlink_of_alone (hlink : t.linked = none) : unlink t s = s := by
  simp only [unlink, hline, dropLink, hlink]

theorem unlink_of_linked {c : Nat} (hlink : t.linked = some c) :
    unlink t s =
      { s with tickets := s.tickets.map fun u =>
          if u.subject = .cable c ∧ u.code = t.code then { u with linkedCount := u.linkedCount - 1 } else u } := by
  simp only [unlink, hline, dropLink, hlink]
  rfl

end Judged

section Judgement
variable {x : FaultCode} {outcome : Reason} {e : Evaluation}

theorem judgementOf_clear (h : e.of x = .clear) : judgementOf x outcome (some e) = .pass := by
  rw [judgementOf, h]

theorem judgementOf_found (h : e.of x = .found) : judgementOf x outcome (some e) = .fail := by
  rw [judgementOf, h]

theorem judgementOf_notAssessed (h : e.of x = .notAssessed) :
    judgementOf x outcome (some e) = .inconclusive .notAssessed := by
  rw [judgementOf, h]

end Judgement

/-- Settles O50: the judgement that each end of the retest gives, and what that judgement does to the ticket. -/
theorem lineRetestsAreJudged : Obligations.LineRetestsAreJudged := by
  refine ⟨fun n l t outcome e s ht hline hflight hrepair => ?_,
    fun n l c t outcome e s ht hline hflight hrepair hclear hlink => ?_,
    fun n l line t b reason s ht hline hflight hrepair => ?_,
    fun n outcome e s habsent => retestRecord_of_absent habsent outcome e⟩
  · obtain ⟨-, rfl⟩ := ticketByNumber_mem ht
    rw [retestRecord_line ht hline hflight hrepair]
    refine ⟨fun hclear hlink => ?_, fun hfound => ?_, fun hnot => ?_⟩
    · rw [judgementOf_clear hclear, judgeLine, closeTicket_freePlace, unlink_of_alone _ hline hlink]
    · rw [judgementOf_found hfound, judgeLine, failTicket_freePlace]
    · rw [judgementOf_notAssessed hnot, judgeLine, inconclusiveTicket_freePlace]
  · obtain ⟨-, rfl⟩ := ticketByNumber_mem ht
    rw [retestRecord_line ht hline hflight hrepair, judgementOf_clear hclear, judgeLine, closeTicket_freePlace,
      unlink_of_linked _ hline hlink]
  · obtain ⟨-, rfl⟩ := ticketByNumber_mem ht
    have hended (r : Reason) : retestEnded t.number (.inconclusive r) s = inconclusive t r s := by
      rw [retestEnded_line ht hline hflight hrepair, judgeLine, inconclusiveTicket_freePlace]
    refine ⟨?_, hended reason, hended .abortedPreempt⟩
    rw [retestRecord, ht]
    exact hended reason

end Sys2Proof.Proofs
end

section
/-! What every step keeps (O1 to O8): the forms of Safety, each kept by every kind of change (Laws.Moves) and so by every step
(Laws.Forms), and the power-on reset. -/

namespace Sys2Proof.Proofs

open Sys2Proof.Machine Sys2Proof.Stated

/-! ### Steps and the power-on reset -/

/-- Settles O1: both clauses are the two cases of `step`. -/
theorem stepTakesFront : Obligations.StepTakesFront :=
  ⟨fun _ _ => rfl, fun s h => by rw [step, h]⟩

/-- Settles O3: the power-on state, read field by field. -/
theorem powerOnContents : Obligations.PowerOnContents := by
  intro s
  refine ⟨powerOn s, rfl, rfl, ⟨0, rfl⟩, rfl, ?_⟩
  simp only [powerOn, State.reset, Fin.getElem_fin, Vector.getElem_replicate, classOf]
  refine ⟨?_, ?_, ?_, ?_⟩ <;> simp [HeadWord.rest]

/-- Settles O4: the forms evaluated on the power-on state. -/
theorem boundsHoldAtReset : Obligations.BoundsHoldAtReset := by
  unfold Obligations.BoundsHoldAtReset
  decide

/-! ### What a notice leaves alone -/

/-- A notice touches the notice queue and the HIGHWAY counters alone. -/
theorem pushNotice_shape (addressed : Nat) (body : NoticeBody) (s : State) :
    ∃ l w, pushNotice addressed body s = { s with notices := l, highway := w } := by
  unfold pushNotice
  split
  · exact ⟨_, _, rfl⟩
  · exact ⟨s.notices, _, rfl⟩

/-! ### The queue of waiting commands -/

theorem change_pending_eq {s t : State} (h : Change s t) : t.pending = s.pending := by
  cases h with
  | same h => exact h.pending
  | notice a body => obtain ⟨l, w, e⟩ := pushNotice_shape a body s; rw [e]
  | emptied h => exact h
  | _ => rfl

/-- Settles O2: no change and no reply touches the queue of waiting commands, and a command is a course of these. -/
theorem execLeavesQueue : Obligations.ExecLeavesQueue := fun _ s _ h =>
  (exec_course s h).keeps (P := fun u => u.pending = s.pending) (fun _ _ c k => (change_pending_eq c).trans k)
    (fun _ _ _ k => k) rfl

/-! ### Tables of rising keys (R22, R107) -/

section Rising
variable {α : Type}

theorem risingFrom_some_iff (k : Nat) (l : List (Nat × α)) :
    risingFrom (some k) l = true ↔ (k :: l.map Prod.fst).Pairwise (· < ·) := by
  induction l generalizing k with
  | nil => simp [risingFrom]
  | cons p l ih =>
    rw [List.map_cons, List.pairwise_cons (a := k)]
    simp only [risingFrom, Bool.and_eq_true, decide_eq_true_eq, ih]
    refine ⟨fun ⟨lt, up⟩ => ⟨List.forall_mem_cons.2 ⟨lt, fun x hx => ?_⟩, up⟩, fun ⟨above, up⟩ => ⟨above _ (.head _), up⟩⟩
    exact Nat.lt_trans lt ((List.pairwise_cons.1 up).1 x hx)

/-- A table's keys rise where each is below all that follow. -/
theorem risingFrom_none_iff (l : List (Nat × α)) :
    risingFrom none l = true ↔ l.Pairwise fun p q => p.1 < q.1 := by
  rw [← List.pairwise_map (f := Prod.fst) (R := (· < ·))]
  cases l with
  | nil => simp [risingFrom]
  | cons p l => exact risingFrom_some_iff p.1 l

end Rising

theorem mem_insertClaim {line : Nat} {b : BusNo} {l : List (Nat × BusNo)} {p : Nat × BusNo}
    (h : p ∈ insertClaim line b l) : p = (line, b) ∨ p ∈ l := by
  induction l with
  | nil => simpa [insertClaim] using h
  | cons q l ih =>
    unfold insertClaim at h
    split at h
    · simpa using h
    · split at h
      · rcases List.mem_cons.mp h with h | h <;> simp [h]
      · rcases List.mem_cons.mp h with h | h
        · simp [h]
        · rcases ih h with h | h <;> simp [h]

theorem insertClaim_rising (line : Nat) (b : BusNo) {l : List (Nat × BusNo)} (h : l.Pairwise fun p q => p.1 < q.1) :
    (insertClaim line b l).Pairwise fun p q => p.1 < q.1 := by
  induction l with
  | nil => simp [insertClaim]
  | cons q l ih =>
    obtain ⟨hq, hl⟩ := List.pairwise_cons.mp h
    unfold insertClaim
    split
    case isTrue lt => exact .cons (fun p hp => (List.mem_cons.mp hp).elim (· ▸ lt) fun hp => Nat.lt_trans lt (hq p hp)) h
    case isFalse ge =>
      split
      case isTrue eq => exact .cons (fun p hp => eq ▸ hq p hp) hl
      case isFalse ne =>
        refine .cons (fun p hp => (mem_insertClaim hp).elim (fun e => ?_) (hq p)) (ih hl)
        subst e
        show q.1 < line
        omega

theorem mem_putClass {line cls : Nat} {l : List (Nat × Nat)} {p : Nat × Nat} (h : p ∈ putClass line cls l) :
    (cls ≠ 0 ∧ p = (line, cls)) ∨ p ∈ l := by
  induction l with
  | nil =>
    unfold putClass at h
    split at h
    · cases h
    case isFalse ne => exact .inl ⟨ne, by simpa using h⟩
  | cons q l ih =>
    unfold putClass at h
    split at h
    · split at h
      · exact .inr h
      case isFalse ne => exact (List.mem_cons.mp h).imp_left fun e => ⟨ne, e⟩
    · split at h
      · split at h
        · exact .inr (List.mem_cons_of_mem _ h)
        case isFalse ne => exact (List.mem_cons.mp h).imp (fun e => ⟨ne, e⟩) (List.mem_cons_of_mem _)
      · rcases List.mem_cons.mp h with h | h
        · exact .inr (h ▸ List.mem_cons_self)
        · exact (ih h).imp_right (List.mem_cons_of_mem _)

theorem putClass_rising (line cls : Nat) {l : List (Nat × Nat)} (h : l.Pairwise fun p q => p.1 < q.1) :
    (putClass line cls l).Pairwise fun p q => p.1 < q.1 := by
  induction l with
  | nil => unfold putClass; split <;> simp
  | cons q l ih =>
    obtain ⟨hq, hl⟩ := List.pairwise_cons.mp h
    unfold putClass
    split
    case isTrue lt =>
      split
      · exact h
      · exact .cons (fun p hp => (List.mem_cons.mp hp).elim (· ▸ lt) fun hp => Nat.lt_trans lt (hq p hp)) h
    case isFalse ge =>
      split
      case isTrue eq =>
        split
        · exact hl
        · exact .cons (fun p hp => eq ▸ hq p hp) hl
      case isFalse ne =>
        refine .cons (fun p hp => (mem_putClass hp).elim (fun e => ?_) (hq p)) (ih hl)
        obtain ⟨-, rfl⟩ := e
        show q.1 < line
        omega

theorem claimsOk_iff (s : State) : s.claimsOk = true ↔ s.claims.Pairwise fun p q => p.1 < q.1 :=
  risingFrom_none_iff s.claims

theorem classesOk_iff (s : State) :
    s.classesOk = true ↔
      (s.classMap.Pairwise fun p q => p.1 < q.1) ∧ ∀ p ∈ s.classMap, p.1 ≤ Config.lastLine ∧ 1 ≤ p.2 ∧ p.2 ≤ 15 := by
  simp only [State.classesOk, Bool.and_eq_true, risingFrom_none_iff, List.all_eq_true, decide_eq_true_eq]

theorem change_keeps_claims {s t : State} (h : Change s t) (k : s.claimsOk = true) : t.claimsOk = true := by
  cases h with
  | same h => unfold State.claimsOk; rw [h.claims]; exact k
  | claim line b => rw [claimsOk_iff] at k ⊢; exact insertClaim_rising line b k
  | unclaim b => rw [claimsOk_iff] at k ⊢; exact k.filter _
  | notice a body => obtain ⟨l, w, e⟩ := pushNotice_shape a body s; rw [e]; exact k
  | emptied _ h =>
    unfold State.claimsOk
    rcases h with h | h <;> rw [h]
    · exact k
    · rfl
  | _ => exact k

theorem change_keeps_classes {s t : State} (h : Change s t) (k : s.classesOk = true) : t.classesOk = true := by
  cases h with
  | same h => unfold State.classesOk; rw [h.classMap]; exact k
  | classes line cls hl hc =>
    rw [classesOk_iff] at k ⊢
    refine ⟨putClass_rising line cls k.1, fun p hp => (mem_putClass hp).elim (fun e => ?_) (k.2 p)⟩
    obtain ⟨ne, rfl⟩ := e
    exact ⟨hl, Nat.pos_of_ne_zero ne, hc⟩
  | notice a body => obtain ⟨l, w, e⟩ := pushNotice_shape a body s; rw [e]; exact k
  | emptied _ _ h =>
    unfold State.classesOk
    rcases h with h | h <;> rw [h]
    · exact k
    · rfl
  | _ => exact k

/-- Settles O5: every change keeps the claims rising and the class map canonical. -/
theorem lineTablesStayCanonical : Obligations.LineTablesStayCanonical :=
  ⟨fun _ _ => step_keeps (fun _ _ k => k) (fun _ _ => change_keeps_claims) (fun _ _ _ k => k),
    fun _ _ => step_keeps (fun _ _ k => k) (fun _ _ => change_keeps_classes) (fun _ _ _ k => k)⟩

/-! ### The queues (R43, R44, R172, R173) -/

theorem repliesOk_iff (s : State) : s.repliesOk = true ↔ s.replies.length ≤ 16 := decide_eq_true_iff

theorem noticesOk_iff (s : State) : s.noticesOk = true ↔ s.notices.length ≤ 32 := decide_eq_true_iff

theorem change_keeps_replies {s t : State} (h : Change s t) (k : s.repliesOk = true) : t.repliesOk = true :=
  (repliesOk_iff t).2 (Nat.le_trans (Moves.one h).replies ((repliesOk_iff s).1 k))

/-- A notice joins only a queue with room (R173). -/
theorem pushNotice_noticesOk (addressed : Nat) (body : NoticeBody) {s : State} (k : s.noticesOk = true) :
    (pushNotice addressed body s).noticesOk = true := by
  unfold pushNotice
  split
  case isTrue room =>
    rw [noticesOk_iff, State.setHighway_notices, State.setNotices_notices, List.length_append]
    exact room
  case isFalse => exact k

theorem change_keeps_notices {s t : State} (h : Change s t) (k : s.noticesOk = true) : t.noticesOk = true := by
  cases h with
  | same h => rw [noticesOk_iff, h.notices]; exact (noticesOk_iff s).1 k
  | notice a body => exact pushNotice_noticesOk a body k
  | fewerNotices l h => exact (noticesOk_iff _).2 (Nat.le_trans h ((noticesOk_iff s).1 k))
  | emptied _ _ _ _ _ _ _ h => rw [noticesOk_iff, h]; simp
  | _ => exact k

theorem change_keeps_waits {s t : State} (h : Change s t) (k : s.waitsOk = true) : t.waitsOk = true := by
  cases h with
  | same h =>
    rw [waitsOk_iff] at k ⊢
    intro o
    rw [waitingCount, h.queue]
    exact k o
  | notice a body => obtain ⟨l, w, e⟩ := pushNotice_shape a body s; rw [e]; exact k
  | queue l h =>
    rw [waitsOk_iff] at k ⊢
    exact fun o => Nat.le_trans (h (.origin o)) (k o)
  | join e h =>
    rw [waitsOk_iff] at k ⊢
    intro o
    rw [waitingCount, State.setQueue_queue, List.filter_append, List.length_append]
    by_cases own : e.requester = .origin o
    · simpa [own] using Nat.succ_le_of_lt (h o own)
    · simpa [own, waitingCount] using k o
  | emptied _ _ _ _ _ _ _ _ h =>
    rw [waitsOk_iff]
    intro o
    rw [waitingCount, h]
    exact Nat.zero_le _
  | _ => exact k

/-! #### The bound of 22 entries -/

/-- The holders that may wait for a bus, the tickets of the retests left aside: seven origins and eight descriptors. -/
def boundedHolders : List Holder := (List.finRange 7).map .origin ++ (List.finRange 8).map .sweep

/-- An entry waits for a retest or for one of the bounded holders. -/
theorem retest_or_bounded (r : Holder) : purposeOf r = .retest ∨ r ∈ boundedHolders := by
  cases r with
  | origin o => exact .inr (List.mem_append_left _ (List.mem_map_of_mem (List.mem_finRange o)))
  | sweep d => exact .inr (List.mem_append_right _ (List.mem_map_of_mem (List.mem_finRange d)))
  | retest n => exact .inl rfl

/-- A list is no longer than its share under one test and its shares under others, where each element meets a test. -/
theorem length_le_shares {α β : Type} (p : α → Bool) (q : β → α → Bool) (bs : List β) (l : List α)
    (cover : ∀ a ∈ l, p a = true ∨ ∃ b ∈ bs, q b a = true) :
    l.length ≤ (l.filter p).length + (bs.map fun b => (l.filter (q b)).length).sum := by
  induction l with
  | nil => simp
  | cons a l ih =>
    have rest := ih fun x hx => cover x (List.mem_cons_of_mem _ hx)
    have grows (bs : List β) : (bs.map fun b => (l.filter (q b)).length).sum + (if ∃ b ∈ bs, q b a = true then 1 else 0)
        ≤ (bs.map fun b => ((a :: l).filter (q b)).length).sum := by
      induction bs with
      | nil => simp
      | cons b bs ihb =>
        simp only [List.map_cons, List.sum_cons, List.mem_cons, exists_eq_or_imp]
        by_cases hb : q b a = true
        · rw [List.filter_cons_of_pos hb, if_pos (.inl hb), List.length_cons]
          split at ihb <;> omega
        · simp only [List.filter_cons_of_neg hb, hb, Bool.false_eq_true, false_or]
          omega
    have more := grows bs
    by_cases ha : p a = true
    · rw [List.filter_cons_of_pos ha, List.length_cons, List.length_cons]
      omega
    · rw [if_pos ((cover a List.mem_cons_self).resolve_left ha)] at more
      rw [List.filter_cons_of_neg ha, List.length_cons]
      omega

theorem holder_beq_eq_decide (x y : Holder) : (x == y) = decide (x = y) := Bool.eq_iff_iff.2 (by simp)

theorem sum_le_sum {α : Type} {f g : α → Nat} (h : ∀ x, f x ≤ g x) (l : List α) : (l.map f).sum ≤ (l.map g).sum := by
  induction l with
  | nil => exact Nat.le_refl _
  | cons x l ih => simpa only [List.map_cons, List.sum_cons] using Nat.add_le_add (h x) ih

/-- The limits of R43 and R44, summed: six desks, the exchange processor's four, eight descriptors and four retests. -/
theorem queue_length_le {s : State} (k : s.waitsOk = true)
    (sweeps : ∀ d : SweepNo, (s.queue.filter fun e => e.requester = .sweep d).length ≤ 1)
    (retests : (s.queue.filter fun e => purposeOf e.requester = .retest).length ≤ 4) : s.queue.length ≤ 22 := by
  have shares := length_le_shares (fun e : WaitEntry => decide (purposeOf e.requester = .retest))
    (fun (r : Holder) e => e.requester == r) boundedHolders s.queue fun e _ => by
      simpa using retest_or_bounded e.requester
  have origins (o : Origin) : (s.queue.filter fun e => e.requester == .origin o).length ≤ waitingLimit o :=
    (waitsOk_iff s).1 k o
  have sweeps' (d : SweepNo) : (s.queue.filter fun e => e.requester == .sweep d).length ≤ 1 := by
    simpa only [holder_beq_eq_decide] using sweeps d
  have total : (boundedHolders.map fun r => (s.queue.filter fun e => e.requester == r).length).sum ≤ 18 := by
    rw [boundedHolders, List.map_append, List.sum_append, List.map_map, List.map_map]
    have ho := sum_le_sum origins (List.finRange 7)
    have hd := sum_le_sum sweeps' (List.finRange 8)
    have h7 : ((List.finRange 7).map waitingLimit).sum = 10 := by decide
    have h8 : ((List.finRange 8).map fun _ => 1).sum = 8 := by decide
    exact Nat.add_le_add (Nat.le_trans ho (Nat.le_of_eq h7)) (Nat.le_trans hd (Nat.le_of_eq h8))
  omega

/-- Settles O6: every change keeps the three queues' bounds, a reply joins only a queue with room, and the limits sum to 22. -/
theorem queuesStayBounded : Obligations.QueuesStayBounded := by
  refine ⟨fun _ _ => step_keeps (fun _ _ k => k) (fun _ _ => change_keeps_replies) fun s r room _ => ?_,
    fun _ _ => step_keeps (fun _ _ k => k) (fun _ _ => change_keeps_notices) (fun _ _ _ k => k),
    fun _ _ => step_keeps (fun _ _ k => k) (fun _ _ => change_keeps_waits) (fun _ _ _ k => k),
    fun _ => queue_length_le⟩
  rw [repliesOk_iff]
  rw [pushReply, State.setReplies_replies, List.length_append]
  exact room

/-! ### The ticket table (R120 to R128) -/

/-- A change leaves the ticket table, changes it tamely, or empties it. -/
theorem change_tame_tickets {s t : State} (h : Change s t) : Tame s.tickets t.tickets := by
  cases h with
  | same h => rw [h.tickets]; exact .refl _
  | notice a body => obtain ⟨l, w, e⟩ := pushNotice_shape a body s; rw [e]; exact .refl _
  | tickets l h => exact h
  | emptied _ _ _ h =>
    rw [h]
    have none : s.tickets.filter (fun _ => false) = [] := List.filter_eq_nil_iff.2 fun _ _ => Bool.false_ne_true
    have emptied := Tame.filter (fun _ => false) s.tickets
    rwa [none] at emptied
  | _ => exact .refl _

/-- The three forms of the ticket table together: the members' rests on the other two. -/
structure TableForms (s : State) : Prop where
  bounds : TicketsOk s.tickets
  keys : KeysOk s.tickets
  members : MembersOk s.tickets

theorem change_keeps_forms {s t : State} (h : Change s t) (k : TableForms s) : TableForms t :=
  ⟨(change_tame_tickets h).bounds k.bounds, (change_tame_tickets h).keys k.keys, (change_tame_tickets h).members k.bounds k.keys k.members⟩

/-- Settles O7: every change of the ticket table is tame. -/
theorem ticketTableStaysBounded : Obligations.TicketTableStaysBounded := by
  simp only [Obligations.TicketTableStaysBounded, ticketsOk_iff, keysOk_iff, membersOk_iff]
  refine ⟨fun _ _ => step_keeps (P := fun s => TicketsOk s.tickets) (fun _ _ k => k)
      (fun _ _ h => (change_tame_tickets h).bounds) (fun _ _ _ k => k),
    fun _ _ => step_keeps (P := fun s => KeysOk s.tickets) (fun _ _ k => k) (fun _ _ h => (change_tame_tickets h).keys)
      (fun _ _ _ k => k), fun s t bounds keys members e => ?_⟩
  have forms : TableForms t := step_keeps (fun _ _ k => ⟨k.bounds, k.keys, k.members⟩) (fun _ _ => change_keeps_forms)
    (fun _ _ _ k => ⟨k.bounds, k.keys, k.members⟩) ⟨bounds, keys, members⟩ e
  exact forms.members

/-! ### Retests, descriptors and heads (R72, R135, R155) -/

theorem retestsOk_iff (s : State) : s.retestsOk = true ↔ s.inFlight.length ≤ Config.retestPlaces := decide_eq_true_iff

theorem change_keeps_retests {s t : State} (h : Change s t) (k : s.retestsOk = true) : t.retestsOk = true := by
  cases h with
  | same h => rw [retestsOk_iff, h.inFlight]; exact (retestsOk_iff s).1 k
  | notice a body => obtain ⟨l, w, e⟩ := pushNotice_shape a body s; rw [e]; exact k
  | retests l h => exact (retestsOk_iff _).2 (h ((retestsOk_iff s).1 k))
  | emptied _ _ _ _ h => rw [retestsOk_iff, h]; exact Nat.zero_le _
  | _ => exact k

/-- A deferred list is short and holds no line twice (R155). -/
def DeferredOk (l : List Nat) : Prop := l.length ≤ Config.deferredCapacity ∧ l.Nodup

theorem deferredOk_iff (s : State) : s.deferredOk = true ↔ ∀ d : SweepNo, DeferredOk s.sweeps[d].deferred := by
  simp only [State.deferredOk, List.all_eq_true, Bool.and_eq_true, decide_eq_true_eq]
  exact ⟨fun h d => h d (mem_allSweeps d), fun h d _ => h d⟩

/-- What holds of every descriptor goes on to hold where one is replaced by another of which it holds. -/
theorem forall_setSweep {P : Descriptor → Prop} {s : State} (k : ∀ d : SweepNo, P s.sweeps[d]) (d : SweepNo)
    {x : Descriptor} (h : P x) (c : SweepNo) : P (s.setSweep d x).sweeps[c] := by
  by_cases e : d = c
  · subst e; rw [State.setSweep_self]; exact h
  · rw [State.setSweep_other _ _ _ _ e]; exact k c

theorem change_keeps_deferred {s t : State} (h : Change s t) (k : s.deferredOk = true) : t.deferredOk = true := by
  cases h with
  | same h => unfold State.deferredOk; rw [h.sweeps]; exact k
  | notice a body => obtain ⟨l, w, e⟩ := pushNotice_shape a body s; rw [e]; exact k
  | sweep d x h =>
    rw [deferredOk_iff] at k ⊢
    exact forall_setSweep (P := fun x => DeferredOk x.deferred) k d ⟨Nat.le_trans h.length_le (k d).1, (k d).2.sublist h⟩
  | defer d x line room new h =>
    rw [deferredOk_iff] at k ⊢
    refine forall_setSweep (P := fun x => DeferredOk x.deferred) k d ⟨?_, ?_⟩ <;> rw [h]
    · simpa using Nat.succ_le_of_lt room
    · exact List.pairwise_append.2 ⟨(k d).2, List.pairwise_singleton .., fun a ha b hb e => new (List.mem_singleton.1 hb ▸ e ▸ ha)⟩
  | emptied _ _ _ _ _ h =>
    rw [deferredOk_iff]
    intro d
    rw [(h d).1]
    exact ⟨Nat.zero_le _, .nil⟩
  | _ => exact k

theorem change_keeps_counts {s t : State} (h : Change s t) (k : s.countsOk = true) : t.countsOk = true := by
  cases h with
  | same h => unfold State.countsOk; rw [h.sweeps]; exact k
  | notice a body => obtain ⟨l, w, e⟩ := pushNotice_shape a body s; rw [e]; exact k
  | sweep d x _ h =>
    rw [countsOk_iff] at k ⊢
    exact forall_setSweep (P := fun x => x.counts.ok = true) k d (h (k d))
  | defer d x line _ _ _ h =>
    rw [countsOk_iff] at k ⊢
    exact forall_setSweep (P := fun x => x.counts.ok = true) k d (h (k d))
  | emptied _ _ _ _ _ h =>
    rw [countsOk_iff]
    intro d
    rw [(h d).2]
    decide
  | _ => exact k

theorem change_keeps_heads {s t : State} (h : Change s t) (k : s.headsOk = true) : t.headsOk = true := by
  cases h with
  | same h => unfold State.headsOk; rw [h.heads]; exact k
  | notice a body => obtain ⟨l, w, e⟩ := pushNotice_shape a body s; rw [e]; exact k
  | head h x ok =>
    rw [headsOk_iff] at k ⊢
    intro c
    by_cases e : h = c
    · subst e; rw [State.setHead_self]; exact ok (k h)
    · rw [State.setHead_other _ _ _ _ e]; exact k c
  | emptied _ _ _ _ _ _ _ _ _ h =>
    rw [headsOk_iff] at k ⊢
    exact fun c => h c (k c)
  | _ => exact k

/-- Settles O8: every change keeps the retests, the deferred lists, the counts and the heads in their forms. -/
theorem retestsAndDeferralsStayBounded : Obligations.RetestsAndDeferralsStayBounded :=
  ⟨fun _ _ => step_keeps (fun _ _ k => k) (fun _ _ => change_keeps_retests) (fun _ _ _ k => k),
    fun _ _ => step_keeps (fun _ _ k => k) (fun _ _ => change_keeps_deferred) (fun _ _ _ k => k),
    fun _ _ => step_keeps (fun _ _ k => k) (fun _ _ => change_keeps_counts) (fun _ _ _ k => k),
    fun _ _ => step_keeps (fun _ _ k => k) (fun _ _ => change_keeps_heads) (fun _ _ _ k => k)⟩

end Sys2Proof.Proofs
end

section
/-! The taking of commands (O9 to O14): every command of a header is `taken` by a rule, every known kind by `takeFixed`, and a
message gives its fields to the rule of its kind. -/

namespace Sys2Proof.Proofs

open Sys2Proof.Machine Sys2Proof.Stated

/-! ### The rule a command is given to (R171) -/

/-- A counted command with its reply is what the statements call answered. -/
theorem pushReply_counted1 (kind : Octet) (hd : Header) (status : Status) (data : ReplyData) (s : State) :
    pushReply (replyTo kind hd { status := status, data := data }) (counted1 s) = answered kind hd status data s := rfl

theorem messageCommand_taken (hd : Header) (kind : Octet) (body : List Octet) (s : State) :
    ∃ k rule, messageCommand hd kind body s = taken k hd rule s := by
  unfold messageCommand
  split
  case h_22 =>
    unfold loadOrShort loadMessage
    split
    · exact ⟨_, _, rfl⟩
    · dsimp only
      split <;> exact ⟨_, _, rfl⟩
  all_goals exact ⟨_, _, rfl⟩

/-- Every command is taken by a rule (R171). -/
theorem exec_taken {c : Instr} {hd : Header} (h : c.header = some hd) (s : State) :
    ∃ k rule, exec c s = .next (taken k hd rule s) := by
  cases c <;> cases h
  case unknownKindCommand kind body =>
    obtain ⟨k, rule, e⟩ := messageCommand_taken hd kind body s
    exact ⟨k, rule, congrArg _ e⟩
  all_goals exact ⟨_, _, rfl⟩

/-- A command of a known kind is given to a rule with the length of that kind (R171, R180). -/
theorem exec_takeFixed {c : Instr} {hd : Header} {kind : Octet} {n : Nat} (h : c.header = some hd)
    (hk : kindAndLength c = some (kind, n)) : ∃ own, ∀ s, exec c s = .next (takeFixed kind hd n own s) := by
  cases c <;> cases h <;> cases hk <;> exact ⟨_, fun _ => rfl⟩

/-- A command for the exchange processor is given to a rule of the exchange processor alone. -/
theorem exec_processorOnly {c : Instr} {hd : Header} {kind : Octet} {n : Nat} (h : c.header = some hd)
    (hk : kindAndLength c = some (kind, n)) (hp : forProcessor c = true) :
    ∃ r, ∀ s, exec c s = .next (takeFixed kind hd n (processorOnly r) s) := by
  cases c <;> cases hp <;> cases h <;> cases hk <;> exact ⟨_, fun _ => rfl⟩

/-- Settles O9: whatever the rule, a full reply queue drops the command. -/
theorem fullReplyQueueDropsCommand : Obligations.FullReplyQueueDropsCommand := by
  intro c hd s h full
  obtain ⟨k, rule, e⟩ := exec_taken h s
  rw [e, taken_full full]
  rfl

theorem messageCommand_unknown {kind : Octet} (h : kind = 0 ∨ 26 < kind.toNat) (hd : Header) (body : List Octet)
    (s : State) : messageCommand hd kind body s = taken kind hd (refuse .unknownKind) s := by
  have outside : kind.toNat = 0 ∨ 26 < kind.toNat := h.imp_left fun e => by rw [e]; rfl
  unfold messageCommand
  split
  case h_27 => rfl
  all_goals omega

/-- Settles O10: the checks of `takeFixed`, and the last case of `messageCommand`. -/
theorem commonChecksRefuse : Obligations.CommonChecksRefuse := by
  refine ⟨fun c hd kind n s h hk room => ?_, fun hd kind body s unknown room => ?_⟩
  · obtain ⟨own, e⟩ := exec_takeFixed h hk
    refine ⟨fun bad => ?_, fun good high => ?_⟩
    · rw [e, takeFixed_badLength bad room]; rfl
    · rw [e, takeFixed_badOrigin good high room]; rfl
  · show Host.Outcome.next (messageCommand hd kind body s) = _
    rw [messageCommand_unknown unknown, taken_room room]; rfl

/-- Settles O11: a rule of the exchange processor refuses a desk before it looks at anything. -/
theorem deskRefusedProcessorCommands : Obligations.DeskRefusedProcessorCommands := by
  intro c hd kind n o s h hk hp desk ⟨len, org, room⟩
  obtain ⟨r, e⟩ := exec_processorOnly h hk hp
  rw [e, takeFixed_own len org room (processorOnly_desk desk)]
  rfl

/-! ### The octets of a message (R180) -/

/-- A message but for its check. -/
def frontOf (hd : Header) (i : Instr) : List Octet := [hd.length, kindOctet i, hd.tag, hd.origin] ++ bodyOf i

theorem messageOf_eq (hd : Header) (i : Instr) : messageOf hd i = frontOf hd i ++ octets2 (octetSum (frontOf hd i)) := rfl

theorem octets2_append (w : Word) : w.extractLsb' 8 8 ++ w.extractLsb' 0 8 = w := by
  rw [BitVec.extractLsb'_append_extractLsb'_eq_extractLsb' (by rfl), BitVec.extractLsb'_eq_self]

/-- The word at the end of an octet list that ends in its octets. -/
theorem word2_octets2 (front : List Octet) (w : Word) : word2 (front ++ octets2 w) front.length = w := by
  simp only [word2, octetAt, octets2, List.getD_eq_getElem?_getD]
  rw [List.getElem?_append_right (Nat.le_refl _), List.getElem?_append_right (Nat.le_succ _)]
  simpa using octets2_append w

/-- A message whose check is its sum is given to the command of its kind; one of another check is discarded (R170). -/
theorem messageChecks_append (front : List Octet) (w : Word) :
    messageChecks (front ++ octets2 w) = (octetSum front == w) := by
  have len : (front ++ octets2 w).length - 2 = front.length := by simp [octets2]
  simp only [messageChecks, len, List.take_left, word2_octets2]

theorem completeMessage_spelled (length kind tag origin : Octet) (body : List Octet) (s : State) :
    let front := [length, kind, tag, origin] ++ body
    completeMessage (front ++ octets2 (octetSum front)) s =
      messageCommand { length := length, tag := tag, origin := origin } kind body s := by
  intro front
  have hbody : ((front ++ octets2 (octetSum front)).drop 4).take ((front ++ octets2 (octetSum front)).length - 6) = body := by
    have len : (front ++ octets2 (octetSum front)).length - 6 = body.length := by simp [front, octets2]
    rw [len]
    simp [front]
  rw [completeMessage, messageChecks_append, beq_self_eq_true, if_pos rfl, hbody]
  rfl

theorem word4_octets (w : BitVec 32) :
    word4 [w.extractLsb' 24 8, w.extractLsb' 16 8, w.extractLsb' 8 8, w.extractLsb' 0 8] 0 = w := by
  show (w.extractLsb' 24 8 ++ w.extractLsb' 16 8) ++ (w.extractLsb' 8 8 ++ w.extractLsb' 0 8) = w
  rw [BitVec.extractLsb'_append_extractLsb'_eq_extractLsb' (by rfl), BitVec.extractLsb'_append_extractLsb'_eq_extractLsb' (by rfl),
    BitVec.extractLsb'_append_extractLsb'_eq_extractLsb' (by rfl), BitVec.extractLsb'_eq_self]

/-- The body of a LOAD TABLE message: a table octet, a first entry, a count and entries. -/
def loadBody (table : Octet) (first count : Word) (entries : List Octet) : List Octet :=
  [table] ++ octets2 first ++ octets2 count ++ entries

/-- A LOAD TABLE message that holds its table, first entry and count goes to its table's rule with those fields. -/
theorem messageCommand_load {hd : Header} (table : Octet) (first count : Word) (entries : List Octet) (s : State)
    (long : 11 ≤ hd.length.toNat) :
    messageCommand hd 22 (loadBody table first count entries) s =
      match table.toNat with
      | 0 => loadSiteCommand hd first count entries s
      | 1 => loadClassesCommand hd first count entries s
      | 2 => loadLimitsCommand hd first count entries s
      | 3 => loadProgramsCommand hd first count entries s
      | 4 => loadCablesCommand hd first count entries s
      | 5 => loadTonesCommand hd first count entries s
      | 6 => loadConfigsCommand hd first count entries s
      | _ => loadNoTable hd s := by
  have hfirst : word2 (loadBody table first count entries) 1 = first := octets2_append first
  have hcount : word2 (loadBody table first count entries) 3 = count := octets2_append count
  show loadOrShort hd _ s = _
  rw [loadOrShort, if_neg (Nat.not_lt.2 long), loadMessage, hfirst, hcount]
  rfl

/-- The message of a load is longer than its first 9 octets and its check. -/
theorem load_long {hd : Header} {c : Instr} {table : Octet} {first count : Word} {entries : List Octet}
    (hb : bodyOf c = loadBody table first count entries) (len : hd.length.toNat = (messageOf hd c).length) :
    11 ≤ hd.length.toNat := by
  rw [len, messageOf_eq, frontOf, hb]
  simp [loadBody, octets2]

/-- The fields a message spells are those of its command, so its kind's rule is the command's own (R171, R180). -/
theorem exec_messageCommand {c : Instr} {hd : Header} (h : c.header = some hd)
    (len : hd.length.toNat = (messageOf hd c).length) (s : State) :
    exec c s = .next (messageCommand hd (kindOctet c) (bodyOf c) s) := by
  have load {table : Octet} {first count : Word} {entries : List Octet}
      (hb : bodyOf c = loadBody table first count entries) := messageCommand_load table first count entries s (load_long hb len)
  cases c <;> cases h
  case seize line cls => exact congrArg (fun w => exec (.seize hd w cls) s) (octets2_append line).symm
  case talk line => exact congrArg (fun w => exec (.talk hd w) s) (octets2_append line).symm
  case monitor line => exact congrArg (fun w => exec (.monitor hd w) s) (octets2_append line).symm
  case sendTone line tone => exact congrArg (fun w => exec (.sendTone hd w tone) s) (octets2_append line).symm
  case standby line => exact congrArg (fun w => exec (.standby hd w) s) (octets2_append line).symm
  case measure line program evaluate =>
    exact congrArg (fun w => exec (.measure hd w program evaluate) s) (octets2_append line).symm
  case accept number => exact congrArg (fun w => exec (.accept hd w) s) (octets2_append number).symm
  case repaired number => exact congrArg (fun w => exec (.repaired hd w) s) (octets2_append number).symm
  case withdraw number => exact congrArg (fun w => exec (.withdraw hd w) s) (octets2_append number).symm
  case setClock seconds => exact congrArg (fun w => exec (.setClock hd w) s) (word4_octets seconds).symm
  case readTable table first count =>
    exact (congrArg (fun v => exec (.readTable hd table v count) s) (octets2_append first).symm).trans
      (congrArg (fun w => exec (.readTable hd table _ w) s) (octets2_append count).symm)
  case loadSiteParameters => exact congrArg _ (load rfl).symm
  case loadLineClassMap => exact congrArg _ (load rfl).symm
  case loadLimitTable => exact congrArg _ (load rfl).symm
  case loadProgramTable => exact congrArg _ (load rfl).symm
  case loadCableMap => exact congrArg _ (load rfl).symm
  case loadToneTable => exact congrArg _ (load rfl).symm
  case loadSweepConfigurations => exact congrArg _ (load rfl).symm
  all_goals rfl

/-- Settles O12: the check of a spelled message holds, and its fields are its command's. -/
theorem messageIsItsCommand : Obligations.MessageIsItsCommand := by
  intro c hd s h len
  rw [exec_messageCommand h len, messageOf_eq, frontOf, completeMessage_spelled]

/-! ### The assembler (R169, R170) -/

theorem countCut_assembling {s : State} {before : List Octet} {promised : Nat}
    (h : s.assembler = .assembling before promised) :
    countCut s = { s with highway := { s.highway with msgCut := min (s.highway.msgCut + 1) 4294967295 } } := by
  unfold countCut
  split
  case h_1 w => rw [h] at w; cases w
  case h_2 => rfl

theorem countCut_waiting {s : State} (h : s.assembler = .waiting) : countCut s = s := by rw [countCut, h]

theorem setAssembler_waiting {s : State} (h : s.assembler = .waiting) : s.setAssembler .waiting = s := by
  rw [State.setAssembler, ← h]

/-- A message begins in the same way whether the assembler stood waiting or was cut off. -/
theorem beginMessage_setAssembler (octets : List Octet) (a : Assembler) (s : State) :
    beginMessage octets (s.setAssembler a) = beginMessage octets s := rfl

theorem gather_complete {octets : List Octet} {promised : Nat} (s : State) (h : promised ≤ octets.length) :
    gather octets promised s = completeMessage (octets.take promised) (s.setAssembler .waiting) := if_pos h

theorem gather_goesOn {octets : List Octet} {promised : Nat} (s : State) (h : octets.length < promised) :
    gather octets promised s = s.setAssembler (.assembling octets promised) := if_neg (Nat.not_le.2 h)

/-- A start flag in a good frame begins a message, once one being assembled is counted cut off. -/
theorem assemble_start (octets : List Octet) (s : State) :
    assemble true true octets s = beginMessage octets (countCut s) := rfl

theorem assemble_gathers {s : State} {before : List Octet} {promised : Nat} (octets : List Octet)
    (h : s.assembler = .assembling before promised) :
    assemble true false octets s = gather (before ++ octets) promised s := by
  simp [assemble, h]

theorem beginMessage_badLength {octets : List Octet} (s : State) (h : num1 octets 0 < 6 ∨ 250 < num1 octets 0) :
    beginMessage octets s = countBad (s.setAssembler .waiting) := if_pos h

theorem beginMessage_goodLength {octets : List Octet} (s : State) (h : 6 ≤ num1 octets 0) (h' : num1 octets 0 ≤ 250) :
    beginMessage octets s = gather octets (num1 octets 0) s :=
  if_neg (by omega)

/-- Settles O13: the cases of the assembler, each by the lemma that says what it does. -/
theorem assemblerFollowsFrames : Obligations.AssemblerFollowsFrames := by
  refine ⟨fun octets before promised s h => ?_, fun octets s h len lo hi => ?_, fun start octets before promised s h => ?_,
    fun good start octets s h no => ?_, fun octets s h len lo hi => ?_, fun octets s h bad => ?_,
    fun octets before promised s h more => ?_, fun octets before promised s h full => ?_, fun front check s wrong => ?_⟩
  · rw [assemble_start, assemble_start, countCut_assembling h, countCut_waiting rfl]
    exact (beginMessage_setAssembler octets .waiting _).symm
  · rw [assemble_start, countCut_waiting h, beginMessage_goodLength s lo (by omega), gather_complete s (by omega),
      setAssembler_waiting h]
  · simp only [assemble, Bool.false_eq_true, if_false, countCut_assembling h]
    rfl
  · cases good
    · simp only [assemble, Bool.false_eq_true, if_false, countCut_waiting h, setAssembler_waiting h]
    · have : start = false := by simpa using no
      simp [assemble, this, h]
  · rw [assemble_start, countCut_waiting h, beginMessage_goodLength s (by omega) hi, gather_goesOn s (by omega)]
    rfl
  · rw [assemble_start, countCut_waiting h, beginMessage_badLength s bad, setAssembler_waiting h]
    rfl
  · rw [assemble_gathers octets h, gather_goesOn s (by simpa using more)]
    rfl
  · rw [assemble_gathers octets h, gather_complete s (by simpa using full)]
    rfl
  · have unequal : (octetSum front == check) = false := beq_eq_false_iff_ne.2 fun e => wrong e.symm
    rw [completeMessage, messageChecks_append, unequal, if_neg Bool.false_ne_true]
    rfl

/-! ### Notices (R173) -/

theorem pushNotice_room {s : State} (h : s.notices.length < 32) (addressed : Nat) (body : NoticeBody) :
    pushNotice addressed body s =
      { s with
        notices := s.notices ++ [{ addressed := addressed, clock := s.clock, body := body }]
        highway := { s.highway with noticePeak := max s.highway.noticePeak (s.notices.length + 1) } } := if_pos h

theorem pushNotice_full {s : State} (h : 32 ≤ s.notices.length) (addressed : Nat) (body : NoticeBody) :
    pushNotice addressed body s =
      { s with highway := { s.highway with noticesLost := min (s.highway.noticesLost + 1) 4294967295 } } :=
  if_neg (Nat.not_lt.2 h)

/-- Settles O14: the two branches of `pushNotice`. -/
theorem noticesQueueOrAreLost : Obligations.NoticesQueueOrAreLost :=
  ⟨fun addressed body _ h => pushNotice_room h addressed body, fun addressed body _ h => pushNotice_full h addressed body⟩

end Sys2Proof.Proofs
end

section
/-! The rules of the state's operations that the statements about buses, heads and tickets use: what a notice leaves, when a
grant pass finds nothing to grant, and what a bus becomes, each in the words of the statements. -/

namespace Sys2Proof.Proofs

open Sys2Proof.Machine Sys2Proof.Stated

/-! ### Notices -/

/-- The notice queue after a notice (R173). -/
def noticesAfter (addressed : Nat) (body : NoticeBody) (clock : Nat) (l : List Notice) : List Notice :=
  if l.length < 32 then l ++ [{ addressed := addressed, clock := clock, body := body }] else l

/-- The HIGHWAY counters after a notice (R173). -/
def highwayAfter (l : List Notice) (c : HighwayCounters) : HighwayCounters :=
  if l.length < 32 then { c with noticePeak := max c.noticePeak (l.length + 1) }
  else { c with noticesLost := raised c.noticesLost }

/-- A notice as a change of two fields, so that it is seen to commute with a change of any other. -/
theorem pushNotice_eq (addressed : Nat) (body : NoticeBody) (s : State) :
    pushNotice addressed body s =
      { s with
        notices := noticesAfter addressed body s.clock s.notices
        highway := highwayAfter s.notices s.highway } := by
  unfold noticesAfter highwayAfter
  by_cases h : s.notices.length < 32
  · rw [pushNotice_room h, if_pos h, if_pos h]
  · rw [pushNotice_full (Nat.not_lt.1 h), if_neg h, if_neg h]
    rfl

section
variable (a : Nat) (n : NoticeBody) (s : State)

@[simp] theorem pushNotice_alignment : (pushNotice a n s).alignment = s.alignment := by rw [pushNotice_eq]
@[simp] theorem pushNotice_buses : (pushNotice a n s).buses = s.buses := by rw [pushNotice_eq]
@[simp] theorem pushNotice_busCounters : (pushNotice a n s).busCounters = s.busCounters := by rw [pushNotice_eq]
@[simp] theorem pushNotice_claims : (pushNotice a n s).claims = s.claims := by rw [pushNotice_eq]
@[simp] theorem pushNotice_audio : (pushNotice a n s).audio = s.audio := by rw [pushNotice_eq]
@[simp] theorem pushNotice_queue : (pushNotice a n s).queue = s.queue := by rw [pushNotice_eq]
@[simp] theorem pushNotice_heads : (pushNotice a n s).heads = s.heads := by rw [pushNotice_eq]
@[simp] theorem pushNotice_headCounters : (pushNotice a n s).headCounters = s.headCounters := by rw [pushNotice_eq]
@[simp] theorem pushNotice_headQueue : (pushNotice a n s).headQueue = s.headQueue := by rw [pushNotice_eq]
@[simp] theorem pushNotice_tickets : (pushNotice a n s).tickets = s.tickets := by rw [pushNotice_eq]
@[simp] theorem pushNotice_inFlight : (pushNotice a n s).inFlight = s.inFlight := by rw [pushNotice_eq]
@[simp] theorem pushNotice_sweeps : (pushNotice a n s).sweeps = s.sweeps := by rw [pushNotice_eq]
@[simp] theorem pushNotice_assembler : (pushNotice a n s).assembler = s.assembler := by rw [pushNotice_eq]
@[simp] theorem pushNotice_site : (pushNotice a n s).site = s.site := by rw [pushNotice_eq]
@[simp] theorem pushNotice_replies : (pushNotice a n s).replies = s.replies := by rw [pushNotice_eq]

end

/-! ### One record replaced -/

section
variable (s : State)

@[simp] theorem withBus_self (b : BusNo) (x : Bus) : (withBus b x s).buses[b] = x := by simp [withBus]
@[simp] theorem withBus_withBus (b : BusNo) (x y : Bus) : withBus b y (withBus b x s) = withBus b y s := by simp [withBus]
theorem withBus_other {b c : BusNo} (x : Bus) (h : b ≠ c) : (withBus b x s).buses[c] = s.buses[c] :=
  State.setBus_other s b c x h
@[simp] theorem withBus_same (b : BusNo) : withBus b s.buses[b] s = s := by simp [withBus]
@[simp] theorem withCounts_self (b : BusNo) (x : BusCounters) : (withCounts b x s).busCounters[b] = x := by
  simp [withCounts]
@[simp] theorem withHead_self (h : HeadNo) (x : HeadRec) : (withHead h x s).heads[h] = x := by simp [withHead]
@[simp] theorem withHead_withHead (h : HeadNo) (x y : HeadRec) : withHead h y (withHead h x s) = withHead h y s := by
  simp [withHead]
theorem withHead_other {h k : HeadNo} (x : HeadRec) (ne : h ≠ k) : (withHead h x s).heads[k] = s.heads[k] :=
  State.setHead_other s h k x ne
@[simp] theorem withHead_same (h : HeadNo) : withHead h s.heads[h] s = s := by simp [withHead]
@[simp] theorem withHeadCounts_self (h : HeadNo) (x : HeadCounters) : (withHeadCounts h x s).headCounters[h] = x := by
  simp [withHeadCounts]
@[simp] theorem withHeadCounts_withHeadCounts (h : HeadNo) (x y : HeadCounters) :
    withHeadCounts h y (withHeadCounts h x s) = withHeadCounts h y s := by simp [withHeadCounts]
@[simp] theorem withSweep_self (d : SweepNo) (x : Descriptor) : (withSweep d x s).sweeps[d] = x := by simp [withSweep]
@[simp] theorem withSweep_withSweep (d : SweepNo) (x y : Descriptor) : withSweep d y (withSweep d x s) = withSweep d y s := by
  simp [withSweep]
@[simp] theorem withSweep_same (d : SweepNo) : withSweep d s.sweeps[d] s = s := by simp [withSweep]

end

/-! ### Grant passes that grant nothing (R52) -/

theorem grantPass_of_empty {s : State} (h : s.queue = []) : grantPass s = s := by
  have hw : winner s = none := by rw [winner, h]; rfl
  rw [grantPass, grantSteps, hw]
  split <;> first | rfl | contradiction

theorem grantPass_of_noneFree {s : State} (h : freeBus s = none) : grantPass s = s := by
  rw [grantPass, grantSteps, h]

theorem passAfter_of_empty {s : State} (x : Bus) (h : s.queue = []) : passAfter x s = s := by
  unfold passAfter
  split
  · exact grantPass_of_empty h
  · rfl

/-- A bus of an outside holder is not sweep-held. -/
theorem isSweepHeld_of_origin {x : Bus} {o : Origin} (h : x.holder = some (.origin o)) : x.isSweepHeld = false := by
  simp [Bus.isSweepHeld, h, isSweep]

theorem isSweepHeld_of_retest {x : Bus} {n : Nat} (h : x.holder = some (.retest n)) : x.isSweepHeld = false := by
  simp [Bus.isSweepHeld, h, isSweep]

theorem passAfter_of_notSweep {s : State} {x : Bus} (h : x.isSweepHeld = false) : passAfter x s = s := by
  simp [passAfter, h]

/-- Nothing waits, so a claim that goes leaves the queue as it is. -/
theorem freeLine_of_empty {s : State} (b : BusNo) (line : Option Nat) (h : s.queue = []) :
    freeLine b line s = { s with claims := s.claims.filter fun p => p.2 != b } := by
  simp only [freeLine, clearWaiting, dropClaim, State.setClaims, State.setQueue, h, List.map_nil]

/-! ### A desk that loses a bus (R58) -/

theorem settleDesk_origin (o : Origin) (b : BusNo) (s : State) : settleDesk (some (.origin o)) b s = unhears o b s := by
  unfold settleDesk unhears holderDesk deskOf
  by_cases h : o.val < 6
  · simp only [h, dite_true]; rfl
  · simp only [h, dite_false]

/-- The path table after a desk no longer hears a bus (R58). -/
def pathsUnheard (o : Origin) (b : BusNo) (audio : Vector (Option BusNo) 6) (l : Vector PathEntry 30) : Vector PathEntry 30 :=
  if h : o.val < 6 then if audio[o.val] = some b then l.set o.val {} (by omega) else l else l

/-- The audio buses after a desk no longer hears a bus (R58). -/
def audioUnheard (o : Origin) (b : BusNo) (audio : Vector (Option BusNo) 6) : Vector (Option BusNo) 6 :=
  if h : o.val < 6 then if audio[o.val] = some b then audio.set o.val none else audio else audio

/-- What a desk no longer hears, as a change of two fields, so that it is seen to commute with a change of any other. -/
theorem unhears_eq (o : Origin) (b : BusNo) (s : State) :
    unhears o b s = { s with paths := pathsUnheard o b s.audio s.paths, audio := audioUnheard o b s.audio } := by
  unfold unhears pathsUnheard audioUnheard
  split
  · split <;> rfl
  · rfl

@[simp] theorem unhears_queue (o : Origin) (b : BusNo) (s : State) : (unhears o b s).queue = s.queue := by rw [unhears_eq]

theorem settleDesk_of_noAudio {b : BusNo} {s : State} (x : Option Holder) (h : NoAudio b s) : settleDesk x b s = s := by
  unfold settleDesk
  split
  · rfl
  case h_2 d _ => exact if_neg (h d)

/-! ### Releases and modes (R34, R58) -/

theorem Bus.releasing_eq {x : Bus} {line : Nat} (h : x.line = some line) (cause : Reason) :
    x.releasing cause = breaking line cause x := by
  rw [Bus.releasing, h]; rfl

/-- A release taken on a bus, its desk aside. -/
theorem breakBus_eq {b : BusNo} {s : State} {line : Nat} (h : s.buses[b].line = some line) (cause : Reason) :
    breakBus b cause s =
      settleDesk s.buses[b].holder b (sends b {} (withBus b (breaking line cause s.buses[b]) s)) := by
  rw [breakBus, Bus.releasing_eq h]; rfl

theorem enterMode_standby (b : BusNo) (s : State) :
    enterMode b .standby s = settleDesk s.buses[b].holder b (enters b .standby none none {} s) := rfl

theorem enterMode_measure (b : BusNo) (s : State) :
    enterMode b .measure s = settleDesk s.buses[b].holder b (enters b .measure none none {} s) := rfl

/-! ### The measurement on a bus (R86) -/

theorem waitOf_none {b : BusNo} {s : State} (h : ∀ e ∈ s.headQueue, e.bus ≠ b) : waitOf b s = none := by
  simpa [waitOf, List.find?_eq_none] using h

theorem measurementOn_unmeasured {b : BusNo} {s : State} (h : Unmeasured b s) : measurementOn b s = none := by
  obtain ⟨nohead, nowait⟩ := h
  rw [measurementOn, nohead, waitOf_none nowait]
  rfl

end Sys2Proof.Proofs
end

section
/-! Buses (O18, O19): relay states, faults and the debouncer. -/

namespace Sys2Proof.Proofs

open Sys2Proof.Machine Sys2Proof.Stated

/-! ### Faults and dropped relays (R37, R38) -/

section
variable {b : BusNo} {o : Origin} {line : Nat} {s : State}

/-- What a fault ends on an outside holder's bus that nothing is measured on: its seizure, if it has one. -/
theorem faultEnds_origin {x : Bus} (hold : x.holder = some (.origin o)) (hline : x.line = some line) (t : State) :
    faultEnds b x none t =
      if x.state = .seizing ∨ x.state = .guard then pushNotice o.val (.seizeFailed b line (.origin o) .busFault) t
      else t := by
  unfold faultEnds
  split <;> simp [*, tellSeizeFailed]

/-- A FAULT takes an outside holder's bus, on which nothing is measured, out of service: what it ends, then the notice. -/
theorem faultBus_fault (hold : s.buses[b].holder = some (.origin o)) (hline : s.buses[b].line = some line)
    (quiet : Unmeasured b s) :
    faultBus b false s =
      pushNotice 6 (.busFaulted b (some line) .relayFault true)
        (faultEnds b s.buses[b] none
          (withCounts b (faultCounts s.busCounters[b])
            (unhears o b (sends b {} (withBus b (faulted (some line) true s.buses[b]) s))))) := by
  simp only [faultBus, measurementOn_unmeasured quiet, hold, settleDesk_origin, Bool.false_eq_true, if_false,
    passAfter_of_notSweep (isSweepHeld_of_origin hold), unhears_eq, Bus.faulted, hline]
  rfl

/-- A dropped relay does so with the claim removed, where no request waits. -/
theorem faultBus_dropped (hold : s.buses[b].holder = some (.origin o)) (hline : s.buses[b].line = some line)
    (quiet : Unmeasured b s) (empty : s.queue = []) :
    faultBus b true s =
      pushNotice 6 (.busFaulted b (some line) .relayDropped false)
        (faultEnds b s.buses[b] none
          (withCounts b (faultCounts s.busCounters[b])
            (unhears o b (sends b {} (withBus b (faulted none false s.buses[b])
              { s with claims := s.claims.filter fun p => p.2 != b }))))) := by
  simp only [faultBus, measurementOn_unmeasured quiet, hold, settleDesk_origin, if_true]
  rw [freeLine_of_empty b _ (by rw [unhears_eq]; exact empty), faultEnds_origin hold hline, faultEnds_origin hold hline,
    grantPass_of_empty]
  · simp only [hline, Bus.faulted, unhears_eq]
    rfl
  · rw [pushNotice_queue]
    split <;> simp only [pushNotice_queue, unhears_eq] <;> exact empty

end

/-! ### Releases that complete (R35) -/

/-- OPEN on a bus in RELEASING, where no request waits (R35). -/
theorem releaseCompleted_of_empty {b : BusNo} {s : State} (empty : s.queue = []) :
    releaseCompleted b s =
      if s.buses[b].makeTimeouts < 3 then
        tellReleased b s.buses[b]
          (withBus b (s.buses[b].released .free) { s with claims := s.claims.filter fun p => p.2 != b })
      else
        pushNotice 6 (.busFaulted b s.buses[b].line .makeTimeouts false)
          (withCounts b { s.busCounters[b] with busFaults := raised s.busCounters[b].busFaults }
            (withBus b { s.buses[b].released .outOfService with stuck := false }
              { s with claims := s.claims.filter fun p => p.2 != b })) := by
  have told (t : State) (h : t.queue = []) : (tellReleased b s.buses[b] t).queue = [] := by
    unfold tellReleased
    split <;> simp [h]
  unfold releaseCompleted
  dsimp only
  rw [freeLine_of_empty b _ empty]
  split
  · exact grantPass_of_empty (told _ empty)
  · exact grantPass_of_empty ((pushNotice_queue ..).trans empty)

/-- Settles O18: the arms of `relayActs`, each by what it calls. -/
theorem relayStatesMoveBus : Obligations.RelayStatesMoveBus := by
  refine ⟨fun b s rel => ⟨fun late => ?_, fun late => ?_⟩, fun b o line s hold hline quiet => ⟨fun st => ?_, fun st => ?_,
      fun st empty => ?_, fun st empty => ?_⟩, fun b s sei => ?_, fun b o line s rel few hline hold cause empty => ?_,
    fun b line s rel three hline empty => ?_, fun b s free noline nohold => ?_⟩
  · simp only [relayActs, rel, lateConfirmed, late, if_true]
    rfl
  · simp only [relayActs, rel, lateConfirmed, late, Bool.false_eq_true, if_false]
  · have e : relayActs b .fault s = faultBus b false s := by rcases st with st | st <;> simp only [relayActs, st]
    rw [e, faultBus_fault hold hline quiet, faultEnds_origin hold hline, if_pos st]
  · have e : relayActs b .fault s = faultBus b false s := by rcases st with st | st <;> simp only [relayActs, st]
    have other : ¬(s.buses[b].state = .seizing ∨ s.buses[b].state = .guard) := by rcases st with st | st <;> rw [st] <;> decide
    rw [e, faultBus_fault hold hline quiet, faultEnds_origin hold hline, if_neg other]
  · have e : relayActs b .opened s = faultBus b true s := by simp only [relayActs, st]
    rw [e, faultBus_dropped hold hline quiet empty, faultEnds_origin hold hline, if_pos (.inr st)]
  · have e : relayActs b .opened s = faultBus b true s := by simp only [relayActs, st]
    rw [e, faultBus_dropped hold hline quiet empty, faultEnds_origin hold hline, if_neg (by rw [st]; decide)]
  · simp only [relayActs, sei]
    rfl
  · simp only [relayActs, rel]
    rw [releaseCompleted_of_empty empty, if_pos few, tellReleased, cause, hold, hline]
    rfl
  · simp only [relayActs, rel]
    rw [releaseCompleted_of_empty empty, if_neg (by omega), hline]
    rfl
  · have away : s.buses[b].isSweepHeld = false := by rw [Bus.isSweepHeld, nohold]; exact Bool.and_false _
    simp only [relayActs, free, faultBus, faultEnds, nohold, noline, Bool.false_eq_true, if_false, Bus.faulted,
      passAfter_of_notSweep away]
    rfl

/-! ### The debouncer (R26) -/

/-- Settles O19: the branches of `debounce` short of an acceptance. -/
theorem debouncerCounts : Obligations.DebouncerCounts := by
  refine ⟨fun b cond s noguard noheld => ?_, fun b s on => ?_, fun b s on => ?_, fun b c s on new same few => ?_,
    fun b c s on new other => ?_⟩
  · exact if_neg (not_or.2 ⟨noguard, noheld⟩)
  · exact if_pos on
  · exact (if_pos on).trans (if_pos rfl)
  · exact (if_pos on).trans ((if_neg new).trans ((if_pos same).trans (if_pos few)))
  · exact (if_pos on).trans ((if_neg new).trans (if_neg other))

end Sys2Proof.Proofs
end

section
/-! The end of a measurement (R86) and what an internal holder does that is told of it, each in the words of the statements. -/

namespace Sys2Proof.Proofs

open Sys2Proof.Machine Sys2Proof.Stated

/-! ### What a report to an internal holder leaves alone -/

/-- Nothing differs but the descriptors, the fields of the ticket unit, and what a notice changes. -/
def ReportOnly (s t : State) : Prop :=
  t = { s with
    sweeps := t.sweeps, tickets := t.tickets, numberCounter := t.numberCounter, raiseCounter := t.raiseCounter
    inFlight := t.inFlight, ticketCounters := t.ticketCounters, notices := t.notices, highway := t.highway }

theorem ReportOnly.refl (s : State) : ReportOnly s s := rfl

theorem ReportOnly.trans {s t u : State} (h : ReportOnly s t) (k : ReportOnly t u) : ReportOnly s u := by
  unfold ReportOnly at *
  rw [k, h]

theorem ReportOnly.ofTickets {s t : State} (h : TicketsOnly s t) : ReportOnly s t := by
  unfold ReportOnly TicketsOnly at *
  rw [h]

theorem pushNotice_only (a : Nat) (n : NoticeBody) (s : State) : ReportOnly s (pushNotice a n s) := by
  rw [pushNotice_eq]; rfl

theorem withSweep_only (d : SweepNo) (x : Descriptor) (s : State) : ReportOnly s (withSweep d x s) := rfl

namespace ReportOnly
variable {s t : State} (h : ReportOnly s t)
include h

theorem buses : t.buses = s.buses := by rw [h]
theorem heads : t.heads = s.heads := by rw [h]
theorem headCounters : t.headCounters = s.headCounters := by rw [h]
theorem headQueue : t.headQueue = s.headQueue := by rw [h]
theorem queue : t.queue = s.queue := by rw [h]
theorem repairList : t.repairList = s.repairList := by rw [h]
theorem audio : t.audio = s.audio := by rw [h]

end ReportOnly

/-! ### The end of a sweep line (R162, R163) -/

theorem countSweep_eq (d : SweepNo) (f : SweepCounts → SweepCounts) (s : State) :
    countSweep d f s = withSweep d { s.sweeps[d] with counts := f s.sweeps[d].counts } s := rfl

/-- The counting of a line that ends changes a descriptor's deferred list and counts alone. -/
theorem countLineEnd_shape (d : SweepNo) (line : Nat) (phase : LinePhase) (e : LineEnd) (s : State) :
    ∃ l c, countLineEnd d line phase e s = withSweep d { s.sweeps[d] with deferred := l, counts := c } s := by
  unfold countLineEnd
  split
  · unfold deferLine
    dsimp only
    split
    · split <;> exact ⟨_, _, rfl⟩
    · exact ⟨_, _, rfl⟩
  all_goals exact ⟨_, _, rfl⟩

/-- A descriptor whose suspension is pending stops at the end of its line: it takes no next step. -/
theorem sweepLineEnded_only {d : SweepNo} {s : State} (pending : s.sweeps[d].suspendPending = true) (e : LineEnd)
    (locked : Bool) : ReportOnly s (sweepLineEnded d e locked s) := by
  have leave (line : Nat) {t : State} (k : t.sweeps[d].suspendPending = true) : ReportOnly t (leaveActive d line e t) := by
    simp only [leaveActive, k, if_true]
    split
    · exact (withSweep_only d _ t).trans (pushNotice_only ..)
    · exact withSweep_only d _ t
  simp only [sweepLineEnded]
  split
  · exact .refl s
  case h_2 line phase _ =>
    obtain ⟨l, c, hc⟩ := countLineEnd_shape d line phase e (withSweep d { s.sweeps[d] with inFlight := none } s)
    change ReportOnly s (leaveActive d line e (if locked then countSweep d _ (countLineEnd d line phase e (withSweep d _ s))
      else countLineEnd d line phase e (withSweep d _ s)))
    rw [hc, withSweep_withSweep, withSweep_self, countSweep_eq, withSweep_withSweep, withSweep_self]
    split
    all_goals exact (withSweep_only d _ s).trans (leave line (by rw [withSweep_self]; exact pending))

/-! ### The record of a LINE ticket's retest (R136) -/

theorem unlink_only (t : Ticket) (s : State) : TicketsOnly s (unlink t s) := by
  unfold unlink
  split
  · exact dropLink_only ..
  · rfl

theorem judgeLine_only (t : Ticket) (j : Judgement) (s : State) : ReportOnly s (judgeLine t j s) := by
  cases j with
  | pass =>
    have removed : ReportOnly s (removeTicket t.number s) := rfl
    exact ((removed.trans (pushNotice_only ..)).trans (.ofTickets (countTickets_only ..))).trans (.ofTickets (unlink_only ..))
  | fail => rfl
  | inconclusive r =>
    have changed : ReportOnly s (updTicket t.number (fun u => { u with state := .accepted, position := none }) s) := rfl
    exact changed.trans (pushNotice_only ..)

theorem retestEnded_only {n l : Nat} {t : Ticket} {s : State} (ht : ticketByNumber n s = some t)
    (hline : t.subject = .line l) (hrepair : s.repairList = []) (j : Judgement) : ReportOnly s (retestEnded n j s) := by
  by_cases hflight : ∃ r ∈ s.inFlight, r.ticket = n
  · rw [retestEnded_line ht hline hflight hrepair]
    have freed : ReportOnly s (freePlace n s) := rfl
    exact freed.trans (judgeLine_only ..)
  · have none : retestOf n s = none := by simpa [retestOf] using hflight
    rw [retestEnded, none]
    exact .refl s

/-! ### An internal holder is told (R86) -/

theorem told_only {x : Holder} {s : State} (h : Settles x s) (e : LineEnd) (outcome : Reason) (v : Option Evaluation)
    (locked : Bool) : ReportOnly s (told x e outcome v locked s) := by
  cases x with
  | origin o => exact h.elim
  | sweep d => exact sweepLineEnded_only h.2 e locked
  | retest n =>
    obtain ⟨⟨t, l, ht, hline⟩, hrepair⟩ := h
    rw [told, retestRecord, ht]
    exact retestEnded_only ht hline hrepair _

theorem sweepReport_eq {d : SweepNo} {s : State} (h : Settles (.sweep d) s) (e : LineEnd) (locked : Bool) :
    sweepReport d e locked s = sweepLineEnded d e locked s :=
  grantPass_of_empty ((sweepLineEnded_only h.2 e locked).queue.trans h.1)

/-- The record of a measurement, given to a holder that asks for no bus when it is told. -/
theorem tellRecord_eq {x : Holder} {s : State} (h : Settles x s) (outcome : Reason) (v : Option Evaluation)
    (cond : LineCond) :
    tellRecord x outcome v cond s = told x (lineEndOf outcome v) outcome v (cond == .locked) s := by
  cases x with
  | origin o => exact h.elim
  | sweep d => exact sweepReport_eq h _ _
  | retest n => rfl

theorem isOutside_of_settles {x : Holder} {s : State} (h : Settles x s) : isOutside x = false := by
  cases x with
  | origin o => exact h.elim
  | _ => rfl

theorem addressee_of_settles {x : Holder} {s : State} (h : Settles x s) : addressee x = 6 := by
  cases x with
  | origin o => exact h.elim
  | _ => rfl

theorem settleDesk_of_settles {x : Holder} {s : State} (h : Settles x s) (b : BusNo) (t : State) :
    settleDesk (some x) b t = t := by
  cases x with
  | origin o => exact h.elim
  | _ => rfl

/-! ### Leaving the head wait queue and the head (R86) -/

theorem leaveQueue_of_notWaiting {b : BusNo} {s : State} (h : ∀ e ∈ s.headQueue, e.bus ≠ b) : leaveQueue b s = s := by
  have kept : (s.headQueue.filter fun e => e.bus != b) = s.headQueue := List.filter_eq_self.2 fun e he => bne_iff_ne.2 (h e he)
  rw [leaveQueue, kept]
  rfl

theorem leaveQueue_of_first {b : BusNo} {e : HeadWait} {rest : List HeadWait} {s : State} (h : s.headQueue = e :: rest)
    (he : e.bus = b) (hrest : ∀ x ∈ rest, x.bus ≠ b) : leaveQueue b s = { s with headQueue := rest } := by
  have kept : (rest.filter fun e => e.bus != b) = rest := List.filter_eq_self.2 fun x hx => bne_iff_ne.2 (hrest x hx)
  rw [leaveQueue, h, List.filter_cons_of_neg (by simpa using he), kept]
  rfl

theorem returnHead_of_none {b : BusNo} {s : State} (h : s.buses[b].head = none) : returnHead b s = s := by
  rw [returnHead, h]

theorem returnHead_of_some {b : BusNo} {h : HeadNo} {s : State} (k : s.buses[b].head = some h) :
    returnHead b s = rested h b s := by
  simp only [returnHead, k]
  rfl

theorem measurementOn_head {b : BusNo} {h : HeadNo} {c : Context} {s : State} (hb : s.buses[b].head = some h)
    (hc : s.heads[h].ctx = some c) : measurementOn b s = some c.measurement := by
  simp only [measurementOn, hb, Option.bind_some, hc]

theorem measurementOn_first {b : BusNo} {e : HeadWait} {rest : List HeadWait} {s : State} (hb : s.buses[b].head = none)
    (h : s.headQueue = e :: rest) (he : e.bus = b) : measurementOn b s = some e.measurement := by
  have found : waitOf b s = some e := by simp [waitOf, h, he]
  rw [measurementOn, hb, found]
  rfl

/-! ### The end of an outside holder's measurement (R69, R86) -/

/-- A measurement that is not evaluated is reported to its outside holder by MEASUREMENT_RESULT alone. -/
theorem reportMeasurement_origin {m : Measurement} {o : Origin} {outcome : Reason} (hold : m.holder = .origin o)
    (plain : m.evaluated outcome = false) (b : BusNo) (cond : LineCond) (s : State) :
    reportMeasurement b m outcome cond s = pushNotice o.val (.measurementResult (m.record b outcome)) s := by
  simp only [reportMeasurement, hold, plain, Bool.false_eq_true, if_false]
  rfl

theorem evaluated_of_ne {m : Measurement} {outcome : Reason} (h : outcome ≠ .complete) : m.evaluated outcome = false := by
  simp [Measurement.evaluated, h]

theorem evaluated_of_not {m : Measurement} (h : m.evaluate = false) (outcome : Reason) : m.evaluated outcome = false := by
  simp [Measurement.evaluated, h]

/-- A measurement on a head that ends for its outside holder: the bus enters STANDBY, by R69 or by the event that ended it. -/
theorem endMeasurement_stops {h : HeadNo} {b : BusNo} {o : Origin} {c : Context} {s : State} (k : Measures h b o c s)
    {m : Measurement} (hm : m.holder = .origin o) {outcome : Reason} (plain : m.evaluated outcome = false)
    (leaves : leavesByR69 outcome = true) (cond : LineCond) :
    endMeasurement b m outcome cond s =
      pushNotice o.val (.measurementResult (m.record b outcome)) (enters b .standby none none {} (rested h b s)) := by
  obtain ⟨-, -, hhead, -, quiet, nowait⟩ := k
  simp only [endMeasurement, leaveQueue_of_notWaiting nowait, reportMeasurement_origin hm plain, leaves, if_true, settleBus,
    hm, isOutside]
  rw [returnHead_of_some (by rw [pushNotice_buses]; exact hhead), enterMode_standby, settleDesk_of_noAudio]
  · simp only [pushNotice_eq]
    rfl
  · simp only [pushNotice_eq]
    exact quiet

end Sys2Proof.Proofs
end

section
/-! Frames taken (R2, R6): what earlier frames left due, the ticking of timers, and the acts of a frame on a machine that is quiet
or only waits; then O15, O16, O17 and O22. -/

namespace Sys2Proof.Proofs

open Sys2Proof.Machine Sys2Proof.Stated

/-! ### Folds over the records of a bank -/

section Folds
variable {α : Type} {n : Nat}

theorem getElem_foldl_set (f : α → α) {l : List (Fin n)} (nd : l.Nodup) (v : Vector α n) (j : Fin n) :
    (l.foldl (fun v i => v.set i (f v[i])) v)[j] = if j ∈ l then f v[j] else v[j] := by
  induction l generalizing v with
  | nil => simp
  | cons i l ih =>
    obtain ⟨hi, hl⟩ := List.nodup_cons.1 nd
    rw [List.foldl_cons, ih hl]
    by_cases e : i = j
    · subst e
      simp [hi]
    · have other : (v.set i (f v[i]))[j] = v[j] := Vector.getElem_set_ne _ _ fun k => e (Fin.ext k)
      rw [other]
      simp [Ne.symm e]

/-- Changing every record in turn changes the bank at once. -/
theorem foldl_set_eq_map (f : α → α) {l : List (Fin n)} (nd : l.Nodup) (all : ∀ j, j ∈ l) (v : Vector α n) :
    l.foldl (fun v i => v.set i (f v[i])) v = v.map f := by
  refine Vector.ext fun j hj => ?_
  have := getElem_foldl_set f nd v ⟨j, hj⟩
  rw [if_pos (all _)] at this
  simpa using this

end Folds

theorem foldl_setBus (f : Bus → Bus) (s : State) :
    allBuses.foldl (fun t b => t.setBus b (f t.buses[b])) s = { s with buses := s.buses.map f } := by
  have each (l : List BusNo) (s : State) : l.foldl (fun t b => t.setBus b (f t.buses[b])) s =
      { s with buses := l.foldl (fun v (b : BusNo) => v.set b (f v[b])) s.buses } := by
    induction l generalizing s with
    | nil => rfl
    | cons b l ih => exact ih _
  rw [each, foldl_set_eq_map f (by decide) mem_allBuses]

theorem foldl_setHead (f : HeadRec → HeadRec) (s : State) :
    allHeads.foldl (fun t h => t.setHead h (f t.heads[h])) s = { s with heads := s.heads.map f } := by
  have each (l : List HeadNo) (s : State) : l.foldl (fun t h => t.setHead h (f t.heads[h])) s =
      { s with heads := l.foldl (fun v (h : HeadNo) => v.set h (f v[h])) s.heads } := by
    induction l generalizing s with
    | nil => rfl
    | cons h l ih => exact ih _
  rw [each, foldl_set_eq_map f (by decide) mem_allHeads]

/-! ### Timers (R25, R73) -/

theorem tickBus_eq (s : State) (b : BusNo) :
    tickBus s b = s.setBus b { s.buses[b] with timer := s.buses[b].timer.map (· + 1) } := by
  unfold tickBus
  split
  case h_1 stopped =>
    rw [stopped, Option.map_none, ← stopped]
    exact (withBus_same s b).symm
  case h_2 n runs => rw [runs]; rfl

theorem tickHead_eq (s : State) (h : HeadNo) :
    tickHead s h = s.setHead h { s.heads[h] with timer := s.heads[h].timer.map (· + 1) } := by
  unfold tickHead
  split
  case h_1 stopped =>
    rw [stopped, Option.map_none, ← stopped]
    exact (withHead_same s h).symm
  case h_2 n runs => rw [runs]; rfl

/-- Every timer that runs rises by one (R25, R73). -/
theorem tickTimers_eq (s : State) :
    tickTimers s =
      { s with
        buses := s.buses.map fun x => { x with timer := x.timer.map (· + 1) }
        heads := s.heads.map fun x => { x with timer := x.timer.map (· + 1) } } := by
  have hb : (tickBus : State → BusNo → State) = _ := funext fun s => funext fun b => tickBus_eq s b
  have hh : (tickHead : State → HeadNo → State) = _ := funext fun s => funext fun h => tickHead_eq s h
  rw [tickTimers, hb, foldl_setBus fun x => { x with timer := x.timer.map (· + 1) }, hh,
    foldl_setHead fun x => { x with timer := x.timer.map (· + 1) }]

theorem map_stopped_buses {s : State} (h : ∀ b : BusNo, s.buses[b].timer = none) :
    (s.buses.map fun x => { x with timer := x.timer.map (· + 1) }) = s.buses := by
  refine Vector.ext fun i hi => ?_
  have := h ⟨i, hi⟩
  rw [Fin.getElem_fin] at this
  rw [Vector.getElem_map, this, Option.map_none, ← this]

theorem map_stopped_heads {s : State} (h : ∀ k : HeadNo, s.heads[k].timer = none) :
    (s.heads.map fun x => { x with timer := x.timer.map (· + 1) }) = s.heads := by
  refine Vector.ext fun i hi => ?_
  have := h ⟨i, hi⟩
  rw [Fin.getElem_fin] at this
  rw [Vector.getElem_map, this, Option.map_none, ← this]

/-! ### What is due (R25, R73, R80, R82) -/

/-- A timer short of its limit, or stopped, is not due. -/
theorem timerDue_of_short {x : Bus} {state : BusState} {limit : Nat}
    (h : x.state ≠ state ∨ ∀ n, x.timer = some n → n < limit) : timerDue state limit x = false := by
  unfold timerDue
  rcases h with h | h
  · rw [beq_eq_false_iff_ne.2 h, Bool.false_and]
  · cases e : x.timer with
    | none => simp
    | some n => simp [h n e]

theorem echoDue_of_short {x : HeadRec} (h : ∀ n, x.timer = some n → n < 160) : echoDue x = false := by
  unfold echoDue
  cases e : x.timer with
  | none => rfl
  | some n => exact decide_eq_false (Nat.not_le.2 (h n e))

section
variable {s : State}

theorem makeExpires_of_short {b : BusNo} (h : s.buses[b].state ≠ .seizing ∨ ∀ n, s.buses[b].timer = some n → n < 240) :
    makeExpires b s = s := if_neg (Bool.eq_false_iff.1 (timerDue_of_short h))

theorem guardExpires_of_short {b : BusNo} (h : s.buses[b].state ≠ .guard ∨ ∀ n, s.buses[b].timer = some n → n < 800) :
    guardExpires b s = s := if_neg (Bool.eq_false_iff.1 (timerDue_of_short h))

theorem releaseExpires_of_short {b : BusNo}
    (h : s.buses[b].state ≠ .releasing ∨ ∀ n, s.buses[b].timer = some n → n < 160) : releaseExpires b s = s :=
  if_neg (Bool.eq_false_iff.1 (timerDue_of_short h))

theorem busExpires_of_short {b : BusNo} (h : ∀ n, s.buses[b].timer = some n → n < 160) : busExpires b s = s := by
  unfold busExpires
  split
  · exact makeExpires_of_short (.inr fun n e => Nat.lt_trans (h n e) (by decide))
  · exact guardExpires_of_short (.inr fun n e => Nat.lt_trans (h n e) (by decide))
  · exact releaseExpires_of_short (.inr h)
  all_goals rfl

theorem echoExpires_of_short {h : HeadNo} (k : ∀ n, s.heads[h].timer = some n → n < 160) : echoExpires h s = s :=
  if_neg (by rw [echoDue_of_short k]; exact fun e => Bool.false_ne_true e.2)

theorem returnExpires_of_short {h : HeadNo} (k : ∀ n, s.heads[h].timer = some n → n < 160) : returnExpires h s = s :=
  if_neg (by rw [echoDue_of_short k]; exact fun e => Bool.false_ne_true e.2)

theorem headExpires_of_short {h : HeadNo} (k : ∀ n, s.heads[h].timer = some n → n < 160) : headExpires h s = s := by
  rw [headExpires, echoExpires_of_short k, returnExpires_of_short k]

theorem settleEnds_of_state {h : HeadNo} (k : s.heads[h].state ≠ .settling) : settleEnds h s = s := by
  unfold settleEnds
  dsimp only
  split
  · rfl
  · split
    · rfl
    · exact if_neg fun e => k e.1

theorem integratingOn_of_state {h : HeadNo} (k : s.heads[h].state ≠ .integrating) : integratingOn h s = none := if_neg k

theorem windowEnds_of_state {h : HeadNo} (k : s.heads[h].state ≠ .integrating) : windowEnds h s = s := by
  rw [windowEnds, integratingOn_of_state k]

theorem chargeWindowEnds_of_state {h : HeadNo} (k : s.heads[h].state ≠ .integrating) : chargeWindowEnds h s = s := by
  rw [chargeWindowEnds, integratingOn_of_state k]

theorem busExpires_of_held {b : BusNo} (h : s.buses[b].state = .held) : busExpires b s = s := by
  simp only [busExpires, h]

end

/-- No timer of a bus that waits, or of a head, has reached a limit, and no head settles or integrates. -/
structure Calm (s : State) : Prop where
  bus : ∀ b : BusNo, s.buses[b].state = .held ∨ ∀ n, s.buses[b].timer = some n → n < 160
  head : ∀ (h : HeadNo) (n : Nat), s.heads[h].timer = some n → n < 160
  settling : ∀ h : HeadNo, s.heads[h].state ≠ .settling
  integrating : ∀ h : HeadNo, s.heads[h].state ≠ .integrating

theorem Calm.busExpires {s : State} (h : Calm s) (b : BusNo) : busExpires b s = s :=
  (h.bus b).elim busExpires_of_held busExpires_of_short

theorem foldl_still {α β : Type} {f : α → β → α} {s : α} (h : ∀ b, f s b = s) (l : List β) : l.foldl f s = s := by
  induction l with
  | nil => rfl
  | cons b l ih => rw [List.foldl_cons, h b, ih]

theorem Calm.inboundDue {s : State} (h : Calm s) : inboundDue s = s := by
  have due (k : HeadNo) : headDue s k = s := by
    rw [headDue, settleEnds_of_state (h.settling k), windowEnds_of_state (h.integrating k),
      chargeWindowEnds_of_state (h.integrating k)]
  rw [Machine.inboundDue, foldl_still due, foldl_still fun b => h.busExpires b,
    foldl_still fun k => headExpires_of_short (h.head k)]

/-- The acts of a frame that find nothing due. -/
theorem Calm.runAct_due {s : State} (h : Calm s) (good : Bool) (f : Frame) :
    (∀ b, runAct good f s (.busExpiry b) = s) ∧ (∀ k, runAct good f s (.headExpiry k) = s) ∧
      (∀ k, runAct good f s (.settle k) = s) ∧ ∀ k, runAct good f s (.window k) = s :=
  ⟨h.busExpires, fun k => headExpires_of_short (h.head k),
    fun k => settleEnds_of_state (h.settling k), fun k => by
      rw [runAct, windowEnds_of_state (h.integrating k), chargeWindowEnds_of_state (h.integrating k)]⟩

/-! ### A bad or missed frame (R6, R10) -/

/-- A head that a bad frame does not act on: it does not measure, or it awaits an echo. -/
theorem headFrame_bad {h : HeadNo} {w : HeadWords} {s : State} (bad : w.good = false) (hs : s.heads[h].state ≠ .settling)
    (hi : s.heads[h].state ≠ .integrating) (echo : ∀ c, s.heads[h].ctx = some c → c.noEcho = false) :
    headFrame h w s = s := by
  simp only [headFrame, bad, Bool.false_eq_true, if_false, Bool.false_and]
  split
  case h_4 st =>
    simp only [activeFrame, st]
    split
    · rfl
    case h_2 c hc =>
      split
      · rfl
      · simp only [awaitFrame, echo c hc, bad, Bool.false_eq_true, if_false]
  case h_2 => simp only [returningFrame, bad, Bool.false_eq_true, if_false]
  case h_5 st => exact absurd st hs
  case h_6 st => exact absurd st hi
  all_goals rfl

/-- A bad frame finds nothing to act on: nothing is due, no message is being assembled, no assignment pass is owed, and no
context is marked to be confirmed. -/
structure Unmoved (s : State) : Prop extends Calm s where
  waiting : s.assembler = .waiting
  noneOwed : s.assignDue = false
  echo : ∀ (h : HeadNo) (c : Context), s.heads[h].ctx = some c → c.noEcho = false

theorem Unmoved.runAct {s : State} (h : Unmoved s) (f : Frame) (a : Act) : runAct false f s a = s := by
  obtain ⟨bus, head, settle, window⟩ := h.toCalm.runAct_due false f
  cases a with
  | condition b => rfl
  | head k => exact headFrame_bad rfl (h.settling k) (h.integrating k) (h.echo k)
  | management => simp [Machine.runAct, assemble, countCut_waiting h.waiting, setAssembler_waiting h.waiting]
  | assignment => exact if_neg (by rw [h.noneOwed]; exact Bool.false_ne_true)
  | busExpiry b => exact bus b
  | headExpiry k => exact head k
  | settle k => exact settle k
  | window k => exact window k

/-- A bad frame that finds nothing to act on makes the timers rise and no more. -/
theorem takeFrame_bad {s : State} (h : Unmoved (tickTimers s)) (f : Frame) (order : List Act) :
    takeFrame false f order s = tickTimers s := by
  simp only [takeFrame, Bool.false_eq_true, if_false]
  exact foldl_still (h.runAct f) _

/-! ### A plain good frame on a quiet machine (R9, R11) -/

/-- No bus carries a line, no head measures, and no message is being assembled; an assignment pass may be owed. -/
structure Still (s : State) : Prop where
  bus : ∀ b : BusNo, QuietBus b s
  head : ∀ h : HeadNo, QuietHead h s
  noneWaits : s.headQueue = []
  waiting : s.assembler = .waiting

theorem Still.ofQuiet {s : State} (h : Quiet s) : Still s := by
  obtain ⟨bus, head, noneWaits, waiting, -⟩ := h
  exact ⟨bus, head, noneWaits, waiting⟩

theorem Still.calm {s : State} (h : Still s) : Calm s where
  bus b := .inr fun n e => by rw [(h.bus b).2.1] at e; cases e
  head k n e := by rw [(h.head k).2.1] at e; cases e
  settling k e := by rcases (h.head k).1 with i | i <;> rw [e] at i <;> cases i
  integrating k e := by rcases (h.head k).1 with i | i <;> rw [e] at i <;> cases i

theorem Still.tickTimers {s : State} (h : Still s) : tickTimers s = s := by
  rw [tickTimers_eq, map_stopped_buses fun b => (h.bus b).2.1, map_stopped_heads fun k => (h.head k).2.1]

theorem relayOf_ne_fault {w : Word} (h : w.getLsbD 15 = false) : relayOf w ≠ .fault := by
  have small : (w.extractLsb' 14 2).toNat < 2 := by
    have top : (w.extractLsb' 14 2).msb = false := by simpa [BitVec.msb_eq_getLsbD_last] using h
    simpa using BitVec.toNat_lt_of_msb_false top
  intro fault
  unfold relayOf at fault
  split at fault
  · cases fault
  · cases fault
  case h_3 n ne0 ne1 => exact (Nat.le_one_iff_eq_zero_or_eq_one.1 (Nat.lt_succ_iff.1 small)).elim ne0 ne1

/-- A bus that carries no line takes nothing from a condition word without a fault. -/
theorem conditionFrame_quiet {b : BusNo} {s : State} (h : QuietBus b s) {w : Word} (plain : w.getLsbD 15 = false)
    (good : Bool) : conditionFrame b good w s = s := by
  obtain ⟨state, -⟩ := h
  have relay : relayActs b (relayOf w) s = s := by
    have ne := relayOf_ne_fault plain
    cases e : relayOf w with
    | fault => exact absurd e ne
    | _ => rcases state with st | st <;> simp only [relayActs, st]
  have still : debounce b (condOf w) s = s := by
    refine if_neg ?_
    rcases state with st | st <;> rw [st] <;> decide
  unfold conditionFrame
  split
  · rw [relay, still]
  · rfl

/-- A head that neither measures nor returns takes from a good frame without its fault flag the echo alone (R73). -/
theorem headFrame_quiet {h : HeadNo} {s : State} (k : QuietHead h s) {w : HeadWords} (good : w.good = true)
    (plain : w.status.getLsbD 3 = false) : headFrame h w s = echoed h w.status s := by
  obtain ⟨state, -⟩ := k
  have state' : (echoed h w.status s).heads[h].state = s.heads[h].state := by rw [echoed, withHead_self]
  have e : headFrame h w s = match s.heads[h].state with
      | .idle => if w.good && faultFlag w.status then headOut h .faultFlag (echoed h w.status s) else echoed h w.status s
      | .returning => returningFrame h w (echoed h w.status s)
      | .outOfService => echoed h w.status s
      | .awaitEcho => activeFrame h w (echoed h w.status s)
      | .settling => activeFrame h w (echoed h w.status s)
      | .integrating => activeFrame h w (echoed h w.status s) := by
    rw [← state']
    simp only [headFrame, good, if_true]
    rfl
  rw [e]
  rcases state with st | st <;> simp only [st, faultFlag, plain, Bool.and_false, Bool.false_eq_true, if_false]

/-- A head's echo fields in a frame (R73). -/
def echoIn (f : Frame) (h : HeadNo) : Word := (f[5 + 5 * h.val]'(by omega)) &&& 0xFFE0#16

/-- The heads after some acts of a plain good frame: those whose act was among them hold their echo. -/
def headsAfter (f : Frame) (done : List Act) (v : Vector HeadRec 4) : Vector HeadRec 4 :=
  Vector.ofFn fun h : HeadNo => if Act.head h ∈ done then { v[h] with echoed := echoIn f h } else v[h]

theorem headsAfter_nil (f : Frame) (v : Vector HeadRec 4) : headsAfter f [] v = v := by
  refine Vector.ext fun i hi => ?_
  simp [headsAfter]

theorem headsAfter_all {f : Frame} {done : List Act} (all : ∀ h, Act.head h ∈ done) (v : Vector HeadRec 4) :
    headsAfter f done v = Vector.ofFn fun h : HeadNo => { v[h] with echoed := echoIn f h } := by
  simp only [headsAfter, all, if_true]

theorem headsAfter_snoc_other (f : Frame) (done : List Act) {a : Act} (other : ∀ h, a ≠ .head h)
    (v : Vector HeadRec 4) : headsAfter f (done ++ [a]) v = headsAfter f done v := by
  have same (h : HeadNo) : Act.head h ∈ done ++ [a] ↔ Act.head h ∈ done := by simp [(other h).symm]
  simp only [headsAfter, same]

theorem headsAfter_snoc_head (f : Frame) (done : List Act) (h : HeadNo) (v : Vector HeadRec 4) :
    headsAfter f (done ++ [.head h]) v =
      (headsAfter f done v).set h { (headsAfter f done v)[h] with echoed := echoIn f h } := by
  refine Vector.ext fun i hi => ?_
  rw [Vector.getElem_set]
  split
  case isTrue e =>
    obtain rfl : h = ⟨i, hi⟩ := Fin.ext e
    simp only [headsAfter, Fin.getElem_fin, Vector.getElem_ofFn, List.mem_append, List.mem_singleton, or_true, if_true]
    split <;> rfl
  case isFalse ne =>
    have differ : (⟨i, hi⟩ : HeadNo) ≠ h := fun e => ne (congrArg Fin.val e).symm
    have other : Act.head ⟨i, hi⟩ ∈ done ++ [.head h] ↔ Act.head ⟨i, hi⟩ ∈ done := by simp [differ]
    simp only [headsAfter, Vector.getElem_ofFn, other]

/-- What some acts of a plain good frame leave; an assignment pass that is owed is taken with its act. -/
def afterActs (f : Frame) (done : List Act) (s : State) : State :=
  { s with heads := headsAfter f done s.heads, assignDue := s.assignDue && !decide (Act.assignment ∈ done) }

theorem Still.afterActs {s : State} (h : Still s) (f : Frame) (done : List Act) : Still (afterActs f done s) where
  bus := h.bus
  head k := by
    have := h.head k
    simp only [QuietHead, Proofs.afterActs, headsAfter, Fin.getElem_fin, Vector.getElem_ofFn] at this ⊢
    split <;> exact this
  noneWaits := h.noneWaits
  waiting := h.waiting

/-- An act that is no head's and not the assignment pass adds nothing to what is left. -/
theorem afterActs_snoc_other (f : Frame) (done : List Act) (s : State) {a : Act} (head : ∀ h, a ≠ .head h)
    (assign : a ≠ .assignment) : afterActs f (done ++ [a]) s = afterActs f done s := by
  have same : Act.assignment ∈ done ++ [a] ↔ Act.assignment ∈ done := by simp [assign.symm]
  simp only [afterActs, headsAfter_snoc_other f done head, same]

/-- One act of a plain good frame on a still machine. -/
theorem runAct_afterActs {f : Frame} (plain : Plain f) {s : State} (still : Still s) (done : List Act) (a : Act) :
    runAct true f (afterActs f done s) a = afterActs f (done ++ [a]) s := by
  obtain ⟨-, -, nostart, nofault, noflag⟩ := plain
  have h := still.afterActs f done
  obtain ⟨bus, head, settle, window⟩ := h.calm.runAct_due true f
  cases a with
  | condition b =>
    rw [afterActs_snoc_other f done s (by simp) (by simp)]
    exact conditionFrame_quiet (h.bus b) (nofault b) true
  | head k =>
    refine (headFrame_quiet (h.head k) rfl (noflag k)).trans ?_
    have same : Act.assignment ∈ done ++ [.head k] ↔ Act.assignment ∈ done := by simp
    simp only [afterActs, headsAfter_snoc_head, same]
    rfl
  | management =>
    rw [afterActs_snoc_other f done s (by simp) (by simp)]
    simp [runAct, assemble, nostart, h.waiting]
  | assignment =>
    have pass (t : State) (none : t.headQueue = []) : assignmentPass t = t := by
      unfold assignmentPass assignSteps
      split
      · rw [none]
        split <;> first | rfl | contradiction
      · rfl
    have taken : afterActs f (done ++ [.assignment]) s = { afterActs f done s with assignDue := false } := by
      simp [afterActs, headsAfter_snoc_other f done (a := .assignment) (by simp)]
    rw [taken]
    show firstPass _ = _
    unfold firstPass
    split
    · exact pass _ h.noneWaits
    case isFalse due => rw [← Bool.eq_false_iff.2 due]
  | busExpiry b => rw [afterActs_snoc_other f done s (by simp) (by simp)]; exact bus b
  | headExpiry k => rw [afterActs_snoc_other f done s (by simp) (by simp)]; exact head k
  | settle k => rw [afterActs_snoc_other f done s (by simp) (by simp)]; exact settle k
  | window k => rw [afterActs_snoc_other f done s (by simp) (by simp)]; exact window k

theorem foldl_runAct {f : Frame} (plain : Plain f) {s : State} (still : Still s) (l done : List Act) :
    l.foldl (runAct true f) (afterActs f done s) = afterActs f (done ++ l) s := by
  induction l generalizing done with
  | nil => rw [List.append_nil]; rfl
  | cons a l ih => rw [List.foldl_cons, runAct_afterActs plain still, ih, List.append_assoc]; rfl

/-- Every act that every frame has is among the acts of a frame. -/
theorem mem_actsOf {a : Act} (h : a ∈ frameActs) (order : List Act) : a ∈ actsOf order := by
  unfold actsOf
  by_cases listed : a ∈ order.eraseDups
  · exact List.mem_append_left _ listed
  · exact List.mem_append_right _ (List.mem_filter.2 ⟨h, decide_eq_true listed⟩)

theorem Still.withStore {s : State} (h : Still s) (store : Vector Word 42) : Still { s with store := store } :=
  ⟨h.bus, h.head, h.noneWaits, h.waiting⟩

theorem Still.storeFrame {s : State} (h : Still s) (f : Frame) : Still (storeFrame f s) := h.withStore _

/-- A plain good frame on a still machine is stored, and an assignment pass that was owed is taken. -/
theorem takeFrame_plain {f : Frame} (plain : Plain f) {s : State} (still : Still s) (order : List Act) :
    takeFrame true f order s = { stored f s with assignDue := false } := by
  have heads (h : HeadNo) : Act.head h ∈ actsOf order := mem_actsOf (by simp [frameActs, mem_allHeads]) order
  have assign : Act.assignment ∈ actsOf order := mem_actsOf (by simp [frameActs]) order
  have start : afterActs f [] (storeFrame f s) = storeFrame f s := by
    simp [afterActs, headsAfter_nil]
  have done : takeFrame true f order s = afterActs f (actsOf order) (storeFrame f s) := by
    simp only [takeFrame, still.tickTimers, if_true]
    conv => lhs; rw [← start]
    exact foldl_runAct plain (still.storeFrame f) _ []
  rw [done, afterActs, headsAfter_all heads]
  simp only [assign, decide_true, Bool.not_true, Bool.and_false]
  simp only [stored, Machine.storeFrame, echoIn]

/-! ### Alignment gained and lost (R5, R7, R8) -/

theorem dropCandidate_of_none {s : State} {b : BusNo} (h : s.buses[b].candidate = none ∧ s.buses[b].stable = 0) :
    dropCandidate s b = s := by
  have same {x : Bus} (k : x.candidate = none ∧ x.stable = 0) : { x with candidate := none, stable := 0 } = x := by
    obtain ⟨hc, hs⟩ := k
    rw [← hc, ← hs]
  rw [dropCandidate, same h]
  exact withBus_same s b

theorem dropCandidates_of_none {s : State} (h : ∀ b : BusNo, s.buses[b].candidate = none ∧ s.buses[b].stable = 0) :
    allBuses.foldl dropCandidate s = s := foldl_still (fun b => dropCandidate_of_none (h b)) _

theorem loseHead_of_noContext {s : State} {h : HeadNo} (k : s.heads[h].ctx = none) : loseHead s h = s := by
  unfold loseHead
  split
  case h_1 e => rw [k] at e; cases e
  case h_2 => rfl

/-- A fold in which one element alone acts. -/
theorem foldl_of_single {α β : Type} {f : α → β → α} {s : α} {b : β} {l : List β} (nd : l.Nodup) (hb : b ∈ l)
    (before : ∀ k, k ≠ b → f s k = s) (after : ∀ k, k ≠ b → f (f s b) k = f s b) : l.foldl f s = f s b := by
  obtain ⟨front, back, rfl⟩ := List.append_of_mem hb
  have apart := List.perm_middle.nodup nd
  have ne {k : β} (hk : k ∈ front ++ back) : k ≠ b := fun e => (List.nodup_cons.1 apart).1 (e ▸ hk)
  have fixed {t : α} {l : List β} (h : ∀ k ∈ l, f t k = t) : l.foldl f t = t := by
    induction l with
    | nil => rfl
    | cons x l ih => rw [List.foldl_cons, h x List.mem_cons_self, ih fun k hk => h k (List.mem_cons_of_mem x hk)]
  rw [List.foldl_append, List.foldl_cons, fixed fun k hk => before k (ne (List.mem_append_left back hk)),
    fixed fun k hk => after k (ne (List.mem_append_right front hk))]

theorem assignDue_same {s : State} (h : s.assignDue = false) : { s with assignDue := false } = s := by rw [← h]

/-- Settles O15: the gain leaves a still machine on which the assignment pass alone is owed. -/
theorem alignmentIsGained : Obligations.AlignmentIsGained := by
  refine ⟨fun position start s h le => ?_, fun position bits s no => ?_, fun f order c n s h none => ?_,
    fun f order c s h some => ?_, fun f order c s h quiet plain => ?_⟩
  · show Host.Outcome.next (patternFound position _ s) = _
    simp only [patternFound, h, le, true_and, alignmentPattern, if_true, State.setAlignment]
  · refine congrArg Host.Outcome.next (?_ : patternFound position bits s = s)
    unfold patternFound
    split
    case h_1 start e => exact if_neg fun k => no ⟨⟨start, e, k.1⟩, k.2⟩
    all_goals rfl
  · refine congrArg Host.Outcome.next (?_ : confirmFrame f order s = _)
    simp only [confirmFrame, h, none, Bool.false_eq_true, if_false, Config.frameBits, State.setAlignment]
  · refine congrArg Host.Outcome.next (?_ : confirmFrame f order s = _)
    simp only [confirmFrame, h, some, if_true, show 1 < 2 by decide, State.setAlignment]
  · refine congrArg Host.Outcome.next (?_ : confirmFrame f order s = _)
    have still := Still.ofQuiet quiet
    obtain ⟨buses, -, -, -, owed⟩ := quiet
    have dropped : allBuses.foldl dropCandidate
        { s with alignment := .aligned (c + 768 * 2) 0, highway := { s.highway with gains := min (s.highway.gains + 1) 4294967295 } } = _ :=
      dropCandidates_of_none fun b => (buses b).2.2
    have gained : gainAlignment (c + 768 * 2) s =
        { pushNotice 6 .highwayRestored
            { s with alignment := .aligned (c + 768 * 2) 0
                     highway := { s.highway with gains := min (s.highway.gains + 1) 4294967295 } } with assignDue := true } :=
      congrArg (fun t => { pushNotice 6 .highwayRestored t with assignDue := true }) dropped
    have still' : Still (gainAlignment (c + 768 * 2) s) := by
      rw [gained, pushNotice_eq]
      exact ⟨still.bus, still.head, still.noneWaits, still.waiting⟩
    simp only [confirmFrame, h, plain.1, if_true, Nat.lt_irrefl, if_false, still.calm.inboundDue, classAndTake, plain.2.1,
      Config.frameBits]
    rw [takeFrame_plain plain still', gained]
    refine Eq.trans ?_ (assignDue_same (s := pushNotice _ _ _) (by rw [pushNotice_eq]; exact owed))
    simp only [pushNotice_eq]
    rfl

/-- Settles O16. -/
theorem plainFrameIsStored : Obligations.PlainFrameIsStored := by
  intro f order position misses s h quiet plain
  refine congrArg Host.Outcome.next (?_ : inboundFrame f order s = _)
  have still := Still.ofQuiet quiet
  have still' : Still (s.setAlignment (.aligned (position + 768) 0)) :=
    ⟨still.bus, still.head, still.noneWaits, still.waiting⟩
  simp only [inboundFrame, h, plain.1, if_true, still.calm.inboundDue, classAndTake, plain.2.1, Config.frameBits,
    takeFrame_plain plain still']
  exact assignDue_same (s := stored f _) quiet.2.2.2.2

/-- The search begun and the loss counted, as alignment is lost at a position (R7). -/
def searchBegun (position : Nat) (s : State) : State :=
  { s with alignment := .hunting (position + 1), highway := { s.highway with losses := raised s.highway.losses } }

/-- What alignment's loss leaves once heads and debouncers are dropped (R7, R169, R173). -/
theorem loseAlignment_eq {position : Nat} {s t : State}
    (lost : allHeads.foldl loseHead (allBuses.foldl dropCandidate (searchBegun position s)) = t)
    (waiting : t.assembler = .waiting) :
    loseAlignment position s = pushNotice 6 .highwayLost (clearStore t) := by
  have e : loseAlignment position s = clearStore (pushNotice 6 .highwayLost ((countCut t).setAssembler .waiting)) := by
    rw [← lost]; rfl
  rw [e, countCut_waiting waiting, setAssembler_waiting waiting]
  simp only [pushNotice_eq]
  rfl

/-- A bad or missed frame taken by a quiet machine. -/
theorem takeFrame_bad_quiet {s : State} (h : Quiet s) (f : Frame) (order : List Act) :
    takeFrame false f order s = s := by
  have still := Still.ofQuiet h
  obtain ⟨-, heads, -, waiting, noneOwed⟩ := h
  have unmoved : Unmoved s := ⟨still.calm, waiting, noneOwed, fun k c e => by rw [(heads k).2.2] at e; cases e⟩
  have ticks := still.tickTimers
  rw [takeFrame_bad (by rw [ticks]; exact unmoved), ticks]

theorem measures_losesHead {h : HeadNo} {b : BusNo} {o : Origin} {c : Context} {s : State} (k : Measures h b o c s) :
    loseHead s h = stops h b o c .highwayLost s := by
  obtain ⟨hb, hc, -, hold, -, -⟩ := id k
  simp only [loseHead, hb, hc]
  rw [endMeasurement_stops k (m := c.measurement) hold (evaluated_of_ne (by decide)) rfl, stops, reports, ← hold]
  rfl

/-- The other heads and the assembler do not see the end of a head's measurement. -/
theorem stops_leaves (h : HeadNo) (b : BusNo) (o : Origin) (c : Context) (r : Reason) (s : State) :
    (stops h b o c r s).assembler = s.assembler ∧ ∀ k : HeadNo, k ≠ h → (stops h b o c r s).heads[k] = s.heads[k] := by
  constructor
  · rw [stops, reports, pushNotice_eq]; rfl
  · intro k ne
    rw [stops, reports, pushNotice_heads]
    exact withHead_other (s := s) _ ne.symm

/-- Only one head measures, and every debouncer is empty: alignment's loss ends that measurement. -/
theorem losesHeads_of_single {h : HeadNo} {b : BusNo} {o : Origin} {c : Context} {s : State} (k : Measures h b o c s)
    (others : ∀ k : HeadNo, k ≠ h → s.heads[k].ctx = none)
    (empty : ∀ b : BusNo, s.buses[b].candidate = none ∧ s.buses[b].stable = 0) :
    allHeads.foldl loseHead (allBuses.foldl dropCandidate s) = stops h b o c .highwayLost s := by
  obtain ⟨-, same⟩ := stops_leaves h b o c .highwayLost s
  rw [dropCandidates_of_none empty, ← measures_losesHead k]
  refine foldl_of_single (by decide) (mem_allHeads h) (fun k ne => loseHead_of_noContext (others k ne)) fun j ne => ?_
  rw [measures_losesHead k]
  exact loseHead_of_noContext ((same j ne).symm ▸ others j ne)

/-- Settles O17: nothing is due before the frame; the head that measures is the only one that the loss acts on. -/
theorem badAndMissedFramesAreCounted : Obligations.BadAndMissedFramesAreCounted := by
  refine ⟨fun f order position misses s h quiet pattern sum => ?_, fun f order position misses s h few quiet pattern => ?_,
    fun f order position s h quiet pattern => ?_,
    fun f order position n h b o c s aligned pattern owed others await timer short measures buses held nocand nostable => ?_⟩
    <;> refine congrArg Host.Outcome.next (?_ : inboundFrame f order s = _)
  · have bad : checkHolds f = false := by simp [checkHolds, sum]
    simp only [inboundFrame, h, pattern, if_true, (Still.ofQuiet quiet).calm.inboundDue, classAndTake, bad,
      Bool.false_eq_true, if_false]
    have quiet' : Quiet (countHighway (fun c => { c with badFrames := satInc c.badFrames })
      (s.setAlignment (.aligned (position + 768) 0))) := quiet
    exact takeFrame_bad_quiet quiet' f order
  · simp only [inboundFrame, h, pattern, Bool.false_eq_true, if_false, (Still.ofQuiet quiet).calm.inboundDue, missFrame,
      few, if_true]
    have quiet' : Quiet ((countHighway (fun c => { c with misses := satInc c.misses }) s).setAlignment
      (.aligned (position + 768) (misses + 1))) := quiet
    exact takeFrame_bad_quiet quiet' f order
  · simp only [inboundFrame, h, pattern, Bool.false_eq_true, if_false, (Still.ofQuiet quiet).calm.inboundDue, missFrame,
      Nat.lt_irrefl]
    obtain ⟨bus, head, -, waiting, -⟩ := quiet
    have lost (t : State) (hb : t.buses = s.buses) (hh : t.heads = s.heads) :
        allHeads.foldl loseHead (allBuses.foldl dropCandidate t) = t := by
      rw [dropCandidates_of_none fun b => hb ▸ (bus b).2.2]
      exact foldl_still (fun k => loseHead_of_noContext (hh ▸ (head k).2.2)) _
    rw [loseAlignment_eq (lost (searchBegun _ (countHighway _ s)) rfl rfl)]
    · rfl
    · exact waiting
  · have calm : Calm s := by
      refine ⟨fun k => ?_, fun k m e => ?_, fun k e => ?_, fun k e => ?_⟩
      · by_cases same : k = b
        · exact .inl (same ▸ held)
        · exact .inr fun m e => by rw [(buses k same).2.1] at e; cases e
      · by_cases same : k = h
        · rw [same, timer] at e
          exact Option.some.inj e ▸ short
        · rw [(others k same).2.1] at e; cases e
      all_goals
        by_cases same : k = h
        · rw [same, await] at e; cases e
        · rcases (others k same).1 with i | i <;> rw [e] at i <;> cases i
    simp only [inboundFrame, aligned, pattern, Bool.false_eq_true, if_false, calm.inboundDue, missFrame, Nat.lt_irrefl]
    have empty (k : BusNo) : s.buses[k].candidate = none ∧ s.buses[k].stable = 0 := by
      by_cases same : k = b
      · subst same
        exact ⟨nocand, nostable⟩
      · exact (buses k same).2.2
    obtain ⟨-, waiting, -⟩ := owed
    have lost (t : State) (hb : t.buses = s.buses) (hh : t.heads = s.heads) (hq : t.headQueue = s.headQueue)
        (ha : t.audio = s.audio) :
        allHeads.foldl loseHead (allBuses.foldl dropCandidate t) = stops h b o c .highwayLost t := by
      refine losesHeads_of_single ?_ (fun k ne => hh ▸ (others k ne).2.2) fun k => hb ▸ empty k
      unfold Measures NoAudio
      rw [hb, hh, hq, ha]
      exact measures
    rw [loseAlignment_eq (lost (searchBegun _ (countHighway _ s)) rfl rfl rfl rfl)]
    · simp only [stops, reports, pushNotice_eq]
      rfl
    · exact (stops_leaves h b o c .highwayLost _).1.trans waiting

/-! ### A seizure that fails (R29, R31, R32) -/

theorem isSweepHeld_of_settled {x : Bus} {y : Holder} {s : State} (h : x.holder = some y) (k : Settles y s)
    (waits : s.queue ≠ []) : x.isSweepHeld = false := by
  cases y with
  | origin o => exact k.elim
  | sweep d => exact absurd k.1 waits
  | retest n => exact isSweepHeld_of_retest h

/-- No grant follows a release of a bus whose holder settles: nothing waits, or the bus was not of a sweep. -/
theorem passAfter_of_settled {x : Bus} {y : Holder} {s t : State} (h : x.holder = some y) (k : Settles y s)
    (queue : t.queue = s.queue) : passAfter x t = t := by
  by_cases waits : s.queue = []
  · exact passAfter_of_empty x (queue.trans waits)
  · exact passAfter_of_notSweep (isSweepHeld_of_settled h k waits)

theorem tellSeizeFailed_settles {x : Holder} {s : State} (h : Settles x s) (b : BusNo) (line : Nat) (reason : Reason) :
    tellSeizeFailed b line (some x) reason s =
      told x (if reason = .noLine then .noLine else .deferred) reason none false s := by
  cases x with
  | origin o => exact h.elim
  | sweep d => exact sweepReport_eq h _ _
  | retest n =>
    obtain ⟨⟨t, l, ht, -⟩, -⟩ := h
    rw [told, retestRecord, ht]
    rfl

/-- An internal holder's seizure ends, the failure counted: its bus is released, and the holder told. -/
theorem failSeizure_settles {b : BusNo} {x : Bus} {c : BusCounters} {y : Holder} {line : Nat} {s : State}
    (hold : x.holder = some y) (hline : x.line = some line) (h : Settles y s) (cause reason : Reason) :
    failSeizure b cause reason (withCounts b c (withBus b x s)) =
      told y (if reason = .noLine then .noLine else .deferred) reason none false
        (withCounts b c (sends b {} (withBus b (breaking line cause x) s))) := by
  have own : (withCounts b c (withBus b x s)).buses[b] = x := withBus_self s b x
  have h' : Settles y (withCounts b c (sends b {} (withBus b (breaking line cause x) s))) := by cases y <;> exact h
  have released : breakBus b cause (withCounts b c (withBus b x s)) =
      withCounts b c (sends b {} (withBus b (breaking line cause x) s)) := by
    rw [breakBus_eq (line := line) (by rw [own]; exact hline), own, hold, settleDesk_of_settles h,
      ← withBus_withBus s b x (breaking line cause x)]
    rfl
  rw [failSeizure, released, own, hold, hline]
  exact (congrArg (passAfter x) (tellSeizeFailed_settles h' b _ reason)).trans
    (passAfter_of_settled hold h (told_only h' ..).queue)

/-- An outside holder's seizure ends, the failure counted: its bus is released, and SEIZE_FAILED queued. -/
theorem failSeizure_origin {b : BusNo} {x : Bus} {c : BusCounters} {o : Origin} {line : Nat} {s : State}
    (hold : x.holder = some (.origin o)) (hline : x.line = some line) (quiet : NoAudio b s) (cause reason : Reason) :
    failSeizure b cause reason (withCounts b c (withBus b x s)) =
      pushNotice o.val (.seizeFailed b line (.origin o) reason)
        (withCounts b c (sends b {} (withBus b (breaking line cause x) s))) := by
  have own : (withCounts b c (withBus b x s)).buses[b] = x := withBus_self s b x
  have released : breakBus b cause (withCounts b c (withBus b x s)) =
      withCounts b c (sends b {} (withBus b (breaking line cause x) s)) := by
    rw [breakBus_eq (line := line) (by rw [own]; exact hline), own, hold, settleDesk_of_noAudio]
    · rw [← withBus_withBus s b x (breaking line cause x)]
      rfl
    · exact quiet
  rw [failSeizure, released, own, hold, hline]
  exact passAfter_of_notSweep (isSweepHeld_of_origin hold)

theorem retestEnded_inconclusive {n l : Nat} {t : Ticket} {s : State} (ht : ticketByNumber n s = some t)
    (hline : t.subject = .line l) (hflight : ∃ r ∈ s.inFlight, r.ticket = n) (hrepair : s.repairList = [])
    (reason : Reason) : retestEnded n (.inconclusive reason) s = inconclusive t reason s := by
  obtain ⟨-, rfl⟩ := ticketByNumber_mem ht
  rw [retestEnded_line ht hline hflight hrepair, judgeLine, inconclusiveTicket_freePlace]

theorem retestRecord_unmeasured {n l : Nat} {t : Ticket} {s : State} (ht : ticketByNumber n s = some t)
    (hline : t.subject = .line l) (hflight : ∃ r ∈ s.inFlight, r.ticket = n) (hrepair : s.repairList = [])
    (reason : Reason) : retestRecord n reason none s = inconclusive t reason s := by
  rw [retestRecord, ht]
  exact retestEnded_inconclusive ht hline hflight hrepair reason

/-! ### A sweep line that ends with the suspension pending (R157, R163) -/

theorem deferLine_room {d : SweepNo} {line : Nat} {s : State} (room : s.sweeps[d].deferred.length < 16)
    (new : line ∉ s.sweeps[d].deferred) :
    deferLine d line .main s =
      withSweep d { s.sweeps[d] with
        deferred := s.sweeps[d].deferred ++ [line]
        counts := { s.sweeps[d].counts with deferred := raised s.sweeps[d].counts.deferred } } s :=
  if_pos ⟨room, new⟩

theorem leaveActive_pending {d : SweepNo} {line : Nat} {e : LineEnd} {s : State} (none : e.findings = 0)
    (pending : s.sweeps[d].suspendPending = true) :
    leaveActive d line e s = withSweep d { s.sweeps[d] with state := .suspended, suspendPending := false } s := by
  simp only [leaveActive, none, Nat.lt_irrefl, and_false, if_false, pending, if_true]
  rfl

/-- A line deferred in the main phase, with room in the list and the suspension pending. -/
theorem sweepLineEnded_defers {d : SweepNo} {line : Nat} {s : State} (flight : s.sweeps[d].inFlight = some (line, .main))
    (pending : s.sweeps[d].suspendPending = true) (room : s.sweeps[d].deferred.length < 16)
    (new : line ∉ s.sweeps[d].deferred) :
    sweepLineEnded d .deferred false s =
      withSweep d
        { stoppedWith { s.sweeps[d].counts with deferred := raised s.sweeps[d].counts.deferred } s.sweeps[d] with
          deferred := s.sweeps[d].deferred ++ [line] } s := by
  simp only [sweepLineEnded, flight, countLineEnd, Bool.false_eq_true, if_false]
  change leaveActive d line .deferred (deferLine d line .main (withSweep d { s.sweeps[d] with inFlight := none } s)) = _
  rw [deferLine_room (by rwa [withSweep_self]) (by rwa [withSweep_self]), withSweep_withSweep,
    leaveActive_pending rfl (by rw [withSweep_self, withSweep_self]; exact pending), withSweep_withSweep, withSweep_self, withSweep_self]
  rfl

/-! ### Expiries of the bus timers -/

theorem timerDue_of_reached {x : Bus} {state : BusState} {n limit : Nat} (st : x.state = state) (timer : x.timer = some n)
    (reached : limit ≤ n) : timerDue state limit x = true := by
  simp [timerDue, st, timer, reached]

theorem makeExpires_of_reached {s : State} {b : BusNo} {n : Nat} (st : s.buses[b].state = .seizing)
    (timer : s.buses[b].timer = some n) (reached : 240 ≤ n) :
    makeExpires b s =
      failSeizure b .makeTimeout .relayTimeout
        (withCounts b { s.busCounters[b] with makeTimeouts := raised s.busCounters[b].makeTimeouts }
          (withBus b { s.buses[b] with makeTimeouts := s.buses[b].makeTimeouts + 1, lateWatch := true } s)) :=
  if_pos (timerDue_of_reached st timer reached)

theorem guardExpires_of_reached {s : State} {b : BusNo} {n : Nat} (st : s.buses[b].state = .guard)
    (timer : s.buses[b].timer = some n) (reached : 800 ≤ n) :
    guardExpires b s =
      failSeizure b .conditionUnknown .conditionUnknown
        (withCounts b { s.busCounters[b] with guardRefusals := raised s.busCounters[b].guardRefusals }
          (withBus b s.buses[b] s)) := by
  rw [withBus_same]
  exact if_pos (timerDue_of_reached st timer reached)

/-- A bad or missed frame that brings no bus timer to a limit, with the heads quiet (R25). -/
theorem takeFrame_bad_ticking {s : State} (owed : NoneOwed s) (heads : ∀ h : HeadNo, QuietHead h s)
    (short : ∀ (b : BusNo) (n : Nat), s.buses[b].timer = some n → n < 159) (f : Frame) (order : List Act) :
    takeFrame false f order s = { s with buses := s.buses.map fun x => { x with timer := x.timer.map (· + 1) } } := by
  have ticks : tickTimers s = { s with buses := s.buses.map fun x => { x with timer := x.timer.map (· + 1) } } := by
    rw [tickTimers_eq, map_stopped_heads fun k => (heads k).2.1]
  obtain ⟨-, waiting, noneOwed⟩ := owed
  rw [← ticks]
  refine takeFrame_bad ?_ f order
  rw [ticks]
  refine ⟨⟨fun b => .inr fun n e => ?_, fun k n e => ?_, fun k e => ?_, fun k e => ?_⟩, waiting, noneOwed, fun k c e => ?_⟩
  · obtain ⟨m, hm, rfl⟩ : ∃ m, s.buses[b].timer = some m ∧ m + 1 = n := by simpa using e
    exact Nat.succ_lt_succ (short b m hm)
  · rw [(heads k).2.1] at e; cases e
  · rcases (heads k).1 with i | i <;> rw [e] at i <;> cases i
  · rcases (heads k).1 with i | i <;> rw [e] at i <;> cases i
  · rw [(heads k).2.2] at e; cases e

/-- Settles O22. -/
theorem busTimersExpire : Obligations.BusTimersExpire := by
  refine ⟨fun b o line n s st timer reached hold hline quiet => ?_, fun b o line n s st timer reached hold hline quiet => ?_,
    fun b line n s st timer reached hline => ?_,
    fun b d line n s st timer reached hold hline queue flight pending room new => ?_,
    fun b t line n l s st timer reached hold hline ht subject flight repair => ?_,
    fun f order position misses s h few pattern owed heads short => ?_,
    fun b s => ⟨fun h => congrArg _ (makeExpires_of_short h), fun h => congrArg _ (guardExpires_of_short h),
      fun h => congrArg _ (releaseExpires_of_short h)⟩⟩
  · refine congrArg Host.Outcome.next ((makeExpires_of_reached st timer reached).trans ?_)
    exact failSeizure_origin (s := s)
      (x := { s.buses[b] with makeTimeouts := s.buses[b].makeTimeouts + 1, lateWatch := true }) hold hline quiet _ _
  · refine congrArg Host.Outcome.next ((guardExpires_of_reached st timer reached).trans ?_)
    exact failSeizure_origin (s := s) hold hline quiet _ _
  · refine congrArg Host.Outcome.next ((if_pos (timerDue_of_reached st timer reached)).trans ?_)
    rw [← hline]
    rfl
  · refine congrArg Host.Outcome.next ((makeExpires_of_reached st timer reached).trans ?_)
    rw [failSeizure_settles (s := s) (y := .sweep d)
      (x := { s.buses[b] with makeTimeouts := s.buses[b].makeTimeouts + 1, lateWatch := true }) hold hline
      ⟨queue, pending⟩]
    exact sweepLineEnded_defers (s := withCounts ..) flight pending room new
  · refine congrArg Host.Outcome.next ((guardExpires_of_reached st timer reached).trans ?_)
    rw [failSeizure_settles (s := s) (y := .retest t.number) hold hline ⟨⟨t, l, ht, subject⟩, repair⟩]
    exact retestRecord_unmeasured (t := t) (by exact ht) subject (by exact flight) (by exact repair) _
  · refine congrArg Host.Outcome.next (?_ : inboundFrame f order s = _)
    have calm : Calm s := by
      refine ⟨fun b => .inr fun n e => ?_, fun k n e => ?_, fun k e => ?_, fun k e => ?_⟩
      · exact Nat.lt_trans (short b n e) (by decide)
      · rw [(heads k).2.1] at e; cases e
      all_goals rcases (heads k).1 with i | i <;> rw [e] at i <;> cases i
    simp only [inboundFrame, h, pattern, Bool.false_eq_true, if_false, calm.inboundDue, missFrame, few, if_true]
    exact takeFrame_bad_ticking
      (s := (countHighway _ s).setAlignment (.aligned (position + Config.frameBits) (misses + 1))) owed heads short f order

end Sys2Proof.Proofs
end

section
/-! Conditions accepted (R26, R31, R33): the end of an aborted measurement, and O20 and O21. -/

namespace Sys2Proof.Proofs

open Sys2Proof.Machine Sys2Proof.Stated

/-! ### The report of a measurement to its internal holder (R86) -/

theorem settles_pushNotice {x : Holder} {s : State} (h : Settles x s) (a : Nat) (n : NoticeBody) :
    Settles x (pushNotice a n s) := by
  rw [pushNotice_eq]
  cases x <;> exact h

theorem reportMeasurement_settles {m : Measurement} {x : Holder} {outcome : Reason} {s : State} (hold : m.holder = x)
    (h : Settles x s) (plain : m.evaluated outcome = false) (b : BusNo) (cond : LineCond) :
    reportMeasurement b m outcome cond s =
      told x (lineEndOf outcome none) outcome none (cond == .locked)
        (pushNotice 6 (.measurementResult (m.record b outcome)) s) := by
  simp only [reportMeasurement, hold, plain, Bool.false_eq_true, if_false, addressee_of_settles h]
  exact tellRecord_eq (settles_pushNotice h ..) outcome none cond

/-! ### A measurement that another event ends (R67, R69, R86) -/

/-- The measurement of an outside holder, ended by an event that decides the bus itself. -/
theorem endMeasurement_aborts {h : HeadNo} {b : BusNo} {o : Origin} {c : Context} {s : State} (k : Measures h b o c s)
    {outcome : Reason} (aborts : leavesByR69 outcome = false) (cond : LineCond) :
    endMeasurement b c.measurement outcome cond s =
      rested h b (pushNotice o.val (.measurementResult (c.measurement.record b outcome)) s) := by
  obtain ⟨-, -, hhead, hold, -, nowait⟩ := k
  have plain : c.measurement.evaluated outcome = false := evaluated_of_ne (by rintro rfl; cases aborts)
  simp only [endMeasurement, leaveQueue_of_notWaiting nowait, reportMeasurement_origin (m := c.measurement) hold plain,
    aborts, Bool.false_eq_true, if_false]
  exact returnHead_of_some (by rw [pushNotice_buses]; exact hhead)

/-- With the bus put in STANDBY after it, such an end is that of R69. -/
theorem abort_enters_standby {h : HeadNo} {b : BusNo} {o : Origin} {c : Context} {s : State} (k : Measures h b o c s)
    {outcome : Reason} (aborts : leavesByR69 outcome = false) (cond : LineCond) :
    enterMode b .standby (endMeasurementOn b outcome cond s) = stops h b o c outcome s := by
  obtain ⟨-, hc, hhead, hold, quiet, -⟩ := id k
  rw [endMeasurementOn, measurementOn_head hhead hc]
  simp only [endMeasurement_aborts k aborts, enterMode_standby]
  rw [settleDesk_of_noAudio]
  · rw [stops, reports, ← hold]
    simp only [pushNotice_eq]
    rfl
  · simp only [pushNotice_eq]
    exact quiet

/-- The place of an outside holder's bus in the head wait queue is lost with its measurement. -/
theorem endMeasurement_waits {b : BusNo} {o : Origin} {e : HeadWait} {rest : List HeadWait} {s : State}
    (nohead : s.buses[b].head = none) (first : s.headQueue = e :: rest) (he : e.bus = b) (hold : e.holder = .origin o)
    (others : ∀ x ∈ rest, x.bus ≠ b) {outcome : Reason} (aborts : leavesByR69 outcome = false) (cond : LineCond) :
    endMeasurement b e.measurement outcome cond s =
      pushNotice o.val (.measurementResult (e.measurement.record b outcome)) { s with headQueue := rest } := by
  have plain : e.measurement.evaluated outcome = false := evaluated_of_ne (by rintro rfl; cases aborts)
  simp only [endMeasurement, leaveQueue_of_first first he others, reportMeasurement_origin (m := e.measurement) hold plain,
    aborts, Bool.false_eq_true, if_false]
  exact returnHead_of_none (by rw [pushNotice_buses]; exact nohead)

theorem waits_enters_standby {b : BusNo} {o : Origin} {e : HeadWait} {rest : List HeadWait} {s : State}
    (nohead : s.buses[b].head = none) (quiet : NoAudio b s) (first : s.headQueue = e :: rest) (he : e.bus = b)
    (hold : e.holder = .origin o) (others : ∀ x ∈ rest, x.bus ≠ b) {outcome : Reason}
    (aborts : leavesByR69 outcome = false) (cond : LineCond) :
    enterMode b .standby (endMeasurementOn b outcome cond s) =
      enters b .standby none none {}
        (pushNotice o.val
          (.measurementResult { line := e.line, bus := b, program := e.program, holder := .origin o, outcome := outcome
                                results := [] })
          { s with headQueue := rest }) := by
  rw [endMeasurementOn, measurementOn_first nohead first he]
  simp only [endMeasurement_waits nohead first he hold others aborts, enterMode_standby]
  rw [settleDesk_of_noAudio, ← hold]
  · rfl
  · simp only [pushNotice_eq]
    exact quiet

/-- The measurement of an internal holder on a head, ended by an event that decides the bus itself. -/
theorem endMeasurement_aborts_internal {h : HeadNo} {b : BusNo} {x : Holder} {c : Context} {s : State}
    (hhead : s.buses[b].head = some h) (hold : c.holder = x) (nowait : ∀ e ∈ s.headQueue, e.bus ≠ b) (k : Settles x s)
    {outcome : Reason} (aborts : leavesByR69 outcome = false) (cond : LineCond) :
    endMeasurement b c.measurement outcome cond s =
      rested h b (told x (lineEndOf outcome none) outcome none (cond == .locked)
        (pushNotice 6 (.measurementResult (c.measurement.record b outcome)) s)) := by
  have plain : c.measurement.evaluated outcome = false := evaluated_of_ne (by rintro rfl; cases aborts)
  simp only [endMeasurement, leaveQueue_of_notWaiting nowait, reportMeasurement_settles (m := c.measurement) hold k plain,
    aborts, Bool.false_eq_true, if_false]
  exact returnHead_of_some (by rw [(told_only (settles_pushNotice k ..) ..).buses, pushNotice_buses]; exact hhead)

theorem endMeasurement_waits_internal {b : BusNo} {x : Holder} {e : HeadWait} {rest : List HeadWait} {s : State}
    (nohead : s.buses[b].head = none) (first : s.headQueue = e :: rest) (he : e.bus = b) (hold : e.holder = x)
    (others : ∀ y ∈ rest, y.bus ≠ b) (k : Settles x s) {outcome : Reason} (aborts : leavesByR69 outcome = false)
    (cond : LineCond) :
    endMeasurement b e.measurement outcome cond s =
      told x (lineEndOf outcome none) outcome none (cond == .locked)
        (pushNotice 6 (.measurementResult (e.measurement.record b outcome)) { s with headQueue := rest }) := by
  have plain : e.measurement.evaluated outcome = false := evaluated_of_ne (by rintro rfl; cases aborts)
  have k' : Settles x { s with headQueue := rest } := by cases x <;> exact k
  simp only [endMeasurement, leaveQueue_of_first first he others,
    reportMeasurement_settles (m := e.measurement) hold k' plain, aborts, Bool.false_eq_true, if_false]
  exact returnHead_of_none (by rw [(told_only (settles_pushNotice k' ..) ..).buses, pushNotice_buses]; exact nohead)

/-! ### The eighth frame with a condition (R26) -/

theorem debounce_eighth {b : BusNo} {c : LineCond} {s : State} (on : s.buses[b].state = .guard ∨ s.buses[b].state = .held)
    (k : EighthOf b c s) : debounce b (some c) s = acceptCond b c s := by
  obtain ⟨new, candidate, seven⟩ := k
  refine (if_pos on).trans ((if_neg new).trans ((if_pos candidate).trans (if_neg ?_)))
  rw [seven]
  decide

/-- A bus record on which a condition is accepted (R26). -/
def condAccepted (c : LineCond) (x : Bus) : Bus := { x with accepted := c, candidate := none, stable := 0 }

theorem acceptCond_guard {b : BusNo} {s : State} (h : s.buses[b].state = .guard) (c : LineCond) :
    acceptCond b c s = guardAccepted b c (withBus b (condAccepted c s.buses[b]) s) := if_pos h

theorem acceptCond_held {b : BusNo} {s : State} (h : s.buses[b].state = .held) (c : LineCond) :
    acceptCond b c s = heldAccepted b s.buses[b].accepted c (withBus b (condAccepted c s.buses[b]) s) :=
  if_neg (by rw [h]; decide)

/-! ### Acceptance in GUARD (R31) -/

section
variable {b : BusNo} {x : Bus} {s : State}

/-- A bus that GUARD lets be held (R31). -/
def heldFrom (busy : Bool) (x : Bus) : Bus := { x with state := .held, timer := none, busy := busy }

theorem setBus_heldFrom (busy : Bool) :
    (withBus b x s).setBus b { (withBus b x s).buses[b] with state := .held, timer := none, busy := busy } =
      withBus b (heldFrom busy x) s := by
  rw [withBus_self]
  exact withBus_withBus ..

theorem enters_self (mode : Mode) (tone : Option ToneNo) (warning : Option Nat) (e : PathEntry) :
    (enters b mode tone warning e (withBus b x s)).buses[b] = inMode mode tone warning x := by
  rw [enters, withBus_self]
  exact withBus_self ..

/-- An outside holder's bus is held, in STANDBY, and BUS_HELD queued. -/
theorem tellHeld_origin {o : Origin} {line : Nat} (hold : x.holder = some (.origin o)) (hline : x.line = some line)
    (quiet : NoAudio b s) (busy : Bool) :
    tellHeld b (holdBus b busy .standby (withBus b x s)) =
      pushNotice o.val (.busHeld b line (.origin o) x.accepted busy)
        (enters b .standby none none {} (withBus b (heldFrom busy x) s)) := by
  have held : holdBus b busy .standby (withBus b x s) = enters b .standby none none {} (withBus b (heldFrom busy x) s) := by
    rw [holdBus, setBus_heldFrom, enterMode_standby, settleDesk_of_noAudio]
    exact quiet
  rw [held, tellHeld, enters_self, inMode, heldFrom, hold, hline]
  rfl

/-- An internal holder's bus is held in MEASURE; no desk hears it. -/
theorem holdBus_measure {y : Holder} (hold : x.holder = some y) (internal : isOutside y = false) :
    holdBus b false .measure (withBus b x s) = enters b .measure none none {} (withBus b (heldFrom false x) s) := by
  rw [holdBus, setBus_heldFrom, enterMode_measure, withBus_self, heldFrom, hold]
  cases y with
  | origin o => cases internal
  | _ => rfl

theorem hasMonitorBusy_origin (o : Origin) (s : State) :
    hasMonitorBusy (some (.origin o)) s = true ↔ ∃ h : o.val < 6, s.site.authority[o.val].monitorBusy = true := by
  unfold hasMonitorBusy holderDesk deskOf
  by_cases h : o.val < 6 <;> simp [h]

theorem not_hasMonitorBusy_origin {o : Origin} (h : ∀ h : o.val < 6, s.site.authority[o.val].monitorBusy = false) :
    hasMonitorBusy (some (.origin o)) s = false := by
  refine Bool.eq_false_iff.2 fun yes => ?_
  obtain ⟨desk, busy⟩ := (hasMonitorBusy_origin o s).1 yes
  rw [h desk] at busy
  cases busy

theorem internal_noMonitor {y : Holder} {t : State} (h : Settles y t) (s : State) : hasMonitorBusy (some y) s = false := by
  cases y with
  | origin o => exact h.elim
  | _ => rfl

/-- A GUARD that ends without a hold is counted, and its seizure fails. -/
theorem refuseGuard_eq (b : BusNo) (x : Bus) (reason : Reason) (s : State) :
    refuseGuard b reason (withBus b x s) =
      failSeizure b reason reason
        (withCounts b { s.busCounters[b] with guardRefusals := raised s.busCounters[b].guardRefusals }
          (withBus b x s)) := rfl

end

/-- What a refused GUARD is refused with (R31). -/
theorem guardAccepted_refuses {b : BusNo} {c : LineCond} {s : State}
    (h : c = .noLine ∨ (c = .call ∨ c = .ringing) ∧ hasMonitorBusy s.buses[b].holder s = false) :
    guardAccepted b c s = refuseGuard b (if c = .noLine then .noLine else .lineBusy) s := by
  rcases h with rfl | ⟨rfl | rfl, no⟩
  · rfl
  · simp only [guardAccepted, no]; rfl
  · simp only [guardAccepted, no]; rfl

theorem guardAccepted_holds_origin {b : BusNo} {o : Origin} {line : Nat} {x : Bus} {c : LineCond} {s : State}
    (hold : x.holder = some (.origin o)) (hline : x.line = some line) (quiet : NoAudio b s)
    (h : c = .idle ∨ c = .locked ∨
      ((c = .call ∨ c = .ringing) ∧ ∃ h : o.val < 6, s.site.authority[o.val].monitorBusy = true)) :
    guardAccepted b c (withBus b x s) =
      pushNotice o.val (.busHeld b line (.origin o) x.accepted (c == .call || c == .ringing))
        (enters b .standby none none {}
          (withBus b { x with state := .held, timer := none, busy := c == .call || c == .ringing } s)) := by
  have own : (withBus b x s).buses[b].holder = some (.origin o) := by rw [withBus_self]; exact hold
  have free : holdFor b (withBus b x s) = tellHeld b (holdBus b false .standby (withBus b x s)) := by
    simp only [holdFor, own]
    rfl
  rcases h with rfl | rfl | ⟨rfl | rfl, monitors⟩
  · exact free.trans (tellHeld_origin hold hline quiet false)
  · exact free.trans (tellHeld_origin hold hline quiet false)
  all_goals
    have yes := (hasMonitorBusy_origin o (withBus b x s)).2 monitors
    simp only [guardAccepted, own, yes, if_true]
    exact tellHeld_origin hold hline quiet true

/-! ### An internal holder's bus joins the head wait queue (R31, R75, R78) -/

theorem assignmentPass_stays {s : State} (h : idleHead s = none ∨ s.alignment.isAligned = false) : assignmentPass s = s := by
  rcases h with none | unaligned
  · unfold assignmentPass
    split
    · simp only [assignSteps, none]
    · rfl
  · exact if_neg (by rw [unaligned]; exact Bool.false_ne_true)

theorem programSteps_eq (p : Fin 16) (s : State) : programSteps p.val s = s.programs[p] := by
  simp [programSteps, List.getD]

theorem internalProgram_of_lends {x : Holder} {line : Nat} {p : Fin 16} {evaluate : Bool} {s : State}
    (h : Lends x line p evaluate s) : internalProgram x line s = p.val ∧ internalEvaluate x s = evaluate := by
  cases x with
  | origin o => exact h.elim
  | sweep d =>
    obtain ⟨c, hc, program, flag⟩ := h
    simp only [internalProgram, internalEvaluate, hc, Option.map_some, Option.getD_some]
    exact ⟨program, flag⟩
  | retest n =>
    obtain ⟨flag, t, ht, h⟩ := h
    refine ⟨?_, flag.symm⟩
    simp only [internalProgram, ht]
    rcases h with ⟨isLine, program⟩ | ⟨isCable, m, hm, program⟩
    · simp only [isLine, if_true, program]
    · simp only [isCable, Bool.false_eq_true, if_false, hm, program]

/-- What a holder lends stands with the descriptors and the tickets. -/
theorem lends_congr {x : Holder} {line : Nat} {p : Fin 16} {evaluate : Bool} {s t : State} (h : Lends x line p evaluate s)
    (sweeps : t.sweeps = s.sweeps) (tickets : t.tickets = s.tickets) : Lends x line p evaluate t := by
  cases x with
  | origin o => exact h.elim
  | sweep d =>
    obtain ⟨c, hc, given⟩ := h
    exact ⟨c, by rw [sweeps]; exact hc, given⟩
  | retest n =>
    obtain ⟨flag, u, hu, given⟩ := h
    exact ⟨flag, u, by rw [ticketByNumber, tickets]; exact hu, given⟩

theorem lends_internal {x : Holder} {line : Nat} {p : Fin 16} {evaluate : Bool} {s : State}
    (h : Lends x line p evaluate s) : isOutside x = false := by
  cases x with
  | origin o => exact h.elim
  | _ => rfl

/-- An internal holder's bus finds its program, a head in service and none that is IDLE: it waits. -/
theorem joinInternal_waits {x : Holder} {line : Nat} {p : Fin 16} {evaluate : Bool} {s : State}
    (h : Lends x line p evaluate s) (steps : s.programs[p] ≠ []) (inService : headInService s = true)
    (stays : idleHead s = none ∨ s.alignment.isAligned = false) (b : BusNo) :
    joinInternal b x line s =
      { s with
        headQueue := s.headQueue ++
          [{ bus := b, program := p.val, steps := s.programs[p], evaluate := evaluate, holder := x, line := line }]
        freeCount := s.freeCount + 1 } := by
  obtain ⟨program, flag⟩ := internalProgram_of_lends h
  have some : s.programs[p].isEmpty = false := by simpa using steps
  have service : headInService { s with freeCount := s.freeCount + 1 } = true := inService
  simp only [joinInternal, program, flag, programSteps_eq, joinHeadQueue, some, service, Bool.and_false, Bool.not_true,
    Bool.false_and, Bool.false_eq_true, if_false]
  exact assignmentPass_stays stays

/-- Settles O20: the acceptance of the eighth frame, by condition and holder. -/
theorem guardAcceptsCondition : Obligations.GuardAcceptsCondition := by
  refine ⟨fun b o line c s st hold hline quiet new cand seven how => ?_,
    fun b o line c s st hold hline quiet new cand seven how => ?_,
    fun b x line p evaluate c s st hold hline eighth free lends steps inService stays => ?_,
    fun b x line c s st hold hline settles eighth how => ?_⟩
  · rw [debounce_eighth (.inl st) ⟨new, cand, seven⟩, acceptCond_guard st, guardAccepted_holds_origin
      (x := condAccepted c s.buses[b]) hold hline quiet how]
    rfl
  · have refused : c = .noLine ∨ (c = .call ∨ c = .ringing) ∧
        hasMonitorBusy (withBus b (condAccepted c s.buses[b]) s).buses[b].holder (withBus b (condAccepted c s.buses[b]) s) = false := by
      refine how.imp_right fun ⟨call, no⟩ => ⟨call, ?_⟩
      rw [withBus_self, condAccepted, hold]
      exact not_hasMonitorBusy_origin no
    rw [debounce_eighth (.inl st) ⟨new, cand, seven⟩, acceptCond_guard st, guardAccepted_refuses refused, refuseGuard_eq,
      failSeizure_origin (x := condAccepted c s.buses[b]) hold hline quiet]
    rfl
  · have accepted : guardAccepted b c (withBus b (condAccepted c s.buses[b]) s) =
        holdFor b (withBus b (condAccepted c s.buses[b]) s) := by rcases free with rfl | rfl <;> rfl
    have joins : holdFor b (withBus b (condAccepted c s.buses[b]) s) = joinInternal b x line
        (holdBus b false .measure (withBus b (condAccepted c s.buses[b]) s)) := by
      rw [holdFor, withBus_self, condAccepted, hold, hline]
      exact if_neg (Bool.eq_false_iff.1 (lends_internal lends))
    rw [debounce_eighth (.inl st) eighth, acceptCond_guard st, accepted, joins,
      holdBus_measure (x := condAccepted c s.buses[b]) hold (lends_internal lends)]
    rw [joinInternal_waits (p := p) (evaluate := evaluate)]
    · rfl
    · exact lends_congr lends rfl rfl
    · exact steps
    · exact inService
    · exact stays
  · have refused : c = .noLine ∨ (c = .call ∨ c = .ringing) ∧
        hasMonitorBusy (withBus b (condAccepted c s.buses[b]) s).buses[b].holder (withBus b (condAccepted c s.buses[b]) s) = false := by
      rw [withBus_self, condAccepted, hold]
      rcases how with call | call | noLine
      · exact .inr ⟨.inl call, internal_noMonitor settles _⟩
      · exact .inr ⟨.inr call, internal_noMonitor settles _⟩
      · exact .inl noLine
    rw [debounce_eighth (.inl st) eighth, acceptCond_guard st, guardAccepted_refuses refused, refuseGuard_eq,
      failSeizure_settles (x := condAccepted c s.buses[b]) hold hline settles]
    rcases how with rfl | rfl | rfl <;> rfl

/-! ### Acceptance in HELD (R33) -/

section
variable {b : BusNo} {c : LineCond} {s : State}

/-- A held bus that has accepted a condition: the BUSY restriction follows (R33). -/
def heldAccepting (c : LineCond) (x : Bus) : Bus := { condAccepted c x with busy := busyAfter c x.busy }

theorem setBus_heldAccepting (x : Bus) :
    (withBus b (condAccepted c x) s).setBus b
        { (withBus b (condAccepted c x) s).buses[b] with
          busy := busyAfter c (withBus b (condAccepted c x) s).buses[b].busy } =
      withBus b (heldAccepting c x) s := by
  rw [withBus_self]
  exact withBus_withBus ..

theorem tellChanged_origin {o : Origin} {line : Nat} {x : Bus} (hold : x.holder = some (.origin o))
    (hline : x.line = some line) (old : LineCond) :
    tellChanged b old (withBus b (heldAccepting c x) s) =
      pushNotice o.val (.conditionChanged b line (.origin o) old c (busyAfter c x.busy))
        (withBus b (heldAccepting c x) s) := by
  rw [tellChanged, withBus_self, heldAccepting, condAccepted, hold, hline]
  rfl

theorem tellChanged_internal {y : Holder} {x : Bus} (hold : x.holder = some y) (internal : isOutside y = false)
    (old : LineCond) :
    tellChanged b old (withBus b (heldAccepting c x) s) = withBus b (heldAccepting c x) s := by
  rw [tellChanged, withBus_self, heldAccepting, condAccepted, hold]
  cases y with
  | origin o => cases internal
  | _ => rfl

/-- An internal holder's bus is released on a call, its measurement ended (R33, R34). -/
theorem callInternal_eq {y : Holder} {line : Nat} {x : Bus} {m : Measurement} (hold : x.holder = some y)
    (hline : x.line = some line) (settles : Settles y s) (hm : measurementOn b (withBus b x s) = some m) (old : LineCond) :
    callInternal b old (withBus b x s) =
      passAfter x (endMeasurement b m .abortedCall old (sends b {} (withBus b (breaking line .call x) s))) := by
  have released : breakBus b .call (withBus b x s) = sends b {} (withBus b (breaking line .call x) s) := by
    rw [breakBus_eq (line := line) (by rw [withBus_self]; exact hline), withBus_self, hold, settleDesk_of_settles settles,
      withBus_withBus]
  rw [callInternal, released, withBus_self]
  simp only [hm]

theorem isCall_iff : c.isCall = true ↔ c = .call ∨ c = .ringing := by cases c <;> decide

theorem heldAccepted_eq {old : LineCond} {x : Bus} :
    heldAccepted b old c (withBus b (condAccepted c x) s) =
      if c.isCall && !old.isCall then
        if x.holder.any isOutside then callOutside b old (tellChanged b old (withBus b (heldAccepting c x) s))
        else callInternal b old (tellChanged b old (withBus b (heldAccepting c x) s))
      else tellChanged b old (withBus b (heldAccepting c x) s) := by
  rw [heldAccepted, setBus_heldAccepting, withBus_self]
  rfl

end

/-- Settles O21: a call is told apart by what the bus held before; its measurement is on a head or waits for one. -/
theorem heldAcceptsCondition : Obligations.HeldAcceptsCondition := by
  have first {c old : LineCond} (call : c = .call ∨ c = .ringing) (nocall : old ≠ .call) (noring : old ≠ .ringing) :
      (c.isCall && !old.isCall) = true := by
    have : old.isCall = false := Bool.eq_false_iff.2 fun h => (isCall_iff.1 h).elim nocall noring
    rw [isCall_iff.2 call, this]
    rfl
  have busy {c : LineCond} (call : c = .call ∨ c = .ringing) (y : Bool) : busyAfter c y = true :=
    if_pos (isCall_iff.2 call)
  refine ⟨fun b o line c s st hold hline mode new cand seven => ?_,
    fun b h o line x c s st hold hline mode measures eighth call nocall noring => ?_,
    fun b o line e rest c s st hold hline mode nohead quiet queue he eh others eighth call nocall noring => ?_,
    fun b h x line m c s st hold hline hhead hctx mh nowait settles eighth call nocall noring => ?_,
    fun b x line e rest c s st hold hline nohead queue he eh others settles eighth call nocall noring => ?_⟩
  · have stays (t : State) (n : t.buses[b].mode ≠ some .measure) (old : LineCond) : callOutside b old t = t := if_neg n
    have outside : s.buses[b].holder.any isOutside = true := by rw [hold]; rfl
    have after : busyAfter c s.buses[b].busy =
        if c = .call ∨ c = .ringing then true else if c = .idle then false else s.buses[b].busy := by
      simp only [busyAfter, isCall_iff]
    rw [debounce_eighth (.inr st) ⟨new, cand, seven⟩, acceptCond_held st, heldAccepted_eq, if_pos outside,
      tellChanged_origin hold hline, stays, ite_self, ← after]
    · rfl
    · rw [pushNotice_buses, withBus_self]
      exact mode
  · have outside : s.buses[b].holder.any isOutside = true := by rw [hold]; rfl
    rw [debounce_eighth (.inr st) eighth, acceptCond_held st, heldAccepted_eq, if_pos (first call nocall noring),
      if_pos outside, tellChanged_origin hold hline, busy call]
    have measures' : Measures h b o x (pushNotice o.val (.conditionChanged b line (.origin o) s.buses[b].accepted c true)
        (withBus b (heldAccepting c s.buses[b]) s)) := by
      obtain ⟨hb, hc, hhead, hold', quiet, nowait⟩ := measures
      simp only [pushNotice_eq]
      exact ⟨hb, hc, by rw [withBus_self]; exact hhead, hold', quiet, nowait⟩
    refine (if_pos ?_).trans ((abort_enters_standby measures' rfl _).trans ?_)
    · rw [pushNotice_buses, withBus_self]
      exact mode
    · rw [heldAccepting, busy call]
      rfl
  · have outside : s.buses[b].holder.any isOutside = true := by rw [hold]; rfl
    rw [debounce_eighth (.inr st) eighth, acceptCond_held st, heldAccepted_eq, if_pos (first call nocall noring),
      if_pos outside, tellChanged_origin hold hline, busy call, callOutside, pushNotice_buses, withBus_self]
    refine (if_pos mode).trans ?_
    have nohead' : (pushNotice o.val (.conditionChanged b line (.origin o) s.buses[b].accepted c true)
        (withBus b (heldAccepting c s.buses[b]) s)).buses[b].head = none := by
      rw [pushNotice_buses, withBus_self]; exact nohead
    have queue' : (pushNotice o.val (.conditionChanged b line (.origin o) s.buses[b].accepted c true)
        (withBus b (heldAccepting c s.buses[b]) s)).headQueue = e :: rest := by
      rw [pushNotice_headQueue]; exact queue
    rw [waits_enters_standby nohead' (by simp only [pushNotice_eq]; exact quiet) queue' he eh others rfl, heldAccepting,
      busy call]
    simp only [pushNotice_eq]
    rfl
  · have internal : ¬(s.buses[b].holder.any isOutside = true) := by
      rw [hold]; exact Bool.eq_false_iff.1 (isOutside_of_settles settles)
    have hm : measurementOn b (withBus b (heldAccepting c s.buses[b]) s) = some m.measurement :=
      measurementOn_head (by rw [withBus_self]; exact hhead) hctx
    have settles' : Settles x (sends b {} (withBus b (breaking line .call (heldAccepting c s.buses[b])) s)) := by
      cases x <;> exact settles
    have own (y : Bus) : (sends b {} (withBus b y s)).buses[b] = y := withBus_self ..
    rw [debounce_eighth (.inr st) eighth, acceptCond_held st, heldAccepted_eq, if_pos (first call nocall noring),
      if_neg internal, tellChanged_internal hold (isOutside_of_settles settles),
      callInternal_eq (x := heldAccepting c s.buses[b]) hold hline settles hm,
      endMeasurement_aborts_internal (h := h)
        (s := sends b {} (withBus b (breaking line .call (heldAccepting c s.buses[b])) s)) (by rw [own]; exact hhead) mh nowait settles' rfl,
      passAfter_of_settled (x := heldAccepting c s.buses[b]) hold settles]
    · rw [← mh]
      rfl
    · exact (told_only (settles_pushNotice settles' ..) ..).queue.trans (pushNotice_queue ..)
  · have internal : ¬(s.buses[b].holder.any isOutside = true) := by
      rw [hold]; exact Bool.eq_false_iff.1 (isOutside_of_settles settles)
    have hm : measurementOn b (withBus b (heldAccepting c s.buses[b]) s) = some e.measurement :=
      measurementOn_first (by rw [withBus_self]; exact nohead) queue he
    have settles' : Settles x (sends b {} (withBus b (breaking line .call (heldAccepting c s.buses[b])) s)) := by
      cases x <;> exact settles
    have own (y : Bus) : (sends b {} (withBus b y s)).buses[b] = y := withBus_self ..
    rw [debounce_eighth (.inr st) eighth, acceptCond_held st, heldAccepted_eq, if_pos (first call nocall noring),
      if_neg internal, tellChanged_internal hold (isOutside_of_settles settles),
      callInternal_eq (x := heldAccepting c s.buses[b]) hold hline settles hm,
      endMeasurement_waits_internal
        (s := sends b {} (withBus b (breaking line .call (heldAccepting c s.buses[b])) s)) (by rw [own]; exact nohead) queue he eh others settles' rfl,
      passAfter_of_settled (x := heldAccepting c s.buses[b]) hold settles]
    · rw [← eh]
      rfl
    · refine (told_only (settles_pushNotice ?_ ..) ..).queue.trans (pushNotice_queue ..)
      cases x <;> exact settles

end Sys2Proof.Proofs
end

section
/-! Heads in a frame (R73, R74, R80, R88): the echo, heads that go out of service, phases that begin; then O23 and O24. -/

namespace Sys2Proof.Proofs

open Sys2Proof.Machine Sys2Proof.Stated

/-! ### The echo (R73, R74) -/

theorem echoAgainst_fault {w : HeadWord} {status : Word} (h : status.getLsbD 3 = true) : echoAgainst w status = .fault :=
  if_pos h

theorem echoAgainst_matching {w : HeadWord} {status : Word} (h : Matches status w) : echoAgainst w status = .matching := by
  obtain ⟨nofault, ready, echo⟩ := h
  have clear : ¬(faultFlag status = true) := Bool.eq_false_iff.1 nofault
  refine (if_neg clear).trans (if_pos ?_)
  rw [show readyFlag status = true from ready, show echoOf status = _ from echo]
  simp

theorem echoAgainst_departs {w : HeadWord} {status : Word} (h : Departs status w) : echoAgainst w status = .other := by
  obtain ⟨nofault, departs⟩ := h
  have clear : ¬(faultFlag status = true) := Bool.eq_false_iff.1 nofault
  refine (if_neg clear).trans (if_neg fun match_ => ?_)
  obtain ⟨ready, echo⟩ := (Bool.and_eq_true ..).mp match_
  rcases departs with unready | other
  · exact absurd ready (Bool.eq_false_iff.1 unready)
  · exact other (beq_iff_eq.1 echo)

/-! ### The words of a head, by its state (R73) -/

section
variable {h : HeadNo} {w : HeadWords} {s : State}

theorem echoed_head : (echoed h w.status s).heads[h] = { s.heads[h] with echoed := w.status &&& 0xFFE0#16 } :=
  withHead_self ..

/-- A good frame's words act after the echo is kept. -/
theorem headFrame_good (good : w.good = true) :
    headFrame h w s =
      match s.heads[h].state with
      | .idle => if faultFlag w.status then headOut h .faultFlag (echoed h w.status s) else echoed h w.status s
      | .returning => returningFrame h w (echoed h w.status s)
      | .outOfService => echoed h w.status s
      | .awaitEcho => activeFrame h w (echoed h w.status s)
      | .settling => activeFrame h w (echoed h w.status s)
      | .integrating => activeFrame h w (echoed h w.status s) := by
  have state : s.heads[h].state = (echoed h w.status s).heads[h].state := by rw [echoed_head]
  rw [state]
  simp only [headFrame, good, if_true, Bool.true_and]
  rfl

theorem headFrame_active (good : w.good = true) {c : Context} {d : StepDef} {state : HeadState} (k : ActiveOn h c d state s)
    (active : state = .awaitEcho ∨ state = .settling ∨ state = .integrating) :
    headFrame h w s = activeFrame h w (echoed h w.status s) := by
  rw [headFrame_good good, k.1]
  rcases active with rfl | rfl | rfl <;> rfl

theorem headFrame_active_bad (bad : w.good = false) {c : Context} {d : StepDef} {state : HeadState}
    (k : ActiveOn h c d state s) (active : state = .awaitEcho ∨ state = .settling ∨ state = .integrating) :
    headFrame h w s = activeFrame h w s := by
  simp only [headFrame, bad, Bool.false_eq_true, if_false, k.1]
  rcases active with rfl | rfl | rfl <;> rfl

theorem headFrame_returning (good : w.good = true) (st : s.heads[h].state = .returning) :
    headFrame h w s = returningFrame h w (echoed h w.status s) := by
  rw [headFrame_good good, st]

theorem activeOn_echoed {c : Context} {d : StepDef} {state : HeadState} (k : ActiveOn h c d state s) (status : Word) :
    ActiveOn h c d state (echoed h status s) := by
  obtain ⟨st, ctx, step, echo⟩ := k
  exact ⟨by rw [echoed, withHead_self]; exact st, by rw [echoed, withHead_self]; exact ctx, step, echo⟩

theorem measures_echoed {b : BusNo} {o : Origin} {c : Context} (k : Measures h b o c s) (status : Word) :
    Measures h b o c (echoed h status s) := by
  obtain ⟨hb, hc, hhead, hold, quiet, nowait⟩ := k
  exact ⟨by rw [echoed, withHead_self]; exact hb, by rw [echoed, withHead_self]; exact hc, hhead, hold, quiet, nowait⟩

theorem activeFrame_await {c : Context} {d : StepDef} (k : ActiveOn h c d .awaitEcho s) :
    activeFrame h w s = awaitFrame h c d w s := by
  obtain ⟨st, ctx, step, -⟩ := k
  simp only [activeFrame, ctx, Context.step, step, st]

theorem activeFrame_settling {c : Context} {d : StepDef} (k : ActiveOn h c d .settling s) :
    activeFrame h w s = settleFrame h c (c.settleCount + 1) w s := by
  obtain ⟨st, ctx, step, -⟩ := k
  simp only [activeFrame, ctx, Context.step, step, st]

theorem activeFrame_integrating {c : Context} {d : StepDef} (k : ActiveOn h c d .integrating s) :
    activeFrame h w s = integrateFrame h c d w s := by
  obtain ⟨st, ctx, step, -⟩ := k
  simp only [activeFrame, ctx, Context.step, step, st]

/-- A head-fault flag takes an active head out of service in whatever state it is. -/
theorem activeFrame_fault {c : Context} {d : StepDef} {state : HeadState} (k : ActiveOn h c d state s)
    (active : state = .awaitEcho ∨ state = .settling ∨ state = .integrating) (good : w.good = true)
    (fault : w.status.getLsbD 3 = true) : activeFrame h w s = headOut h .faultFlag s := by
  have echo := k.2.2.2
  rcases active with rfl | rfl | rfl
  · simp only [activeFrame_await k, awaitFrame, echo, good, echoAgainst_fault fault, Bool.false_eq_true, if_false, if_true]
  · simp only [activeFrame_settling k, settleFrame, good, echoAgainst_fault fault, if_true]
  · simp only [activeFrame_integrating k, integrateFrame, good, echoAgainst_fault fault, if_true]

theorem activeFrame_departs {c : Context} {d : StepDef} {state : HeadState} (k : ActiveOn h c d state s)
    (active : state = .settling ∨ state = .integrating) (good : w.good = true)
    (departs : Departs w.status s.heads[h].word) : activeFrame h w s = headOut h .echoDeparted s := by
  rcases active with rfl | rfl
  · simp only [activeFrame_settling k, settleFrame, good, echoAgainst_departs departs, if_true]
  · simp only [activeFrame_integrating k, integrateFrame, good, echoAgainst_departs departs, if_true]

end

/-! ### Heads that go out of service (R74) -/

theorem endWaiting_of_empty {s : State} (h : s.headQueue = []) : endWaiting s = s := by
  rw [endWaiting, h]
  rfl

theorem headOut_free {h : HeadNo} {s : State} (free : s.heads[h].bus = none) (empty : s.headQueue = []) (cause : Reason) :
    headOut h cause s =
      withHeadCounts h (countHeadFault cause s.headCounters[h])
        (pushNotice 6 (.headFaulted h cause none s.heads[h].word s.heads[h].echoed) (headGone h s)) := by
  simp only [headOut, free]
  rw [endWaiting_of_empty, ite_self]
  · simp only [pushNotice_eq]
    rfl
  · simp only [pushNotice_eq]
    exact empty

/-- The measurement of an outside holder whose bus has no head any more is reported, and the bus enters STANDBY. -/
theorem endMeasurement_detached {b : BusNo} {o : Origin} {m : Measurement} {s : State} (nohead : s.buses[b].head = none)
    (hold : m.holder = .origin o) (quiet : NoAudio b s) (nowait : ∀ e ∈ s.headQueue, e.bus ≠ b) {outcome : Reason}
    (plain : m.evaluated outcome = false) (leaves : leavesByR69 outcome = true) (cond : LineCond) :
    endMeasurement b m outcome cond s =
      pushNotice o.val (.measurementResult (m.record b outcome)) (enters b .standby none none {} s) := by
  simp only [endMeasurement, leaveQueue_of_notWaiting nowait, reportMeasurement_origin hold plain, leaves, if_true, settleBus,
    hold, isOutside]
  rw [returnHead_of_none (by rw [pushNotice_buses]; exact nohead), enterMode_standby, settleDesk_of_noAudio]
  · simp only [pushNotice_eq]
    rfl
  · simp only [pushNotice_eq]
    exact quiet

theorem headOut_measures {h : HeadNo} {b : BusNo} {o : Origin} {c : Context} {s : State} (k : Measures h b o c s)
    (empty : s.headQueue = []) (cause : Reason) :
    headOut h cause s =
      withHeadCounts h (countHeadFault cause s.headCounters[h])
        (pushNotice 6 (.headFaulted h cause (some b) s.heads[h].word s.heads[h].echoed)
          (reports b o c .headFault c.results (headGone h s))) := by
  obtain ⟨hb, hc, -, hold, quiet, nowait⟩ := k
  have ended : endMeasurement b c.measurement .headFault s.buses[b].accepted (detachBus b (headGone h s)) =
      reports b o c .headFault c.results (headGone h s) := by
    have nohead : (detachBus b (headGone h s)).buses[b].head = none := congrArg Bus.head (withBus_self ..)
    rw [endMeasurement_detached (m := c.measurement) nohead hold quiet nowait (evaluated_of_ne (by decide)) rfl, reports,
      ← hold]
    rfl
  have e : headOut h cause s =
      let t := countHead h (countHeadFault cause)
        (pushNotice 6 (.headFaulted h cause (some b) s.heads[h].word s.heads[h].echoed)
          (endMeasurement b c.measurement .headFault s.buses[b].accepted (detachBus b (headGone h s))))
      if headInService t then t else endWaiting t := by
    simp only [headOut, hb, hc]
    rfl
  rw [e, ended]
  dsimp only
  rw [endWaiting_of_empty, ite_self]
  · simp only [reports, pushNotice_eq]
    rfl
  · simp only [reports, pushNotice_eq]
    exact empty

/-! ### Phases and steps that begin (R79, R85) -/

/-- A phase begins: the word of the phase is commanded, and its echo awaited by the timer where it is a new one. -/
theorem beginPhase_eq {h : HeadNo} {b : BusNo} {s : State} (hb : s.heads[h].bus = some b) (p : Phase) (d : StepDef)
    (c : Context) :
    beginPhase h p d c s =
      withHead h
        { s.heads[h] with
          state := .awaitEcho, word := phaseWord b p c.range d
          timer := if s.heads[h].word == phaseWord b p c.range d then none else some 0
          ctx := some { c.enterPhase p d with noEcho := s.heads[h].word == phaseWord b p c.range d } } s := by
  simp only [beginPhase, hb, Option.getD_some]
  split
  case isTrue same => simp only [← same, beq_self_eq_true, if_true]; rfl
  case isFalse new =>
    have e : (s.heads[h].word == phaseWord b p c.range d) = false := beq_eq_false_iff_ne.2 (Ne.symm new)
    simp only [e, Bool.false_eq_true, if_false]
    rfl

theorem stepWord_eq (b : BusNo) (d : StepDef) : phaseWord b (firstPhase d.kind) (firstRange d) d = stepWord b d := by
  obtain ⟨kind, source, legs, range, settle, units⟩ := d
  cases kind <;> cases range <;> rfl

theorem stepBegun_eq (c : Context) (i : Nat) (d : StepDef) (mains60 same : Bool) :
    { (c.beginStep i d mains60).enterPhase (firstPhase d.kind) d with noEcho := same } = stepBegun i d mains60 same c := by
  obtain ⟨kind, source, legs, range, settle, units⟩ := d
  cases kind <;> cases range <;> rfl

/-- A step of an index begins on a head that has a bus. -/
theorem beginStepAt_eq {h : HeadNo} {b : BusNo} {i : Nat} {d : StepDef} {c : Context} {s : State}
    (hb : s.heads[h].bus = some b) (hd : c.steps[i]? = some d) :
    beginStepAt h i c s =
      withHead h
        { s.heads[h] with
          state := .awaitEcho, word := stepWord b d
          timer := if s.heads[h].word == stepWord b d then none else some 0
          ctx := some (stepBegun i d s.site.mains60 (s.heads[h].word == stepWord b d) c) } s := by
  have range : (c.beginStep i d s.site.mains60).range = firstRange d := rfl
  rw [beginStepAt, hd]
  refine (beginPhase_eq hb ..).trans ?_
  rw [stepBegun_eq, range, stepWord_eq]

/-! ### The oldest bus that waits is given a head (R75) -/

theorem idleHead_of_only {h : HeadNo} {s : State} (idle : s.heads[h].state = .idle)
    (others : ∀ k : HeadNo, k ≠ h → s.heads[k].state ≠ .idle) : idleHead s = some h := by
  have found : (idleHead s).isSome = true := List.find?_isSome.2 ⟨h, mem_allHeads h, beq_iff_eq.2 idle⟩
  obtain ⟨k, hk⟩ := Option.isSome_iff_exists.1 found
  have state : s.heads[k].state = .idle := beq_iff_eq.1 (List.find?_some (p := fun h : HeadNo => s.heads[h].state == .idle) hk)
  by_cases same : k = h
  · rw [hk, same]
  · exact absurd state (others k same)

theorem idleHead_of_none {s : State} (h : ∀ k : HeadNo, s.heads[k].state ≠ .idle) : idleHead s = none :=
  List.find?_eq_none.2 fun k _ => by simpa using h k

/-- The word of a step that begins is not the rest word: it attaches the head. -/
theorem rest_ne_stepWord (b : BusNo) (d : StepDef) : (HeadWord.rest == stepWord b d) = false :=
  beq_eq_false_iff_ne.2 fun e => Bool.false_ne_true (congrArg HeadWord.attach e)

/-- An IDLE head at rest takes the oldest entry of the queue and begins its program. -/
theorem assignHead_eq {h : HeadNo} {e : HeadWait} {rest : List HeadWait} {first : StepDef} {more : List StepDef} {s : State}
    (word : s.heads[h].word = HeadWord.rest) (queue : s.headQueue = e :: rest) (steps : e.steps = first :: more) :
    assignHead h e s =
      withBus e.bus { s.buses[e.bus] with head := some h }
        (withHeadCounts h { s.headCounters[h] with assignments := raised s.headCounters[h].assignments }
          (withHead h
            { s.heads[h] with
              state := .awaitEcho, bus := some e.bus, word := stepWord e.bus first, timer := some 0
              ctx := some (stepBegun 0 first s.site.mains60 false (contextOf e)) }
            { s with headQueue := rest })) := by
  have step : (contextOf e).steps[0]? = some first := by rw [contextOf, steps]; rfl
  have begun : assignHead h e s =
      beginStepAt h 0 (contextOf e)
        (withHeadCounts h { s.headCounters[h] with assignments := raised s.headCounters[h].assignments }
          (withBus e.bus { s.buses[e.bus] with head := some h }
            (withHead h { s.heads[h] with bus := some e.bus } { s with headQueue := rest }))) := by
    rw [assignHead, queue]
    rfl
  have own (x : HeadRec) (c : HeadCounters) (y : Bus) (t : State) :
      (withHeadCounts h c (withBus e.bus y (withHead h x t))).heads[h] = x := withHead_self t h x
  rw [begun, beginStepAt_eq (b := e.bus) (by rw [own]) step, own]
  dsimp only
  rw [word, rest_ne_stepWord]
  exact congrArg (fun t : State => withBus e.bus { s.buses[e.bus] with head := some h } (withHeadCounts h _ t))
    (withHead_withHead ..)

theorem assignmentPass_of_empty {s : State} (h : s.headQueue = []) : assignmentPass s = s := by
  unfold assignmentPass assignSteps
  split
  · rw [h]
    split <;> first | rfl | contradiction
  · rfl

/-- Where one head alone is IDLE and at rest, a pass gives it the oldest entry and ends. -/
theorem assignmentPass_single {h : HeadNo} {e : HeadWait} {rest : List HeadWait} {first : StepDef} {more : List StepDef}
    {s : State} (aligned : s.alignment.isAligned = true) (idle : s.heads[h].state = .idle)
    (others : ∀ k : HeadNo, k ≠ h → s.heads[k].state ≠ .idle) (word : s.heads[h].word = HeadWord.rest)
    (queue : s.headQueue = e :: rest) (steps : e.steps = first :: more) :
    assignmentPass s = assignHead h e s := by
  have none : idleHead (assignHead h e s) = none := by
    rw [assignHead_eq word queue steps]
    refine idleHead_of_none fun k => ?_
    by_cases same : k = h
    · subst same
      exact fun st => HeadState.noConfusion ((congrArg HeadRec.state (withHead_self { s with headQueue := rest } k _)).symm.trans st)
    · exact fun st => others k same
        ((congrArg HeadRec.state (withHead_other (s := { s with headQueue := rest }) _ (Ne.symm same))).symm.trans st)
  have step : assignSteps 4 s = assignSteps 3 (assignHead h e s) := by
    rw [assignSteps, idleHead_of_only idle others, queue]
  rw [assignmentPass, if_pos aligned, step, assignSteps, none]

/-! ### A head in RETURNING (R74, R88) -/

theorem returningFrame_matching {h : HeadNo} {w : HeadWords} {s : State} (good : w.good = true)
    (matches_ : Matches w.status s.heads[h].word) :
    returningFrame h w s = assignmentPass (withHead h { s.heads[h] with state := .idle, timer := none } s) := by
  simp only [returningFrame, good, if_true, echoAgainst_matching matches_]
  rfl

/-- Heads that a bad frame does not act on, though their echo timers run. -/
theorem headFrame_bad_ticking {s : State}
    (h : ∀ h : HeadNo, QuietHead h s ∨ (∃ n, s.heads[h].timer = some n ∧ n < 159) ∧
      (s.heads[h].state = .returning ∧ s.heads[h].ctx = none ∨ ∃ c d, ActiveOn h c d .awaitEcho s)) (k : HeadNo) :
    (∀ n, s.heads[k].timer = some n → n < 159) ∧ s.heads[k].state ≠ .settling ∧ s.heads[k].state ≠ .integrating ∧
      ∀ c, s.heads[k].ctx = some c → c.noEcho = false := by
  rcases h k with ⟨st, timer, ctx⟩ | ⟨⟨n, timer, short⟩, ⟨st, ctx⟩ | ⟨c, d, st, ctx, -, echo⟩⟩
  · refine ⟨fun n e => ?_, ?_, ?_, fun c e => ?_⟩
    · rw [timer] at e; cases e
    · rcases st with st | st <;> rw [st] <;> decide
    · rcases st with st | st <;> rw [st] <;> decide
    · rw [ctx] at e; cases e
  · refine ⟨fun m e => ?_, by rw [st]; decide, by rw [st]; decide, fun c e => ?_⟩
    · rw [timer] at e; exact Option.some.inj e ▸ short
    · rw [ctx] at e; cases e
  · refine ⟨fun m e => ?_, by rw [st]; decide, by rw [st]; decide, fun c' e => ?_⟩
    · rw [timer] at e; exact Option.some.inj e ▸ short
    · rw [ctx] at e; exact Option.some.inj e ▸ echo

/-- A bad or missed frame that finds no bus timer and brings no head's to its limit (R73). -/
theorem takeFrame_bad_heads {s : State} (owed : NoneOwed s) (buses : ∀ b : BusNo, s.buses[b].timer = none)
    (heads : ∀ k : HeadNo, (∀ n, s.heads[k].timer = some n → n < 159) ∧ s.heads[k].state ≠ .settling ∧
      s.heads[k].state ≠ .integrating ∧ ∀ c, s.heads[k].ctx = some c → c.noEcho = false) (f : Frame) (order : List Act) :
    takeFrame false f order s = { s with heads := s.heads.map fun x => { x with timer := x.timer.map (· + 1) } } := by
  have ticks : tickTimers s = { s with heads := s.heads.map fun x => { x with timer := x.timer.map (· + 1) } } := by
    rw [tickTimers_eq, map_stopped_buses buses]
  obtain ⟨-, waiting, noneOwed⟩ := owed
  rw [← ticks]
  refine takeFrame_bad ?_ f order
  rw [ticks]
  have record (k : HeadNo) : (s.heads.map fun x => { x with timer := x.timer.map (· + 1) })[k] =
      { s.heads[k] with timer := s.heads[k].timer.map (· + 1) } := Vector.getElem_map ..
  refine ⟨⟨fun b => .inr fun n e => ?_, fun k n e => ?_, fun k => ?_, fun k => ?_⟩, waiting, noneOwed, fun k c e => ?_⟩
  · rw [buses b] at e; cases e
  · rw [record] at e
    obtain ⟨m, hm, rfl⟩ := Option.map_eq_some_iff.1 e
    exact Nat.succ_lt_succ ((heads k).1 m hm)
  · rw [record]; exact (heads k).2.1
  · rw [record]; exact (heads k).2.2.1
  · rw [record] at e; exact (heads k).2.2.2 c e

/-- Settles O23. -/
theorem headEchoTimersExpire : Obligations.HeadEchoTimersExpire := by
  refine ⟨fun h w s good fault empty => ⟨fun st free => ?_, fun b o c d state k active measures => ?_⟩,
    fun h w b o c d state s good departs empty k active measures => ?_,
    fun h w c d s good departs k => ?_, fun h w s good matches_ st empty => ?_,
    fun h w e rest first more s good matches_ st word aligned others queue steps => ?_,
    fun f order position misses s aligned few pattern owed buses heads => ?_,
    fun h b o c n s st timer reached measures empty => ?_, fun h n s st timer reached free empty => ?_,
    fun h n s timer short => ?_⟩
  · have out : headFrame h w s = headOut h .faultFlag (echoed h w.status s) := by
      rcases st with st | st
      · rw [headFrame_good good, st]
        exact if_pos fault
      · rw [headFrame_returning good st]
        simp only [returningFrame, good, if_true, echoAgainst_fault fault]
    rw [out, headOut_free (s := echoed h w.status s) (by rw [echoed_head]; exact free) empty, echoed_head]
    rfl
  · rw [headFrame_active good k active, activeFrame_fault (activeOn_echoed k _) active good fault,
      headOut_measures (measures_echoed measures _) empty, echoed_head]
    rfl
  · rw [headFrame_active good k (.inr active),
      activeFrame_departs (activeOn_echoed k _) active good (by rw [echoed_head]; exact departs),
      headOut_measures (measures_echoed measures _) empty, echoed_head]
    rfl
  · have departs' : Departs w.status (echoed h w.status s).heads[h].word := by rw [echoed_head]; exact departs
    rcases k with k | st
    · rw [headFrame_active good k (.inl rfl), activeFrame_await (activeOn_echoed k _)]
      simp only [awaitFrame, k.2.2.2, good, echoAgainst_departs departs', Bool.false_eq_true, if_false, if_true]
    · rw [headFrame_returning good st]
      simp only [returningFrame, good, echoAgainst_departs departs', if_true]
  · rw [headFrame_returning good st, returningFrame_matching good (by rw [echoed_head]; exact matches_), echoed_head,
      assignmentPass_of_empty]
    · exact withHead_withHead ..
    · exact empty
  · rw [headFrame_returning good st, returningFrame_matching good (by rw [echoed_head]; exact matches_), echoed_head,
      show withHead h _ (echoed h w.status s) = withHead h _ s from withHead_withHead ..]
    have own (x : HeadRec) : (withHead h x s).heads[h] = x := withHead_self ..
    rw [assignmentPass_single (h := h) (e := e) (rest := rest) (first := first) (more := more),
      assignHead_eq (rest := rest) (first := first) (more := more), own]
    · exact congrArg (fun t : State => withBus e.bus { s.buses[e.bus] with head := some h } (withHeadCounts h _ t))
        (withHead_withHead { s with headQueue := rest } h _ _)
    · rw [own]; exact word
    · exact queue
    · exact steps
    · exact aligned
    · rw [own]
    · exact fun k ne => by rw [withHead_other s _ (Ne.symm ne)]; exact others k ne
    · rw [own]; exact word
    · exact queue
    · exact steps
  · have acts := headFrame_bad_ticking heads
    have calm : Calm s := ⟨fun b => .inr (fun n e => by rw [(buses b).2.1] at e; cases e),
      fun k n e => Nat.lt_trans ((acts k).1 n e) (by decide), fun k => (acts k).2.1, fun k => (acts k).2.2.1⟩
    refine congrArg Host.Outcome.next (?_ : inboundFrame f order s = _)
    simp only [inboundFrame, aligned, pattern, Bool.false_eq_true, if_false, calm.inboundDue, missFrame, few, if_true]
    exact takeFrame_bad_heads
      (s := (countHighway _ s).setAlignment (.aligned (position + Config.frameBits) (misses + 1))) owed
      (fun b => (buses b).2.1) acts f order
  · have due : echoDue s.heads[h] = true := by rw [echoDue, timer]; exact decide_eq_true reached
    exact congrArg Host.Outcome.next ((if_pos ⟨st, due⟩).trans (headOut_measures measures empty _))
  · have due : echoDue s.heads[h] = true := by rw [echoDue, timer]; exact decide_eq_true reached
    exact congrArg Host.Outcome.next ((if_pos ⟨st, due⟩).trans (headOut_free free empty _))
  · have short' : ∀ m, s.heads[h].timer = some m → m < 160 := fun m e => by
      rw [timer] at e; exact Option.some.inj e ▸ short
    exact ⟨congrArg _ (echoExpires_of_short short'), congrArg _ (returnExpires_of_short short')⟩

/-! ### Confirmed phases and samples (R80, R81, R84) -/

theorem accept_eq {c : Context} {d : StepDef} (h : c.phase ≠ .charge) (w : HeadWords) :
    c.accept d.kind (sampleOf d.legs w.vt w.vr w.it w.ir) = accepting d w c := by
  have hands : handsCurrent d.kind c.phase = (d.kind == .res) := by
    cases d.kind with
    | cap => exact beq_eq_false_iff_ne.2 h
    | _ => rfl
  simp only [Context.accept, accepting, Context.updAccum, hands]
  cases e : c.phase with
  | charge => exact absurd e h
  | _ => rfl

theorem rangesUp_of_noClip {c : Context} {d : StepDef} {x : Sample}
    (h : d.kind = .res → d.range = .auto → c.range = .low → x.iClip = false) : rangesUp c d x = false := by
  refine Bool.eq_false_iff.2 fun up => ?_
  simp only [rangesUp, Bool.and_eq_true, beq_iff_eq] at up
  obtain ⟨⟨⟨kind, range⟩, low⟩, clip⟩ := up
  rw [h kind range low] at clip
  cases clip

theorem acceptSample_plain {h : HeadNo} {c : Context} {d : StepDef} {w : HeadWords} (phase : c.phase ≠ .charge)
    (noClip : d.kind = .res → d.range = .auto → c.range = .low → (sampleOf d.legs w.vt w.vr w.it w.ir).iClip = false)
    (s : State) :
    acceptSample h c d (sampleOf d.legs w.vt w.vr w.it w.ir) s =
      withHead h { s.heads[h] with ctx := some (accepting d w c) } s := by
  simp only [acceptSample, rangesUp_of_noClip noClip, Bool.false_eq_true, if_false, phase, accept_eq phase]
  rfl

theorem settles_eq {p : Phase} {d : StepDef} : settles p d = true ↔ p ≠ .charge ∧ 0 < d.settle := by
  simp [settles]

section
variable {h : HeadNo} {w : HeadWords} {c : Context} {d : StepDef} {s : State}

/-- A matching echo in AWAIT_ECHO confirms the phase. -/
theorem awaitFrame_matching (echo : c.noEcho = false) (good : w.good = true) (matches_ : Matches w.status s.heads[h].word) :
    awaitFrame h c d w s = confirmPhase h c d w s := by
  simp only [awaitFrame, echo, good, echoAgainst_matching matches_, Bool.false_eq_true, if_false, if_true]

theorem settleFrame_matching (good : w.good = true) (matches_ : Matches w.status s.heads[h].word) (n : Nat) :
    settleFrame h c n w s = withHead h { s.heads[h] with ctx := some { c with settleCount := n } } s := by
  simp only [settleFrame, good, echoAgainst_matching matches_, if_true]
  rfl

theorem settleFrame_bad (bad : w.good = false) (n : Nat) :
    settleFrame h c n w s = withHead h { s.heads[h] with ctx := some { c with settleCount := n } } s := by
  simp only [settleFrame, bad, Bool.false_eq_true, if_false]
  rfl

theorem integrateFrame_matching (good : w.good = true) (matches_ : Matches w.status s.heads[h].word) :
    integrateFrame h c d w s = acceptSample h c d (sampleOf d.legs w.vt w.vr w.it w.ir) s := by
  simp only [integrateFrame, good, echoAgainst_matching matches_, if_true]

theorem integrateFrame_bad (bad : w.good = false) : integrateFrame h c d w s = loseSample h c s := by
  simp only [integrateFrame, bad, Bool.false_eq_true, if_false]

end

/-- The head record of a phase that is confirmed, in the state that follows (R80). -/
def confirmedIn (state : HeadState) (c : Context) (x : HeadRec) : HeadRec :=
  { x with state := state, timer := none, ctx := some c }

/-- A phase that settles is confirmed by its first settle frame; one that does not by the first frame of its window. -/
theorem confirmPhase_eq {h : HeadNo} {w : HeadWords} {c : Context} {d : StepDef} {s : State} (echo : c.noEcho = false) :
    confirmPhase h c d w s =
      if settles c.phase d then settleFrame h c 1 w (withHead h (confirmedIn .settling c s.heads[h]) s)
      else integrateFrame h c d w (withHead h (confirmedIn .integrating c s.heads[h]) s) := by
  have same : { c with noEcho := false } = c := by rw [← echo]
  rw [confirmPhase, same]
  rfl

/-- Settles O24. -/
theorem settleEndsInIntegrating : Obligations.SettleEndsInIntegrating := by
  refine ⟨fun h w c d s k good matches_ => ?_, fun h w c d s k => ⟨fun bad => ?_, fun good matches_ => ?_⟩,
    fun h c d s st ctx step reached => ?_, fun h c d s ctx step short => ?_⟩
  · have matches' : Matches w.status (echoed h w.status s).heads[h].word := by rw [echoed_head]; exact matches_
    have own (x : HeadRec) : (withHead h x (echoed h w.status s)).heads[h] = x := withHead_self ..
    have twice (x y : HeadRec) : withHead h y (withHead h x (echoed h w.status s)) = withHead h y s :=
      (withHead_withHead ..).trans (withHead_withHead ..)
    rw [headFrame_active good k (.inl rfl), activeFrame_await (activeOn_echoed k _),
      awaitFrame_matching k.2.2.2 good matches', confirmPhase_eq k.2.2.2, echoed_head]
    refine ⟨fun phase settle => ?_, fun phase nosettle noClip => ?_⟩
    · rw [if_pos (settles_eq.2 ⟨phase, settle⟩), settleFrame_matching good (by rw [own]; exact matches_), own]
      exact twice ..
    · rw [if_neg (fun e => Nat.ne_of_gt (settles_eq.1 e).2 nosettle), integrateFrame_matching good (by rw [own]; exact matches_),
        acceptSample_plain phase noClip, own]
      exact twice ..
  · rw [headFrame_active_bad bad k (.inr (.inl rfl)), activeFrame_settling k, settleFrame_bad bad]
  · rw [headFrame_active good k (.inr (.inl rfl)), activeFrame_settling (activeOn_echoed k _),
      settleFrame_matching good (by rw [echoed_head]; exact matches_), echoed_head]
    exact withHead_withHead ..
  · refine congrArg Host.Outcome.next (?_ : settleEnds h s = _)
    simp only [settleEnds, ctx, Context.step, step]
    exact if_pos ⟨st, reached⟩
  · refine congrArg Host.Outcome.next (?_ : settleEnds h s = s)
    simp only [settleEnds, ctx, Context.step, step]
    exact if_neg fun ⟨st, reached⟩ => short.elim (fun ne => ne st) fun few => Nat.not_le.2 few reached

end Sys2Proof.Proofs
end

section
/-! Windows, steps and measurements that complete (R82 to R86); then O25 and O26. -/

namespace Sys2Proof.Proofs

open Sys2Proof.Machine Sys2Proof.Stated

/-! ### Full windows (R82, R83) -/

section
variable {h : HeadNo} {c : Context} {d : StepDef} {s : State}

theorem integratingOn_eq (st : s.heads[h].state = .integrating) (ctx : s.heads[h].ctx = some c)
    (step : c.steps[c.index]? = some d) : integratingOn h s = some (c, d) := by
  simp only [integratingOn, st, if_true, ctx, Option.bind_some, Context.step, step, Option.map_some]

theorem windowFull_of_full (full : Full c) : windowFull c = true := decide_eq_true (Nat.le_of_eq full.symm)

theorem windowEnds_eq (st : s.heads[h].state = .integrating) (ctx : s.heads[h].ctx = some c)
    (step : c.steps[c.index]? = some d) (phase : c.phase ≠ .charge) (full : Full c) :
    windowEnds h s = judgeWindow h c d s := by
  rw [windowEnds, integratingOn_eq st ctx step]
  exact if_pos ⟨phase, windowFull_of_full full⟩

theorem chargeWindowEnds_eq (st : s.heads[h].state = .integrating) (ctx : s.heads[h].ctx = some c)
    (step : c.steps[c.index]? = some d) (phase : c.phase = .charge) (full : Full c) :
    chargeWindowEnds h s = judgeCharge h c d s := by
  rw [chargeWindowEnds, integratingOn_eq st ctx step]
  exact if_pos ⟨phase, windowFull_of_full full⟩

/-- A window whose loss is within one eighth completes its phase. -/
theorem judgeWindow_kept (kept : 8 * c.lost ≤ c.windowLen) : judgeWindow h c d s = phaseComplete h c d s := by
  have few : lostTooMany c = false := decide_eq_false (Nat.not_lt.2 kept)
  simp only [judgeWindow, few, Bool.false_eq_true, if_false]

/-- The end of a step that an event brings about. -/
theorem exec_endsStep {i : Instr} (st : s.heads[h].state = .integrating) (ctx : s.heads[h].ctx = some c)
    (step : c.steps[c.index]? = some d) (ends : EndsStep i h c) : exec i s = .next (endStep h c d false s) := by
  obtain ⟨full, ⟨rfl, phase, kept, some⟩ | ⟨rfl, phase, first, none⟩⟩ := ends
  · have other : c.phase ≠ .charge := by rcases phase with p | p <;> rw [p] <;> decide
    refine congrArg Host.Outcome.next ((windowEnds_eq st ctx step other full).trans ((judgeWindow_kept kept).trans ?_))
    rcases phase with p | p <;> simp only [phaseComplete, Nat.ne_of_gt some, if_false, p]
  · refine congrArg Host.Outcome.next ((chargeWindowEnds_eq st ctx step phase full).trans ?_)
    simp only [judgeCharge, first, none, Bool.false_eq_true, if_false, if_true]

/-- The context after a step's result is listed. -/
def listed (c : Context) (r : StepResult) : Context := { c with results := c.results ++ [r] }

theorem endStep_eq (noData : Bool) :
    endStep h c d noData s =
      beginStepAt h (c.index + 1) (listed c (stepResultOf c d noData)) (recorded h c (stepResultOf c d noData) s) := rfl

/-- After the last step the measurement ends COMPLETE. -/
theorem endStep_last {b : BusNo} (hb : s.heads[h].bus = some b) (last : c.index + 1 = c.steps.length) (noData : Bool) :
    endStep h c d noData s =
      endMeasurement b (listed c (stepResultOf c d noData)).measurement .complete s.buses[b].accepted
        (recorded h c (stepResultOf c d noData) s) := by
  have none : (listed c (stepResultOf c d noData)).steps[c.index + 1]? = none := List.getElem?_eq_none (Nat.le_of_eq last.symm)
  have bus : (recorded h c (stepResultOf c d noData) s).heads[h].bus = some b := (congrArg HeadRec.bus (withHead_self ..)).trans hb
  rw [endStep_eq, beginStepAt, none]
  dsimp only
  rw [bus]
  rfl

theorem measures_recorded {b : BusNo} {o : Origin} (k : Measures h b o c s) (r : StepResult) :
    Measures h b o (listed c r) (recorded h c r s) := by
  obtain ⟨hb, -, hhead, hold, quiet, nowait⟩ := k
  exact ⟨(congrArg HeadRec.bus (withHead_self ..)).trans hb, congrArg HeadRec.ctx (withHead_self ..), hhead, hold, quiet,
    nowait⟩

theorem rested_recorded (b : BusNo) (r : StepResult) :
    rested h b (recorded h c r s) =
      withBus b { s.buses[b] with head := none }
        (withHeadCounts h
          { s.headCounters[h] with
            measurementsEnded := raised s.headCounters[h].measurementsEnded
            clippedSamples := min (s.headCounters[h].clippedSamples + (c.first.clips + c.second.clips)) 4294967295
            peakVoltage := max s.headCounters[h].peakVoltage (max c.first.peak c.second.peak) }
          (withHead h
            { s.heads[h] with state := .returning, word := HeadWord.rest, bus := none, timer := some 0, ctx := none } s)) := by
  have head (x : HeadRec) (k : HeadCounters) : (withHead h x (withHeadCounts h k s)).heads[h] = x := withHead_self ..
  have counts (x : HeadRec) (k : HeadCounters) : (withHead h x (withHeadCounts h k s)).headCounters[h] = k :=
    withHeadCounts_self ..
  rw [recorded, rested, head, counts]
  have merged : withHeadCounts h
      { s.headCounters[h] with
        measurementsEnded := raised s.headCounters[h].measurementsEnded
        clippedSamples := min (s.headCounters[h].clippedSamples + (c.first.clips + c.second.clips)) 4294967295
        peakVoltage := max s.headCounters[h].peakVoltage (max c.first.peak c.second.peak) }
      (withHead h { s.heads[h] with state := .returning, word := HeadWord.rest, bus := none, timer := some 0, ctx := none }
        (withHead h { s.heads[h] with ctx := some (listed c r) }
          (withHeadCounts h
            { s.headCounters[h] with
              clippedSamples := min (s.headCounters[h].clippedSamples + (c.first.clips + c.second.clips)) 4294967295
              peakVoltage := max s.headCounters[h].peakVoltage (max c.first.peak c.second.peak) } s))) = _ :=
    (congrArg (withHeadCounts h _) (withHead_withHead ..)).trans (withHeadCounts_withHeadCounts (withHead h _ s) h _ _)
  exact congrArg (withBus b { s.buses[b] with head := none }) merged

/-- A measurement that is not evaluated completes for its outside holder. -/
theorem endStep_completes {b : BusNo} {o : Origin} (k : Measures h b o c s) (plain : c.evaluate = false)
    (last : c.index + 1 = c.steps.length) :
    endStep h c d false s = completes h b o c (stepResultOf c d false) s := by
  have hold : (listed c (stepResultOf c d false)).measurement.holder = .origin o := k.2.2.2.1
  rw [endStep_last k.1 last, endMeasurement_stops (measures_recorded k _) hold (evaluated_of_not plain _) rfl, completes,
    reports, rested_recorded, ← k.2.2.2.1]
  rfl

end

/-! ### Measurements that are evaluated (R86, R112) -/

theorem evaluated_complete {m : Measurement} (h : m.evaluate = true) : m.evaluated .complete = true := by
  rw [Measurement.evaluated, h]
  rfl

/-- The findings of a measurement that completes are handed on after its result. -/
theorem reportMeasurement_findings {m : Measurement} {o : Origin} (hold : m.holder = .origin o) (eval : m.evaluate = true)
    (b : BusNo) (cond : LineCond) (s : State) :
    reportMeasurement b m .complete cond s =
      handFindings (evaluate (m.record b .complete) (pushNotice o.val (.measurementResult (m.record b .complete)) s)).findings
        (pushNotice o.val (.measurementResult (m.record b .complete)) s) := by
  simp only [reportMeasurement, hold, evaluated_complete eval, if_true]
  rfl

/-- What follows the report of an outside holder's measurement: its bus enters STANDBY, its head returns (R69, R86). -/
theorem endMeasurement_of_report {h : HeadNo} {b : BusNo} {o : Origin} {m : Measurement} {outcome : Reason}
    {cond : LineCond} {s u : State} (hhead : s.buses[b].head = some h) (hold : m.holder = .origin o) (quiet : NoAudio b s)
    (nowait : ∀ e ∈ s.headQueue, e.bus ≠ b) (leaves : leavesByR69 outcome = true)
    (report : reportMeasurement b m outcome cond s = u) (only : ReportOnly s u) :
    endMeasurement b m outcome cond s = enters b .standby none none {} (rested h b u) := by
  have quiet' : NoAudio b u := by
    unfold NoAudio
    rw [only.audio]
    exact quiet
  simp only [endMeasurement, leaveQueue_of_notWaiting nowait, report, leaves, if_true, settleBus, hold, isOutside]
  rw [returnHead_of_some (h := h) (by rw [only.buses]; exact hhead), enterMode_standby, settleDesk_of_noAudio]
  exact quiet'

theorem handed_only (a : Nat) (n : NoticeBody) (l : List Finding) (s : State) :
    ReportOnly s (handFindings l (pushNotice a n s)) :=
  (pushNotice_only a n s).trans (.ofTickets (handFindings_only ..))

/-- An evaluated measurement completes for its outside holder. -/
theorem endStep_evaluates {h : HeadNo} {b : BusNo} {o : Origin} {c : Context} {d : StepDef} {s : State}
    (k : Measures h b o c s) (eval : c.evaluate = true) (last : c.index + 1 = c.steps.length) :
    let r := (listed c (stepResultOf c d false)).measurement.record b .complete
    let t := pushNotice o.val (.measurementResult r) (recorded h c (stepResultOf c d false) s)
    endStep h c d false s = enters b .standby none none {} (rested h b (handFindings (evaluate r t).findings t)) := by
  obtain ⟨hb, -, hhead, hold, quiet, nowait⟩ := k
  dsimp only
  rw [endStep_last hb last]
  exact endMeasurement_of_report hhead hold quiet nowait rfl (reportMeasurement_findings hold eval ..) (handed_only ..)

/-! ### The ticket of a retest that finds its own code again (R124) -/

theorem ticketByNumber_updTicket {f : Ticket → Ticket} (number : ∀ t, (f t).number = t.number) (n m : Nat) (s : State) :
    ticketByNumber n (updTicket m f s) = (ticketByNumber n s).map fun t => if t.number = m then f t else t := by
  have same : ((fun t : Ticket => t.number == n) ∘ fun t => if t.number = m then f t else t) = fun t => t.number == n := by
    funext t
    dsimp only [Function.comp]
    split <;> simp only [number]
  refine List.find?_map.trans ?_
  rw [same]
  rfl

/-- A number's ticket is a LINE ticket of a line and a code. -/
def LineTicket (n line : Nat) (x : FaultCode) (s : State) : Prop :=
  ∃ t, ticketByNumber n s = some t ∧ t.subject = .line line ∧ t.code = x

theorem takeSeverity_keeps (severity : Nat) (t : Ticket) :
    (t.takeSeverity severity).number = t.number ∧ (t.takeSeverity severity).subject = t.subject ∧
      (t.takeSeverity severity).code = t.code := by
  unfold Ticket.takeSeverity
  split <;> exact ⟨rfl, rfl, rfl⟩

theorem occur_keeps (f : Finding) (t : Ticket) :
    (t.occur f).number = t.number ∧ (t.occur f).subject = t.subject ∧ (t.occur f).code = t.code :=
  takeSeverity_keeps ..

/-- A finding of a ticket's own line and code is an occurrence on a ticket of that key, which stays what it was. -/
theorem handFinding_lineTicket {n : Nat} {f : Finding} {s : State} (h : LineTicket n f.line f.code s) :
    LineTicket n f.line f.code (handFinding s f) := by
  obtain ⟨t, ht, subject, code⟩ := h
  obtain ⟨u, hu⟩ : ∃ u, ticketByKey (.line f.line) f.code s = some u :=
    Option.isSome_iff_exists.1 (List.find?_isSome.2 ⟨t, (ticketByNumber_mem ht).1, by simp [subject, code]⟩)
  have kept (v : Ticket) : ((if v.number = u.number then v.occur f else v).subject = v.subject) ∧
      (if v.number = u.number then v.occur f else v).code = v.code := by
    split
    · exact (occur_keeps f v).2
    · exact ⟨rfl, rfl⟩
  rw [handFinding_to_line hu]
  refine ⟨_, (ticketByNumber_updTicket (fun v => (occur_keeps f v).1) n u.number (counting s)).trans (congrArg _ ht), ?_, ?_⟩
  · exact (kept t).1.trans subject
  · exact (kept t).2.trans code

theorem handFindings_lineTicket {n line : Nat} {x : FaultCode} {l : List Finding} {s : State}
    (own : ∀ f ∈ l, f.line = line ∧ f.code = x) (h : LineTicket n line x s) : LineTicket n line x (handFindings l s) := by
  unfold handFindings
  induction l generalizing s with
  | nil => exact h
  | cons f l ih =>
    obtain ⟨rfl, rfl⟩ := own f List.mem_cons_self
    exact ih (fun g hg => own g (List.mem_cons_of_mem f hg)) (handFinding_lineTicket h)

theorem evaluate_line {r : Record} {s : State} {f : Finding} (h : f ∈ (evaluate r s).findings) : f.line = r.line := by
  obtain ⟨x, -, hx⟩ := List.mem_filterMap.1 h
  unfold findingOf at hx
  split at hx
  · exact (congrArg Finding.line (Option.some.inj hx)).symm
  · cases hx

/-- An internal holder settles after the findings are handed on, where a retest finds its ticket's own code alone. -/
theorem settles_handed {x : Holder} {l : List Finding} {line : Nat} {s : State} (h : Settles x s)
    (own : ∀ (n : Nat) (k : Ticket), x = .retest n → ticketByNumber n s = some k →
      k.subject = .line line ∧ ∀ f ∈ l, f.line = line ∧ f.code = k.code) : Settles x (handFindings l s) := by
  have only := handFindings_only l s
  cases x with
  | origin o => exact h.elim
  | sweep d =>
    obtain ⟨queue, pending⟩ := h
    rw [only]
    exact ⟨queue, pending⟩
  | retest n =>
    obtain ⟨⟨t, l', ht, -⟩, repair⟩ := h
    obtain ⟨subject, codes⟩ := own n t rfl ht
    obtain ⟨u, hu, line', -⟩ := handFindings_lineTicket codes ⟨t, ht, subject, rfl⟩
    refine ⟨⟨u, line, hu, line'⟩, ?_⟩
    rw [only]
    exact repair

/-! ### Measurements of internal holders that complete (R69, R86) -/

/-- What follows the report of an internal holder's measurement: its bus is released with cause COMPLETE. -/
theorem endMeasurement_of_report_internal {h : HeadNo} {b : BusNo} {x : Holder} {line : Nat} {m : Measurement}
    {cond : LineCond} {s u : State} (hhead : s.buses[b].head = some h) (hold : m.holder = x)
    (hholder : s.buses[b].holder = some x) (hline : s.buses[b].line = some line) (nowait : ∀ e ∈ s.headQueue, e.bus ≠ b)
    (settles : Settles x s) (report : reportMeasurement b m .complete cond s = u) (only : ReportOnly s u) :
    endMeasurement b m .complete cond s =
      sends b {} (withBus b (breaking line .complete (rested h b u).buses[b]) (rested h b u)) := by
  have own : (rested h b u).buses[b] = { s.buses[b] with head := none } := by
    rw [rested, withBus_self, only.buses]
  have released : breakBus b .complete (rested h b u) =
      sends b {} (withBus b (breaking line .complete (rested h b u).buses[b]) (rested h b u)) := by
    rw [breakBus_eq (line := line) (by rw [own]; exact hline)]
    rw [own, hholder, settleDesk_of_settles settles]
  simp only [endMeasurement, leaveQueue_of_notWaiting nowait, report, leavesByR69, if_true, settleBus, hold,
    isOutside_of_settles settles, Bool.false_eq_true, if_false]
  rw [returnHead_of_some (h := h) (by rw [only.buses]; exact hhead), released]
  cases x with
  | origin o => exact settles.elim
  | retest n => rfl
  | sweep d => exact grantPass_of_empty (only.queue.trans settles.1)

/-- What an evaluated record leaves once its findings are handed on, and one that is not evaluated as it stands. -/
def handedOn (evaluates : Bool) (r : Record) (t : State) : State :=
  if evaluates then handFindings (evaluate r t).findings t else t

/-- The evaluation a record is told with. -/
def toldWith (evaluates : Bool) (r : Record) (t : State) : Option Evaluation :=
  if evaluates then some (evaluate r t) else none

theorem reportMeasurement_internal {m : Measurement} {x : Holder} {b : BusNo} {cond : LineCond} {s t : State}
    (hold : m.holder = x) (settles : Settles x s)
    (ht : pushNotice 6 (.measurementResult (m.record b .complete)) s = t)
    (own : ∀ (n : Nat) (k : Ticket), x = .retest n → ticketByNumber n s = some k →
      k.subject = .line m.line ∧ ∀ f ∈ (evaluate (m.record b .complete) t).findings, f.code = k.code) :
    reportMeasurement b m .complete cond s =
        told x (.complete ((toldWith m.evaluate (m.record b .complete) t).map fun y => y.findings.length)) .complete
          (toldWith m.evaluate (m.record b .complete) t) (cond == .locked) (handedOn m.evaluate (m.record b .complete) t) ∧
      ReportOnly s (reportMeasurement b m .complete cond s) := by
  have settles' : Settles x t := ht ▸ settles_pushNotice settles ..
  have only : ReportOnly s t := ht ▸ pushNotice_only ..
  cases eval : m.evaluate with
  | false =>
    have e := reportMeasurement_settles hold settles (evaluated_of_not eval .complete) b cond
    rw [ht] at e
    exact ⟨e, e ▸ only.trans (told_only settles' ..)⟩
  | true =>
    have settled : Settles x (handFindings (evaluate (m.record b .complete) t).findings t) := by
      refine settles_handed settles' (line := m.line) fun n k e hk => ?_
      obtain ⟨subject, codes⟩ := own n k e (by rw [← ht, pushNotice_eq] at hk; exact hk)
      exact ⟨subject, fun f hf => ⟨evaluate_line hf, codes f hf⟩⟩
    have tells : reportMeasurement b m .complete cond s =
        tellRecord x .complete (some (evaluate (m.record b .complete) t)) cond
          (handFindings (evaluate (m.record b .complete) t).findings t) := by
      simp only [reportMeasurement, hold, evaluated_complete eval, if_true, addressee_of_settles settles, ht]
    have e := tells.trans (tellRecord_eq settled _ _ _)
    exact ⟨e, e ▸ (only.trans (.ofTickets (handFindings_only ..))).trans (told_only settled ..)⟩

/-- A measurement completes for its internal holder. -/
theorem endStep_internal {h : HeadNo} {b : BusNo} {x : Holder} {line : Nat} {c : Context} {d : StepDef} {s : State}
    (hb : s.heads[h].bus = some b) (hhead : s.buses[b].head = some h) (nowait : ∀ e ∈ s.headQueue, e.bus ≠ b)
    (hholder : s.buses[b].holder = some x) (hline : s.buses[b].line = some line) (hold : c.holder = x)
    (settles : Settles x s) (last : c.index + 1 = c.steps.length) {r : Record}
    (hr : (listed c (stepResultOf c d false)).measurement.record b .complete = r) {t : State}
    (ht : pushNotice 6 (.measurementResult r) (recorded h c (stepResultOf c d false) s) = t)
    (own : ∀ (n : Nat) (k : Ticket), x = .retest n → ticketByNumber n s = some k →
      k.subject = .line c.line ∧ ∀ f ∈ (evaluate r t).findings, f.code = k.code) {u : State}
    (hu : rested h b (told x (.complete ((toldWith c.evaluate r t).map fun y => y.findings.length)) .complete
      (toldWith c.evaluate r t) (s.buses[b].accepted == .locked) (handedOn c.evaluate r t)) = u) :
    endStep h c d false s = sends b {} (withBus b (breaking line .complete u.buses[b]) u) := by
  have settles' : Settles x (recorded h c (stepResultOf c d false) s) := by cases x <;> exact settles
  subst hr hu
  obtain ⟨report, only⟩ := reportMeasurement_internal (m := (listed c (stepResultOf c d false)).measurement)
    (cond := s.buses[b].accepted) hold settles' ht own
  rw [endStep_last hb last]
  exact endMeasurement_of_report_internal hhead hold hholder hline nowait settles' report (report ▸ only)

/-! ### Windows taken again and phases that follow (R79, R82, R83, R84) -/

/-- A phase whose word is a new one begins. -/
theorem beginPhase_new {h : HeadNo} {b : BusNo} {p : Phase} {d : StepDef} {c : Context} {s : State}
    (hb : s.heads[h].bus = some b) (new : s.heads[h].word ≠ phaseWord b p c.range d) :
    beginPhase h p d c s =
      withHead h
        { s.heads[h] with
          state := .awaitEcho, word := phaseWord b p c.range d, timer := some 0
          ctx := some { c.enterPhase p d with noEcho := false } } s := by
  rw [beginPhase_eq hb, beq_eq_false_iff_ne.2 new]
  rfl

section
variable {h : HeadNo} {w : HeadWords} {c : Context} {d : StepDef} {s : State}

/-- A good frame with a matching echo in INTEGRATING. -/
theorem headFrame_sample (k : ActiveOn h c d .integrating s) (good : w.good = true)
    (matches_ : Matches w.status s.heads[h].word) :
    headFrame h w s = acceptSample h c d (sampleOf d.legs w.vt w.vr w.it w.ir) (echoed h w.status s) := by
  rw [headFrame_active good k (.inr (.inr rfl)), activeFrame_integrating (activeOn_echoed k _),
    integrateFrame_matching good (by rw [echoed_head]; exact matches_)]

theorem headFrame_lost (k : ActiveOn h c d .integrating s) (bad : w.good = false) :
    headFrame h w s =
      withHeadCounts h { s.headCounters[h] with lostSamples := raised s.headCounters[h].lostSamples }
        (withHead h { s.heads[h] with ctx := some c.lose } s) := by
  rw [headFrame_active_bad bad k (.inr (.inr rfl)), activeFrame_integrating k, integrateFrame_bad bad]
  rfl

/-- A current at its limit restarts a RES step of range AUTO in HIGH. -/
theorem acceptSample_rangesUp {x : Sample} (up : rangesUp c d x = true) :
    acceptSample h c d x s =
      beginPhase h .plus d (c.rangeUp s.site.mains60)
        (withHeadCounts h { s.headCounters[h] with rangeChanges := raised s.headCounters[h].rangeChanges } s) :=
  if_pos up

theorem lose_plain (h : ¬(c.phase = .charge ∧ c.chargeRepeat = true)) : c.lose = { c with lost := c.lost + 1 } := if_neg h

end

theorem sampleOf_eq (legs : Legs) (vt vr it ir : Word) :
    sampleOf legs vt vr it ir =
      { v := match legs with | .tg => vt.toInt | .rg => vr.toInt | .tr => vt.toInt - vr.toInt
        i := match legs with | .rg => ir.toInt | _ => it.toInt
        vClip := match legs with
          | .tg => vt == 0x7FFF#16 || vt == 0x8000#16
          | .rg => vr == 0x7FFF#16 || vr == 0x8000#16
          | .tr => vt == 0x7FFF#16 || vt == 0x8000#16 || vr == 0x7FFF#16 || vr == 0x8000#16
        iClip := match legs with
          | .rg => ir == 0x7FFF#16 || ir == 0x8000#16
          | _ => it == 0x7FFF#16 || it == 0x8000#16 } := by
  cases legs with
  | tr => rw [Bool.or_assoc]; rfl
  | _ => rfl

/-- A phase other than the charge is taken again with its own set empty. -/
theorem repeatPhase_eq {c : Context} (h : c.phase ≠ .charge) :
    c.repeatPhase =
      { c with
        first := if c.phase = .minus then c.first else {}
        second := if c.phase = .minus then {} else c.second
        isRepeat := true, accepted := 0, lost := 0 } := by
  unfold Context.repeatPhase Context.updAccum
  cases e : c.phase with
  | charge => exact absurd e h
  | _ => rfl

theorem recorded_head (h : HeadNo) (c : Context) (r : StepResult) (s : State) :
    (recorded h c r s).heads[h] = { s.heads[h] with ctx := some (listed c r) } := withHead_self ..

/-- Settles O25. -/
theorem windowsAreJudged : Obligations.WindowsAreJudged := by
  refine ⟨sampleOf_eq, fun h w c d s k phase => ⟨fun good matches_ noClip => ?_, fun bad => ?_,
      fun b good matches_ hb kind range low wordLow clip => ?_⟩,
    fun h c d s st ctx step phase full lost first => ?_, fun h b c d s st hb ctx step phase full kept some_ positive => ?_,
    fun h b o c d s st measures plain step last phase full kept some_ => ?_,
    fun i h b c d e s st hb ctx step next ends => ?_, fun i h b o c d s st measures eval step last ends => ?_,
    fun i h b x line c d s st hb ctx hhead nowait hholder hline hold settles step last ends => ?_⟩
  · rw [headFrame_sample k good matches_, acceptSample_plain phase noClip, echoed_head]
    exact withHead_withHead ..
  · rw [headFrame_lost k bad, lose_plain fun e => phase e.1]
  · have up : rangesUp c d (sampleOf d.legs w.vt w.vr w.it w.ir) = true := by simp [rangesUp, kind, range, low, clip]
    rw [headFrame_sample k good matches_, acceptSample_rangesUp up]
    have own (k : HeadCounters) : (withHeadCounts h k (echoed h w.status s)).heads[h] =
        { s.heads[h] with echoed := w.status &&& 0xFFE0#16 } := echoed_head
    rw [beginPhase_new (b := b) (by rw [own]; exact hb), own]
    · exact congrArg (withHeadCounts h _) (withHead_withHead ..)
    · rw [own]
      intro e
      have high := congrArg HeadWord.range e
      rw [show (_ : HeadWord).range = .low from wordLow] at high
      cases high
  · have many : lostTooMany c = true := decide_eq_true lost
    refine congrArg Host.Outcome.next ((windowEnds_eq st ctx step phase full).trans ?_)
    simp only [judgeWindow, many, first, if_true, Bool.false_eq_true, if_false, repeatPhase_eq phase]
    rfl
  · refine congrArg Host.Outcome.next ((windowEnds_eq st ctx step (by rw [phase]; decide) full).trans ?_)
    have new : s.heads[h].word ≠ phaseWord b .minus c.range d := fun e => by
      rw [e] at positive
      cases positive
    rw [judgeWindow_kept kept]
    simp only [phaseComplete, Nat.ne_of_gt some_, if_false, phase]
    exact beginPhase_new hb new
  · have other : c.phase ≠ .charge := by rw [phase]; decide
    refine congrArg Host.Outcome.next ((windowEnds_eq st measures.2.1 step other full).trans ?_)
    rw [judgeWindow_kept kept]
    simp only [phaseComplete, Nat.ne_of_gt some_, if_false, phase]
    exact endStep_completes measures plain last
  · dsimp only
    rw [exec_endsStep st ctx step ends, endStep_eq,
      beginStepAt_eq (b := b) (c := listed c (stepResultOf c d false)) (by rw [recorded_head]; exact hb) next,
      recorded_head]
    rfl
  · obtain ⟨-, ctx, -, hold, -⟩ := id measures
    dsimp only
    rw [exec_endsStep st ctx step ends, endStep_evaluates measures eval last, ← hold]
    rfl
  · subst hold
    intro r t v own u
    exact (exec_endsStep st ctx step ends).trans (congrArg Host.Outcome.next
      (endStep_internal hb hhead nowait hholder hline rfl settles last (r := r) rfl (t := t) rfl own (u := u) rfl))

/-! ### The charge window (R83, R103) -/

theorem enterPosition_eq (position : Nat) (v i : Int) (m : Accum) :
    enterPosition position v i m = chargeEntered position v i m := by
  unfold enterPosition chargeEntered chargeTailStart
  by_cases h : position ≤ 320
  · rw [if_pos h, if_neg (by omega)]
  · rw [if_neg h, if_pos (by omega)]

/-- Positions entered one after another, from a first one on. -/
theorem enterPositions_eq (position : Nat) (v i : Int) (k : Nat) (m : Accum) :
    enterPositions position v i k m = (List.range k).foldl (fun m j => chargeEntered (position + j) v i m) m := by
  induction k generalizing position m with
  | zero => rfl
  | succ k ih =>
    rw [enterPositions, ih, enterPosition_eq, List.range_succ_eq_map, List.foldl_cons, List.foldl_map]
    simp only [Nat.succ_eq_add_one, Nat.add_assoc, Nat.add_comm 1, Nat.add_zero]

section
variable {c : Context} {x : Sample}

/-- An accepted sample that no earlier loss waits for enters its own position. -/
theorem chargeAccum_own (h : c.chargeRepeat = false ∨ 0 < c.accepted) :
    chargeAccum c x = marked x (chargeEntered (c.accepted + c.lost + 1) x.v x.i c.second) := by
  have none : ¬(c.chargeRepeat = true ∧ c.accepted = 0) := fun ⟨again, zero⟩ =>
    h.elim (fun first => by rw [again] at first; cases first) fun some => Nat.ne_of_gt some zero
  simp only [chargeAccum, if_neg none, enterPositions, enterPosition_eq]
  rfl

/-- The first accepted sample of a retaken window enters the positions lost before it, and its own. -/
theorem chargeAccum_first (again : c.chargeRepeat = true) (zero : c.accepted = 0) :
    chargeAccum c x =
      marked x ((List.range (c.lost + 1)).foldl (fun m j => chargeEntered (j + 1) x.v x.i m) c.second) := by
  have early : c.lost + 1 - c.lost = 1 := by omega
  simp only [chargeAccum, again, zero, and_self, if_true, early, enterPositions_eq, enterPosition_eq, List.range_succ,
    List.foldl_append, List.foldl_cons, List.foldl_nil, Nat.zero_add, Nat.add_comm 1]
  rfl

theorem acceptSample_charge {h : HeadNo} {d : StepDef} (phase : c.phase = .charge) (kind : d.kind = .cap) (s : State) :
    acceptSample h c d x s = withHead h { s.heads[h] with ctx := some (c.acceptCharge x) } s := by
  have stays : rangesUp c d x = false := by simp [rangesUp, kind]
  simp only [acceptSample, stays, Bool.false_eq_true, if_false, phase, if_true]
  rfl

end

/-- Settles O26. -/
theorem chargeWindowsAreJudged : Obligations.ChargeWindowsAreJudged := by
  refine ⟨fun h w c d s k phase kind => ⟨fun good matches_ own => ?_, fun good matches_ again zero => ?_,
      fun bad plain => ?_, fun v i bad again last => ?_⟩,
    fun h b c d s st hb ctx step phase full first lost source => ?_,
    fun h b o c d s st measures plain step last phase full first none => ?_⟩
  · rw [headFrame_sample k good matches_, acceptSample_charge phase kind, Context.acceptCharge, chargeAccum_own own,
      echoed_head]
    exact withHead_withHead ..
  · rw [headFrame_sample k good matches_, acceptSample_charge phase kind, Context.acceptCharge,
      chargeAccum_first again zero, zero, echoed_head]
    exact withHead_withHead ..
  · have lose : c.lose = { c with lost := c.lost + 1 } := by
      rcases plain with first | none
      · exact lose_plain fun e => by rw [first] at e; exact Bool.false_ne_true e.2
      · simp only [Context.lose, none, ite_self]
    rw [headFrame_lost k bad, lose]
  · rw [headFrame_lost k bad]
    simp only [Context.lose, phase, again, and_self, if_true, last, enterPosition_eq]
  · have new : (countRepeat h s).heads[h].word ≠ phaseWord b .baseline c.retakeCharge.range d := fun e =>
      source (congrArg HeadWord.source e)
    refine congrArg Host.Outcome.next ((chargeWindowEnds_eq st ctx step phase full).trans ?_)
    simp only [judgeCharge, first, Nat.ne_of_gt lost, Bool.false_eq_true, if_false]
    exact beginPhase_new (s := countRepeat h s) hb new
  · rw [exec_endsStep st measures.2.1 step ⟨full, .inr ⟨rfl, phase, first, none⟩⟩, endStep_completes measures plain last]

end Sys2Proof.Proofs
end

section
/-! The desk clock and the outbound timing (R17, R65, R164, R176): what an outbound frame counts; then O29, O27 and O28. -/

namespace Sys2Proof.Proofs

open Sys2Proof.Machine Sys2Proof.Stated

/-! ### Events that leave the desk clock alone -/

/-- The desk clock, the frame count and the mark of CLOCK_SECOND. -/
def clockOf (s : State) : Nat × Nat × Bool := (s.frameCount, s.clock, s.secondTaken)

section
variable (s : State)

theorem clockOf_pushNotice (a : Nat) (n : NoticeBody) : clockOf (pushNotice a n s) = clockOf s := by rw [pushNotice_eq]; rfl

theorem clockOf_takeLine (d : SweepNo) (line : Nat) (phase : LinePhase) : clockOf (takeLine d line phase s) = clockOf s := by
  have defers : clockOf (deferLine d line phase s) = clockOf s := by
    unfold deferLine
    cases phase with
    | deferred => rfl
    | main => dsimp only; split <;> rfl
  unfold takeLine
  repeat' split
  all_goals first | exact defers | rfl

theorem clockOf_endPass (d : SweepNo) (c : SweepConfig) : clockOf (endPass d c s) = clockOf s := by
  unfold endPass
  dsimp only
  split
  · split
    · rfl
    · exact clockOf_pushNotice ..
  · exact clockOf_pushNotice ..

theorem clockOf_sweepRun (d : SweepNo) (fuel : Nat) : clockOf (sweepRun d fuel s) = clockOf s := by
  induction fuel generalizing s with
  | zero => rfl
  | succ fuel ih =>
    unfold sweepRun
    dsimp only
    repeat' split
    all_goals first
      | rfl
      | rw [ih, clockOf_takeLine]; rfl
      | rw [ih, clockOf_endPass]
      | rw [ih]; rfl

theorem clockOf_sweepStep (d : SweepNo) : clockOf (sweepStep d s) = clockOf s := clockOf_sweepRun ..

theorem clockOf_leaveActive (d : SweepNo) (line : Nat) (e : LineEnd) : clockOf (leaveActive d line e s) = clockOf s := by
  unfold leaveActive
  dsimp only
  repeat' split
  · exact clockOf_pushNotice ..
  · rfl
  · exact clockOf_sweepStep ..

theorem clockOf_sweepLineEnded (d : SweepNo) (e : LineEnd) (locked : Bool) :
    clockOf (sweepLineEnded d e locked s) = clockOf s := by
  simp only [sweepLineEnded]
  split
  · rfl
  case h_2 line phase _ =>
    obtain ⟨l, c, hc⟩ := countLineEnd_shape d line phase e (withSweep d { s.sweeps[d] with inFlight := none } s)
    refine (clockOf_leaveActive ..).trans ?_
    change clockOf (if locked then countSweep d _ (countLineEnd d line phase e (withSweep d _ s))
      else countLineEnd d line phase e (withSweep d _ s)) = _
    rw [hc]
    split <;> rfl

theorem clockOf_grant (b : BusNo) (e : WaitEntry) : clockOf (grant b e s) = clockOf s := by
  have rivals (l : List SweepNo) (t : State) :
      clockOf (l.foldl (fun t d => sweepLineEnded d .deferred false t) t) = clockOf t := by
    induction l generalizing t with
    | nil => rfl
    | cons d l ih => exact (ih _).trans (clockOf_sweepLineEnded ..)
  exact rivals ..

theorem clockOf_grantPass : clockOf (grantPass s) = clockOf s := by
  have steps (fuel : Nat) (t : State) : clockOf (grantSteps fuel t) = clockOf t := by
    induction fuel generalizing t with
    | zero => rfl
    | succ fuel ih =>
      unfold grantSteps
      split
      · rw [ih, clockOf_grant]
      · rfl
  exact steps 8 s

theorem clockOf_paceExpires (d : SweepNo) : clockOf (paceExpires d s) = clockOf s := by
  unfold paceExpires
  dsimp only
  repeat' split
  · rw [clockOf_grantPass, clockOf_sweepStep]; rfl
  · rfl
  · rfl

theorem clockOf_settleDesk (x : Option Holder) (b : BusNo) : clockOf (settleDesk x b s) = clockOf s := by
  unfold settleDesk
  repeat' split
  all_goals rfl

theorem clockOf_enterMode (b : BusNo) (m : NewMode) : clockOf (enterMode b m s) = clockOf s := by
  unfold enterMode deskEntry
  dsimp only
  repeat' split
  · rfl
  · rfl
  · exact clockOf_settleDesk ..

theorem clockOf_warningExpires (b : BusNo) : clockOf (warningExpires b s) = clockOf s := by
  unfold warningExpires
  split
  · exact clockOf_enterMode ..
  · rfl

theorem clockOf_outboundDue : clockOf (outboundDue s) = clockOf s := by
  have warnings (l : List BusNo) (t : State) : clockOf (l.foldl (fun t b => warningExpires b t) t) = clockOf t := by
    induction l generalizing t with
    | nil => rfl
    | cons b l ih => exact (ih _).trans (clockOf_warningExpires ..)
  have paces (l : List SweepNo) (t : State) : clockOf (l.foldl (fun t d => paceExpires d t) t) = clockOf t := by
    induction l generalizing t with
    | nil => rfl
    | cons d l ih => exact (ih _).trans (clockOf_paceExpires ..)
  exact (paces ..).trans (warnings ..)

end

/-! ### What a frame counts -/

theorem foldl_setSweep (f : Descriptor → Descriptor) (s : State) :
    allSweeps.foldl (fun t d => t.setSweep d (f t.sweeps[d])) s = { s with sweeps := s.sweeps.map f } := by
  have each (l : List SweepNo) (s : State) : l.foldl (fun t d => t.setSweep d (f t.sweeps[d])) s =
      { s with sweeps := l.foldl (fun v (d : SweepNo) => v.set d (f v[d])) s.sweeps } := by
    induction l generalizing s with
    | nil => rfl
    | cons d l ih => exact ih _
  rw [each, foldl_set_eq_map f (by decide) mem_allSweeps]

/-- Every generator advances by its increment (R17). -/
theorem advanceTones_eq (s : State) : advanceTones s = { s with tones := s.tones.map advanceTone } := by
  have each (l : List ToneNo) (s : State) : l.foldl advanceToneAt s =
      { s with tones := l.foldl (fun v (k : ToneNo) => v.set k (advanceTone v[k])) s.tones } := by
    induction l generalizing s with
    | nil => rfl
    | cons k l ih => exact ih _
  rw [advanceTones, each, foldl_set_eq_map advanceTone (by decide) (by decide)]

theorem tickWarning_eq (s : State) (b : BusNo) :
    tickWarning s b = s.setBus b { s.buses[b] with warnTimer := s.buses[b].warnTimer.map (· + 1) } := by
  unfold tickWarning
  split
  case h_1 stopped =>
    rw [stopped, Option.map_none, ← stopped]
    exact (withBus_same s b).symm
  case h_2 n runs => rw [runs]; rfl

theorem tickPace_eq (s : State) (d : SweepNo) :
    tickPace s d = s.setSweep d { s.sweeps[d] with pace := tickedPace s.sweeps[d].pace } := by
  have same : s.setSweep d s.sweeps[d] = s := by simp [State.setSweep]
  unfold tickPace
  split
  case h_1 stopped => rw [stopped, show tickedPace .stopped = .stopped from rfl, ← stopped]; exact same.symm
  case h_2 expired => rw [expired, show tickedPace .expired = .expired from rfl, ← expired]; exact same.symm
  case h_3 n limit runs => rw [runs]; rfl

theorem countClock_eq (s : State) : countClock s = frameCounted s := by
  unfold countClock frameCounted Config.framesPerSecond
  by_cases h : s.frameCount < 7999
  · rw [if_pos h, if_pos (by omega)]
  · rw [if_neg h, if_neg (by omega)]

/-- The warning and pace timers rise, and the frame is counted (R65, R164, R176). -/
theorem countFrame_eq (s : State) :
    countFrame s =
      countFree (countOnce { s with
        buses := s.buses.map fun x => { x with warnTimer := x.warnTimer.map (· + 1) }
        sweeps := s.sweeps.map fun x => { x with pace := tickedPace x.pace } }) := by
  have hb : (tickWarning : State → BusNo → State) = _ := funext fun s => funext fun b => tickWarning_eq s b
  have hd : (tickPace : State → SweepNo → State) = _ := funext fun s => funext fun d => tickPace_eq s d
  rw [countFrame, hb, foldl_setBus fun x => { x with warnTimer := x.warnTimer.map (· + 1) }, hd,
    foldl_setSweep fun x => { x with pace := tickedPace x.pace }]

/-- The arbiter's choice changes the message in progress, the queues it takes from and the ticket it issues alone. -/
theorem chooseMessage_shape (s : State) :
    ∃ replies tickets notices sending, (chooseMessage s).1 =
      { s with replies := replies, tickets := tickets, notices := notices, sending := sending } := by
  unfold chooseMessage
  repeat' split
  all_goals exact ⟨_, _, _, _, rfl⟩

/-- Short of what is due, an outbound frame raises the timers, advances the generators and counts itself. -/
theorem outboundFrame_shape (s : State) :
    ∃ replies tickets notices sending frame, outboundFrame s =
      countFree (countOnce { outboundDue s with
        replies := replies, tickets := tickets, notices := notices, sending := sending, outFrame := some frame
        tones := (outboundDue s).tones.map advanceTone
        buses := (outboundDue s).buses.map fun x => { x with warnTimer := x.warnTimer.map (· + 1) }
        sweeps := (outboundDue s).sweeps.map fun x => { x with pace := tickedPace x.pace } }) := by
  obtain ⟨r, t, n, m, e⟩ := chooseMessage_shape (outboundDue s)
  refine ⟨r, t, n, m.drop 8, assembleFrame (chooseMessage (outboundDue s)).2 (chooseMessage (outboundDue s)).1, ?_⟩
  rw [outboundFrame, countFrame_eq, sendFrame, advanceTones_eq, e]

/-! ### Commands whose rule acts beside the count and the reply -/

/-- A command of a known kind is answered as its rule answers it on the counted state. -/
theorem exec_answers {c : Instr} {kind : Octet} {hd : Header} {n : Nat} {own : Rule} {o : Origin} {s t : State}
    {status : Status} {data : ReplyData} (he : exec c s = .next (takeFixed kind hd n own s)) (from_ : From o n hd s)
    (h : own o (counted1 s) = (counted1 t, { status := status, data := data })) :
    exec c s = .next (answered kind hd status data t) := by
  obtain ⟨len, org, room⟩ := from_
  rw [he, takeFixed_own len org room h, pushReply_counted1]

/-! ### The desk clock (R176) -/

theorem change_keeps_clock {s t : State} (h : Change s t) (k : s.clockOk = true) : t.clockOk = true := by
  rw [clockOk_iff] at k ⊢
  cases h with
  | same h => rw [h.frameCount, h.clock]; exact k
  | notice a body => rw [pushNotice_eq]; exact k
  | clock frames clock h => exact h k
  | emptied _ _ _ _ _ _ _ _ _ _ h => rw [h.1, h.2]; unfold ClockOk; decide
  | _ => exact k

/-- What counting a frame makes of the clock, which is all it looks at. -/
theorem clockOf_frameCounted {s t : State} (h : clockOf s = clockOf t) : clockOf (frameCounted s) = clockOf (frameCounted t) := by
  obtain ⟨frames, clock, taken⟩ : s.frameCount = t.frameCount ∧ s.clock = t.clock ∧ s.secondTaken = t.secondTaken := by
    simpa [clockOf] using h
  unfold frameCounted
  rw [frames]
  split <;> simp [clockOf, clock, taken]

theorem clockOf_countOnce {s t : State} (h : clockOf s = clockOf t) : clockOf (countOnce s) = clockOf (countOnce t) := by
  obtain ⟨frames, clock, taken⟩ : s.frameCount = t.frameCount ∧ s.clock = t.clock ∧ s.secondTaken = t.secondTaken := by
    simpa [clockOf] using h
  unfold countOnce
  rw [taken]
  split
  · simp [clockOf, frames, clock]
  · rw [countClock_eq, countClock_eq]
    exact clockOf_frameCounted h

theorem clockOf_countFree (s : State) : clockOf (countFree s) = clockOf s := rfl

theorem clockOf_outboundFrame (s : State) : clockOf (outboundFrame s) = clockOf (countOnce s) := by
  obtain ⟨r, t, n, m, f, e⟩ := outboundFrame_shape s
  have due := clockOf_outboundDue s
  generalize outboundDue s = u at e due
  rw [e, clockOf_countFree]
  exact clockOf_countOnce due

/-- Settles O29. -/
theorem clockCountsAndIsSet : Obligations.ClockCountsAndIsSet := by
  refine ⟨fun s => ⟨_, rfl, ?_⟩, fun s few => if_pos few, fun s last low => ?_, fun s last top => ?_,
    fun s last fresh => ?_, fun s short => ?_, fun hd seconds s from_ => exec_answers rfl from_ rfl,
    fun s t => step_keeps (fun _ _ k => k) (fun _ _ => change_keeps_clock) (fun _ _ _ k => k)⟩
  · have clock := clockOf_outboundFrame s
    cases taken : s.secondTaken with
    | false =>
      have once : countOnce s = frameCounted s := by
        rw [countOnce, taken, countClock_eq]
        rfl
      have stays : (frameCounted s).secondTaken = false := by
        unfold frameCounted
        split <;> exact taken
      rw [once] at clock
      simp only [clockOf, Prod.mk.injEq, stays] at clock
      exact ⟨clock.2.2, fun _ => ⟨clock.1, clock.2.1⟩, fun h => absurd h Bool.false_ne_true⟩
    | true =>
      have once : countOnce s = { s with secondTaken := false } := by rw [countOnce, taken]; rfl
      rw [once] at clock
      simp only [clockOf, Prod.mk.injEq] at clock
      exact ⟨clock.2.2, fun h => absurd h.symm Bool.false_ne_true, fun _ => ⟨clock.1, clock.2.1⟩⟩
  · have wraps : (s.clock + 1) % 4294967296 = s.clock + 1 := by omega
    rw [frameCounted, if_neg (by omega), wraps]
  · rw [frameCounted, if_neg (by omega), top]
  · have reached : Config.framesPerSecond ≤ s.frameCount + 1 := by rw [last]; decide
    refine congrArg Host.Outcome.next ((if_pos ⟨reached, fresh⟩).trans ?_)
    rw [countClock_eq]
  · refine congrArg Host.Outcome.next (if_neg fun ⟨reached, fresh⟩ => ?_)
    rcases short with few | taken
    · unfold Config.framesPerSecond at reached
      omega
    · rw [fresh] at taken
      cases taken

/-! ### The step of a descriptor that may take a line (R159, R160) -/

/-- A round that takes the next line of the main phase. -/
theorem sweepRun_takes {d : SweepNo} {c : SweepConfig} {s : State} (config : s.sweeps[d].config = some c)
    (armed : s.sweeps[d].state = .armed) (main : s.sweeps[d].deferredPhase = false) (left : 0 < s.sweeps[d].remaining)
    (allows : paceAllows s.sweeps[d] = true) (fuel : Nat) :
    sweepRun d (fuel + 1) s =
      sweepRun d fuel (takeLine d (c.first + s.sweeps[d].nextIndex * c.stride) .main
        (withSweep d { s.sweeps[d] with nextIndex := s.sweeps[d].nextIndex + 1, remaining := s.sweeps[d].remaining - 1 } s)) := by
  simp only [sweepRun, config, armed, main, left, allows, ne_eq, not_true_eq_false, if_false, if_true]
  rfl

/-- A descriptor that has left ARMED takes no round. -/
theorem sweepRun_of_notArmed {d : SweepNo} {s : State} (h : s.sweeps[d].state ≠ .armed) (fuel : Nat) : sweepRun d fuel s = s := by
  cases fuel with
  | zero => rfl
  | succ fuel =>
    unfold sweepRun
    dsimp only
    split
    · rfl
    · exact if_pos h

theorem takeLine_requests {d : SweepNo} {line : Nat} {s : State} (h : Requestable line s) (phase : LinePhase) :
    takeLine d line phase s = requestLine d line phase s := by
  obtain ⟨cls, noticket, unsuppressed, unclaimed⟩ := h
  simp only [takeLine, cls, noticket, unsuppressed, unclaimed, Bool.false_eq_true, if_false, Option.isSome_none]

theorem enterRequest_unclaimed {line : Nat} {s : State} (h : claimOf line s = none) (r : Holder) (cls : Nat) :
    enterRequest r cls line s =
      { s with
        queue := s.queue ++ [{ requester := r, cls := cls, line := line, arrival := s.arrivals, waiting := false }]
        arrivals := next s.arrivals
        queuePeak := max s.queuePeak (s.queue.length + 1) } := by
  rw [enterRequest, h]
  rfl

theorem requestLine_eq {d : SweepNo} {line : Nat} {c : SweepConfig} {x : Descriptor} {s : State} (config : x.config = some c)
    (unclaimed : claimOf line s = none) :
    requestLine d line .main (withSweep d x s) = requests d line c x s := by
  have limit : paceLimit x = 8 * c.pace := by rw [paceLimit, config]; rfl
  have twice : (withSweep d x s).setSweep d { x with
      state := .active, inFlight := some (line, .main), pace := .running 0 (8 * c.pace), requestMade := true } = _ :=
    withSweep_withSweep ..
  rw [requestLine, withSweep_self, limit, twice, enterRequest_unclaimed]
  · rfl
  · exact unclaimed

theorem requests_state (d : SweepNo) (line : Nat) (c : SweepConfig) (x : Descriptor) (s : State) :
    (requests d line c x s).sweeps[d].state = .active := congrArg Descriptor.state (withSweep_self ..)

/-- An ARMED descriptor whose pace allows it requests its next line. -/
theorem sweepStep_requests {d : SweepNo} {c : SweepConfig} {x : Descriptor} {s : State} (config : x.config = some c)
    (armed : x.state = .armed) (main : x.deferredPhase = false) (left : 0 < x.remaining) (allows : paceAllows x = true)
    (may : Requestable (c.first + x.nextIndex * c.stride) s) :
    sweepStep d (withSweep d x s) =
      requests d (c.first + x.nextIndex * c.stride) c
        { x with nextIndex := x.nextIndex + 1, remaining := x.remaining - 1 } s := by
  have own (y : Descriptor) : (withSweep d y s).sweeps[d] = y := withSweep_self ..
  have fuel : sweepFuel x = (x.remaining + x.deferred.length + (x.config.map SweepConfig.count).getD 0 + 63) + 1 := rfl
  have active : (requests d (c.first + x.nextIndex * c.stride) c
      { x with nextIndex := x.nextIndex + 1, remaining := x.remaining - 1 } s).sweeps[d].state ≠ .armed := by
    rw [requests_state]
    decide
  rw [sweepStep, own, fuel, sweepRun_takes (c := c), own, withSweep_withSweep, takeLine_requests,
    requestLine_eq (c := c), sweepRun_of_notArmed active]
  · exact config
  · exact may.2.2.2
  · exact may
  all_goals rw [own]; assumption

/-! ### Warnings and paces (R65, R164) -/

theorem warningExpires_of_short {b : BusNo} {s : State}
    (h : ∀ n limit : Nat, s.buses[b].warnTimer = some n → s.buses[b].warnLimit = some limit → n < limit) :
    warningExpires b s = s := by
  refine if_neg fun due => ?_
  obtain ⟨-, due⟩ := (Bool.and_eq_true ..).mp due
  split at due
  case h_1 n limit hn hl => exact Nat.not_le.2 (h n limit hn hl) (of_decide_eq_true due)
  case h_2 => cases due

theorem paceExpires_of_short {d : SweepNo} {s : State}
    (h : ∀ n limit : Nat, s.sweeps[d].pace = .running n limit → n < limit) : paceExpires d s = s := by
  refine if_neg fun due => ?_
  unfold paceDue at due
  split at due
  case h_1 n limit hn => exact Nat.not_le.2 (h n limit hn) (of_decide_eq_true due)
  case h_2 => cases due

theorem outboundDue_of_notDue {s : State} (h : NotDue s) : outboundDue s = s := by
  have warnings : allBuses.foldl (fun t b => warningExpires b t) s = s :=
    foldl_still (fun b => warningExpires_of_short (h.1 b)) _
  have paces : allSweeps.foldl (fun t d => paceExpires d t) s = s :=
    foldl_still (fun d => paceExpires_of_short (h.2 d)) _
  rw [outboundDue, warnings, paces]

theorem countOnce_leaves (s : State) :
    (countFree (countOnce s)).buses = s.buses ∧ (countFree (countOnce s)).sweeps = s.sweeps := by
  unfold countOnce countClock
  repeat' split
  all_goals exact ⟨rfl, rfl⟩

/-- With nothing due, an outbound frame raises the timers of buses and descriptors alone. -/
theorem outboundFrame_timers {s : State} (h : NotDue s) :
    (outboundFrame s).buses = s.buses.map (fun x => { x with warnTimer := x.warnTimer.map (· + 1) }) ∧
      (outboundFrame s).sweeps = s.sweeps.map fun x => { x with pace := tickedPace x.pace } := by
  obtain ⟨r, t, n, m, f, e⟩ := outboundFrame_shape s
  rw [outboundDue_of_notDue h] at e
  rw [e]
  exact countOnce_leaves _

theorem paceExpires_of_reached {d : SweepNo} {n limit : Nat} {s : State} (pace : s.sweeps[d].pace = .running n limit)
    (reached : limit ≤ n) :
    paceExpires d s =
      if s.sweeps[d].state = .armed then grantPass (sweepStep d (withSweep d { s.sweeps[d] with pace := .expired } s))
      else withSweep d { s.sweeps[d] with pace := .expired } s := by
  have due : paceDue s.sweeps[d] = true := by rw [paceDue, pace]; exact decide_eq_true reached
  exact if_pos due

/-- Settles O27. -/
theorem pacesExpire : Obligations.PacesExpire := by
  refine ⟨fun d n limit s pace reached idle => ?_,
    fun d c n limit s config pace reached armed main left may full => ?_, fun d n limit s pace short => ?_,
    fun s h => ⟨_, rfl, fun d => ?_⟩, fun d s stopped => ?_⟩
  · exact congrArg Host.Outcome.next ((paceExpires_of_reached pace reached).trans (if_neg idle))
  · refine congrArg Host.Outcome.next ((paceExpires_of_reached pace reached).trans ((if_pos armed).trans ?_))
    rw [sweepStep_requests (x := { s.sweeps[d] with pace := .expired }) config armed main left rfl may, grantPass_of_noneFree]
    · rfl
    · exact full
  · refine congrArg Host.Outcome.next (paceExpires_of_short fun m l e => ?_)
    rw [pace] at e
    cases e
    exact short
  · have := (outboundFrame_timers h).2
    show (outboundFrame s).sweeps[d] = _
    rw [this]
    exact Vector.getElem_map ..
  · refine congrArg Host.Outcome.next (paceExpires_of_short fun m l e => ?_)
    rcases stopped with h | h <;> rw [h] at e <;> cases e

/-- A warning that ends: the desk hears the bus, whose bus-out entry carries the desk's speech at its talk gain (R58, R65). -/
theorem enterMode_talk {b : BusNo} {d : DeskNo} {s : State} (hold : s.buses[b].holder = some (.origin d.castSucc)) :
    enterMode b .talk s =
      hears d b (enters b .talk none none
        { primary := some (33 + d.val), secondary := none, action := .gain s.site.gain[d] } s) := by
  have desk : holderDesk (some (.origin d.castSucc)) = some d := dif_pos d.isLt
  simp only [enterMode, deskEntry, hold, desk, busEntry, NewMode.isAudio, if_true]
  rfl

/-- Settles O28. -/
theorem warningEndsInTalk : Obligations.WarningEndsInTalk := by
  refine ⟨fun s h => ⟨_, rfl, fun b => ?_⟩, fun b d n limit s mode timer lim reached hold => ?_,
    fun b n limit s timer lim short => ?_⟩
  · have := (outboundFrame_timers h).1
    show (outboundFrame s).buses[b] = _
    rw [this]
    exact Vector.getElem_map ..
  · have due : warningDue s.buses[b] = true := by
      simp only [warningDue, mode, timer, lim, beq_self_eq_true, Bool.true_and, decide_eq_true_eq]
      exact reached
    exact congrArg Host.Outcome.next ((if_pos due).trans (enterMode_talk hold))
  · refine congrArg Host.Outcome.next (warningExpires_of_short fun m l e e' => ?_)
    rw [timer] at e
    rw [lim] at e'
    cases e
    cases e'
    exact short

end Sys2Proof.Proofs
end

section
/-! The words of outbound frames (R3, R12, R17, R174); then O30 and O31. -/

namespace Sys2Proof.Proofs

open Sys2Proof.Machine Sys2Proof.Stated

/-! ### The words of a frame (R3) -/

section
variable {α : Type} {n : Nat} {l : List α}

theorem getD_inside (l : List α) (a : α) {i : Nat} (h : i < l.length) : l.getD i a = l[i] := by
  rw [List.getD_eq_getElem?_getD, List.getElem?_eq_getElem h, Option.getD_some]

/-- A vector filled from a list of its length. -/
theorem getElem_ofFn_getD (hl : l.length = n) (a : α) {i : Nat} (h : i < n) :
    (Vector.ofFn fun i : Fin n => l.getD i.val a)[i] = l[i]'(hl ▸ h) := by
  rw [Vector.getElem_ofFn]
  exact getD_inside ..

theorem toList_ofFn_getD (hl : l.length = n) (a : α) : (Vector.ofFn fun i : Fin n => l.getD i.val a).toList = l := by
  refine List.ext_getElem (by rw [Vector.length_toList, hl]) fun i h _ => ?_
  rw [Vector.getElem_toList]
  exact getElem_ofFn_getD hl a _

end

/-- The 48 words of a frame, in order. -/
def frameWords (start : Bool) (s : State) : List Word :=
  alignmentWord start :: slotWords s ++ [(slotWords s).foldl (· + ·) 0]

section
variable (start : Bool) (s : State)

theorem managementWords_length : (managementWords s).length = 4 := by rw [managementWords, List.length_map]; rfl

theorem headCommands_length : (headCommands s).length = 4 := by rw [headCommands, List.length_map]; rfl

theorem relayOrders_length : (relayOrders s).length = 8 := by rw [relayOrders, List.length_map]; rfl

theorem slotWords_length : (slotWords s).length = 46 := by
  simp only [slotWords, pathWords, List.length_append, managementWords_length, headCommands_length, relayOrders_length,
    List.length_map, Vector.length_toList]

theorem frameWords_length : (frameWords start s).length = 48 := by
  simp only [frameWords, List.length_append, List.length_cons, List.length_nil, slotWords_length]

theorem assembleFrame_toList : (assembleFrame start s).toList = frameWords start s :=
  toList_ofFn_getD (frameWords_length start s) 0

/-- A slot's word. -/
theorem assembleFrame_getElem {i : Nat} (h : i < 48) :
    (assembleFrame start s)[i] = (frameWords start s)[i]'(by rw [frameWords_length]; exact h) :=
  getElem_ofFn_getD (frameWords_length start s) 0 h

theorem assembleFrame_alignment : (assembleFrame start s)[0] = alignmentWord start := by
  rw [assembleFrame_getElem]
  rfl

theorem assembleFrame_slot {i j : Nat} (hj : j = i + 1) (h : i < 46) :
    (assembleFrame start s)[j]'(by omega) = (slotWords s)[i]'(by rw [slotWords_length]; exact h) := by
  subst hj
  rw [assembleFrame_getElem _ _ (by omega)]
  simp only [frameWords, List.cons_append, List.getElem_cons_succ]
  exact List.getElem_append_left _

theorem assembleFrame_sum : (assembleFrame start s)[47] = frameSum (assembleFrame start s) := by
  have words : ((frameWords start s).drop 1).take 46 = slotWords s := by
    rw [frameWords, List.cons_append, List.drop_succ_cons, List.drop_zero]
    exact List.take_left' (slotWords_length s)
  rw [frameSum, assembleFrame_toList, words, assembleFrame_getElem]
  simp only [frameWords, List.cons_append, List.getElem_cons_succ]
  rw [List.getElem_append_right (Nat.le_of_eq (slotWords_length s))]
  simp [slotWords_length]

theorem alignmentWord_pattern : (alignmentWord start).extractLsb' 1 15 = alignmentPattern := by
  cases start <;> rfl

theorem alignmentWord_flag : (alignmentWord start).getLsbD 0 = start := by cases start <;> rfl

/-- The management octets of a frame are those of the message in progress, and fill after its end (R174). -/
theorem assembleFrame_octets :
    managementOctets (assembleFrame start s) = (List.range 8).map (managementOctet s) := by
  have words : ((frameWords start s).drop 1).take 4 = managementWords s := by
    rw [frameWords, List.cons_append, List.drop_succ_cons, List.drop_zero, slotWords, List.append_assoc, List.append_assoc,
      List.append_assoc]
    exact List.take_left' (managementWords_length s)
  have split_ (a b : Octet) : (a ++ b).extractLsb' 8 8 = a ∧ (a ++ b).extractLsb' 0 8 = b :=
    ⟨BitVec.extractLsb'_append_eq_left, BitVec.extractLsb'_append_eq_right⟩
  rw [managementOctets, assembleFrame_toList, words, managementWords, List.flatMap_map]
  simp only [(split_ _ _).1, (split_ _ _).2]
  rfl

end

section
variable (s : State)

theorem slotWords_head (h : HeadNo) :
    (slotWords s)[4 + h.val]'(by rw [slotWords_length]; omega) = headCommandWord s.heads[h].word := by
  have own : allHeads[h.val]'h.isLt = h := by revert h; decide
  simp only [slotWords]
  rw [List.getElem_append_left (by simp [managementWords_length, headCommands_length, relayOrders_length]; omega),
    List.getElem_append_left (by simp [managementWords_length, headCommands_length]; omega),
    List.getElem_append_right (by simp [managementWords_length])]
  simp only [managementWords_length, Nat.add_sub_cancel_left, headCommands, List.getElem_map]
  exact congrArg (fun k : HeadNo => headCommandWord s.heads[k].word) own

theorem slotWords_bus (b : BusNo) :
    (slotWords s)[8 + b.val]'(by rw [slotWords_length]; omega) = orderWord s.buses[b].order := by
  have own : allBuses[b.val]'b.isLt = b := by revert b; decide
  have front : (managementWords s ++ headCommands s).length = 8 := by
    rw [List.length_append, managementWords_length, headCommands_length]
  simp only [slotWords]
  rw [List.getElem_append_left (by rw [List.length_append, front, relayOrders_length]; omega),
    List.getElem_append_right (by rw [front]; omega)]
  simp only [front, Nat.add_sub_cancel_left, relayOrders, List.getElem_map]
  exact congrArg (fun k : BusNo => orderWord s.buses[k].order) own

theorem slotWords_path (i : Fin 30) :
    (slotWords s)[16 + i.val]'(by rw [slotWords_length]; omega) = wordOf (entryValue s.paths[i] s) := by
  have front : (managementWords s ++ headCommands s ++ relayOrders s).length = 16 := by
    rw [List.length_append, List.length_append, managementWords_length, headCommands_length, relayOrders_length]
  simp only [slotWords]
  rw [List.getElem_append_right (by rw [front]; omega)]
  simp only [front, Nat.add_sub_cancel_left, pathWords, List.getElem_map, Vector.getElem_toList]
  rfl

end

/-! ### What the sending of a frame leaves (R17, R176) -/

theorem countFree_countOnce (s : State) : countFree (countOnce s) = countOnce (countFree s) := by
  have clock : countFree (countClock s) = countClock (countFree s) := by
    unfold countClock countFree
    dsimp only
    split <;> rfl
  have taken : (countFree s).secondTaken = s.secondTaken := rfl
  unfold countOnce
  rw [taken]
  split
  · rfl
  · exact clock

/-- With no warning and no pace running, a frame that is sent leaves what the statements call sent. -/
theorem countFrame_sendFrame {s : State} (warnings : ∀ b : BusNo, s.buses[b].warnTimer = none)
    (paces : ∀ d : SweepNo, s.sweeps[d].pace = .stopped ∨ s.sweeps[d].pace = .expired) (start : Bool) :
    countFrame (sendFrame start s) = sent (assembleFrame start s) { s with sending := s.sending.drop 8 } := by
  have buses : (s.buses.map fun x => { x with warnTimer := x.warnTimer.map (· + 1) }) = s.buses := by
    refine Vector.ext fun i hi => ?_
    have none := warnings ⟨i, hi⟩
    rw [Fin.getElem_fin] at none
    rw [Vector.getElem_map, none, Option.map_none, ← none]
  have sweeps : (s.sweeps.map fun x => { x with pace := tickedPace x.pace }) = s.sweeps := by
    refine Vector.ext fun i hi => ?_
    have stays : tickedPace s.sweeps[i].pace = s.sweeps[i].pace := by
      have stopped := paces ⟨i, hi⟩
      rw [Fin.getElem_fin] at stopped
      rcases stopped with e | e <;> rw [e] <;> rfl
    rw [Vector.getElem_map, stays]
  have tones : s.tones.map advanceTone = Vector.ofFn fun k : Fin 4 =>
      { s.tones[k] with
        phase := (s.tones[k].phase + (2 * s.tones[k].frequency * 65536 + 8000) / 16000) % 65536 } := by
    refine Vector.ext fun i hi => ?_
    rw [Vector.getElem_map, Vector.getElem_ofFn]
    rfl
  rw [countFrame_eq, sendFrame, advanceTones_eq, countFree_countOnce, sent, countOnce, ← tones]
  dsimp only
  rw [buses, sweeps, countClock_eq]
  rfl

/-- With no warning and no pace running, the frame carries what the arbiter has chosen. -/
theorem exec_outboundFrame {s t : State} {start : Bool} (h : NoneDue s) (chosen : chooseMessage s = (t, start)) :
    exec .outboundFrame s = .next (sent (assembleFrame start t) { t with sending := t.sending.drop 8 }) := by
  obtain ⟨warnings, paces⟩ := h
  have notDue : NotDue s := by
    refine ⟨fun b n limit e => ?_, fun d n limit e => ?_⟩
    · rw [(warnings b).2] at e; cases e
    · rcases paces d with k | k <;> rw [k] at e <;> cases e
  have same : t.buses = s.buses ∧ t.sweeps = s.sweeps := by
    obtain ⟨r, k, n, m, e⟩ := chooseMessage_shape s
    rw [chosen] at e
    subst e
    exact ⟨rfl, rfl⟩
  refine congrArg Host.Outcome.next (?_ : outboundFrame s = _)
  rw [outboundFrame, outboundDue_of_notDue notDue, chosen]
  exact countFrame_sendFrame (fun b => by rw [same.1]; exact (warnings b).2) (fun d => by rw [same.2]; exact paces d) start

theorem outboundFrame_outFrame (s : State) :
    (outboundFrame s).outFrame =
      some (assembleFrame (chooseMessage (outboundDue s)).2 (chooseMessage (outboundDue s)).1) := by
  have counted (t : State) : (countFree (countOnce t)).outFrame = t.outFrame := by
    unfold countOnce countClock
    repeat' split
    all_goals rfl
  rw [outboundFrame, countFrame_eq, counted, sendFrame, advanceTones_eq]

/-! ### The arbiter's choice (R174) -/

section
variable {s : State}

theorem pushedTicket_of_noTicket (h : NoTicket s) : pushedTicket s = none := by
  unfold pushedTicket
  rcases h with poll | none
  · rw [poll]; rfl
  · rw [firstPending, none]
    split <;> rfl

theorem chooseMessage_goesOn (h : s.sending ≠ []) : chooseMessage s = (s, false) := if_pos h

theorem chooseMessage_reply {r : Reply} {rest : List Reply} (idle : s.sending = []) (replies : s.replies = r :: rest) :
    chooseMessage s = ({ s with replies := rest, sending := encReply s.freeCount r }, true) := by
  rw [chooseMessage, if_neg (by rw [idle]; exact fun h => h rfl), replies]

theorem chooseMessage_ticket {t : Ticket} (idle : s.sending = []) (replies : s.replies = [])
    (pushed : pushedTicket s = some t) :
    chooseMessage s = ({ issue t s with sending := encNotice (ticketNotice t s) }, true) := by
  rw [chooseMessage, if_neg (by rw [idle]; exact fun h => h rfl), replies, pushed]

theorem chooseMessage_notice {n : Notice} {rest : List Notice} (idle : s.sending = []) (replies : s.replies = [])
    (pushed : pushedTicket s = none) (notices : s.notices = n :: rest) :
    chooseMessage s = ({ s with notices := rest, sending := encNotice n }, true) := by
  rw [chooseMessage, if_neg (by rw [idle]; exact fun h => h rfl), replies, pushed, notices]

theorem chooseMessage_nothing (idle : s.sending = []) (replies : s.replies = []) (pushed : pushedTicket s = none)
    (notices : s.notices = []) : chooseMessage s = (s, false) := by
  rw [chooseMessage, if_neg (by rw [idle]; exact fun h => h rfl), replies, pushed, notices]

end

/-! ### The generators (R17) -/

theorem roundScaled_neg (x : Int) : roundScaled (-x) = -roundScaled x := by
  unfold roundScaled sineBits
  split <;> split <;> omega

/-- The sine by the quarter of the circle that a phase lies in. -/
theorem sineScaled_eq {p : Nat} (h : p < 65536) :
    sineScaled p =
      if p ≤ 16384 then sineQuarter p
      else if p ≤ 32768 then sineQuarter (32768 - p)
      else if p ≤ 49152 then -sineQuarter (p - 32768)
      else -sineQuarter (65536 - p) := by
  rw [sineScaled, Nat.mod_eq_of_lt h]

theorem sineScaled_half {p : Nat} (h : p < 32768) : sineScaled (p + 32768) = -sineScaled p := by
  have zero : sineQuarter 0 = 0 := by decide
  have back : 65536 - (p + 32768) = 32768 - p := by omega
  rw [sineScaled_eq (by omega), sineScaled_eq (by omega), if_neg (by omega)]
  by_cases none : p = 0
  · subst none
    simp [zero]
  by_cases first : p ≤ 16384
  · rw [if_neg (by omega), if_pos (by omega), if_pos first, Nat.add_sub_cancel]
  · rw [if_neg (by omega), if_neg (by omega), if_neg first, if_pos (by omega), back]

theorem sineScaled_mirror {p : Nat} (h : p ≤ 32768) : sineScaled (32768 - p) = sineScaled p := by
  rw [sineScaled_eq (by omega), sineScaled_eq (by omega)]
  by_cases first : p ≤ 16384
  · by_cases mid : p = 16384
    · subst mid
      rfl
    · rw [if_neg (by omega), if_pos (by omega), if_pos first, Nat.sub_sub_self h]
  · rw [if_pos (by omega), if_neg first, if_pos h]

theorem toneValue_quarter (f a : Nat) : toneValue { frequency := f, amplitude := a, phase := 16384 } = a := by
  have top : sineScaled 16384 = 2 ^ 96 := rfl
  rw [toneValue, top, roundScaled, sineBits]
  dsimp only
  split <;> omega

theorem toneValue_threeQuarters (f a : Nat) : toneValue { frequency := f, amplitude := a, phase := 49152 } = -a := by
  have bottom : sineScaled 49152 = -sineScaled 16384 := sineScaled_half (p := 16384) (by decide)
  rw [toneValue, bottom, Int.mul_neg, roundScaled_neg]
  exact congrArg _ (toneValue_quarter f a)

theorem toneValue_zero (f a phase : Nat) (h : sineScaled phase = 0) :
    toneValue { frequency := f, amplitude := a, phase := phase } = 0 := by
  rw [toneValue, h, Int.mul_zero]
  rfl

/-- Settles O30. -/
theorem outboundFramesAreFormed : Obligations.OutboundFramesAreFormed := by
  refine ⟨fun s => ⟨_, assembleFrame (chooseMessage (outboundDue s)).2 (chooseMessage (outboundDue s)).1, rfl, ?_, ?_, ?_⟩,
    fun s none idle replies notices noTicket => ?_, fun f a => ⟨?_, ?_, ?_, ?_, fun p h => ?_, fun p h => ?_⟩, by decide⟩
  · exact outboundFrame_outFrame s
  · rw [assembleFrame_alignment, alignmentWord_pattern]
    rfl
  · exact assembleFrame_sum ..
  · have nothing := chooseMessage_nothing idle replies (pushedTicket_of_noTicket noTicket) notices
    have same : { s with sending := s.sending.drop 8 } = s := by rw [idle, List.drop_nil, ← idle]
    refine ⟨assembleFrame false s, ?_, ?_, fun h => ?_, fun b => ?_, fun i => ?_, fun b k entry => ?_⟩
    · rw [exec_outboundFrame none nothing, same]
    · rw [assembleFrame_alignment, alignmentWord_flag]
    · rw [assembleFrame_slot false s (i := 4 + h.val) (by omega) (by omega), slotWords_head]
    · rw [assembleFrame_slot false s (i := 8 + b.val) (by omega) (by omega), slotWords_bus]
    · rw [assembleFrame_slot false s (i := 16 + i.val) (by omega) (by omega), slotWords_path]
      rfl
    · have word := (assembleFrame_slot false s (i := 16 + (6 + b.val)) (j := 23 + b.val) (by omega) (by omega)).trans
        (slotWords_path s ⟨6 + b.val, by omega⟩)
      rw [word, show s.paths[(⟨6 + b.val, by omega⟩ : Fin 30)] = { action := .tone k } from entry]
      rfl
  · exact toneValue_zero _ _ _ (by decide)
  · exact toneValue_quarter ..
  · exact toneValue_zero _ _ _ (by decide)
  · exact toneValue_threeQuarters ..
  · dsimp only [toneValue]
    rw [sineScaled_half h, Int.mul_neg, roundScaled_neg]
  · dsimp only [toneValue]
    rw [sineScaled_mirror h]

/-! ### The octets of a message in the frame (R174, R180) -/

/-- The management octets of a frame begin with the next octets of the message in progress. -/
theorem managementOctets_take (start : Bool) (s : State) :
    (managementOctets (assembleFrame start s)).take (min 8 s.sending.length) = s.sending.take 8 := by
  rw [assembleFrame_octets]
  refine List.ext_getElem (by simp) fun i h k => ?_
  have short : i < s.sending.length := by
    rw [List.length_take] at k
    omega
  rw [List.getElem_take, List.getElem_map, List.getElem_range, List.getElem_take]
  exact getD_inside _ _ short

/-- A message of eight octets or more fills the management octets of the frame that it starts in. -/
theorem managementOctets_of_long (start : Bool) {s : State} (h : 8 ≤ s.sending.length) :
    managementOctets (assembleFrame start s) = s.sending.take 8 := by
  have := managementOctets_take start s
  rwa [Nat.min_eq_left h, List.take_of_length_le (by rw [assembleFrame_octets]; simp)] at this

theorem encMessage_length (kind tag : Octet) (body : List Octet) : (encMessage kind tag body).length = body.length + 6 := by
  simp [encMessage, enc1, encWord, enc2]

theorem encReply_length (frame : Nat) (r : Reply) : 8 ≤ (encReply frame r).length := by
  rw [encReply, encMessage_length]
  simp [enc1]

theorem encNotice_length (n : Notice) : 8 ≤ (encNotice n).length := by
  rw [encNotice, encMessage_length]
  simp [enc1, enc2, enc4]

theorem mayIssue_iff {t : Ticket} {s : State} : mayIssue t s = true ↔ WindowAllows t s := by
  have window : issueWindow s = (s.tickets.filter fun u => u.state = .issued).length := by
    rw [issueWindow]
    congr 2
  rw [mayIssue, window, WindowAllows]
  split <;> exact decide_eq_true_iff

/-- A message that starts stands in the frame from its first octet on, with the S flag set (R174). -/
theorem exec_outboundFrame_starts {s t : State} (h : NoneDue s) (chosen : chooseMessage s = (t, true))
    (long : 8 ≤ t.sending.length) :
    ∃ f, exec .outboundFrame s = .next (sent f { t with sending := t.sending.drop 8 }) ∧ (f[0]).getLsbD 0 = true ∧
      managementOctets f = t.sending.take 8 :=
  ⟨_, exec_outboundFrame h chosen, by rw [assembleFrame_alignment, alignmentWord_flag], managementOctets_of_long true long⟩

/-- Settles O31. -/
theorem arbiterChoosesInOrder : Obligations.ArbiterChoosesInOrder := by
  refine ⟨fun s none busy => ⟨_, exec_outboundFrame none (chooseMessage_goesOn busy), ?_, managementOctets_take false s⟩,
    fun r rest s none idle replies => ?_, fun x s none idle replies push first may => ?_,
    fun n rest s none idle replies noTicket notices => ?_⟩
  · rw [assembleFrame_alignment, alignmentWord_flag]
  · exact exec_outboundFrame_starts none (chooseMessage_reply idle replies) (encReply_length ..)
  · have pushed : pushedTicket s = some x := by
      rw [pushedTicket, push, first]
      exact if_pos may
    exact exec_outboundFrame_starts none (chooseMessage_ticket idle replies pushed) (encNotice_length _)
  · have pushed : pushedTicket s = Option.none := by
      rcases noTicket with noTicket | ⟨x, first, closed⟩
      · exact pushedTicket_of_noTicket noTicket
      · rw [pushedTicket, first]
        split
        · rfl
        · exact if_neg fun may => closed (mayIssue_iff.1 may)
    exact exec_outboundFrame_starts none (chooseMessage_notice idle replies pushed notices) (encNotice_length _)

end Sys2Proof.Proofs
end

section
/-! SEIZE and the access arbiter (R43 to R52): the grant order, the grant pass, the checks of SEIZE and its preemptions; then
O35, O32, O33 and O34. -/

namespace Sys2Proof.Proofs

open Sys2Proof.Machine Sys2Proof.Stated

/-! ### The grant order (R51) -/

/-- An entry goes before another, or neither goes before the other (R51). -/
abbrev GoesFirst (s : State) (x y : WaitEntry) : Prop :=
  x.cls < y.cls ∨ x.cls = y.cls ∧
    (ringPlace s x < ringPlace s y ∨ ringPlace s x = ringPlace s y ∧ Earlier s.arrivals x.arrival y.arrival)

theorem beats_iff {s : State} {x y : WaitEntry} : beats s x y = true ↔ ¬GoesFirst s y x := by
  simp only [beats, Bool.or_eq_true, Bool.and_eq_true, decide_eq_true_eq]
  change x.cls < y.cls ∨ x.cls = y.cls ∧ (_ ∨ _ ∧ distance s.arrivals y.arrival < distance s.arrivals x.arrival) ↔ _
  omega

theorem goesFirst_trans {s : State} {x y z : WaitEntry} (h : GoesFirst s x y) (k : GoesFirst s y z) : GoesFirst s x z := by
  unfold GoesFirst Earlier at *
  omega

/-- The best of a list of entries is one of them that goes before all. -/
theorem best_goesFirst {s : State} {l : List WaitEntry} {w : WaitEntry} (h : best s l = some w) :
    w ∈ l ∧ ∀ e ∈ l, GoesFirst s w e := by
  induction l generalizing w with
  | nil => cases h
  | cons e rest ih =>
    have own (x : WaitEntry) : GoesFirst s x x := .inr ⟨rfl, .inr ⟨rfl, Nat.le_refl _⟩⟩
    rw [best] at h
    split at h
    case h_1 none =>
      cases rest with
      | nil => cases h; exact ⟨List.mem_singleton_self _, fun x hx => List.mem_singleton.1 hx ▸ own _⟩
      | cons f rest =>
        rw [best] at none
        repeat' split at none
        all_goals cases none
    case h_2 f found =>
      obtain ⟨mem, all⟩ := ih found
      split at h <;> cases h
      case isTrue better =>
        have before : GoesFirst s w e := by
          have := beats_iff.1 better
          unfold GoesFirst Earlier at *
          omega
        exact ⟨List.mem_cons_of_mem _ mem, List.forall_mem_cons.2 ⟨before, all⟩⟩
      case isFalse notBetter =>
        have before : GoesFirst s e f := Decidable.not_not.1 (mt beats_iff.2 notBetter)
        exact ⟨List.mem_cons_self, List.forall_mem_cons.2 ⟨own _, fun x hx => goesFirst_trans before (all x hx)⟩⟩

theorem eligible_iff {s : State} {e : WaitEntry} :
    eligible s e = true ↔ claimOf e.line s = none ∧ (isSweep e.requester = true → sweepHeld s < s.site.quota) := by
  simp only [eligible, Bool.and_eq_true, Option.isNone_iff_eq_none, Bool.or_eq_true, Bool.not_eq_true', decide_eq_true_eq]
  cases isSweep e.requester <;> simp

/-- Settles O35. -/
theorem winnerGoesFirst : Obligations.WinnerGoesFirst := by
  intro s w h
  obtain ⟨mem, first⟩ := best_goesFirst h
  obtain ⟨queued, may⟩ := List.mem_filter.1 mem
  obtain ⟨unclaimed, quota⟩ := eligible_iff.1 may
  exact ⟨queued, unclaimed, quota, fun e he hc hq => first e (List.mem_filter.2 ⟨he, eligible_iff.2 ⟨hc, hq⟩⟩)⟩

/-! ### The grant pass (R52) -/

theorem freeBus_none_iff {s : State} : freeBus s = none ↔ ∀ b : BusNo, s.buses[b].state ≠ .free := by
  simp only [freeBus, List.find?_eq_none, beq_iff_eq]
  exact ⟨fun h b => h b (mem_allBuses b), fun h b _ => h b⟩

theorem freeBus_state {s : State} {b : BusNo} (h : freeBus s = some b) : s.buses[b].state = .free := by
  simpa using List.find?_some h

theorem grantSteps_of_empty {s : State} (h : s.queue = []) (fuel : Nat) : grantSteps fuel s = s := by
  cases fuel with
  | zero => rfl
  | succ fuel =>
    have none : winner s = none := by rw [winner, h]; rfl
    rw [grantSteps, none]
    split <;> first | rfl | contradiction

/-- No entry is eligible, so nothing is granted. -/
theorem grantPass_of_noneEligible {s : State} (h : ∀ e ∈ s.queue, eligible s e = false) : grantPass s = s := by
  have nothing : s.queue.filter (eligible s) = [] := List.filter_eq_nil_iff.2 fun e he => Bool.eq_false_iff.1 (h e he)
  have none : winner s = none := by rw [winner, nothing]; rfl
  rw [grantPass, grantSteps, none]
  split <;> first | rfl | contradiction

/-- The one request that waits is granted the lowest free bus, and no other is left for the rest of the pass. -/
theorem grantPass_single {s : State} {b : BusNo} {e : WaitEntry} (free : freeBus s = some b) (queue : s.queue = [e])
    (may : eligible s e = true) :
    grantPass s = grants b e.requester e.line { s with queue := [], rotation := rotate e s.rotation } := by
  have wins : winner s = some e := by rw [winner, queue, List.filter_cons_of_pos may]; rfl
  have erased : s.queue.erase e = [] := by rw [queue, List.erase_cons_head]
  have granted : grant b e s = grants b e.requester e.line { s with queue := [], rotation := rotate e s.rotation } := by
    simp only [grant, removeEntry, State.setQueue, erased]
    rfl
  rw [grantPass, grantSteps, free, wins]
  exact (grantSteps_of_empty (congrArg State.queue granted) 7).trans granted

/-! ### The checks of SEIZE (R45) -/

section
variable {o : Origin} {cls : Octet} {line : Word} {s : State}

theorem withinLimit_iff : withinLimit o s = true ↔ WithinLimit o s := by
  have none : waitingCount o s = 0 ↔ ∀ e ∈ s.queue, e.requester ≠ .origin o := by
    simp [waitingCount, List.filter_eq_nil_iff]
  unfold withinLimit WithinLimit isDesk
  by_cases desk : o.val < 6
  · simp only [desk, decide_true, if_true, decide_eq_true_eq, none]
  · simp only [desk, decide_false, Bool.false_eq_true, if_false, waitingCount]
    exact decide_eq_true_iff

theorem hasUrgent_of (h : ∀ h : o.val < 6, s.site.authority[o.val].urgent = true) : hasUrgent o s = true := by
  unfold hasUrgent deskOf
  by_cases desk : o.val < 6
  · simp only [desk, dite_true]; exact h desk
  · simp only [desk, dite_false]

theorem lineOk_of (h : line.toNat ≤ 16383) : lineOk line = true := decide_eq_true h

theorem lineOk_not (h : 16383 < line.toNat) : lineOk line = false := decide_eq_false (Nat.not_le.2 h)

theorem lineInUse_not (alone : NotWaiting o line.toNat s)
    (claim : ∀ c, claimOf line.toNat s = some c → (s.buses[c].isHeld && s.buses[c].holder.any isOutside) = false) :
    lineInUse o line.toNat s = false := by
  refine Bool.or_eq_false_iff.2 ⟨?_, List.any_eq_false.2 fun e he => ?_⟩
  · cases h : claimOf line.toNat s with
    | none => rfl
    | some c => exact claim c h
  · simpa using alone e he

theorem busInService_of {b : BusNo} (h : s.buses[b].state ≠ .outOfService) : busInService s = true :=
  List.any_eq_true.2 ⟨b, mem_allBuses b, bne_iff_ne.2 h⟩

/-- A SEIZE that passes its checks is entered. -/
theorem seizeRule_enters {urgent : Bool} (given : flagOf cls = some urgent) (range : line.toNat ≤ 16383)
    (may : urgent = true → hasUrgent o s = true) (limit : WithinLimit o s) (unused : lineInUse o line.toNat s = false)
    (service : busInService s = true) : seizeRule line cls o s = enterSeize o line.toNat urgent s := by
  have allowed : (urgent && !hasUrgent o s) = false := by
    cases urgent with
    | false => rfl
    | true => rw [may rfl]; rfl
  simp only [seizeRule, seizeClass, given, lineOk_of range, allowed, withinLimit_iff.2 limit, unused, service, Bool.not_true,
    Bool.false_eq_true, if_false]

theorem internalClaim_of_unclaimed {n : Nat} (h : claimOf n s = none) : internalClaim n s = none := by
  rw [internalClaim, h]

/-- Without a bus to preempt, SEIZE waits for the grant pass that follows. -/
theorem enterSeize_unpreempting {n : Nat} {urgent : Bool} (h : preemptionFor urgent n s = (.none, none)) :
    enterSeize o n urgent s =
      okayWith (.seize (claimOf n s).isSome .none none) (grantPass (waits o (if urgent then 0 else 1) n s)) := by
  simp only [enterSeize, h]
  rfl

theorem preemptionFor_of_normal {n : Nat} (h : internalClaim n s = none) : preemptionFor false n s = (.none, none) := by
  rw [preemptionFor, h]
  rfl

end

/-- What an octet says of the class of a SEIZE (R180). -/
theorem flagOf_of_large {x : Octet} (h : 1 < x.toNat) : flagOf x = none := by
  have zero : x ≠ 0 := fun e => by subst e; exact absurd h (by decide)
  have one : x ≠ 1 := fun e => by subst e; exact absurd h (by decide)
  rw [flagOf, if_neg zero, if_neg one]

/-- An origin's only request, for a line that no bus claims, is granted the lowest free bus. -/
theorem grantPass_waits {o : Origin} {n : Nat} {b : BusNo} {s : State} (queue : s.queue = []) (unclaimed : claimOf n s = none)
    (free : freeBus s = some b) (cls : Nat) :
    grantPass (waits o cls n s) =
      grants b (.origin o) n { s with
        arrivals := next s.arrivals
        queuePeak := max s.queuePeak 1
        rotation := if cls = 1 then ⟨(o.val + 1) % 7, Nat.mod_lt _ (by decide)⟩ else s.rotation } := by
  have alone : (waits o cls n s).queue =
      [{ requester := .origin o, cls := cls, line := n, arrival := s.arrivals, waiting := (claimOf n s).isSome }] := by
    change s.queue ++ _ = _
    rw [queue]
    rfl
  rw [grantPass_single (b := b) (queue := alone)]
  · simp only [waits, queue]
    rfl
  · exact free
  · exact eligible_iff.2 ⟨unclaimed, fun h => by cases h⟩

/-- Settles O32. -/
theorem seizeIsGrantedAtOnce : Obligations.SeizeIsGrantedAtOnce := by
  have enters {urgent : Bool} {o : Origin} {line : Word} {cls : Octet} {b : BusNo} {s : State}
      (given : flagOf cls = some urgent) (range : line.toNat ≤ 16383) (may : urgent = true → hasUrgent o s = true)
      (queue : s.queue = []) (limit : WithinLimit o s) (unclaimed : claimOf line.toNat s = none)
      (free : freeBus s = some b) :
      seizeRule line cls o s = okayWith (.seize false .none none) (grantPass (waits o (if urgent then 0 else 1) line.toNat s)) := by
    have unused : lineInUse o line.toNat s = false :=
      lineInUse_not (fun e he => by rw [queue] at he; cases he) fun c h => by cases h.symm.trans unclaimed
    have service : busInService s = true := busInService_of (b := b) (by rw [freeBus_state free]; decide)
    have nothing : preemptionFor urgent line.toNat s = (.none, none) := by
      rw [preemptionFor, internalClaim_of_unclaimed unclaimed, free]
      simp
    rw [seizeRule_enters given range may limit unused service, enterSeize_unpreempting nothing, unclaimed]
    rfl
  intro o hd line cls b s from_ range how queue limit unclaimed free
  rcases how with rfl | ⟨rfl, urgent⟩
  · refine exec_answers rfl from_ ((enters (s := counted1 s) (b := b) (urgent := false) rfl range (fun h => by cases h) queue limit unclaimed
      free).trans ?_)
    rw [grantPass_waits (b := b)]
    · rfl
    · exact queue
    · exact unclaimed
    · exact free
  · refine exec_answers rfl from_ ((enters (s := counted1 s) (b := b) (urgent := true) rfl range (fun _ => hasUrgent_of urgent) queue limit
      unclaimed free).trans ?_)
    rw [grantPass_waits (b := b)]
    · rfl
    · exact queue
    · exact unclaimed
    · exact free

/-! ### Waiting, and the refusals of SEIZE -/

theorem seizeRule_badField {o : Origin} {line : Word} {cls : Octet} (h : 16383 < line.toNat ∨ 1 < cls.toNat) (s : State) :
    seizeRule line cls o s = refuse .badField s := by
  unfold seizeRule seizeClass
  split
  · rfl
  case h_2 urgent given =>
    rcases h with above | large
    · rw [lineOk_not above]; rfl
    · rw [flagOf_of_large large] at given; cases given

/-- A bus that is not held answers for no purpose in the checks of SEIZE. -/
theorem isHeld_not {x : Bus} (h : x.state = .releasing ∨ x.state = .outOfService) : x.isHeld = false := by
  rcases h with h | h <;> simp [Bus.isHeld, h]

theorem isHeld_of {x : Bus} (h : x.state = .seizing ∨ x.state = .guard ∨ x.state = .held) : x.isHeld = true := by
  rcases h with h | h | h <;> simp [Bus.isHeld, h]

/-- Settles O33. -/
theorem seizeWaitsOrIsRefused : Obligations.SeizeWaitsOrIsRefused := by
  refine ⟨fun o hd line s from_ range limit alone claim ⟨b, service⟩ free => ?_,
    fun o hd line cls s from_ h => exec_answers rfl from_ (seizeRule_badField h (counted1 s)),
    fun d hd line s from_ range noUrgent => exec_answers rfl from_ ?_,
    fun o hd line s from_ range beyond => exec_answers rfl from_ ?_,
    fun o p hd line b s from_ range limit claim hold held => exec_answers rfl from_ ?_,
    fun o hd line s from_ range limit alone out => exec_answers rfl from_ ?_⟩
  · have unused : lineInUse o line.toNat (counted1 s) = false :=
      lineInUse_not (s := counted1 s) alone fun c h => by
        rw [show (counted1 s).buses[c].isHeld = false from isHeld_not (x := s.buses[c]) (claim c h)]
        rfl
    have nothing : preemptionFor false line.toNat (counted1 s) = (.none, none) := by
      refine preemptionFor_of_normal ?_
      unfold internalClaim
      split
      · rfl
      case h_2 c h =>
        rw [show (counted1 s).buses[c].isHeld = false from isHeld_not (x := s.buses[c]) (claim c h)]
        rfl
    refine exec_answers rfl from_ ((seizeRule_enters (s := counted1 s) (urgent := false) rfl range (fun h => by cases h)
      limit unused (busInService_of (b := b) service)).trans ((enterSeize_unpreempting nothing).trans ?_))
    rw [grantPass_of_noneFree]
    · rfl
    · exact free
  · have unauthorised : hasUrgent d.castSucc (counted1 s) = false := by
      have desk : deskOf d.castSucc = some d := dif_pos d.isLt
      rw [hasUrgent, desk]
      exact noUrgent
    rw [seizeRule, lineOk_of range, unauthorised]
    rfl
  · have outside : withinLimit o (counted1 s) = false := Bool.eq_false_iff.2 (mt withinLimit_iff.1 beyond)
    rw [seizeRule, lineOk_of range, outside]
    rfl
  · have used : lineInUse o line.toNat (counted1 s) = true := by
      have claim' : claimOf line.toNat (counted1 s) = some b := claim
      have held' : (counted1 s).buses[b].isHeld = true := isHeld_of (x := s.buses[b]) held
      have outside : (counted1 s).buses[b].holder.any isOutside = true := by
        rw [show (counted1 s).buses[b].holder = _ from hold]
        rfl
      rw [lineInUse, claim', Option.any_some, held', outside]
      rfl
    rw [seizeRule, lineOk_of range, show withinLimit o (counted1 s) = true from withinLimit_iff.2 limit, used]
    rfl
  · have unused : lineInUse o line.toNat (counted1 s) = false :=
      lineInUse_not (s := counted1 s) alone fun c _ => by
        rw [show (counted1 s).buses[c].isHeld = false from isHeld_not (x := s.buses[c]) (.inr (out c))]
        rfl
    have noService : busInService (counted1 s) = false :=
      List.any_eq_false.2 fun b _ => by rw [show (counted1 s).buses[b].state = _ from out b]; decide
    rw [seizeRule, lineOk_of range, show withinLimit o (counted1 s) = true from withinLimit_iff.2 limit, unused, noService]
    rfl

/-! ### Preemption (R48, R49) -/

/-- The bus of a descriptor whose suspension is pending is preempted: its line joins the deferred list (R48, R161, R163). -/
def preempted (b : BusNo) (d : SweepNo) (line : Nat) (s : State) : State :=
  sends b {} (withBus b (breaking line .preempt s.buses[b])
    { s with
      preemptions := raised s.preemptions
      sweeps := s.sweeps.set d
        { s.sweeps[d] with
          state := .suspended, inFlight := none, suspendPending := false
          deferred := s.sweeps[d].deferred ++ [line]
          counts := { s.sweeps[d].counts with deferred := raised s.sweeps[d].counts.deferred } } })

theorem preemptBus_sweep {b : BusNo} {d : SweepNo} {line : Nat} {s : State} (hold : s.buses[b].holder = some (.sweep d))
    (hline : s.buses[b].line = some line) (unmeasured : Unmeasured b s)
    (flight : s.sweeps[d].inFlight = some (line, .main)) (pending : s.sweeps[d].suspendPending = true)
    (room : s.sweeps[d].deferred.length < 16) (new : line ∉ s.sweeps[d].deferred)
    (ungranted : grantPass (preempted b d line s) = preempted b d line s) : preemptBus b s = preempted b d line s := by
  have broken : breakBus b .preempt { s with preemptions := satInc s.preemptions } =
      sends b {} (withBus b (breaking line .preempt s.buses[b]) { s with preemptions := raised s.preemptions }) := by
    refine (breakBus_eq (s := { s with preemptions := satInc s.preemptions }) hline .preempt).trans ?_
    change settleDesk s.buses[b].holder b _ = _
    rw [hold]
    rfl
  have told : sweepReport d .deferred false (sends b {} (withBus b (breaking line .preempt s.buses[b])
      { s with preemptions := raised s.preemptions })) = preempted b d line s := by
    rw [sweepReport, sweepLineEnded_defers (line := line)]
    · exact ungranted
    · exact flight
    · exact pending
    · exact room
    · exact new
  have pass : passAfter s.buses[b] (preempted b d line s) = preempted b d line s := by
    unfold passAfter
    split
    · exact ungranted
    · rfl
  rw [preemptBus, broken, measurementOn_unmeasured unmeasured, hold]
  exact (congrArg (passAfter s.buses[b]) told).trans pass

theorem freeBus_preempted {b : BusNo} {d : SweepNo} {line : Nat} {s : State} (h : freeBus s = none) :
    freeBus (preempted b d line s) = none := by
  rw [freeBus_none_iff] at h ⊢
  intro c
  by_cases same : c = b
  · subst same
    have own : (preempted c d line s).buses[c] = breaking line .preempt s.buses[c] := withBus_self ..
    rw [own]
    exact nofun
  · have other : (preempted b d line s).buses[c] = s.buses[c] := withBus_other (s := s) _ (Ne.symm same)
    rw [other]
    exact h c

/-- The latest grant of a list of buses is no younger than any other. -/
theorem latestOf_first {s : State} {l : List BusNo} {c : BusNo} (h : latestOf s l = some c) :
    c ∈ l ∧ ∀ x ∈ l, grantAge s c ≤ grantAge s x := by
  induction l generalizing c with
  | nil => cases h
  | cons b rest ih =>
    rw [latestOf] at h
    split at h
    case h_1 none =>
      cases h
      cases rest with
      | nil => exact ⟨List.mem_singleton_self _, fun x hx => Nat.le_of_eq (by rw [List.mem_singleton.1 hx])⟩
      | cons f rest =>
        rw [latestOf] at none
        repeat' split at none
        all_goals cases none
    case h_2 f found =>
      obtain ⟨mem, all⟩ := ih found
      split at h <;> cases h
      case isTrue younger => exact ⟨List.mem_cons_of_mem _ mem, List.forall_mem_cons.2 ⟨Nat.le_of_lt younger, all⟩⟩
      case isFalse older =>
        exact ⟨List.mem_cons_self, List.forall_mem_cons.2 ⟨Nat.le_refl _, fun x hx => Nat.le_trans (Nat.not_lt.1 older) (all x hx)⟩⟩

theorem latestOf_none {s : State} {l : List BusNo} (h : latestOf s l = none) : l = [] := by
  cases l with
  | nil => rfl
  | cons b rest =>
    rw [latestOf] at h
    repeat' split at h
    all_goals cases h

theorem latestOf_of_latest {s : State} {l : List BusNo} {b : BusNo} (mem : b ∈ l)
    (latest : ∀ c ∈ l, c ≠ b → grantAge s b < grantAge s c) : latestOf s l = some b := by
  cases h : latestOf s l with
  | none => rw [latestOf_none h] at mem; cases mem
  | some c =>
    obtain ⟨hc, first⟩ := latestOf_first h
    exact congrArg some (Decidable.byContradiction fun ne => absurd (first b mem) (Nat.not_le.2 (latest c hc ne)))

/-- A SEIZE that preempts is entered, and no bus is granted after it. -/
theorem enterSeize_preempting {o : Origin} {n line : Nat} {urgent : Bool} {why : Preemption} {b : BusNo} {d : SweepNo}
    {s : State} (chosen : preemptionFor urgent n s = (why, some b)) (hold : s.buses[b].holder = some (.sweep d))
    (hline : s.buses[b].line = some line) (unmeasured : Unmeasured b s)
    (flight : s.sweeps[d].inFlight = some (line, .main)) (pending : s.sweeps[d].suspendPending = true)
    (room : s.sweeps[d].deferred.length < 16) (new : line ∉ s.sweeps[d].deferred)
    (ungranted : ∀ cls, grantPass (preempted b d line (waits o cls n s)) = preempted b d line (waits o cls n s)) :
    enterSeize o n urgent s =
      okayWith (.seize (claimOf n s).isSome why (some b))
        (preempted b d line (waits o (if urgent then 0 else 1) n s)) := by
  simp only [enterSeize, chosen]
  have entered : preemptBus b (waits o (if urgent then 0 else 1) n s) =
      preempted b d line (waits o (if urgent then 0 else 1) n s) :=
    preemptBus_sweep hold hline unmeasured flight pending room new (ungranted _)
  exact congrArg (okayWith _) ((congrArg grantPass entered).trans (ungranted _))

theorem isSweepHeld_of {x : Bus} {d : SweepNo} (st : x.state = .seizing ∨ x.state = .guard) (hold : x.holder = some (.sweep d)) :
    x.isSweepHeld = true := by
  rw [Bus.isSweepHeld, isHeld_of (st.imp_right .inl), hold]
  rfl

theorem grantAge_of_stamp {s : State} {b : BusNo} {n : Nat} (h : s.stamps[b] = some n) :
    grantAge s b = (s.grantCount + 4294967296 - n) % 4294967296 := by
  rw [grantAge, h]

/-- An URGENT SEIZE of an unclaimed line with no bus FREE preempts the latest grant of the sweep engine, if it holds a bus. -/
theorem preemptionFor_urgent {n : Nat} {s : State} (unclaimed : claimOf n s = none) (free : freeBus s = none) :
    (∀ b, latestSweepBus s = some b → preemptionFor true n s = (.bus, some b)) ∧
      (latestSweepBus s = none → preemptionFor true n s = (.none, none)) := by
  constructor
  · intro b h
    rw [preemptionFor, internalClaim_of_unclaimed unclaimed, unclaimed, free, h]
    rfl
  · intro h
    rw [preemptionFor, internalClaim_of_unclaimed unclaimed, unclaimed, free, h]
    rfl

/-- Settles O34. -/
theorem seizePreemptsSweepBus : Obligations.SeizePreemptsSweepBus := by
  refine ⟨fun o hd line b d taken stamp s from_ range urgent limit alone unclaimed free st hold stamped latest hline unmeasured
      flight pending room new => ?_,
    fun o hd line s from_ range urgent limit alone unclaimed free ⟨b, service⟩ noSweep => ?_,
    fun o hd line b d s from_ range limit alone claim st hold hline nohead nowait flight pending room new ungranted => ?_⟩
  · have chosen : preemptionFor true line.toNat (counted1 s) = (.bus, some b) := by
      have mem : b ∈ allBuses.filter fun b => s.buses[b].isSweepHeld :=
        List.mem_filter.2 ⟨mem_allBuses b, isSweepHeld_of st hold⟩
      refine (preemptionFor_urgent (s := counted1 s) unclaimed free).1 b (latestOf_of_latest mem fun c hc ne => ?_)
      obtain ⟨n, hn, older⟩ := latest c ne (List.mem_filter.1 hc).2
      rw [grantAge_of_stamp (s := counted1 s) stamped, grantAge_of_stamp (s := counted1 s) hn]
      exact older
    have unused : lineInUse o line.toNat (counted1 s) = false :=
      lineInUse_not (s := counted1 s) alone fun c h => by cases (show claimOf line.toNat s = some c from h).symm.trans unclaimed
    have service : busInService s = true := busInService_of (b := b) (by rcases st with h | h <;> rw [h] <;> decide)
    refine exec_answers rfl from_ ((seizeRule_enters (s := counted1 s) (urgent := true) rfl range
      (fun _ => hasUrgent_of (s := counted1 s) urgent) limit unused service).trans ((enterSeize_preempting (line := taken)
        (s := counted1 s) chosen hold hline unmeasured flight pending room new fun cls => ?_).trans ?_))
    · exact grantPass_of_noneFree (freeBus_preempted (s := waits o cls line.toNat (counted1 s)) free)
    · rw [show claimOf line.toNat (counted1 s) = none from unclaimed]
      rfl
  · have nothing : preemptionFor true line.toNat (counted1 s) = (.none, none) := by
      have none : allBuses.filter (fun b => s.buses[b].isSweepHeld) = [] :=
        List.filter_eq_nil_iff.2 fun b _ => Bool.eq_false_iff.1 (noSweep b)
      exact (preemptionFor_urgent (s := counted1 s) unclaimed free).2 (congrArg (latestOf (counted1 s)) none)
    have unused : lineInUse o line.toNat (counted1 s) = false :=
      lineInUse_not (s := counted1 s) alone fun c h => by cases (show claimOf line.toNat s = some c from h).symm.trans unclaimed
    refine exec_answers rfl from_ ((seizeRule_enters (s := counted1 s) (urgent := true) rfl range
      (fun _ => hasUrgent_of (s := counted1 s) urgent) limit unused (busInService_of (b := b) service)).trans
        ((enterSeize_unpreempting nothing).trans ?_))
    rw [grantPass_of_noneFree]
    · rw [show claimOf line.toNat (counted1 s) = none from unclaimed]
      rfl
    · exact free
  · have held : s.buses[b].isHeld = true := isHeld_of (st.imp_right .inl)
    have chosen : preemptionFor false line.toNat (counted1 s) = (.line, some b) := by
      have inner : internalClaim line.toNat s = some b := by
        simp only [internalClaim, claim, held, hold]
        rfl
      rw [preemptionFor, show internalClaim line.toNat (counted1 s) = some b from inner]
    have unused : lineInUse o line.toNat (counted1 s) = false := lineInUse_not (s := counted1 s) alone fun c h => by
      cases claim.symm.trans h
      rw [show (counted1 s).buses[b].holder = _ from hold]
      exact Bool.and_false _
    have service : busInService s = true := busInService_of (b := b) (by rcases st with h | h <;> rw [h] <;> decide)
    refine exec_answers rfl from_ ((seizeRule_enters (s := counted1 s) (urgent := false) rfl range
      (fun h => by cases h) limit unused service).trans ((enterSeize_preempting (line := line.toNat)
        (s := counted1 s) chosen hold hline ⟨nohead, nowait⟩ flight pending room new fun cls => ?_).trans ?_))
    · rcases ungranted with free | empty
      · exact grantPass_of_noneFree (freeBus_preempted (s := waits o cls line.toNat (counted1 s)) free)
      · refine grantPass_of_noneEligible fun e he => ?_
        have waiting : (preempted b d line.toNat (waits o cls line.toNat (counted1 s))).queue = [] ++ [_] :=
          congrArg (· ++ _) empty
        rw [waiting, List.nil_append, List.mem_singleton] at he
        subst he
        refine Bool.eq_false_iff.2 fun may => ?_
        cases (eligible_iff.1 may).1.symm.trans claim
    · rw [show claimOf line.toNat (counted1 s) = some b from claim]
      rfl

end Sys2Proof.Proofs
end

section
/-! Units restored to use and path entries (R12 to R16, R39, R88): O45 and O39. -/

namespace Sys2Proof.Proofs

open Sys2Proof.Machine Sys2Proof.Stated

/-! ### Units restored to use (R39, R88) -/

theorem restoreBusRule_found {bus : Octet} {b : BusNo} {s : State} (h : bus.toNat = b.val)
    (out : s.buses[b].state = .outOfService) : restoreBusRule bus 6 s = okay (restoreBusNo b s) := by
  simp only [restoreBusRule, processorOnly_processor, unitOf_of_toNat h]
  exact if_pos out

theorem restoreBusNo_free {b : BusNo} {s : State} (h : s.buses[b].stuck = false) :
    restoreBusNo b s = grantPass (withBus b { s.buses[b].released .free with makeTimeouts := 0 } s) :=
  if_neg (by rw [h]; exact Bool.false_ne_true)

/-- The one bus that is FREE among buses that are not. -/
theorem freeBus_of_only {b : BusNo} {x : Bus} {s : State} (h : freeBus s = none) (free : x.state = .free) :
    freeBus (withBus b x s) = some b := by
  have own : ((withBus b x s).buses[b].state == .free) = true := by rw [withBus_self, free]; rfl
  cases found : freeBus (withBus b x s) with
  | none => exact absurd own (List.find?_eq_none.1 found b (mem_allBuses b))
  | some c =>
    refine congrArg some (Decidable.byContradiction fun ne => freeBus_none_iff.1 h c ?_)
    rw [← withBus_other (s := s) x (Ne.symm ne)]
    exact freeBus_state found

/-- What a bus record becomes that takes a grant (R27). -/
def takesGrant (holder : Holder) (line : Nat) (x : Bus) : Bus :=
  { x with
    state := .seizing, line := some line, holder := some holder, mode := none, busy := false, accepted := .none
    candidate := none, stable := 0, order := .make line, timer := some 0, lateWatch := false, cause := none }

/-- A grant does not see the fields of the bus that it writes. -/
theorem grants_withBus {b : BusNo} {holder : Holder} {line : Nat} {x y : Bus}
    (h : takesGrant holder line x = takesGrant holder line y) (s : State) :
    grants b holder line (withBus b x s) = grants b holder line (withBus b y s) := by
  have e (z : Bus) : grants b holder line (withBus b z s) =
      withCounts b { s.busCounters[b] with grants := raised s.busCounters[b].grants }
        (sends b {} (withBus b (takesGrant holder line z)
          { s with claims := insertClaim line b s.claims
                   stamps := s.stamps.set b (some s.grantCount)
                   grantCount := (s.grantCount + 1) % 4294967296 })) := by
    rw [grants, withBus_self]
    exact congrArg (fun t => withCounts b _ (sends b {} t))
      (withBus_withBus { s with claims := insertClaim line b s.claims
                                stamps := s.stamps.set b (some s.grantCount)
                                grantCount := (s.grantCount + 1) % 4294967296 } b z (takesGrant holder line z))
  rw [e, e, h]

theorem Bus.restoring_eq {x : Bus} {line : Nat} (h : x.line = some line) :
    x.restoring =
      { x with state := .releasing, order := .brk line, timer := some 0, makeTimeouts := 0, stuck := false, lateWatch := false
               cause := some .restore } := by
  rw [Bus.restoring, congrArg (fun l => Option.getD l 0) h]
  rfl

/-- Settles O45. -/
theorem restoreReturnsUnits : Obligations.RestoreReturnsUnits := by
  refine ⟨fun hd bus b o e s from_ hb out unstuck noFree queue he unclaimed => ?_,
    fun hd bus b line s from_ hb out stuck hline => ?_, fun hd bus b s from_ hb out unstuck empty => ?_,
    fun hd bus b s from_ hb used => ?_, fun hd bus s from_ large => ?_, fun hd head h s from_ hh out => ?_,
    fun hd head h s from_ hh used => ?_, fun hd head s from_ large => ?_⟩ <;> refine exec_answers rfl from_ ?_
  · rw [restoreBusRule_found (s := counted1 s) hb out, restoreBusNo_free (s := counted1 s) unstuck,
      grantPass_single (b := b) (e := e), he]
    · have pointer : rotate e s.rotation = if e.cls = 1 then ⟨(o.val + 1) % 7, Nat.mod_lt _ (by decide)⟩ else s.rotation := by
        rw [rotate, he]
      rw [← pointer]
      exact congrArg okay (grants_withBus (x := { s.buses[b].released .free with makeTimeouts := 0 })
        (y := { s.buses[b] with makeTimeouts := 0 }) rfl
        { counted1 s with queue := [], rotation := rotate e s.rotation })
    · exact freeBus_of_only (s := counted1 s) noFree rfl
    · exact queue
    · exact eligible_iff.2 ⟨unclaimed, fun h => by rw [he] at h; cases h⟩
  · have released : restoreBusNo b (counted1 s) = withBus b s.buses[b].restoring (counted1 s) := if_pos stuck
    rw [restoreBusRule_found (s := counted1 s) hb out, released, Bus.restoring_eq hline]
    rfl
  · rw [restoreBusRule_found (s := counted1 s) hb out, restoreBusNo_free (s := counted1 s) unstuck, grantPass_of_empty]
    · rfl
    · exact empty
  · simp only [restoreBusRule, processorOnly_processor, unitOf_of_toNat hb]
    exact if_neg used
  · simp only [restoreBusRule, processorOnly_processor, unitOf_none large]
    rfl
  · simp only [restoreHeadRule, processorOnly_processor, unitOf_of_toNat hh]
    exact if_pos out
  · simp only [restoreHeadRule, processorOnly_processor, unitOf_of_toNat hh]
    exact if_neg used
  · simp only [restoreHeadRule, processorOnly_processor, unitOf_none large]
    rfl

/-! ### SET PATH (R16) -/

theorem pathSourceOf_iff {x : Octet} {p : Option Nat} : pathSourceOf x = some p ↔ NamesSource x p := by
  unfold pathSourceOf within NamesSource
  by_cases zero : x = 0
  · subst zero
    simp [eq_comm]
  · simp only [zero, if_false, false_and, false_or]
    by_cases range : 5 ≤ x.toNat ∧ x.toNat ≤ 46
    · simp only [range, and_self, if_true, Option.map_some, Option.some.injEq, true_and, eq_comm]
    · simp only [range, if_false, Option.map_none, false_iff, reduceCtorEq]
      exact fun h => range ⟨h.1, h.2.1⟩

theorem unitOf_eq_some {n : Nat} {x : Octet} {u : Fin n} (h : unitOf n x = some u) : x.toNat = u.val := by
  unfold unitOf at h
  split at h <;> cases h
  rfl

theorem pathActionOf_iff {action parameter : Octet} {a : PathAction} :
    pathActionOf action parameter = some a ↔ NamesAction action parameter a := by
  have octet (k : Nat) (h : k < 256) : action = BitVec.ofNat 8 k ↔ action.toNat = k := by
    rw [← BitVec.toNat_inj, BitVec.toNat_ofNat, Nat.mod_eq_of_lt h]
  have tone : ((unitOf 4 parameter).map PathAction.tone = some a) ↔ ∃ k : ToneNo, parameter.toNat = k.val ∧ a = .tone k := by
    rw [Option.map_eq_some_iff]
    exact exists_congr fun k => and_congr ⟨unitOf_eq_some, unitOf_of_toNat⟩ eq_comm
  unfold pathActionOf NamesAction
  rw [show (0 : Octet) = BitVec.ofNat 8 0 from rfl, octet 0 (by decide), show (1 : Octet) = BitVec.ofNat 8 1 from rfl,
    octet 1 (by decide), show (2 : Octet) = BitVec.ofNat 8 2 from rfl, octet 2 (by decide),
    show (3 : Octet) = BitVec.ofNat 8 3 from rfl, octet 3 (by decide), show (4 : Octet) = BitVec.ofNat 8 4 from rfl,
    octet 4 (by decide), show (5 : Octet) = BitVec.ofNat 8 5 from rfl, octet 5 (by decide)]
  split
  case h_4 h =>
    by_cases range : -3 ≤ parameter.toInt ∧ parameter.toInt ≤ 3
    · simp [h, signed1, range, eq_comm (a := a)]
    · simp only [h, signed1, range, if_false, reduceCtorEq, false_iff]
      rintro (h | h | h | h | h | h)
      case inr.inr.inr.inl => exact range ⟨h.2.1, h.2.2.1⟩
      all_goals cases h.1
  case h_6 h => simp [h, tone]
  case h_7 =>
    simp only [reduceCtorEq, false_iff]
    rintro (h | h | h | h | h | h) <;> exact absurd h.1 (by assumption)
  all_goals
    rename_i h
    simp [h, eq_comm (a := a)]

/-- Settles O39. -/
theorem setPathReplacesEntry : Obligations.SetPathReplacesEntry := by
  refine ⟨fun hd slot action parameter primary secondary i a p q s from_ hs ha hp hq => ?_,
    fun hd slot action parameter primary secondary s from_ low high => ?_,
    fun hd slot action parameter primary secondary s from_ bad => ?_⟩ <;> refine exec_answers rfl from_ ?_ <;>
    simp only [setPathRule, processorOnly_processor]
  · have hslot : pathSlot slot = some ⟨14 + i.val, by omega⟩ := by
      rw [pathSlot, dif_pos (by omega)]
      exact congrArg some (Fin.ext (by simp only; omega))
    have entry : pathEntryOf action parameter primary secondary = some { primary := p, secondary := q, action := a } := by
      rw [pathEntryOf, pathActionOf_iff.2 ha, pathSourceOf_iff.2 hp, pathSourceOf_iff.2 hq]
    have observation : ¬(14 + i.val < 14) := by omega
    simp only [hslot, observation, if_false, entry]
    rfl
  · have hslot : pathSlot slot = some ⟨slot.toNat - 17, by omega⟩ := dif_pos ⟨low, by omega⟩
    have access : slot.toNat - 17 < 14 := by omega
    simp only [hslot, access, if_true]
    rfl
  · split
    · rfl
    case h_2 i hslot =>
      unfold pathSlot at hslot
      split at hslot <;> cases hslot
      case isTrue range =>
      obtain ⟨obs, none⟩ : 31 ≤ slot.toNat ∧ pathEntryOf action parameter primary secondary = none := by
        rcases bad with h | h | ⟨obs, unnamed⟩
        · omega
        · omega
        · refine ⟨obs, ?_⟩
          unfold pathEntryOf
          split
          case h_1 a p q ha hp hq =>
            rcases unnamed with none | none | none
            · exact absurd (pathActionOf_iff.1 ha) (none a)
            · exact absurd (pathSourceOf_iff.1 hp) (none p)
            · exact absurd (pathSourceOf_iff.1 hq) (none q)
          · rfl
      have observation : ¬(slot.toNat - 17 < 14) := by omega
      simp only [observation, if_false, none]
      rfl

end Sys2Proof.Proofs
end

section
/-! The mode commands (R57 to R68): what entering a mode writes, the measurement a mode command ends, and the checks of R59;
then O36, O37 and O38. -/

namespace Sys2Proof.Proofs

open Sys2Proof.Machine Sys2Proof.Stated

/-! ### Entering an audio mode (R58) -/

section
variable {b : BusNo} {s : State}

theorem deskOf_castSucc (d : DeskNo) : deskOf d.castSucc = some d := dif_pos d.isLt

theorem holderDesk_castSucc (d : DeskNo) : holderDesk (some (.origin d.castSucc)) = some d := deskOf_castSucc d

theorem isDesk_castSucc (d : DeskNo) : isDesk d.castSucc = true := decide_eq_true d.isLt

/-- A desk's bus that enters an audio mode is heard by the desk. -/
theorem enterMode_desk {m : NewMode} (audio : m.isAudio = true) {d : DeskNo}
    (hold : s.buses[b].holder = some (.origin d.castSucc)) :
    enterMode b m s =
      hears d b (sends b (busEntry m s.buses[b].holder s) (withBus b (s.buses[b].withMode m) s)) := by
  simp only [enterMode, deskEntry, audio, if_true]
  rw [hold, holderDesk_castSucc]
  rfl

/-- The exchange processor hears no bus. -/
theorem enterMode_processor {m : NewMode} (audio : m.isAudio = true) (hold : s.buses[b].holder = some (.origin 6)) :
    enterMode b m s = sends b (busEntry m s.buses[b].holder s) (withBus b (s.buses[b].withMode m) s) := by
  simp only [enterMode, deskEntry, audio, if_true]
  rw [hold]
  rfl

theorem enterMode_standby_origin {o : Origin} (hold : s.buses[b].holder = some (.origin o)) :
    enterMode b .standby s = unhears o b (enters b .standby none none {} s) := by
  rw [enterMode_standby, hold, settleDesk_origin]

/-- A mode entered on top of another leaves nothing of it. -/
theorem enters_enters (mode mode' : Mode) (tone tone' : Option ToneNo) (warning warning' : Option Nat) (e e' : PathEntry) :
    enters b mode tone warning e (enters b mode' tone' warning' e' s) = enters b mode tone warning e s := by
  have paths : (s.paths.set (6 + b.val) e').set (6 + b.val) e = s.paths.set (6 + b.val) e := Vector.set_set ..
  have buses (x y : Bus) : (s.buses.set b x).set b y = s.buses.set b y := Vector.set_set ..
  have own (x : Bus) : (s.buses.set b x)[b] = x := Vector.getElem_set_self ..
  simp only [enters, sends, paths, own, buses]
  rfl

end

/-! ### What a mode command makes of its bus (R59, R60, R67) -/

section
variable {b : BusNo} {o : Origin} {s : State}

theorem leaveMeasure_of_ne (h : s.buses[b].mode ≠ some .measure) : leaveMeasure b s = s := if_neg h

theorem otherAudioBus_none {d : DeskNo} (h : NoOther d b s) (m : NewMode) : otherAudioBus d.castSucc b m s = none := by
  unfold otherAudioBus
  split
  · rw [deskOf_castSucc]
    rcases h with h | h <;> simp only [h, Option.filter_none]
    simp
  · rfl

theorem otherAudioBus_processor (m : NewMode) : otherAudioBus 6 b m s = none := by
  unfold otherAudioBus
  split <;> rfl

/-- A mode command that moves no other bus, on a bus out of MEASURE. -/
theorem enterCommanded_alone {m : NewMode} (other : otherAudioBus o b m s = none) (h : s.buses[b].mode ≠ some .measure)
    (warning : Nat) : enterCommanded o b m warning s = okayWith (.mode b m.mode warning none) (enterMode b m s) := by
  rw [enterCommanded, other, leaveMeasure_of_ne h]
  rfl

/-- A mode command that moves no other bus, on a bus in MEASURE: the measurement ends first (R67). -/
theorem enterCommanded_measure {m : NewMode} (other : otherAudioBus o b m s = none) (h : s.buses[b].mode = some .measure)
    (warning : Nat) : enterCommanded o b m warning s =
      okayWith (.mode b m.mode warning none) (enterMode b m (endMeasurementOn b .abortedRelease s.buses[b].accepted s)) := by
  have left : leaveMeasure b s = endMeasurementOn b .abortedRelease s.buses[b].accepted s := if_pos h
  rw [enterCommanded, other, left]
  rfl

/-- A measurement that a mode command ends, before the mode is entered. -/
theorem endMeasurementOn_rests {h : HeadNo} {c : Context} (k : Measures h b o c s) (cond : LineCond) :
    endMeasurementOn b .abortedRelease cond s =
      rested h b (pushNotice o.val (.measurementResult (c.measurement.record b .abortedRelease)) s) := by
  obtain ⟨-, hc, hhead, -, -, -⟩ := id k
  rw [endMeasurementOn, measurementOn_head hhead hc]
  exact endMeasurement_aborts k rfl cond

/-- The end of a measurement keeps the holder of the bus. -/
theorem rested_holder (h : HeadNo) (b : BusNo) (s : State) : (rested h b s).buses[b].holder = s.buses[b].holder := by
  rw [rested, withBus_self]

/-- A mode entered at the end of a measurement, in place of STANDBY. -/
theorem enters_rested {h : HeadNo} {c : Context} (k : Measures h b o c s) (mode : Mode) (tone : Option ToneNo)
    (warning : Option Nat) (e : PathEntry) :
    enters b mode tone warning e
        (rested h b (pushNotice o.val (.measurementResult (c.measurement.record b .abortedRelease)) s)) =
      enters b mode tone warning e (stops h b o c .abortedRelease s) := by
  have ended : stops h b o c .abortedRelease s = enters b .standby none none {}
      (rested h b (pushNotice o.val (.measurementResult (c.measurement.record b .abortedRelease)) s)) := by
    obtain ⟨-, -, -, hold, -, -⟩ := k
    rw [stops, reports, ← hold]
    simp only [pushNotice_eq]
    rfl
  rw [ended, enters_enters]

theorem pushNotice_counted1 (a : Nat) (n : NoticeBody) (s : State) :
    pushNotice a n (counted1 s) = counted1 (pushNotice a n s) := by
  by_cases room : s.notices.length < 32
  · rw [pushNotice_room (s := counted1 s) room, pushNotice_room room]
    rfl
  · rw [pushNotice_full (s := counted1 s) (Nat.not_lt.1 room), pushNotice_full (Nat.not_lt.1 room)]
    rfl

theorem stops_counted1 (h : HeadNo) (b : BusNo) (o : Origin) (c : Context) (outcome : Reason) (s : State) :
    stops h b o c outcome (counted1 s) = counted1 (stops h b o c outcome s) := by
  simp only [stops, reports]
  rw [← pushNotice_counted1]
  rfl

end

/-! ### The checks of R59 -/

section
variable {o : Origin} {line : Word} {deskOnly : Bool} {rule : Origin → BusNo → State → State × Answer} {s : State}

theorem onHeldBus_outOfRange {fieldsOk : Bool} (h : 16383 < line.toNat ∨ fieldsOk = false) :
    onHeldBus line fieldsOk deskOnly rule o s = refuse .badField s := by
  have bad : (lineOk line && fieldsOk) = false := by
    rcases h with h | h
    · rw [lineOk_not h]; rfl
    · rw [h]; exact Bool.and_false _
  simp only [onHeldBus, bad, Bool.not_false, if_true]

theorem onHeldBus_notHolder (range : line.toNat ≤ 16383)
    (h : ∀ b, claimOf line.toNat s = some b → s.buses[b].holder ≠ some (.origin o)) :
    onHeldBus line true deskOnly rule o s = refuse .notPermitted s := by
  simp only [onHeldBus, lineOk_of range, Bool.and_self, Bool.not_true, Bool.false_eq_true, if_false]
  split
  · rfl
  case h_2 b claim => exact if_pos (h b claim)

theorem onHeldBus_notHeld {b : BusNo} (range : line.toNat ≤ 16383) (claim : claimOf line.toNat s = some b)
    (hold : s.buses[b].holder = some (.origin o)) (h : s.buses[b].state ≠ .held) :
    onHeldBus line true deskOnly rule o s = refuse .wrongState s := by
  simp only [onHeldBus, lineOk_of range, claim, Bool.and_self, Bool.not_true, Bool.false_eq_true, if_false]
  rw [if_neg (not_not_intro hold), if_pos h]

theorem onHeldBus_processor {b : BusNo} (held : HeldBy 6 b line s) :
    onHeldBus line true true rule 6 s = refuse .notPermitted s := by
  obtain ⟨range, claim, hold, st⟩ := held
  simp only [onHeldBus, lineOk_of range, claim, Bool.and_self, Bool.not_true, Bool.false_eq_true, if_false]
  rw [if_neg (not_not_intro hold), if_neg (not_not_intro st)]
  rfl

theorem onHeldBus_held {b : BusNo} (held : HeldBy o b line s) (desk : deskOnly = true → o.val < 6) :
    onHeldBus line true deskOnly rule o s = rule o b s := by
  obtain ⟨range, claim, hold, st⟩ := held
  exact onHeldBus_found range claim hold st desk

end

theorem flagOf_of_small {x : Octet} (h : x.toNat ≤ 1) : flagOf x = some (x == 1) := by
  obtain rfl | rfl : x = 0 ∨ x = 1 := by
    rcases Nat.le_one_iff_eq_zero_or_eq_one.1 h with h | h
    · exact .inl (BitVec.eq_of_toNat_eq h)
    · exact .inr (BitVec.eq_of_toNat_eq h)
  · rfl
  · rfl

/-! ### TALK (R64) -/

/-- Settles O36. -/
theorem talkEntersTalkOrWarning : Obligations.TalkEntersTalkOrWarning := by
  have talks {d : DeskNo} {line : Word} {b : BusNo} {s : State} (held : HeldBy d.castSucc b line s) :
      onHeldBus line true true talkOn d.castSucc s = talkOn d.castSucc b s := onHeldBus_held held fun _ => d.isLt
  have override (d : DeskNo) (s : State) : hasOverride d.castSucc s = s.site.authority[d].overrides := by
    rw [hasOverride, deskOf_castSucc]
    rfl
  refine ⟨fun d hd line b s from_ held nowarn nomeasure alone how => exec_answers rfl from_ ?_,
    fun d hd line b s from_ held nowarn nomeasure alone busy may limit => exec_answers rfl from_ ?_,
    fun d hd line b s from_ held nowarn busy maynot => exec_answers rfl from_ ?_,
    fun d hd line b s from_ held warn => exec_answers rfl from_ ?_⟩ <;> rw [talks (s := counted1 s) held]
  · have enter : talkOn d.castSucc b (counted1 s) = enterCommanded d.castSucc b .talk 0 (counted1 s) := by
      refine (if_neg nowarn).trans ?_
      rcases how with free | ⟨may, zero⟩
      · exact if_pos (by rw [show (counted1 s).buses[b].busy = false from free]; rfl)
      · split
        · rfl
        · refine (if_neg ?_).trans (if_pos zero)
          rw [override, show (counted1 s).site.authority[d].overrides = true from may]
          decide
    rw [enter, enterCommanded_alone (otherAudioBus_none (s := counted1 s) alone _) nomeasure, enterMode_talk (d := d)]
    · rfl
    · exact held.2.2.1
  · have enter : talkOn d.castSucc b (counted1 s) =
        enterCommanded d.castSucc b (.warning (8 * s.site.warning)) s.site.warning (counted1 s) := by
      refine (if_neg nowarn).trans ((if_neg ?_).trans ((if_neg ?_).trans (if_neg (Nat.ne_of_gt limit))))
      · rw [show (counted1 s).buses[b].busy = true from busy]
        decide
      · rw [override, show (counted1 s).site.authority[d].overrides = true from may]
        decide
    rw [enter, enterCommanded_alone (otherAudioBus_none (s := counted1 s) alone _) nomeasure, enterMode_desk rfl (d := d)]
    · rfl
    · exact held.2.2.1
  · refine (if_neg nowarn).trans ((if_neg ?_).trans (if_pos ?_))
    · rw [show (counted1 s).buses[b].busy = true from busy]
      decide
    · rw [override, show (counted1 s).site.authority[d].overrides = false from maynot]
      decide
  · exact if_pos warn

/-! ### MONITOR, SEND TONE and STANDBY (R60 to R63, R67) -/

section
variable {b : BusNo} {o : Origin} {s : State}

theorem hasMonitorBusy_desk (d : DeskNo) :
    hasMonitorBusy (some (.origin d.castSucc)) s = s.site.authority[d].monitorBusy := by
  rw [hasMonitorBusy, holderDesk_castSucc]
  rfl

theorem monitorOn_enters {d : DeskNo} (hold : s.buses[b].holder = some (.origin d.castSucc))
    (may : s.buses[b].busy = false ∨ s.site.authority[d].monitorBusy = true) :
    monitorOn d.castSucc b s = enterCommanded d.castSucc b .monitor 0 s := by
  refine if_neg ?_
  rw [hold, hasMonitorBusy_desk]
  rcases may with h | h <;> rw [h] <;> simp

theorem sendToneOn_enters {k : ToneNo} (free : s.buses[b].busy = false) :
    sendToneOn k o b s = enterCommanded o b (.tone k) 0 s := if_neg (Bool.eq_false_iff.1 free)

theorem standbyOn_enters (h : s.buses[b].mode ≠ some .standby) : standbyOn o b s = enterCommanded o b .standby 0 s := if_neg h

theorem talkOn_enters (nowarn : s.buses[b].mode ≠ some .warning) (free : s.buses[b].busy = false) :
    talkOn o b s = enterCommanded o b .talk 0 s :=
  (if_neg nowarn).trans (if_pos (by rw [free]; rfl))

theorem sendToneRule_tone {line : Word} {tone : Octet} {k : ToneNo} (h : tone.toNat = k.val) :
    sendToneRule line tone = onHeldBus line true false (sendToneOn k) := by
  rw [sendToneRule, unitOf_of_toNat h]

theorem enterMode_monitor {d : DeskNo} (hold : s.buses[b].holder = some (.origin d.castSucc)) :
    enterMode b .monitor s = hears d b (enters b .monitor none none {} s) := enterMode_desk rfl hold

theorem enterMode_tone {d : DeskNo} (k : ToneNo) (hold : s.buses[b].holder = some (.origin d.castSucc)) :
    enterMode b (.tone k) s = hears d b (enters b .tone (some k) none { action := .tone k } s) := enterMode_desk rfl hold

theorem enterMode_tone_processor (k : ToneNo) (hold : s.buses[b].holder = some (.origin 6)) :
    enterMode b (.tone k) s = enters b .tone (some k) none { action := .tone k } s := enterMode_processor rfl hold

/-- A mode command on a bus on a head: the measurement ends ABORTED_RELEASE, and the mode is entered (R67). -/
theorem enterCommanded_stops {h : HeadNo} {c : Context} {m : NewMode} {mode : Mode} {tone : Option ToneNo}
    {warning : Option Nat} {e : PathEntry} {after : State → State} (measuring : s.buses[b].mode = some .measure)
    (k : Measures h b o c s) (other : otherAudioBus o b m s = none)
    (enter : ∀ t, t.buses[b].holder = s.buses[b].holder → t.site = s.site →
      enterMode b m t = after (enters b mode tone warning e t)) :
    enterCommanded o b m 0 s =
      okayWith (.mode b m.mode 0 none) (after (enters b mode tone warning e (stops h b o c .abortedRelease s))) := by
  rw [enterCommanded_measure other measuring, endMeasurementOn_rests k, enter, enters_rested k]
  · rw [rested_holder, pushNotice_buses]
  · simp only [pushNotice_eq]
    rfl

/-- The desk's other audio bus that moves to STANDBY is heard no more: the bus that follows it takes its place (R60). -/
theorem hears_unhears {d : DeskNo} {c : BusNo} (audio : s.audio[d] = some c) (mode : Mode) :
    hears d b (enters b mode none none {} (unhears d.castSucc c s)) = hears d b (enters b mode none none {} s) := by
  have left : unhears d.castSucc c s =
      { s with paths := s.paths.set d.val {} (by omega), audio := s.audio.set d none } := by
    unfold unhears
    rw [dif_pos (show d.castSucc.val < 6 from d.isLt)]
    exact if_pos audio
  have paths (p q : PathEntry) : (((s.paths.set d.val {} (by omega)).set (6 + b.val) p (by omega)).set d.val q (by omega)) =
      (s.paths.set (6 + b.val) p (by omega)).set d.val q (by omega) := by
    refine Vector.ext fun i hi => ?_
    simp only [Vector.getElem_set]
    repeat' split
    all_goals rfl
  have sets (x y : Option BusNo) : (s.audio.set d x).set d y = s.audio.set d y := Vector.set_set ..
  rw [left]
  simp only [hears, enters, sends, paths, sets]

/-- MONITOR on a second bus of a desk: the desk's other audio bus moves to STANDBY (R60). -/
theorem enterCommanded_moves {d : DeskNo} {c : BusNo} (mine : s.buses[b].holder = some (.origin d.castSucc))
    (mode : s.buses[b].mode ≠ some .measure) (audio : s.audio[d] = some c) (ne : c ≠ b)
    (hold : s.buses[c].holder = some (.origin d.castSucc)) :
    enterCommanded d.castSucc b .monitor 0 s =
      okayWith (.mode b .monitor 0 (some c))
        (hears d b (enters b .monitor none none {} (enters c .standby none none {} s))) := by
  have other : otherAudioBus d.castSucc b .monitor s = some c := by
    simp only [otherAudioBus, NewMode.isAudio, if_true, deskOf_castSucc, audio]
    exact if_pos (bne_iff_ne.2 ne)
  have holder : (unhears d.castSucc c (enters c .standby none none {} s)).buses[b].holder = some (.origin d.castSucc) := by
    rw [unhears_eq]
    exact (congrArg Bus.holder (withBus_other (s := s) _ ne)).trans mine
  rw [enterCommanded, other, leaveMeasure_of_ne mode]
  simp only [moveOther]
  rw [enterMode_standby_origin hold, enterMode_monitor holder, hears_unhears (c := c)]
  · rfl
  · exact audio

end

/-- What the mode commands share (R59, R180): a field out of its range is refused, and the bus is found by its line. -/
theorem modeCommands_rule {hd : Header} {line : Word} {tone program evaluate kind : Octet} {length : Nat} {c : Instr}
    (h : (kind, length, c) ∈ modeCommands hd line tone program evaluate) :
    ∃ own deskOnly rule, (∀ s, exec c s = .next (takeFixed kind hd length own s)) ∧
      (16383 < line.toNat ∨ kind = 5 ∧ 3 < tone.toNat ∨ kind = 7 ∧ (15 < program.toNat ∨ 1 < evaluate.toNat) →
        ∀ o s, own o s = refuse .badField s) ∧
      (tone.toNat ≤ 3 → program.toNat ≤ 15 → evaluate.toNat ≤ 1 → own = onHeldBus line true deskOnly rule) ∧
      (kind = 3 ∨ kind = 4 → deskOnly = true) := by
  have plain {kind : Octet} (five : kind ≠ 5) (seven : kind ≠ 7) (deskOnly : Bool)
      (rule : Origin → BusNo → State → State × Answer)
      (bad : 16383 < line.toNat ∨ kind = 5 ∧ 3 < tone.toNat ∨ kind = 7 ∧ (15 < program.toNat ∨ 1 < evaluate.toNat))
      (o : Origin) (s : State) : onHeldBus line true deskOnly rule o s = refuse .badField s := by
    rcases bad with large | ⟨h, -⟩ | ⟨h, -⟩
    · exact onHeldBus_outOfRange (.inl large)
    · exact absurd h five
    · exact absurd h seven
  simp only [modeCommands, List.mem_cons, Prod.mk.injEq, List.not_mem_nil, or_false] at h
  rcases h with ⟨rfl, rfl, rfl⟩ | ⟨rfl, rfl, rfl⟩ | ⟨rfl, rfl, rfl⟩ | ⟨rfl, rfl, rfl⟩ | ⟨rfl, rfl, rfl⟩
  · exact ⟨_, _, _, fun s => rfl, plain (by decide) (by decide) _ _, fun _ _ _ => rfl, fun _ => rfl⟩
  · exact ⟨_, _, _, fun s => rfl, plain (by decide) (by decide) _ _, fun _ _ _ => rfl, fun _ => rfl⟩
  · by_cases small : tone.toNat < 4
    · have own : sendToneRule line tone = onHeldBus line true false (sendToneOn ⟨tone.toNat, small⟩) := sendToneRule_tone rfl
      refine ⟨_, _, _, fun s => rfl, fun bad o s => ?_, fun _ _ _ => own, fun h => by rcases h with h | h <;> cases h⟩
      rw [own]
      refine onHeldBus_outOfRange (.inl ?_)
      rcases bad with large | ⟨-, h⟩ | ⟨h, -⟩
      · exact large
      · omega
      · cases h
    · refine ⟨_, false, fun _ _ s => okay s, fun s => rfl, fun _ o s => ?_, fun h => by omega,
        fun h => by rcases h with h | h <;> cases h⟩
      rw [sendToneRule, unitOf_none (Nat.not_lt.1 small)]
  · exact ⟨_, _, _, fun s => rfl, plain (by decide) (by decide) _ _, fun _ _ _ => rfl, fun h => by rcases h with h | h <;> cases h⟩
  · refine ⟨_, false, measureOn program.toNat (evaluate == 1), fun s => rfl, fun bad o s => ?_, fun _ small flag => ?_,
      fun h => by rcases h with h | h <;> cases h⟩
    · unfold measureRule
      cases he : flagOf evaluate with
      | none => rfl
      | some e =>
        refine onHeldBus_outOfRange (bad.imp_right fun h => decide_eq_false ?_)
        rcases h with ⟨h, -⟩ | ⟨-, large | large⟩
        · cases h
        · exact Nat.not_le.2 large
        · rw [flagOf_of_large large] at he
          cases he
    · have ok : decide (program.toNat ≤ 15) = true := decide_eq_true small
      rw [measureRule, flagOf_of_small flag, ok]

/-- Settles O37: the checks, then each command by what its bus was in. -/
theorem monitorToneAndStandby : Obligations.MonitorToneAndStandby := by
  have desk {d : DeskNo} {line : Word} {b : BusNo} {s : State} (held : HeldBy d.castSucc b line s) (deskOnly : Bool)
      (rule : Origin → BusNo → State → State × Answer) :
      onHeldBus line true deskOnly rule d.castSucc s = rule d.castSucc b s := onHeldBus_held held fun _ => d.isLt
  have any {o : Origin} {line : Word} {b : BusNo} {s : State} (held : HeldBy o b line s)
      (rule : Origin → BusNo → State → State × Answer) :
      onHeldBus line true false rule o s = rule o b s := onHeldBus_held held fun h => by cases h
  refine ⟨fun o hd line tone program evaluate kind length c s mem from_ => ?_,
    fun o hd line b h c s from_ held mode k => ⟨?_, fun d ho free alone => ⟨?_, ?_⟩⟩,
    fun o hd line tone n b h c s from_ held mode k number free => ⟨fun ho => ?_, fun d ho alone => ?_⟩,
    fun o hd line b e rest s from_ held mode nohead quiet queue he eh others => ?_,
    fun d hd line b s from_ held mode alone may => ?_,
    fun d hd line b c s from_ held mode audio ne hold free => ?_,
    fun d hd line b s from_ held busy maynot => ?_,
    fun d hd line tone n b s from_ held number mode alone free => ?_,
    fun hd line tone n b s from_ held number mode free => ?_,
    fun o hd line tone b s from_ held number busy => ?_,
    fun o hd line b s from_ held nostandby nomeasure => ?_,
    fun o hd line b s from_ held standby => ?_⟩
  · obtain ⟨own, deskOnly, rule, hc, bad, good, only⟩ := modeCommands_rule mem
    refine ⟨fun h => exec_answers (hc s) from_ (bad h o _), fun range small program evaluate => ?_⟩
    have rule_ := good small program evaluate
    subst rule_
    refine ⟨fun h => exec_answers (hc s) from_ (onHeldBus_notHolder (s := counted1 s) range h),
      fun b claim hold st => exec_answers (hc s) from_ (onHeldBus_notHeld (s := counted1 s) range claim hold st),
      fun b held ho kinds => exec_answers (hc s) from_ ?_⟩
    subst ho
    rw [only kinds]
    exact onHeldBus_processor (s := counted1 s) held
  · refine exec_answers rfl from_ ?_
    have nostandby : (counted1 s).buses[b].mode ≠ some .standby := fun h => by cases mode.symm.trans h
    rw [any (s := counted1 s) held, standbyOn_enters nostandby, enterCommanded_measure (s := counted1 s) rfl mode,
      abort_enters_standby (s := counted1 s) k rfl, stops_counted1]
    rfl
  · subst ho
    refine exec_answers rfl from_ ?_
    have nowarn : (counted1 s).buses[b].mode ≠ some .warning := fun h => by cases mode.symm.trans h
    rw [desk (s := counted1 s) held, talkOn_enters nowarn free, enterCommanded_stops (s := counted1 s) mode k
      (otherAudioBus_none (s := counted1 s) (.inl alone) .talk) (after := hears d b), stops_counted1]
    · rfl
    · intro t hold site
      rw [enterMode_talk (hold.trans held.2.2.1), site]
      rfl
  · subst ho
    refine exec_answers rfl from_ ?_
    rw [desk (s := counted1 s) held, monitorOn_enters (s := counted1 s) held.2.2.1 (.inl free),
      enterCommanded_stops (s := counted1 s) mode k (otherAudioBus_none (s := counted1 s) (.inl alone) .monitor)
        (after := hears d b) fun t hold _ => enterMode_monitor (hold.trans held.2.2.1), stops_counted1]
    rfl
  · subst ho
    refine exec_answers rfl from_ ?_
    rw [sendToneRule_tone number, any (s := counted1 s) held, sendToneOn_enters (s := counted1 s) free,
      enterCommanded_stops (s := counted1 s) mode k (otherAudioBus_processor (.tone n)) (after := id)
        fun t hold _ => enterMode_tone_processor n (hold.trans held.2.2.1), stops_counted1]
    rfl
  · subst ho
    refine exec_answers rfl from_ ?_
    rw [sendToneRule_tone number, any (s := counted1 s) held, sendToneOn_enters (s := counted1 s) free,
      enterCommanded_stops (s := counted1 s) mode k (otherAudioBus_none (s := counted1 s) (.inl alone) (.tone n))
        (after := hears d b) fun t hold _ => enterMode_tone n (hold.trans held.2.2.1), stops_counted1]
    rfl
  · refine exec_answers rfl from_ ?_
    have nostandby : (counted1 s).buses[b].mode ≠ some .standby := fun h => by cases mode.symm.trans h
    rw [any (s := counted1 s) held, standbyOn_enters nostandby, enterCommanded_measure (s := counted1 s) rfl mode,
      waits_enters_standby (s := counted1 s) nohead quiet queue he eh others rfl]
    refine congrArg (okayWith _) ?_
    rw [← pushNotice_counted1]
    simp only [pushNotice_eq]
    rfl
  · refine exec_answers rfl from_ ?_
    rw [desk (s := counted1 s) held, monitorOn_enters (s := counted1 s) held.2.2.1 may,
      enterCommanded_alone (otherAudioBus_none (s := counted1 s) alone _) mode, enterMode_monitor (s := counted1 s) held.2.2.1]
    rfl
  · refine exec_answers rfl from_ ?_
    exact (desk (s := counted1 s) held ..).trans ((monitorOn_enters (s := counted1 s) held.2.2.1 (.inl free)).trans
      (enterCommanded_moves (s := counted1 s) held.2.2.1 mode audio ne hold))
  · refine exec_answers rfl from_ ?_
    rw [desk (s := counted1 s) held]
    refine if_pos ?_
    rw [show (counted1 s).buses[b].holder = _ from held.2.2.1, hasMonitorBusy_desk,
      show (counted1 s).buses[b].busy = true from busy, show (counted1 s).site.authority[d].monitorBusy = false from maynot]
    rfl
  · refine exec_answers rfl from_ ?_
    rw [sendToneRule_tone number, any (s := counted1 s) held, sendToneOn_enters (s := counted1 s) free,
      enterCommanded_alone (otherAudioBus_none (s := counted1 s) alone _) mode, enterMode_tone (s := counted1 s) n held.2.2.1]
    rfl
  · refine exec_answers rfl from_ ?_
    rw [sendToneRule_tone number, any (s := counted1 s) held, sendToneOn_enters (s := counted1 s) free,
      enterCommanded_alone (s := counted1 s) (otherAudioBus_processor _) mode, enterMode_tone_processor (s := counted1 s) n held.2.2.1]
    rfl
  · refine exec_answers rfl from_ ?_
    rw [sendToneRule_tone (k := ⟨tone.toNat, number⟩) rfl, any (s := counted1 s) held]
    exact if_pos busy
  · refine exec_answers rfl from_ ?_
    rw [any (s := counted1 s) held, standbyOn_enters (s := counted1 s) nostandby, enterCommanded_alone (s := counted1 s) rfl nomeasure,
      enterMode_standby_origin (s := counted1 s) held.2.2.1, unhears_eq, unhears_eq]
    rfl
  · refine exec_answers rfl from_ ?_
    rw [any (s := counted1 s) held]
    exact if_pos standby

/-! ### MEASURE (R68, R75) -/

section
variable {b : BusNo} {s : State}

theorem measureRule_good {line : Word} {program evaluate : Octet} (small : program.toNat ≤ 15) (flag : evaluate.toNat ≤ 1) :
    measureRule line program evaluate = onHeldBus line true false (measureOn program.toNat (evaluate == 1)) := by
  have ok : decide (program.toNat ≤ 15) = true := decide_eq_true small
  rw [measureRule, flagOf_of_small flag, ok]

/-- The entry of the head wait queue that MEASURE makes (R68, R78). -/
def measureEntry (o : Origin) (b : BusNo) (line program : Nat) (evaluate : Bool) (steps : List StepDef) : HeadWait :=
  { bus := b, program := program, steps := steps, evaluate := evaluate, holder := .origin o, line := line }

/-- A MEASURE that passes its checks enters its mode, joins the head wait queue, and takes an assignment pass. -/
theorem measureOn_enters {o : Origin} {line program : Nat} {evaluate : Bool} (hold : s.buses[b].holder = some (.origin o))
    (hline : s.buses[b].line = some line) (free : s.buses[b].busy = false) (mode : s.buses[b].mode ≠ some .measure)
    (steps : programSteps program s ≠ []) (service : headInService s = true) :
    measureOn program evaluate o b s =
      okayWith (.mode b .measure 0 none)
        (assignmentPass (unhears o b (enters b .measure none none {}
          { s with headQueue := s.headQueue ++ [measureEntry o b line program evaluate (programSteps program s)] }))) := by
  have entered : enterMode b .measure s = unhears o b (enters b .measure none none {} s) := by
    rw [enterMode_measure, hold, settleDesk_origin]
  have service' : headInService (unhears o b (enters b .measure none none {} s)) = true := by
    rw [unhears_eq]
    exact service
  have joins (e : HeadWait) (he : isOutside e.holder = true) :
      joinHeadQueue e (unhears o b (enters b .measure none none {} s)) =
        assignmentPass (unhears o b (enters b .measure none none {} { s with headQueue := s.headQueue ++ [e] })) := by
    rw [joinHeadQueue, service', he]
    simp only [unhears_eq]
    rfl
  simp only [measureOn, free, mode, steps, service, Bool.false_eq_true, if_false, Bool.not_true]
  rw [entered, hline]
  exact congrArg (okayWith _) (joins _ rfl)

/-- The only entry of the head wait queue is given the lowest IDLE head, and the pass ends. -/
theorem assignmentPass_only {h : HeadNo} {e : HeadWait} {first : StepDef} {more : List StepDef}
    (aligned : s.alignment.isAligned = true) (idle : idleHead s = some h) (word : s.heads[h].word = HeadWord.rest)
    (queue : s.headQueue = [e]) (steps : e.steps = first :: more) : assignmentPass s = assignHead h e s := by
  have empty : (assignHead h e s).headQueue = [] := by rw [assignHead_eq word queue steps]; rfl
  have stands (fuel : Nat) {t : State} (h : t.headQueue = []) : assignSteps fuel t = t := by
    cases fuel with
    | zero => rfl
    | succ fuel =>
      rw [assignSteps, h]
      split <;> first | rfl | contradiction
  rw [assignmentPass, if_pos aligned, assignSteps, idle, queue]
  exact stands 3 empty

/-- A head is attached to a bus before or after the bus enters its mode. -/
theorem enters_attached (x : Option HeadNo) (mode : Mode) (s : State) :
    withBus b { (enters b mode none none {} s).buses[b] with head := x } (enters b mode none none {} s) =
      enters b mode none none {} (withBus b { s.buses[b] with head := x } s) := by
  have twice (x y : Bus) : (s.buses.set b x).set b y = s.buses.set b y := Vector.set_set ..
  have own (x : Bus) : (s.buses.set b x)[b] = x := Vector.getElem_set_self ..
  simp only [enters, sends, withBus, twice, own]
  rfl

theorem emptied_headQueue {t : State} (h : t.headQueue = []) : { t with headQueue := [] } = t := by rw [← h]

/-- A bus that enters MEASURE with a head IDLE is given it, and its first phase begins (R58, R75, R79). -/
theorem enters_assigned {o : Origin} {h : HeadNo} {e : HeadWait} {first : StepDef} {more : List StepDef}
    (aligned : s.alignment.isAligned = true) (idle : idleHead s = some h) (word : s.heads[h].word = HeadWord.rest)
    (queue : s.headQueue = []) (steps : e.steps = first :: more) (he : e.bus = b) :
    assignmentPass (unhears o b (enters b .measure none none {} { s with headQueue := [e] })) =
      unhears o b (enters b .measure none none {}
        (withBus b { s.buses[b] with head := some h }
          (withHeadCounts h { s.headCounters[h] with assignments := raised s.headCounters[h].assignments }
            (withHead h
              { s.heads[h] with
                state := .awaitEcho, bus := some b, word := stepWord b first, timer := some 0
                ctx := some (stepBegun 0 first s.site.mains60 false (contextOf e)) } s)))) := by
  subst he
  refine Eq.trans ?_ (emptied_headQueue (by rw [unhears_eq]; exact queue))
  rw [unhears_eq, assignmentPass_only (h := h) (first := first) (more := more) (e := e),
    assignHead_eq (first := first) (rest := []) (more := more), unhears_eq]
  · exact congrArg (fun t : State => { t with
        headQueue := [], paths := pathsUnheard o e.bus s.audio t.paths, audio := audioUnheard o e.bus s.audio })
      (enters_attached (b := e.bus) (some h) .measure
        (withHeadCounts h { s.headCounters[h] with assignments := raised s.headCounters[h].assignments }
          (withHead h
            { s.heads[h] with
              state := .awaitEcho, bus := some e.bus, word := stepWord e.bus first, timer := some 0
              ctx := some (stepBegun 0 first s.site.mains60 false (contextOf e)) } s)))
  · exact word
  · rfl
  · exact steps
  · exact aligned
  · exact idle
  · exact word
  · rfl
  · exact steps

theorem idleHead_state {h : HeadNo} (idle : idleHead s = some h) : s.heads[h].state = .idle := by
  simpa using List.find?_some idle

end

/-- Settles O38. -/
theorem measureTakesHeadOrWaits : Obligations.MeasureTakesHeadOrWaits := by
  have measures {o : Origin} {line : Word} {b : BusNo} {program evaluate : Octet} {s : State} (held : HeldBy o b line s)
      (small : program.toNat ≤ 15) (flag : evaluate.toNat ≤ 1) :
      measureRule line program evaluate o s = measureOn program.toNat (evaluate == 1) o b s := by
    rw [measureRule_good small flag]
    exact onHeldBus_held held fun h => by cases h
  refine ⟨fun o hd line program evaluate b s from_ held small flag => ⟨fun busy => ?_, fun free mode => ?_,
      fun free mode empty => ?_, fun free mode steps out => ?_⟩,
    fun o hd line program evaluate b steps s from_ held hline small flag free mode hsteps ne service stays => ?_,
    fun o hd line program evaluate b h first rest s from_ held hline small flag free mode hsteps queue aligned idle word => ?_⟩
    <;> refine exec_answers rfl from_ ((measures (s := counted1 s) held small flag).trans ?_)
  · exact if_pos busy
  · exact (if_neg (Bool.eq_false_iff.1 free)).trans (if_pos mode)
  · exact (if_neg (Bool.eq_false_iff.1 free)).trans ((if_neg mode).trans (if_pos empty))
  · have none : headInService (counted1 s) = false :=
      List.any_eq_false.2 fun h _ => by rw [show (counted1 s).heads[h].state = _ from out h]; decide
    exact (if_neg (Bool.eq_false_iff.1 free)).trans ((if_neg mode).trans ((if_neg steps).trans (if_pos (by rw [none]; rfl))))
  · subst hsteps
    rw [measureOn_enters (s := counted1 s) held.2.2.1 hline free mode ne service, assignmentPass_stays]
    · simp only [unhears_eq]
      rfl
    · simp only [unhears_eq]
      exact stays
  · have service : headInService s = true :=
      List.any_eq_true.2 ⟨h, mem_allHeads h, by rw [idleHead_state idle]; decide⟩
    have ne : programSteps program.toNat (counted1 s) ≠ [] := by
      rw [show programSteps program.toNat (counted1 s) = first :: rest from hsteps]
      exact List.cons_ne_nil _ _
    rw [measureOn_enters (s := counted1 s) held.2.2.1 hline free mode ne service,
      show (counted1 s).headQueue = [] from queue, List.nil_append,
      show programSteps program.toNat (counted1 s) = first :: rest from hsteps,
      enters_assigned (b := b) (s := counted1 s) (h := h) (first := first) (more := rest)
        (e := measureEntry o b line.toNat program.toNat (evaluate == 1) (first :: rest)) aligned idle word queue rfl rfl]
    simp only [unhears_eq]
    rfl

end Sys2Proof.Proofs
end

section
/-! The commands on tickets (R128 to R134): pending order and raise order, the submission of retests, and O49, O46, O47
and O48. -/

namespace Sys2Proof.Proofs

open Sys2Proof.Machine Sys2Proof.Stated

/-! ### Pending order and raise order (R122, R128) -/

section
variable {s : State}

/-- A ticket goes before another in pending order, or neither does (R128). -/
abbrev PendsFirst (s : State) (t u : Ticket) : Prop :=
  t.severity < u.severity ∨ t.severity = u.severity ∧ Earlier s.raiseCounter t.raiseOrder u.raiseOrder

theorem pendingBefore_iff {t u : Ticket} : pendingBefore s t u = true ↔ ¬PendsFirst s u t := by
  simp only [pendingBefore, Bool.or_eq_true, Bool.and_eq_true, decide_eq_true_eq]
  change t.severity < u.severity ∨
    t.severity = u.severity ∧ distance s.raiseCounter u.raiseOrder < distance s.raiseCounter t.raiseOrder ↔ _
  omega

theorem pendsFirst_trans {t u v : Ticket} (h : PendsFirst s t u) (k : PendsFirst s u v) : PendsFirst s t v := by
  unfold PendsFirst Earlier at *
  omega

theorem firstOf_none {l : List Ticket} (h : firstOf s l = none) : l = [] := by
  cases l with
  | nil => rfl
  | cons t rest =>
    rw [firstOf] at h
    repeat' split at h
    all_goals cases h

/-- The first of a list in pending order goes before all of it. -/
theorem firstOf_first {l : List Ticket} {x : Ticket} (h : firstOf s l = some x) : ∀ u ∈ l, PendsFirst s x u := by
  have own (t : Ticket) : PendsFirst s t t := .inr ⟨rfl, Nat.le_refl _⟩
  induction l generalizing x with
  | nil => cases h
  | cons t rest ih =>
    rw [firstOf] at h
    split at h
    case h_1 none =>
      cases h
      rw [firstOf_none none]
      exact fun u hu => List.mem_singleton.1 hu ▸ own _
    case h_2 v found =>
      have all := ih found
      split at h <;> cases h
      case isTrue before =>
        have first : PendsFirst s x t := by
          have := pendingBefore_iff.1 before
          unfold PendsFirst Earlier at *
          omega
        exact List.forall_mem_cons.2 ⟨first, all⟩
      case isFalse notBefore =>
        have first : PendsFirst s t v := Decidable.not_not.1 (mt pendingBefore_iff.2 notBefore)
        exact List.forall_mem_cons.2 ⟨own _, fun u hu => pendsFirst_trans first (all u hu)⟩

theorem mem_pendingTickets {t : Ticket} : t ∈ pendingTickets s ↔ Pending t s := by
  simp [pendingTickets, masked, Pending]

theorem firstPending_none : firstPending s = none ↔ ∀ t, ¬Pending t s := by
  constructor
  · exact fun h t ht => by
      have := mem_pendingTickets.2 ht
      rw [firstOf_none h] at this
      cases this
  · intro h
    have empty : pendingTickets s = [] := List.eq_nil_iff_forall_not_mem.2 fun t ht => h t (mem_pendingTickets.1 ht)
    rw [firstPending, empty]
    rfl

theorem firstPending_first {x : Ticket} (h : firstPending s = some x) : FirstPending x s :=
  ⟨mem_pendingTickets.1 (firstOf_mem h), fun u hu => firstOf_first h u (mem_pendingTickets.2 hu)⟩

/-- Tickets put in their places by raise order stand in that order. -/
theorem byRaise_sorted (s : State) (l : List Ticket) :
    (byRaise s l).Pairwise fun t u => Earlier s.raiseCounter t.raiseOrder u.raiseOrder := by
  have inserted (t : Ticket) (l : List Ticket) (h : l.Pairwise fun t u => Earlier s.raiseCounter t.raiseOrder u.raiseOrder) :
      (insertByRaise s t l).Pairwise fun t u => Earlier s.raiseCounter t.raiseOrder u.raiseOrder := by
    induction l with
    | nil => exact List.pairwise_singleton ..
    | cons u rest ih =>
      obtain ⟨head, tail⟩ := List.pairwise_cons.1 h
      unfold insertByRaise
      split
      case isTrue later =>
        have first : Earlier s.raiseCounter t.raiseOrder u.raiseOrder := Nat.le_of_lt later
        exact List.pairwise_cons.2 ⟨List.forall_mem_cons.2 ⟨first, fun v hv => Nat.le_trans (head v hv) first⟩, h⟩
      case isFalse earlier =>
        have first : Earlier s.raiseCounter u.raiseOrder t.raiseOrder := Nat.not_lt.1 earlier
        refine List.pairwise_cons.2 ⟨fun v hv => ?_, ih tail⟩
        rcases List.mem_cons.1 ((insertByRaise_perm s t rest).mem_iff.1 hv) with rfl | hv
        · exact first
        · exact head v hv
  induction l with
  | nil => exact List.Pairwise.nil
  | cons t rest ih => exact inserted t _ ih

end

/-- Settles O49. -/
theorem takeTicketIssuesFirstPending : Obligations.TakeTicketIssuesFirstPending := by
  refine ⟨fun hd s from_ push => exec_answers rfl from_ ?_, fun hd s from_ poll none => exec_answers rfl from_ ?_,
    fun hd t s from_ poll pends => ?_⟩
  · exact if_pos (by rw [show (counted1 s).site.poll = false from push]; rfl)
  · have nothing : firstPending (counted1 s) = .none := firstPending_none.2 none
    rw [takeTicketRule, processorOnly_processor, show (counted1 s).site.poll = true from poll, nothing]
    rfl
  · cases found : firstPending (counted1 s) with
    | none => exact absurd pends (firstPending_none.1 found t)
    | some x =>
      have rule : takeTicketRule 6 (counted1 s) =
          if mayIssue x (counted1 s) then okayWith (.ticket x) (issue x (counted1 s)) else refuse .windowFull (counted1 s) := by
        rw [takeTicketRule, processorOnly_processor, show (counted1 s).site.poll = true from poll, found]
        rfl
      refine ⟨x, firstPending_first (s := counted1 s) found, fun may => exec_answers rfl from_ (rule.trans ?_),
        fun full => exec_answers rfl from_ (rule.trans ?_)⟩
      · exact if_pos (mayIssue_iff (s := counted1 s).2 may)
      · exact if_neg (mt (mayIssue_iff (s := counted1 s)).1 full)

/-! ### The submission of retests (R135) -/

section
variable {s : State}

theorem submitRetests_of_full (h : 4 ≤ s.inFlight.length) : submitRetests s = s := by
  unfold submitRetests
  cases s.repairList.length with
  | zero => rfl
  | succ fuel =>
    unfold submitSteps
    split
    · rfl
    · exact if_neg (Nat.not_lt.2 h)

theorem withTicket_withTicket {f g : Ticket → Ticket} (number : ∀ t, (f t).number = t.number) (n : Nat) :
    withTicket n g (withTicket n f s) = withTicket n (fun t => g (f t)) s := by
  rw [withTicket, withTicket, withTicket, List.map_map]
  refine congrArg (fun l => { s with tickets := l }) (List.map_congr_left fun t _ => ?_)
  simp only [Function.comp]
  by_cases h : t.number = n
  · simp only [h, if_true, number]
  · simp only [h, if_false]

theorem requestRetest_waits (free : freeBus s = none) (n line : Nat) : requestRetest n line s = retests n line s :=
  grantPass_of_noneFree free

/-- The one repaired ticket, a LINE ticket, is submitted where a place is free. -/
theorem submitRetests_line {n l : Nat} {t : Ticket} (ht : ticketByNumber n s = some t) (hline : t.subject = .line l)
    (repair : s.repairList = [n]) (room : s.inFlight.length < 4) (free : freeBus s = none) :
    submitRetests s =
      retests n l { withTicket n (fun u => { u with state := .retesting }) s with
        repairList := [], inFlight := s.inFlight ++ [{ ticket := n, line := l }] } := by
  obtain ⟨-, rfl⟩ := ticketByNumber_mem ht
  have found : ticketByNumber t.number s = some t := ht
  have submitted : submitTicket t (s.setRepairList []) =
      retests t.number l { withTicket t.number (fun u => { u with state := .retesting }) s with
        repairList := [], inFlight := s.inFlight ++ [{ ticket := t.number, line := l }] } := by
    rw [submitTicket]
    simp only [hline]
    rw [requestRetest_waits]
    · rfl
    · exact free
  have step : submitSteps 1 s = submitTicket t (s.setRepairList []) := by
    rw [submitSteps, repair]
    refine (if_pos room).trans ?_
    rw [found]
    rfl
  rw [submitRetests, repair]
  exact step.trans submitted

/-- REPAIRED and REPAIRED KEY with every retest place taken. -/
theorem repairTickets_of_full (h : 4 ≤ s.inFlight.length) (numbers : List Nat) :
    repairTickets numbers s =
      { s with
        tickets := s.tickets.map fun t => if t.number ∈ numbers then { t with state := .repaired } else t
        repairList := s.repairList ++ numbers } := submitRetests_of_full h

theorem repairTickets_singleton (n : Nat) :
    repairTickets [n] s =
      submitRetests { withTicket n (fun u => { u with state := .repaired }) s with repairList := s.repairList ++ [n] } := by
  have same : (fun t : Ticket => if t.number ∈ [n] then t.inState .repaired else t) =
      fun t => if t.number = n then { t with state := .repaired } else t := by
    funext t
    simp only [List.mem_singleton]
    rfl
  rw [repairTickets, same]
  rfl

theorem emptied_repairList {t : State} (h : t.repairList = []) : { t with repairList := [] } = t := by rw [← h]

/-- A LINE ticket repaired while a place is free and nothing else is on the repair list is retested at once. -/
theorem repairTickets_line {n l : Nat} {t : Ticket} (ht : ticketByNumber n s = some t) (hline : t.subject = .line l)
    (repair : s.repairList = []) (room : s.inFlight.length < 4) (free : freeBus s = none) :
    repairTickets [n] s =
      retests n l { withTicket n (fun u => { u with state := .retesting }) s with
        inFlight := s.inFlight ++ [{ ticket := n, line := l }] } := by
  have found : ticketByNumber n (withTicket n (fun u => { u with state := .repaired }) s) =
      some { t with state := .repaired } := by
    refine (ticketByNumber_updTicket (f := fun u => { u with state := .repaired }) (fun _ => rfl) n n s).trans ?_
    rw [ht, Option.map_some, if_pos (ticketByNumber_mem ht).2]
  have twice : withTicket n (fun u => { u with state := .retesting }) (withTicket n (fun u => { u with state := .repaired }) s) =
      withTicket n (fun u => { u with state := .retesting }) s :=
    withTicket_withTicket (f := fun u => { u with state := .repaired }) (fun _ => rfl) n
  rw [repairTickets_singleton, submitRetests_line (n := n) (l := l) (t := { t with state := .repaired })]
  · refine (congrArg (fun u : State => retests n l
      { u with repairList := [], inFlight := s.inFlight ++ [{ ticket := n, line := l }] }) twice).trans ?_
    exact emptied_repairList (t := retests n l { withTicket n (fun u => { u with state := .retesting }) s with
      inFlight := s.inFlight ++ [{ ticket := n, line := l }] }) repair
  · exact found
  · exact hline
  · exact congrArg (· ++ _) repair
  · exact room
  · exact free

end

/-- Settles O46. -/
theorem acceptAndRepairedMoveTicket : Obligations.AcceptAndRepairedMoveTicket := by
  refine ⟨fun hd n t s from_ hn ht issued => exec_answers rfl from_ ((onTicket_found (s := counted1 s) hn ht).trans ?_),
    fun hd n t s from_ hn ht accepted full => exec_answers rfl from_ ((onTicket_found (s := counted1 s) hn ht).trans ?_),
    fun hd n t l s from_ hn ht accepted hline repair room free =>
      exec_answers rfl from_ ((onTicket_found (s := counted1 s) hn ht).trans ?_),
    fun hd n t s from_ hn ht =>
      ⟨fun other => exec_answers rfl from_ ((onTicket_found (s := counted1 s) hn ht).trans (if_neg other)),
       fun other => exec_answers rfl from_ ((onTicket_found (s := counted1 s) hn ht).trans (if_neg other))⟩,
    fun hd n s from_ hn none => ?_,
    fun hd s from_ => ⟨exec_answers rfl from_ rfl, exec_answers rfl from_ rfl, exec_answers rfl from_ rfl⟩⟩
  · rw [acceptOn, if_pos issued, (ticketByNumber_mem ht).2]
    rfl
  · rw [repairedOn, if_pos accepted, (ticketByNumber_mem ht).2, repairTickets_singleton, submitRetests_of_full]
    · rfl
    · exact full
  · have number := (ticketByNumber_mem ht).2
    rw [repairedOn, if_pos accepted, number, repairTickets_line (t := t) (l := l)]
    · rfl
    · exact ht
    · exact hline
    · exact repair
    · exact room
    · exact free
  · have absent : ticketByNumber n.toNat (counted1 s) = .none := ticketByNumber_eq_none none
    exact ⟨exec_answers rfl from_ (onTicket_absent hn absent), exec_answers rfl from_ (onTicket_absent hn absent),
      exec_answers rfl from_ (onTicket_absent hn absent)⟩

/-! ### REPAIRED KEY (R133) -/

theorem codeOf_number (x : FaultCode) : codeOf (faultCodeNumber x) = some x := by cases x <;> rfl

theorem codeOf_none {n : Nat} (h : 9 < n) : codeOf n = none := by
  obtain ⟨k, rfl⟩ : ∃ k, n = k + 10 := ⟨n - 10, by omega⟩
  rfl

/-- Settles O47: the tickets reached, put in raise order. -/
theorem repairedKeyMovesTickets : Obligations.RepairedKeyMovesTickets := by
  refine ⟨fun hd cable code x s from_ hcode full => ?_, fun hd cable code s from_ none => exec_answers rfl from_ ?_⟩
  · intro reached
    have reaches : s.tickets.filter (fun t => reachedBy cable.toNat x t && t.state == .accepted) = reached := by
      refine List.filter_congr fun t _ => Bool.eq_iff_iff.2 ?_
      simp only [reachedBy, Bool.and_eq_true, Bool.or_eq_true, beq_iff_eq, decide_eq_true_eq]
      exact and_right_comm.trans and_assoc
    have rule : repairedKeyRule cable code 6 (counted1 s) = repairedKeyOn cable.toNat x (counted1 s) := by
      rw [repairedKeyRule, processorOnly_processor, hcode, codeOf_number]
    have perm : (byRaise (counted1 s) reached).Perm reached := byRaise_perm ..
    have key : keyNumbers cable.toNat x (counted1 s) = (byRaise (counted1 s) reached).map Ticket.number := by
      rw [keyNumbers, ← reaches]
      rfl
    refine ⟨fun none => exec_answers rfl from_ (rule.trans ?_),
      fun some => ⟨byRaise (counted1 s) reached, perm, byRaise_sorted (counted1 s) reached, exec_answers rfl from_ (rule.trans ?_)⟩⟩
    · refine if_pos ?_
      rw [key, none]
      rfl
    · have ne : keyNumbers cable.toNat x (counted1 s) ≠ [] := by
        rw [key]
        exact fun h => some (List.nil_perm.1 (List.map_eq_nil_iff.1 h ▸ perm))
      refine (if_neg ne).trans ?_
      rw [key, List.length_map, repairTickets_of_full]
      · rfl
      · exact full
  · rw [repairedKeyRule, processorOnly_processor, codeOf_none none]
    rfl

/-! ### WITHDRAW (R134, R149) -/

section
variable {s : State} {t : Ticket}

/-- A ticket leaves the table, the repair list and the retests in flight, its links apart. -/
theorem withdrawOn_eq {u : State} (unlinked : unlink t { s with tickets := s.tickets.filter fun v => v.number ≠ t.number } = u)
    (repair : u.repairList = s.repairList) (flight : u.inFlight = s.inFlight) :
    withdrawOn t s =
      okay (if t.state = .retesting then
          submitRetests (endRetest t.number { u with
            repairList := s.repairList.filter fun n => n ≠ t.number
            inFlight := s.inFlight.filter fun r => r.ticket ≠ t.number })
        else { u with
          repairList := s.repairList.filter fun n => n ≠ t.number
          inFlight := s.inFlight.filter fun r => r.ticket ≠ t.number }) := by
  simp only [withdrawOn, removeTicket_eq, freePlace_eq, unlinked, bne_eq_decide_ne, State.setRepairList, repair, flight]

/-- No bus is held for a holder that no bus has. -/
theorem busHeldBy_none {x : Holder} (h : ∀ b : BusNo, s.buses[b].holder ≠ some x) : busHeldBy x s = none :=
  List.find?_eq_none.2 fun b _ => by simpa using fun _ => h b

theorem busHeldBy_of_only {x : Holder} {b : BusNo} (hold : s.buses[b].holder = some x) (held : s.buses[b].isHeld = true)
    (others : ∀ c : BusNo, c ≠ b → s.buses[c].holder ≠ some x) : busHeldBy x s = some b := by
  have own : (s.buses[b].isHeld && s.buses[b].holder == some x) = true := by rw [held, hold]; simp
  cases found : busHeldBy x s with
  | none => exact absurd own (List.find?_eq_none.1 found b (mem_allBuses b))
  | some c =>
    have hc : s.buses[c].holder = some x := by
      have := List.find?_some found
      simp only [Bool.and_eq_true, beq_iff_eq] at this
      exact this.2
    exact congrArg some (Decidable.byContradiction fun ne => others c ne hc)

end

section
variable {s : State} {t : Ticket} {n : Nat}

theorem unlink_of_cable {c : Nat} (h : t.subject = .cable c) :
    unlink t s =
      { s with tickets := s.tickets.map fun u =>
          if u.linked = some c ∧ u.code = t.code then { u with linked := none } else u } := by
  simp only [unlink, h]
  rfl

/-- A ticket that is not in retest leaves, and no bus or request is touched. -/
theorem withdrawOn_idle {u : State} (unlinked : unlink t { s with tickets := s.tickets.filter fun v => v.number ≠ t.number } = u)
    (repair : u.repairList = s.repairList) (flight : u.inFlight = s.inFlight) (idle : t.state ≠ .retesting) :
    withdrawOn t s = okay { u with
      repairList := s.repairList.filter fun n => n ≠ t.number
      inFlight := s.inFlight.filter fun r => r.ticket ≠ t.number } := by
  rw [withdrawOn_eq unlinked repair flight, if_neg idle]

/-- The request of a retest leaves the queue with it; no bus is held for it. -/
theorem endRetest_waiting (h : ∀ b : BusNo, s.buses[b].holder ≠ some (.retest n)) :
    endRetest n s = { s with queue := s.queue.filter fun e => e.requester ≠ .retest n } := by
  have none : busHeldBy (.retest n) (removeRequests (fun e => e.requester == .retest n) s) = none := busHeldBy_none h
  have same : (fun e : WaitEntry => !(e.requester == .retest n)) = fun e => decide (e.requester ≠ .retest n) := by
    funext e
    exact Bool.eq_iff_iff.2 (by simp)
  rw [endRetest, none]
  simp only [removeRequests, same]
  rfl

/-- The bus held for a retest on which nothing is measured yet is released with cause REQUESTED. -/
theorem endRetest_held {b : BusNo} {l : Nat} (queue : ∀ e ∈ s.queue, e.requester ≠ .retest n)
    (others : ∀ c : BusNo, c ≠ b → s.buses[c].holder ≠ some (.retest n)) (hold : s.buses[b].holder = some (.retest n))
    (st : s.buses[b].state = .seizing ∨ s.buses[b].state = .guard) (hline : s.buses[b].line = some l)
    (unmeasured : Unmeasured b s) :
    endRetest n s = sends b {} (withBus b (breaking l .requested s.buses[b]) s) := by
  have stays : removeRequests (fun e => e.requester == .retest n) s = s := by
    have same : s.queue.filter (fun e => !(e.requester == .retest n)) = s.queue :=
      List.filter_eq_self.2 fun e he => by simpa using queue e he
    simp only [removeRequests, same]
    rfl
  have broken : breakBus b .requested s = sends b {} (withBus b (breaking l .requested s.buses[b]) s) := by
    rw [breakBus_eq hline, hold]
    rfl
  rw [endRetest, stays, busHeldBy_of_only hold (isHeld_of (st.imp_right .inl)) others]
  simp only [releaseBus, measurementOn_unmeasured unmeasured, broken]
  exact passAfter_of_notSweep (isSweepHeld_of_retest hold)

end

/-- Settles O48. -/
theorem withdrawRemovesTicket : Obligations.WithdrawRemovesTicket := by
  refine ⟨fun hd n t l s from_ hn ht idle hline alone => ?_, fun hd n t l c s from_ hn ht idle hline linked => ?_,
    fun hd n t c s from_ hn ht idle hcable => ?_, fun hd n t l s from_ hn ht retesting hline alone repair nobus => ?_,
    fun hd n t l b s from_ hn ht retesting hline alone repair queue others hold st busLine nohead nowait => ?_⟩ <;>
    have number := (ticketByNumber_mem ht).2 <;>
    refine exec_answers rfl from_ ((onTicket_found (s := counted1 s) hn ht).trans ?_)
  · rw [withdrawOn_idle (s := counted1 s) (unlink_of_alone _ hline alone) rfl rfl idle, number]
    rfl
  · rw [withdrawOn_idle (s := counted1 s) (unlink_of_linked _ hline linked) rfl rfl idle, number]
    rfl
  · rw [withdrawOn_idle (s := counted1 s) (unlink_of_cable hcable) rfl rfl idle, number]
    rfl
  · have repair' : s.repairList.filter (fun m => m ≠ n.toNat) = [] := by rw [repair]; rfl
    rw [withdrawOn_eq (s := counted1 s) (unlink_of_alone _ hline alone) rfl rfl, if_pos retesting, number, endRetest_waiting,
      submitRetests_of_nil]
    · rfl
    · exact repair'
    · exact nobus
  · have repair' : s.repairList.filter (fun m => m ≠ n.toNat) = [] := by rw [repair]; rfl
    rw [withdrawOn_eq (s := counted1 s) (unlink_of_alone _ hline alone) rfl rfl, if_pos retesting, number,
      endRetest_held (b := b) (l := l), submitRetests_of_nil]
    · rfl
    · exact repair'
    · exact queue
    · exact others
    · exact hold
    · exact st
    · exact busLine
    · exact ⟨nohead, nowait⟩

end Sys2Proof.Proofs
end

section
/-! Cable retests (R150, R151): the judgement of the member at the retest position, and what follows it; then O51. -/

namespace Sys2Proof.Proofs

open Sys2Proof.Machine Sys2Proof.Stated

section
variable {n c : Nat} {t : Ticket} {r : Retest} {s : State}

theorem judgeMember_number (j : Judgement) (t : Ticket) : (t.judgeMember j).number = t.number := by
  unfold Ticket.judgeMember
  repeat' split
  all_goals rfl

theorem isCable_of_cable (h : t.subject = .cable c) : t.isCable = true := by rw [Ticket.isCable, h]

theorem retestOf_single (flight : s.inFlight = [r]) (hr : r.ticket = n) : retestOf n s = some r := by
  rw [retestOf, flight, List.find?_cons_of_pos (by simpa using hr)]

/-- The ticket as its member is judged, found under its number. -/
theorem ticketByNumber_judged (ht : ticketByNumber n s = some t) (j : Judgement) :
    ticketByNumber n (updTicket n (Ticket.judgeMember j) s) = some (t.judgeMember j) := by
  rw [ticketByNumber_updTicket (judgeMember_number j), ht, Option.map_some, if_pos (ticketByNumber_mem ht).2]

/-- A member of a cable retest in flight is judged, and the retest goes on from its position (R150). -/
theorem retestEnded_cable (ht : ticketByNumber n s = some t) (hcable : t.subject = .cable c) (flight : s.inFlight = [r])
    (hr : r.ticket = n) (stands : r.released = false) (j : Judgement) {u : State}
    (advanced : advanceCable n (updTicket n (Ticket.judgeMember j) s) = u)
    (ends : retestOf n u = none → u.repairList = []) : retestEnded n j s = u := by
  simp only [retestEnded, retestOf_single flight hr, ht, isCable_of_cable hcable, stands, Bool.false_eq_true, if_false, if_true,
    advanced]
  split
  case isTrue h => exact submitRetests_of_nil (ends (Option.isNone_iff_eq_none.1 h))
  case isFalse => rfl

/-- The member that stands at the position of the judged ticket is requested. -/
theorem advanceCable_requests {t1 : Ticket} {m : Member} (ht : ticketByNumber n s = some t1)
    (stands : memberAtPosition t1 = some m) (flight : s.inFlight = [r]) (hr : r.ticket = n) (free : freeBus s = none) :
    advanceCable n s =
      retests n m.line { s with inFlight := [{ ticket := n, line := m.line, released := false }] } := by
  have moved : (s.inFlight.map fun r =>
      if r.ticket = n then { ticket := n, line := m.line, released := false } else r) =
      [{ ticket := n, line := m.line, released := false }] := by
    rw [flight, List.map_singleton, if_pos hr]
  simp only [advanceCable, ht, stands, moved]
  rw [requestRetest_waits]
  · rfl
  · exact free

/-- No member stands at the position: the retest settles its ticket. -/
theorem advanceCable_settles {t1 : Ticket} (ht : ticketByNumber n s = some t1) (ends : memberAtPosition t1 = none) :
    advanceCable n s = settleCable t1 (freePlace n s) := by
  simp only [advanceCable, ht, ends]

theorem retestRecord_cable (ht : ticketByNumber n s = some t) (outcome : Reason) (e : Option Evaluation) :
    retestRecord n outcome e s = retestEnded n (judgementOf t.code outcome e) s := by
  rw [retestRecord, ht]

theorem modify_of_getElem? {α : Type} {l : List α} {p : Nat} {x : α} (h : l[p]? = some x) (g : α → α) :
    l.modify p g = l.set p (g x) := by
  induction l generalizing p with
  | nil => cases h
  | cons y l ih =>
    cases p with
    | zero =>
      obtain rfl := Option.some.inj h
      rfl
    | succ p => exact congrArg (y :: ·) (ih h)

/-- A ticket that leaves the table takes its changes with it. -/
theorem filter_updTicket {g : Ticket → Ticket} (number : ∀ t, (g t).number = t.number) (n : Nat) (s : State) :
    (updTicket n g s).tickets.filter (fun t => t.number ≠ n) = s.tickets.filter fun t => t.number ≠ n := by
  change (s.tickets.map fun t => if t.number = n then g t else t).filter _ = _
  induction s.tickets with
  | nil => rfl
  | cons t l ih =>
    rw [List.map_cons, List.filter_cons, List.filter_cons, ih]
    by_cases h : t.number = n
    · simp only [h, if_true, number, ne_eq, not_true_eq_false, decide_false, Bool.false_eq_true, if_false]
    · simp only [h, if_false]

end

/-- A ticket whose retest has failed (R138, R151). -/
def returnedRaised (u : Ticket) : Ticket :=
  { u with
    state := .raised, position := none, retestCount := min (u.retestCount + 1) 255
    severity := u.baseSeverity - min (u.retestCount + 1) 255 / 3 }

/-- The failure of the one retest in flight. -/
theorem failed_eq {n : Nat} (s : State) (empty : s.inFlight.filter (fun r => r.ticket ≠ n) = []) :
    failed n s = { withTicket n returnedRaised s with inFlight := [] } := by
  rw [failed, empty]
  rfl

/-- Settles O51: by the judgement of the member, and by what stands at the position that follows. -/
theorem cableRetestsVisitMembers : Obligations.CableRetestsVisitMembers := by
  refine ⟨fun n c p t m m' r outcome e s hok ht hcable flight hr stands free repair position hm hm' found => ?_,
    fun n c t m r outcome e s hok ht hcable flight hr stands repair position members clear => ?_,
    fun n c p t m r outcome e s hok ht hcable flight hr stands repair position hm last notAssessed fails => ?_⟩ <;>
    rw [retestRecord_cable ht] <;>
    obtain ⟨mem, number⟩ := ticketByNumber_mem ht
  · have judged : t.judgeMember .fail =
        { t with members := t.members.set p { m with mark := .failed }, position := some (p + 1) } := by
      simp only [Ticket.judgeMember, position, modify_of_getElem? hm]
    have next : memberAtPosition (t.judgeMember .fail) = some m' := by
      rw [judged]
      exact (List.getElem?_set_ne (Nat.ne_of_lt (Nat.lt_succ_self p))).trans hm'
    have replaced : updTicket n (Ticket.judgeMember .fail) s = withTicket n (fun _ => t.judgeMember .fail) s := by
      subst number
      exact withTicket_eq_replace hok mem _
    rw [judgementOf_found found]
    refine retestEnded_cable ht hcable flight hr stands .fail ?_ fun h => ?_
    · rw [advanceCable_requests (ticketByNumber_judged ht .fail) next (r := r), replaced, judged]
      · exact flight
      · exact hr
      · exact free
    · rw [retestOf_single (r := { ticket := n, line := m'.line, released := false }) rfl rfl] at h
      cases h
  · have judged : t.judgeMember .pass = { t with members := [], position := some 0 } := by
      simp only [Ticket.judgeMember, position, Ticket.removeMember, members]
      rfl
    have next : memberAtPosition (t.judgeMember .pass) = none := by
      rw [judged]
      rfl
    have settled : settleCable (t.judgeMember .pass) (freePlace n (updTicket n (Ticket.judgeMember .pass) s)) =
        { closed t s with
          tickets := (closed t s).tickets.map fun u =>
            if u.linked = some c ∧ u.code = t.code then { u with linked := none } else u } := by
      have number' : (t.judgeMember .pass).number = n := (judgeMember_number _ t).trans number
      have left : closed (t.judgeMember .pass) (updTicket n (Ticket.judgeMember .pass) s) = closed t s := by
        rw [judged, closed, closed, number, filter_updTicket (judgeMember_number .pass)]
        rfl
      rw [settleCable, if_pos (by rw [judged]), ← number', closeTicket_freePlace, number', left, judged,
        unlink_of_cable (c := c)]
      exact hcable
    rw [judgementOf_clear clear]
    refine retestEnded_cable ht hcable flight hr stands .pass ?_ fun _ => ?_
    · exact (advanceCable_settles (ticketByNumber_judged ht .pass) next).trans settled
    · exact (pushNotice_repairList ..).trans repair
  · have judged : t.judgeMember (.inconclusive .notAssessed) =
        { t with
          members := t.members.set p { m with mark := .inconclusive }, position := some (p + 1)
          firstReason := some (t.firstReason.getD .notAssessed) } := by
      simp only [Ticket.judgeMember, position, modify_of_getElem? hm]
    have next : memberAtPosition (t.judgeMember (.inconclusive .notAssessed)) = none := by
      rw [judged]
      exact List.getElem?_eq_none (Nat.le_of_eq (by rw [List.length_set, last]))
    have failing : (t.judgeMember (.inconclusive .notAssessed)).members.any (fun m => m.mark == .failed) = true := by
      obtain ⟨x, hx, mark⟩ := fails
      rw [judged]
      refine List.any_eq_true.2 ⟨x, ?_, by rw [mark]; rfl⟩
      exact List.mem_of_mem_take (i := p) (by rw [List.take_set_of_le (Nat.le_refl p)]; exact hx)
    have filled : (t.judgeMember (.inconclusive .notAssessed)).members ≠ [] := fun h => by rw [h] at failing; cases failing
    have settled : settleCable (t.judgeMember (.inconclusive .notAssessed))
        (freePlace n (updTicket n (Ticket.judgeMember (.inconclusive .notAssessed)) s)) =
        failed n (updTicket n (Ticket.judgeMember (.inconclusive .notAssessed)) s) := by
      have number' : (t.judgeMember (.inconclusive .notAssessed)).number = n := (judgeMember_number _ t).trans number
      rw [settleCable, if_neg filled, if_pos failing, ← number', failTicket_freePlace]
    have empty : s.inFlight.filter (fun r => r.ticket ≠ n) = [] := by
      rw [flight, List.filter_cons_of_neg (by simpa using hr), List.filter_nil]
    rw [judgementOf_notAssessed notAssessed]
    refine retestEnded_cable ht hcable flight hr stands _ ?_ fun _ => repair
    rw [advanceCable_settles (ticketByNumber_judged ht _) next, settled]
    subst number
    have twice := (withTicket_withTicket (s := s) (f := Ticket.judgeMember (.inconclusive .notAssessed))
      (g := returnedRaised) (judgeMember_number _) t.number).trans (withTicket_eq_replace hok mem _)
    refine (failed_eq (withTicket t.number _ s) empty).trans ?_
    refine (congrArg (fun u : State => { u with inFlight := [] }) twice).trans ?_
    rw [judged]
    rfl

end Sys2Proof.Proofs
end

section
/-! Findings that raise tickets (R122 to R126): the number of a new ticket, eviction, and the entry of a LINE ticket; then
O53. -/

namespace Sys2Proof.Proofs

open Sys2Proof.Machine Sys2Proof.Stated

/-! ### The number of a new ticket (R122) -/

/-- A search for a free number passes over used numbers alone. -/
theorem freeNumber_passes (used : List Nat) (n : Nat) (fuel j : Nat) (few : j + fuel ≤ 60000) :
    ∃ k ≤ fuel, freeNumber used fuel (triedNumber n j) = triedNumber n (j + k) ∧ ∀ i < k, triedNumber n (j + i) ∈ used := by
  induction fuel generalizing j with
  | zero => exact ⟨0, Nat.le_refl _, rfl, fun i hi => absurd hi (Nat.not_lt_zero i)⟩
  | succ fuel ih =>
    by_cases hu : triedNumber n j ∈ used
    · obtain ⟨k, few, found, passed⟩ := ih (j + 1) (by omega)
      refine ⟨k + 1, Nat.succ_le_succ few, ?_, fun i hi => ?_⟩
      · rw [freeNumber, if_pos hu, nextNumber_tried n j (by omega), found]
        congr 1
        omega
      · cases i with
        | zero => exact hu
        | succ i =>
          have := passed i (by omega)
          rwa [show j + 1 + i = j + (i + 1) by omega] at this
    · exact ⟨0, Nat.zero_le _, by rw [freeNumber, if_neg hu]; rfl, fun i hi => absurd hi (Nat.not_lt_zero i)⟩

theorem numberFor_of_free {s : State} (h : ∀ t ∈ s.tickets, t.number ≠ s.numberCounter) : numberFor s = s.numberCounter := by
  refine if_neg fun used => ?_
  obtain ⟨t, ht, number⟩ := List.mem_map.1 used
  exact h t ht number

/-! ### Eviction (R126) -/

section
variable {s : State}

/-- A candidate goes before another for eviction, or neither does (R126). -/
abbrev LeavesFirst (s : State) (t u : Ticket) : Prop :=
  u.severity < t.severity ∨ u.severity = t.severity ∧ Earlier s.raiseCounter u.raiseOrder t.raiseOrder

theorem evictedBefore_iff {t u : Ticket} : evictedBefore s t u = true ↔ ¬LeavesFirst s u t := by
  simp only [evictedBefore, Bool.or_eq_true, Bool.and_eq_true, decide_eq_true_eq]
  change u.severity < t.severity ∨
    t.severity = u.severity ∧ distance s.raiseCounter t.raiseOrder < distance s.raiseCounter u.raiseOrder ↔ _
  omega

theorem leavesFirst_trans {t u v : Ticket} (h : LeavesFirst s t u) (k : LeavesFirst s u v) : LeavesFirst s t v := by
  unfold LeavesFirst Earlier at *
  omega

theorem evictFrom_none {l : List Ticket} (h : evictFrom s l = none) : l = [] := by
  cases l with
  | nil => rfl
  | cons t rest =>
    rw [evictFrom] at h
    repeat' split at h
    all_goals cases h

theorem evictFrom_first {l : List Ticket} {x : Ticket} (h : evictFrom s l = some x) : ∀ u ∈ l, LeavesFirst s x u := by
  have own (t : Ticket) : LeavesFirst s t t := .inr ⟨rfl, Nat.le_refl _⟩
  induction l generalizing x with
  | nil => cases h
  | cons t rest ih =>
    rw [evictFrom] at h
    split at h
    case h_1 none =>
      cases h
      rw [evictFrom_none none]
      exact fun u hu => List.mem_singleton.1 hu ▸ own _
    case h_2 v found =>
      have all := ih found
      split at h <;> cases h
      case isTrue before =>
        have first : LeavesFirst s x t := by
          have := evictedBefore_iff.1 before
          unfold LeavesFirst Earlier at *
          omega
        exact List.forall_mem_cons.2 ⟨first, all⟩
      case isFalse notBefore =>
        have first : LeavesFirst s t v := Decidable.not_not.1 (mt evictedBefore_iff.2 notBefore)
        exact List.forall_mem_cons.2 ⟨own _, fun u hu => leavesFirst_trans first (all u hu)⟩

theorem mem_evictable {severity : Nat} {t : Ticket} :
    t ∈ (s.tickets.filter fun t => t.isLine && t.state == .raised && decide (severity < t.severity)) ↔
      t ∈ s.tickets ∧ Evictable severity t := by
  simp [and_assoc]

theorem evictee_none {severity : Nat} (h : ∀ t ∈ s.tickets, ¬Evictable severity t) : evictee severity s = none := by
  have empty : (s.tickets.filter fun t => t.isLine && t.state == .raised && decide (severity < t.severity)) = [] :=
    List.eq_nil_iff_forall_not_mem.2 fun t ht => h t (mem_evictable.1 ht).1 (mem_evictable.1 ht).2
  rw [evictee, empty]
  rfl

/-- A full table with a candidate evicts the first in the order of R126. -/
theorem evictee_some {severity : Nat} (h : ∃ t ∈ s.tickets, Evictable severity t) :
    ∃ x ∈ s.tickets, Evictable severity x ∧ (∀ t ∈ s.tickets, Evictable severity t → LeavesFirst s x t) ∧
      evictee severity s = some x := by
  obtain ⟨t, ht, may⟩ := h
  cases found : evictee severity s with
  | none =>
    have := mem_evictable.2 ⟨ht, may⟩
    rw [evictFrom_none found] at this
    cases this
  | some x =>
    obtain ⟨hx, mayx⟩ := mem_evictable.1 (evictFrom_mem found)
    exact ⟨x, hx, mayx, fun u hu mayu => evictFrom_first found u (mem_evictable.2 ⟨hu, mayu⟩), rfl⟩

end

/-! ### The entry of a LINE ticket (R123, R125) -/

section
variable {f : Finding} {s : State}

theorem handFinding_unfiled (h : Unfiled f s) : handFinding s f = raiseWithRoom f (counting s) := by
  obtain ⟨noLine, noCable⟩ := h
  have line : ticketByKey (.line f.line) f.code (counting s) = none :=
    List.find?_eq_none.2 fun t ht key => noLine t ht (by simpa using key)
  have cable : (cableOf f.line (counting s)).bind (fun c => ticketByKey (.cable c.val) f.code (counting s)) = none := by
    cases hc : cableOf f.line s with
    | none => rw [show cableOf f.line (counting s) = none from hc]; rfl
    | some c =>
      rw [show cableOf f.line (counting s) = some c from hc]
      exact List.find?_eq_none.2 fun t ht key => noCable c hc t ht (by simpa using key)
  rw [handFinding, ← counting, placeFinding, line]
  simp only [cable]

/-- The new LINE ticket in its place, before the correlator is told. -/
theorem enters_filed (h : NumberFree s) :
    countTickets (fun c => { c with
        raised := satInc c.raised
        peakOccupancy := max c.peakOccupancy (enterTicket (lineTicket f) (counting s)).tickets.length })
      (enterTicket (lineTicket f) (counting s)) = filed f s := by
  obtain ⟨room, free⟩ := h
  have number : numberFor (counting s) = s.numberCounter := numberFor_of_free (s := counting s) fun t ht => (free t ht).1
  have next : nextNumber s.numberCounter = s.numberCounter + 1 := if_pos (by omega)
  have entered : enterTicket (lineTicket f) (counting s) = { counting s with
      tickets := s.tickets ++ [fresh f s.numberCounter s.raiseCounter]
      numberCounter := s.numberCounter + 1
      raiseCounter := Stated.next s.raiseCounter } := by
    rw [enterTicket, number, next]
    rfl
  rw [entered, List.length_append]
  rfl

theorem raiseTicket_correlates (h : NumberFree s) :
    raiseTicket f (counting s) = correlate f.line (fresh f s.numberCounter s.raiseCounter) (filed f s) := by
  have number : numberFor (counting s) = s.numberCounter := numberFor_of_free (s := counting s) fun t ht => (h.2 t ht).1
  rw [raiseTicket, enters_filed h, number]
  rfl

/-- A line that no member list of the code holds is released from none. -/
theorem releaseMembers_none {line : Nat} {x : FaultCode} (h : NoMember line x s) : releaseMembers line x s = s := by
  have holders : (s.tickets.filter fun t => t.isCable && t.code == x && t.members.any fun m => m.line == line) = [] :=
    List.filter_eq_nil_iff.2 fun t ht held => by
      simp only [Bool.and_eq_true, beq_iff_eq, List.any_eq_true] at held
      obtain ⟨⟨cable, code⟩, m, hm, hl⟩ := held
      exact h t ht cable code m hm hl
  have tickets : (releaseMembers line x s).tickets = s.tickets := by
    refine (List.map_congr_left fun t ht => ?_).trans (List.map_id _)
    by_cases key : t.isCable = true ∧ t.code = x
    · rw [placeOf_eq_none (h t ht key.1 key.2)]
      exact ite_self _
    · exact if_neg (by simpa using key)
  have flight : (releaseMembers line x s).inFlight = s.inFlight := by
    refine (List.map_congr_left fun r _ => if_neg fun held => ?_).trans (List.map_id _)
    rw [holders] at held
    exact Bool.false_ne_true held.2
  have only : releaseMembers line x s =
      { s with tickets := (releaseMembers line x s).tickets, inFlight := (releaseMembers line x s).inFlight } := rfl
  rw [only, tickets, flight]

theorem noMember_filed (h : NoMember f.line f.code s) : NoMember f.line f.code (filed f s) := by
  intro t ht cable
  rcases List.mem_append.1 ht with ht | ht
  · exact h t ht cable
  · rw [List.mem_singleton.1 ht] at cable
    cases cable

/-- A LINE ticket of a line in no cable enters the table, and nothing follows. -/
theorem raiseTicket_files (free : NumberFree s) (none : cableOf f.line s = none) (alone : NoMember f.line f.code s) :
    raiseTicket f (counting s) = filed f s := by
  have released : releaseMembers f.line (fresh f s.numberCounter s.raiseCounter).code (filed f s) = filed f s :=
    releaseMembers_none (noMember_filed alone)
  rw [raiseTicket_correlates free]
  simp only [correlate, released]
  rw [show cableOf f.line (filed f s) = .none from none]

end

/-- Settles O53. -/
theorem findingsRaiseTickets : Obligations.FindingsRaiseTickets := by
  refine ⟨fun f s unfiled free nocable alone room => ?_, fun f s unfiled full none => ?_,
    fun f s unfiled free nocable alone full hok unlinked some => ?_, fun s low high few => ?_⟩
  · rw [handFinding_unfiled unfiled]
    exact (if_pos room).trans (raiseTicket_files free nocable alone)
  · rw [handFinding_unfiled unfiled]
    refine (if_neg (Nat.not_lt.2 full)).trans ?_
    rw [evictee_none (s := counting s) none]
    rfl
  · obtain ⟨x, hx, may, first, found⟩ := evictee_some (s := counting s) some
    refine ⟨x, hx, may, first, ?_⟩
    rw [handFinding_unfiled unfiled]
    refine (if_neg (Nat.not_lt.2 (Nat.le_of_eq full.symm))).trans ?_
    rw [found]
    have left : dropLink x (countTickets (fun c => { c with evicted := satInc c.evicted })
        (removeTicket x.number (counting s))) =
        counting { s with
          tickets := s.tickets.filter fun t => t.number ≠ x.number
          ticketCounters := { s.ticketCounters with evicted := raised s.ticketCounters.evicted } } := by
      rw [removeTicket_eq, dropLink, unlinked x hx]
      rfl
    simp only [left]
    refine raiseTicket_files ⟨free.1, fun t ht => free.2 t (List.mem_filter.1 ht).1⟩ nocable
      fun t ht => alone t (List.mem_filter.1 ht).1
  · obtain ⟨k, short, found, passed⟩ := freeNumber_passes (s.tickets.map Ticket.number) s.numberCounter
      (s.tickets.length + 1) 0 (by omega)
    have tried (i : Nat) (h : i ≤ 129) : triedNumber s.numberCounter i = (s.numberCounter - 1 + i) % 65535 + 1 := by
      unfold triedNumber
      split <;> split <;> omega
    have given : numberFor s = (s.numberCounter - 1 + k) % 65535 + 1 := by
      rw [triedNumber_zero, Nat.zero_add, tried k (by omega)] at found
      exact found
    refine ⟨by omega, by omega, fun t ht number => ?_, k, given, fun j hj => ?_⟩
    · exact numberFor_free s (by omega) (number ▸ List.mem_map_of_mem ht)
    · obtain ⟨t, ht, number⟩ := List.mem_map.1 (passed j hj)
      exact ⟨t, ht, by rw [number, Nat.zero_add, tried j (by omega)]⟩

end Sys2Proof.Proofs
end

section
/-! CABLE tickets (R144 to R147): the tickets counted toward one, those merged in raise order and those linked, and the ticket
formed; then O54. -/

namespace Sys2Proof.Proofs

open Sys2Proof.Machine Sys2Proof.Stated

/-! ### Folds over the tickets that form a CABLE ticket (R145) -/

theorem foldl_min_start (g : Ticket → Nat) (l : List Ticket) (a b : Nat) :
    min (l.foldl (fun acc t => min acc (g t)) a) b = l.foldl (fun acc t => min acc (g t)) (min a b) := by
  induction l generalizing a with
  | nil => rfl
  | cons t l ih => rw [List.foldl_cons, List.foldl_cons, ih, Nat.min_assoc, Nat.min_comm (g t), ← Nat.min_assoc]

theorem foldl_max_start (g : Ticket → Nat) (l : List Ticket) (a b : Nat) :
    max (l.foldl (fun acc t => max acc (g t)) a) b = l.foldl (fun acc t => max acc (g t)) (max a b) := by
  induction l generalizing a with
  | nil => rfl
  | cons t l ih => rw [List.foldl_cons, List.foldl_cons, ih, Nat.max_assoc, Nat.max_comm (g t), ← Nat.max_assoc]

section
variable {l merged : List Ticket} (perm : l.Perm merged) (new : Ticket)
include perm

theorem earliest_perm (start : Nat) (h : new.firstSeen = start) :
    earliest (l ++ [new]) start = (merged.map Ticket.firstSeen).foldl min start := by
  have swap : (l.map Ticket.firstSeen).foldl min start = (merged.map Ticket.firstSeen).foldl min start :=
    (perm.map Ticket.firstSeen).foldl_eq' (fun _ _ _ _ _ => by omega) start
  rw [earliest, List.foldl_append, List.foldl_cons, List.foldl_nil, foldl_min_start, h, Nat.min_self, ← swap, List.foldl_map]

theorem latest_perm (start : Nat) (h : new.lastSeen = start) :
    latest (l ++ [new]) start = (merged.map Ticket.lastSeen).foldl max start := by
  have swap : (l.map Ticket.lastSeen).foldl max start = (merged.map Ticket.lastSeen).foldl max start :=
    (perm.map Ticket.lastSeen).foldl_eq' (fun _ _ _ _ _ => by omega) start
  rw [latest, List.foldl_append, List.foldl_cons, List.foldl_nil, foldl_max_start, h, Nat.max_self, ← swap, List.foldl_map]

theorem occurrences_perm (h : new.occurrences = 1) :
    ((l ++ [new]).map Ticket.occurrences).sum = (merged.map Ticket.occurrences).sum + 1 := by
  rw [List.map_append, List.sum_append, (perm.map Ticket.occurrences).sum_nat]
  simp [h]

end

theorem mostSevere_append (l : List Ticket) (new : Ticket) (h : new.severity ≤ 3) :
    mostSevere (l ++ [new]) = (l.map Ticket.severity).foldl min new.severity := by
  rw [mostSevere, List.foldl_append, List.foldl_cons, List.foldl_nil, foldl_min_start, Nat.min_eq_right h, List.foldl_map]

/-! ### The tickets counted (R144) -/

section
variable {f : Finding} {c : Fin 256} {s : State}

theorem counted_eq_counts (t : Ticket) : counted c f.code f.time s t = Counts c f s t := by
  unfold counted Counts
  cases t.subject with
  | cable _ => rfl
  | line l =>
    refine Bool.eq_iff_iff.2 ?_
    simp only [Bool.and_eq_true, beq_iff_eq, Option.isNone_iff_eq_none, decide_eq_true_eq]
    constructor
    · rintro ⟨⟨⟨code, cable⟩, alone⟩, late⟩
      exact ⟨code, cable, alone, by omega⟩
    · rintro ⟨code, cable, alone, late⟩
      exact ⟨⟨⟨code, cable⟩, alone⟩, by omega⟩

theorem counts_line {t : Ticket} (h : Counts c f s t = true) : ∃ l, t.subject = .line l := by
  unfold Counts at h
  cases hs : t.subject with
  | cable _ => rw [hs] at h; cases h
  | line l => exact ⟨l, rfl⟩

/-- The new ticket is counted after those that stand. -/
theorem counted_filed (cable : cableOf f.line s = some c) :
    (filed f s).tickets.filter (counted c (fresh f s.numberCounter s.raiseCounter).code
        (fresh f s.numberCounter s.raiseCounter).firstSeen (filed f s)) =
      s.tickets.filter (Counts c f s) ++ [fresh f s.numberCounter s.raiseCounter] := by
  have new : counted c f.code f.time (filed f s) (fresh f s.numberCounter s.raiseCounter) = true := by
    rw [counted_eq_counts]
    have hc : cableOf f.line (filed f s) = some c := cable
    simp only [Counts, fresh, hc]
    simp
  have others : s.tickets.filter (counted c f.code f.time (filed f s)) = s.tickets.filter (Counts c f s) :=
    List.filter_congr fun t _ => counted_eq_counts (s := filed f s) t
  refine (List.filter_append ..).trans ?_
  change s.tickets.filter (counted c f.code f.time (filed f s)) ++ _ = _
  rw [others]
  exact congrArg _ (List.filter_cons_of_pos new)

/-! ### The tickets merged (R146) -/

theorem insertByRaise_last {t : Ticket} (h : raisedSince s t = 0) (l : List Ticket) : insertByRaise s t l = l ++ [t] := by
  induction l with
  | nil => rfl
  | cons u rest ih =>
    have never : ¬raisedSince s u < raisedSince s t := by omega
    rw [insertByRaise, if_neg never, ih]
    rfl

theorem raisedSince_new (_ : s.raiseCounter < 4294967296) :
    raisedSince (filed f s) (fresh f s.numberCounter s.raiseCounter) = 0 := by
  change (next s.raiseCounter + (4294967296 - 1) - s.raiseCounter) % 4294967296 = 0
  unfold Stated.next
  omega

/-- The new ticket is merged after the RAISED ones, which stand in raise order. -/
theorem mergedOf_last {new : Ticket} {l merged : List Ticket} (latest : raisedSince s new = 0)
    (others : l.filter (fun t => t.state == .raised && t.number != new.number) = merged) (few : merged.length ≤ 63) :
    mergedOf s new l = byRaise s (byRaise s merged) ++ [new] := by
  have all : (byRaise s merged).take (Config.memberCapacity - 1) = byRaise s merged :=
    List.take_of_length_le (by rw [(byRaise_perm s merged).length_eq]; exact few)
  simp only [mergedOf, others, all]
  exact insertByRaise_last latest _

end

/-! ### The table with a CABLE ticket formed (R145, R146) -/

section
variable {f : Finding} {c : Fin 256} {s : State} {l : List Ticket}

/-- The counted tickets that are RAISED, and the others. -/
def mergedOnes (c : Fin 256) (f : Finding) (s : State) : List Ticket :=
  (s.tickets.filter (Counts c f s)).filter fun t => t.state = .raised

def linkedOnes (c : Fin 256) (f : Finding) (s : State) : List Ticket :=
  (s.tickets.filter (Counts c f s)).filter fun t => t.state ≠ .raised

theorem mergedOnes_mem {t : Ticket} (h : t ∈ mergedOnes c f s) : t ∈ s.tickets :=
  (List.mem_filter.1 (List.mem_filter.1 h).1).1

/-- The numbers that leave the table name the tickets merged and the new one. -/
theorem number_gone (hok : s.numbersOk = true) (free : NumberFree s) (perm : l.Perm (mergedOnes c f s)) {t : Ticket}
    (ht : t ∈ s.tickets) :
    t.number ∈ (l ++ [fresh f s.numberCounter s.raiseCounter]).map Ticket.number ↔ t ∈ mergedOnes c f s := by
  rw [List.map_append, List.mem_append, List.map_singleton, List.mem_singleton]
  constructor
  · rintro (gone | new)
    · obtain ⟨u, hu, number⟩ := List.mem_map.1 gone
      have hu := perm.mem_iff.1 hu
      rwa [← eq_of_number_eq hok ht (mergedOnes_mem hu) number]
    · exact absurd new (free.2 t ht).1
  · exact fun h => .inl (List.mem_map_of_mem (perm.mem_iff.2 h))

/-- The numbers linked are those of the other counted tickets. -/
theorem numbers_linked (hok : s.numbersOk = true) (free : NumberFree s) (perm : l.Perm (mergedOnes c f s)) :
    ((s.tickets.filter (Counts c f s) ++ [fresh f s.numberCounter s.raiseCounter]).map Ticket.number).filter
        (fun n => n ∉ (l ++ [fresh f s.numberCounter s.raiseCounter]).map Ticket.number) =
      (linkedOnes c f s).map Ticket.number := by
  rw [List.map_append (l₁ := s.tickets.filter (Counts c f s)), List.filter_append, List.map_singleton,
    List.filter_cons_of_neg (by simp), List.filter_nil, List.append_nil, List.filter_map]
  refine congrArg (List.map Ticket.number) (List.filter_congr fun t ht => ?_)
  have here : t ∈ s.tickets := (List.mem_filter.1 ht).1
  have raised : t ∈ mergedOnes c f s ↔ t.state = .raised := by
    rw [mergedOnes, List.mem_filter, decide_eq_true_iff]
    exact and_iff_right ht
  exact Bool.eq_iff_iff.2 (by
    simp only [Function.comp, decide_eq_true_iff, ne_eq, number_gone hok free perm here, raised])

theorem number_linked (hok : s.numbersOk = true) {t : Ticket} (ht : t ∈ s.tickets) :
    t.number ∈ (linkedOnes c f s).map Ticket.number ↔ t ∈ linkedOnes c f s := by
  constructor
  · intro h
    obtain ⟨u, hu, number⟩ := List.mem_map.1 h
    rwa [← eq_of_number_eq hok ht (List.mem_filter.1 (List.mem_filter.1 hu).1).1 number]
  · exact List.mem_map_of_mem

/-- The table once the merged tickets have left it and the others are linked. -/
theorem tickets_linked (hok : s.numbersOk = true) (free : NumberFree s) (perm : l.Perm (mergedOnes c f s)) :
    ((filed f s).tickets.filter fun t =>
        t.number ∉ (l ++ [fresh f s.numberCounter s.raiseCounter]).map Ticket.number).map (fun t =>
      if t.number ∈ (linkedOnes c f s).map Ticket.number then { t with linked := some c.val } else t) =
      (s.tickets.filter fun t => t ∉ mergedOnes c f s).map fun t =>
        if t ∈ linkedOnes c f s then { t with linked := some c.val } else t := by
  have left : ((filed f s).tickets.filter fun t =>
      t.number ∉ (l ++ [fresh f s.numberCounter s.raiseCounter]).map Ticket.number) =
      s.tickets.filter fun t => t ∉ mergedOnes c f s := by
    refine (List.filter_append ..).trans ?_
    rw [List.filter_cons_of_neg (by simp), List.filter_nil, List.append_nil]
    exact List.filter_congr fun t ht => Bool.eq_iff_iff.2 (by
      simp only [decide_eq_true_iff, number_gone hok free perm ht])
  rw [left]
  refine List.map_congr_left fun t ht => ?_
  simp only [number_linked hok (List.mem_filter.1 ht).1]

/-- The CABLE ticket formed of the tickets counted (R145). -/
theorem formedTicket_eq (perm : l.Perm (mergedOnes c f s)) (severe : f.severity ≤ 3) (number raiseOrder linked : Nat) :
    formedTicket c (fresh f s.numberCounter s.raiseCounter)
        (s.tickets.filter (Counts c f s) ++ [fresh f s.numberCounter s.raiseCounter])
        (l ++ [fresh f s.numberCounter s.raiseCounter]) linked number raiseOrder =
      { number := number, subject := .cable c.val, code := f.code, linked := none
        baseSeverity := ((s.tickets.filter (Counts c f s)).map Ticket.severity).foldl min f.severity
        severity := ((s.tickets.filter (Counts c f s)).map Ticket.severity).foldl min f.severity
        state := .raised, occurrences := min (((mergedOnes c f s).map Ticket.occurrences).sum + 1) 255
        firstSeen := ((mergedOnes c f s).map Ticket.firstSeen).foldl min f.time
        lastSeen := ((mergedOnes c f s).map Ticket.lastSeen).foldl max f.time
        lastValue := f.value, lastQuals := f.quals, program := f.program, retestCount := 0
        raiseOrder := raiseOrder
        members := l.map memberOfLine ++ [memberFrom f .none], overflow := 0
        linkedCount := linked, position := none, firstReason := none } := by
  have members : (l ++ [fresh f s.numberCounter s.raiseCounter]).map memberOfTicket =
      l.map memberOfLine ++ [memberFrom f .none] := by
    rw [List.map_append]
    refine congrArg (· ++ _) (List.map_congr_left fun t ht => ?_)
    obtain ⟨line, hline⟩ := counts_line (List.mem_filter.1 (List.mem_filter.1 (perm.mem_iff.1 ht)).1).2
    rw [memberOfTicket, memberOfLine, hline]
    rfl
  have severity := mostSevere_append (s.tickets.filter (Counts c f s)) (fresh f s.numberCounter s.raiseCounter) severe
  have first := earliest_perm perm (fresh f s.numberCounter s.raiseCounter) f.time rfl
  have last := latest_perm perm (fresh f s.numberCounter s.raiseCounter) f.time rfl
  have times := occurrences_perm perm (fresh f s.numberCounter s.raiseCounter) rfl
  rw [formedTicket, severity, members, times]
  change { number := number, subject := _, code := _, linked := _, baseSeverity := _, severity := _, state := _
           occurrences := _, firstSeen := earliest _ f.time, lastSeen := latest _ f.time, lastValue := _, lastQuals := _
           program := _, retestCount := _, raiseOrder := _, members := _, overflow := _, linkedCount := _, position := _
           firstReason := _ : Ticket } = _
  rw [first, last]
  rfl

/-- The CABLE ticket takes its number and its place in raise order after the LINE ticket that brought the count to K. -/
theorem formCable_eq (hok : s.numbersOk = true) (free : NumberFree s) (severe : f.severity ≤ 3)
    (order : s.raiseCounter < 4294967296) (few : (mergedOnes c f s).length ≤ 63)
    (hl : byRaise (filed f s) (byRaise (filed f s) (mergedOnes c f s)) = l) :
    formCable c (fresh f s.numberCounter s.raiseCounter)
        (s.tickets.filter (Counts c f s) ++ [fresh f s.numberCounter s.raiseCounter]) (filed f s) =
      { filed f s with
        tickets := ((s.tickets.filter fun t => t ∉ mergedOnes c f s).map fun t =>
            if t ∈ linkedOnes c f s then { t with linked := some c.val } else t) ++
          [{ number := s.numberCounter + 1, subject := .cable c.val, code := f.code, linked := none
             baseSeverity := ((s.tickets.filter (Counts c f s)).map Ticket.severity).foldl min f.severity
             severity := ((s.tickets.filter (Counts c f s)).map Ticket.severity).foldl min f.severity
             state := .raised, occurrences := min (((mergedOnes c f s).map Ticket.occurrences).sum + 1) 255
             firstSeen := ((mergedOnes c f s).map Ticket.firstSeen).foldl min f.time
             lastSeen := ((mergedOnes c f s).map Ticket.lastSeen).foldl max f.time
             lastValue := f.value, lastQuals := f.quals, program := f.program, retestCount := 0
             raiseOrder := next s.raiseCounter
             members := l.map memberOfLine ++ [memberFrom f .none], overflow := 0
             linkedCount := (linkedOnes c f s).length, position := none, firstReason := none }]
        numberCounter := s.numberCounter + 2
        raiseCounter := next (next s.raiseCounter) } := by
  have perm : l.Perm (mergedOnes c f s) := hl ▸ (byRaise_perm ..).trans (byRaise_perm ..)
  have others : (s.tickets.filter (Counts c f s) ++ [fresh f s.numberCounter s.raiseCounter]).filter
      (fun t => t.state == .raised && t.number != (fresh f s.numberCounter s.raiseCounter).number) = mergedOnes c f s := by
    rw [List.filter_append, List.filter_cons_of_neg (by simp), List.filter_nil, List.append_nil]
    refine List.filter_congr fun t ht => Bool.eq_iff_iff.2 ?_
    have other : t.number ≠ (fresh f s.numberCounter s.raiseCounter).number := (free.2 t (List.mem_filter.1 ht).1).1
    simp [other]
  have merged : mergedOf (filed f s) (fresh f s.numberCounter s.raiseCounter)
      (s.tickets.filter (Counts c f s) ++ [fresh f s.numberCounter s.raiseCounter]) =
      l ++ [fresh f s.numberCounter s.raiseCounter] := by
    rw [mergedOf_last (raisedSince_new order) others few, hl]
  have linked := tickets_linked hok free perm
  have given (t : State) (counter : t.numberCounter = s.numberCounter + 1)
      (tickets : t.tickets = (s.tickets.filter fun t => t ∉ mergedOnes c f s).map fun t =>
        if t ∈ linkedOnes c f s then { t with linked := some c.val } else t) : numberFor t = s.numberCounter + 1 := by
    refine (numberFor_of_free fun u hu => ?_).trans counter
    rw [tickets] at hu
    obtain ⟨v, hv, rfl⟩ := List.mem_map.1 hu
    have kept : (if v ∈ linkedOnes c f s then { v with linked := some c.val } else v).number = v.number := by split <;> rfl
    rw [kept, counter]
    exact (free.2 v (List.mem_filter.1 hv).1).2
  have next : nextNumber (s.numberCounter + 1) = s.numberCounter + 2 := if_pos (by have := free.1; omega)
  simp only [formCable, merged, numbers_linked hok free perm, List.length_map]
  rw [linked, enterTicket, given]
  · simp only [next, formedTicket_eq perm severe]
    rfl
  · rfl
  · rfl

end

/-- Settles O54. -/
theorem cableTicketForms : Obligations.CableTicketForms := by
  intro f c range s unfiled free hok order cable entry noCable few room severe counted merged linked
  have alone : NoMember f.line f.code s := fun t ht isCable code => absurd code (noCable t ht isCable)
  have released : releaseMembers f.line (fresh f s.numberCounter s.raiseCounter).code (filed f s) = filed f s :=
    releaseMembers_none (noMember_filed alone)
  have cable' : cableOf f.line (filed f s) = some c := cable
  have entry' : (filed f s).cables[c] = some range := entry
  have unformed : ticketByKey (.cable c.val) f.code (filed f s) = none := by
    refine List.find?_eq_none.2 fun t ht key => ?_
    simp only [Bool.and_eq_true, beq_iff_eq] at key
    rcases List.mem_append.1 ht with ht | ht
    · exact noCable t ht (isCable_of_cable key.1) key.2
    · rw [List.mem_singleton.1 ht] at key
      cases key.1
  have cables : cableTickets (filed f s) = cableTickets s := by
    refine congrArg List.length ((List.filter_append ..).trans ?_)
    rw [List.filter_cons_of_neg (by simp [Ticket.isCable, fresh]), List.filter_nil, List.append_nil]
  have raises : handFinding s f =
      if range.k ≠ 0 ∧ range.k ≤ counted.length + 1 then
        formCable c (fresh f s.numberCounter s.raiseCounter) (counted ++ [fresh f s.numberCounter s.raiseCounter]) (filed f s)
      else filed f s := by
    rw [handFinding_unfiled unfiled]
    refine (if_pos room).trans ((raiseTicket_correlates free).trans ?_)
    simp only [correlate, released, cable', entry', counted_filed cable, cables]
    rw [show ticketByKey (.cable c.val) (fresh f s.numberCounter s.raiseCounter).code (filed f s) = none from unformed,
      List.length_append]
    exact ite_congr (propext ⟨fun h => ⟨h.1, h.2.2.2⟩, fun h => ⟨h.1, rfl, few, h.2⟩⟩) (fun _ => rfl) fun _ => rfl
  refine ⟨fun short => ?_, fun ne reached fits => ?_⟩
  · rw [raises, if_neg (by omega)]
  · refine ⟨byRaise (filed f s) (byRaise (filed f s) merged), (byRaise_perm ..).trans (byRaise_perm ..),
      byRaise_sorted (filed f s) _, ?_⟩
    rw [raises, if_pos ⟨ne, reached⟩]
    exact formCable_eq hok free severe order fits rfl

end Sys2Proof.Proofs
end

section
/-! Sweep lines (R160 to R165): the tests of a taken line, how a line in flight is counted as it ends, and the end of a pass;
then O56. -/

namespace Sys2Proof.Proofs

open Sys2Proof.Machine Sys2Proof.Stated

section
variable {d : SweepNo} {line : Nat} {phase : LinePhase} {s : State}

theorem ticketed_iff : ticketed line s = true ↔ Ticketed line s := by
  simp [ticketed, Ticketed, Ticket.isOnLine]

theorem suppressed_iff : suppressed line s = true ↔ Suppressed line s := by
  unfold suppressed Suppressed
  cases cableOf line s with
  | none => simp
  | some c => simp

/-! ### A line counted as it is deferred or ends (R161, R162) -/

theorem countSweep_withSweep (f : SweepCounts → SweepCounts) (y : Descriptor) :
    countSweep d f (withSweep d y s) = withSweep d { y with counts := f y.counts } s := by
  rw [countSweep_eq, withSweep_self, withSweep_withSweep]

theorem deferLine_full (h : phase = .deferred ∨ 16 ≤ s.sweeps[d].deferred.length ∨ line ∈ s.sweeps[d].deferred) :
    deferLine d line phase s = countSweep d (fun c => { c with unreachable := raised c.unreachable }) s := by
  cases phase with
  | deferred => rfl
  | main =>
    refine if_neg fun ⟨room, new⟩ => ?_
    rcases h with h | h | h
    · cases h
    · exact absurd room (Nat.not_lt.2 h)
    · exact new h

/-- The descriptor is suspended at the end of its line, as was pending, where no fault stops it first (R163). -/
theorem leaveActive_suspends {e : LineEnd}
    (calm : e.findings = 0 ∨ ∀ c, s.sweeps[d].config = some c → c.stopOnFault = false)
    (pending : s.sweeps[d].suspendPending = true) :
    leaveActive d line e s = withSweep d { s.sweeps[d] with state := .suspended, suspendPending := false } s := by
  rcases calm with none | goesOn
  · exact leaveActive_pending none pending
  · have stays : (s.sweeps[d].config.map SweepConfig.stopOnFault).getD false = false := by
      cases h : s.sweeps[d].config with
      | none => rfl
      | some c => exact goesOn c h
    simp only [leaveActive, stays, Bool.false_eq_true, false_and, if_false, pending, if_true]
    rfl

/-- A line in flight that ends: it is counted, LOCKED is counted beside it, and the descriptor leaves ACTIVE (R162, R163). -/
theorem sweepLineEnded_leaves {locked : Bool} {e : LineEnd} {l : List Nat} {f : SweepCounts → SweepCounts}
    (flight : s.sweeps[d].inFlight = some (line, phase))
    (counted : ∀ y : Descriptor, y.deferred = s.sweeps[d].deferred →
      countLineEnd d line phase e (withSweep d y s) = countSweep d f (withSweep d { y with deferred := l } s))
    (apart : ∀ c, lockCounted locked (f c) = f (lockCounted locked c)) :
    sweepLineEnded d e locked s =
      leaveActive d line e
        (withSweep d { s.sweeps[d] with
          inFlight := none, deferred := l, counts := f (lockCounted locked s.sweeps[d].counts) } s) := by
  have ended := counted { s.sweeps[d] with inFlight := none } rfl
  simp only [sweepLineEnded, flight]
  change leaveActive d line e (if locked then countSweep d (fun c => { c with lockedLines := raised c.lockedLines })
    (countLineEnd d line phase e (withSweep d { s.sweeps[d] with inFlight := none } s)) else
    countLineEnd d line phase e (withSweep d { s.sweeps[d] with inFlight := none } s)) = _
  rw [ended, countSweep_withSweep, ← apart]
  cases locked with
  | false => rfl
  | true => exact congrArg (leaveActive d line e) ((if_pos rfl).trans (countSweep_withSweep ..))

/-- The descriptor whose suspension was pending is SUSPENDED at the end of its line. -/
theorem sweepLineEnded_suspends {locked : Bool} {e : LineEnd} {l : List Nat} {f : SweepCounts → SweepCounts}
    (flight : s.sweeps[d].inFlight = some (line, phase)) (pending : s.sweeps[d].suspendPending = true)
    (calm : e.findings = 0 ∨ ∀ c, s.sweeps[d].config = some c → c.stopOnFault = false)
    (counted : ∀ y : Descriptor, y.deferred = s.sweeps[d].deferred →
      countLineEnd d line phase e (withSweep d y s) = countSweep d f (withSweep d { y with deferred := l } s))
    (apart : ∀ c, lockCounted locked (f c) = f (lockCounted locked c)) :
    sweepLineEnded d e locked s =
      withSweep d { stoppedWith (f (lockCounted locked s.sweeps[d].counts)) s.sweeps[d] with deferred := l } s := by
  rw [sweepLineEnded_leaves flight counted apart, leaveActive_suspends, withSweep_self, withSweep_withSweep]
  · rfl
  · rw [withSweep_self]
    exact calm
  · rw [withSweep_self]
    exact pending

end

/-- Settles O56. -/
theorem sweepLinesAreCounted : Obligations.SweepLinesAreCounted := by
  refine ⟨fun d line phase s => ⟨fun excluded => ?_, fun normal tickets => ?_, fun normal noTicket suppress => ?_,
      fun normal noTicket unsuppressed claim => ⟨fun main room new => ?_, fun full => ?_⟩⟩,
    fun d line phase locked s flight pending => ⟨?_, ?_, fun small => ?_, fun k calm => ?_, fun again => ?_,
      fun main room new => ?_, fun main full => ?_⟩,
    fun d line k phase locked c s flight config stops found => ?_,
    fun d e locked s none => ?_,
    fun d c s config => ⟨fun ends => ?_, fun reloads made => ?_, fun reloads none => ?_⟩⟩
  · exact if_pos excluded
  · exact (if_neg normal).trans (if_pos (ticketed_iff.2 tickets))
  · exact (if_neg normal).trans ((if_neg (mt ticketed_iff.1 noTicket)).trans (if_pos (suppressed_iff.2 suppress)))
  · have defers : takeLine d line phase s = deferLine d line phase s :=
      (if_neg normal).trans ((if_neg (mt ticketed_iff.1 noTicket)).trans ((if_neg (mt suppressed_iff.1 unsuppressed)).trans
        (if_pos (Option.isSome_iff_ne_none.2 claim))))
    rw [defers, main, deferLine_room room new]
  · have defers : takeLine d line phase s = deferLine d line phase s :=
      (if_neg normal).trans ((if_neg (mt ticketed_iff.1 noTicket)).trans ((if_neg (mt suppressed_iff.1 unsuppressed)).trans
        (if_pos (Option.isSome_iff_ne_none.2 claim))))
    rw [defers, deferLine_full full]
    rfl
  · exact sweepLineEnded_suspends flight pending (.inl rfl)
      (f := fun c => { c with noLine := raised c.noLine }) (l := s.sweeps[d].deferred)
      (fun _ same => by rw [← same]; rfl) (by cases locked <;> exact fun _ => rfl)
  · exact sweepLineEnded_suspends flight pending (.inl rfl)
      (f := fun c => { c with headFault := raised c.headFault }) (l := s.sweeps[d].deferred)
      (fun _ same => by rw [← same]; rfl) (by cases locked <;> exact fun _ => rfl)
  · have none : min ((lockCounted locked s.sweeps[d].counts).faultsFound + 0) 4294967295 =
        (lockCounted locked s.sweeps[d].counts).faultsFound := Nat.min_eq_left small
    refine (sweepLineEnded_suspends flight pending (.inl rfl)
      (f := fun c => { c with tested := raised c.tested, faultsFound := min (c.faultsFound + 0) 4294967295 })
      (l := s.sweeps[d].deferred) (fun _ same => by rw [← same]; rfl)
      (by cases locked <;> exact fun _ => rfl)).trans ?_
    rw [none]
    rfl
  · exact sweepLineEnded_suspends flight pending (calm.imp_left id)
      (f := fun c => { c with tested := raised c.tested, faultsFound := min (c.faultsFound + k) 4294967295 })
      (l := s.sweeps[d].deferred) (fun _ same => by rw [← same]; rfl)
      (by cases locked <;> exact fun _ => rfl)
  · subst again
    exact sweepLineEnded_suspends flight pending (.inl rfl)
      (f := fun c => { c with unreachable := raised c.unreachable }) (l := s.sweeps[d].deferred)
      (fun _ same => by rw [← same]; rfl) (by cases locked <;> exact fun _ => rfl)
  · subst main
    exact sweepLineEnded_suspends flight pending (.inl rfl)
      (f := fun c => { c with deferred := raised c.deferred }) (l := s.sweeps[d].deferred ++ [line])
      (fun y same => (deferLine_room (by rwa [withSweep_self, same]) (by rwa [withSweep_self, same])).trans
        (by rw [countSweep_withSweep, withSweep_self, withSweep_withSweep, same])) (by cases locked <;> exact fun _ => rfl)
  · subst main
    exact sweepLineEnded_suspends flight pending (.inl rfl)
      (f := fun c => { c with unreachable := raised c.unreachable }) (l := s.sweeps[d].deferred)
      (fun y same => by
        rw [← same] at full ⊢
        exact deferLine_full (d := d) (phase := .main) (s := withSweep d y s) (.inr (by rwa [withSweep_self])))
      (by cases locked <;> exact fun _ => rfl)
  · have left := sweepLineEnded_leaves (locked := locked) (e := .complete (some k)) flight
      (f := fun c => { c with tested := raised c.tested, faultsFound := min (c.faultsFound + k) 4294967295 })
      (l := s.sweeps[d].deferred) (fun _ same => by rw [← same]; rfl) (by cases locked <;> exact fun _ => rfl)
    have stop : ((s.sweeps[d].config.map SweepConfig.stopOnFault).getD false = true ∧ 0 < k) := by
      rw [config]
      exact ⟨stops, found⟩
    refine left.trans ?_
    rw [leaveActive, withSweep_self]
    refine (if_pos stop).trans (congrArg (pushNotice 6 _) ?_)
    exact withSweep_withSweep ..
  · simp only [sweepLineEnded, none]
  · simp only [endPass, ends, Bool.false_eq_true, if_false]
    rfl
  · simp only [endPass, reloads, made, if_true]
    rfl
  · simp only [endPass, reloads, none, if_true, Bool.false_eq_true, if_false]
    rfl

end Sys2Proof.Proofs
end

section
/-! The commands on sweep descriptors (R156 to R158): the step that ARM and RESUME take, and the line that DISARM ends; then
O55. -/

namespace Sys2Proof.Proofs

open Sys2Proof.Machine Sys2Proof.Stated

section
variable {d : SweepNo} {b : BusNo} {s : State}

/-! ### No grant follows (R52) -/

theorem grantPass_idle (h : freeBus s = none ∨ s.queue = []) : grantPass s = s :=
  h.elim grantPass_of_noneFree grantPass_of_empty

theorem freeBus_withBus (h : freeBus s = none) {x : Bus} (busy : x.state ≠ .free) : freeBus (withBus b x s) = none := by
  rw [freeBus_none_iff] at h ⊢
  intro c
  by_cases same : c = b
  · subst same
    rw [withBus_self]
    exact busy
  · rw [withBus_other (s := s) x (Ne.symm same)]
    exact h c

theorem passAfter_idle (x : Bus) (h : freeBus s = none ∨ s.queue = []) : passAfter x s = s := by
  unfold passAfter
  split
  · exact grantPass_idle h
  · rfl

/-! ### ARM and RESUME (R156, R157, R159) -/

/-- A descriptor that enters ARMED and whose pace allows it requests its next line; no bus is FREE. -/
theorem rearm_requests {c : SweepConfig} {x : Descriptor} (config : x.config = some c) (main : x.deferredPhase = false)
    (left : 0 < x.remaining) (allows : paceAllows x = true) (may : Requestable (c.first + x.nextIndex * c.stride) s)
    (free : freeBus s = none) :
    rearm d x s =
      requests d (c.first + x.nextIndex * c.stride) c
        { x with nextIndex := x.nextIndex + 1, remaining := x.remaining - 1 } s := by
  have step : sweepStep d (withSweep d { x with state := .armed } s) =
      requests d (c.first + x.nextIndex * c.stride) c
        { x with nextIndex := x.nextIndex + 1, remaining := x.remaining - 1 } s :=
    (sweepStep_requests (x := { x with state := .armed }) config rfl main left allows may).trans rfl
  exact (congrArg grantPass step).trans (grantPass_of_noneFree free)

/-- An ARMED descriptor waits for its pace. -/
theorem sweepStep_waits {c : SweepConfig} {x : Descriptor} (config : x.config = some c) (armed : x.state = .armed)
    (main : x.deferredPhase = false) (left : 0 < x.remaining) (waits : paceAllows x = false) :
    sweepStep d (withSweep d x s) = withSweep d x s := by
  have own : (withSweep d x s).sweeps[d] = x := withSweep_self ..
  have fuel : sweepFuel x = (x.remaining + x.deferred.length + (x.config.map SweepConfig.count).getD 0 + 63) + 1 := rfl
  rw [sweepStep, own, fuel, sweepRun, own]
  simp only [config, armed, main, left, waits, ne_eq, not_true_eq_false, if_false, if_true, Bool.false_eq_true]

theorem paceAllows_of {x : Descriptor} (h : x.pace = .stopped ∨ x.pace = .expired) : paceAllows x = true := by
  unfold paceAllows
  rcases h with h | h <;> rw [h]

theorem paceAllows_not {x : Descriptor} {n limit : Nat} (h : x.pace = .running n limit) (short : n < limit) :
    paceAllows x = false := by
  unfold paceAllows
  rw [h]
  exact decide_eq_false (Nat.not_le.2 short)

/-- A descriptor that enters ARMED while its pace runs takes no line. -/
theorem rearm_waits {c : SweepConfig} {x : Descriptor} (config : x.config = some c) (main : x.deferredPhase = false)
    (left : 0 < x.remaining) (waits : paceAllows x = false) (ungranted : freeBus s = none ∨ s.queue = []) :
    rearm d x s = withSweep d { x with state := .armed } s :=
  (congrArg grantPass (sweepStep_waits (x := { x with state := .armed }) config rfl main left waits)).trans
    (grantPass_idle (s := withSweep d { x with state := .armed } s) ungranted)

/-- ARM requests the first line of the pass. -/
theorem armOn_requests {c : SweepConfig} (load : Loadable d s) (config : s.sweeps[d].config = some c) (many : 1 ≤ c.count)
    (may : Requestable c.first s) (free : freeBus s = none) :
    armOn d s =
      okay (requests d c.first c { config := some c, nextIndex := 1, remaining := c.count - 1, pass := 1 } s) := by
  have first : c.first + (armedFields c).nextIndex * c.stride = c.first := by simp [armedFields]
  have step := rearm_requests (d := d) (x := armedFields c) rfl rfl many (paceAllows_of (.inl rfl)) (first.symm ▸ may) free
  rw [armOn]
  simp only [if_pos load, config, step, first]
  rfl

/-- RESUME brings an ARMED descriptor back, and it takes its step (R157). -/
theorem resumeOn_suspended (h : s.sweeps[d].state = .suspended) : resumeOn d s = okay (rearm d s.sweeps[d] s) := by
  rw [resumeOn]
  simp only [h]

theorem resumeOn_pending (h : s.sweeps[d].state = .active) (pending : s.sweeps[d].suspendPending = true) :
    resumeOn d s = okay (withSweep d { s.sweeps[d] with suspendPending := false } s) := by
  rw [resumeOn]
  simp only [h, pending, if_true]
  rfl

theorem suspendOn_active (h : s.sweeps[d].state = .active) :
    suspendOn d s = okay (withSweep d { s.sweeps[d] with suspendPending := true } s) := by
  rw [suspendOn]
  simp only [h]
  rfl

theorem resumeOn_refuses (notSuspended : s.sweeps[d].state ≠ .suspended)
    (notPending : ¬(s.sweeps[d].state = .active ∧ s.sweeps[d].suspendPending = true)) :
    resumeOn d s = refuse .wrongState s := by
  rw [resumeOn]
  cases st : s.sweeps[d].state
  case suspended => exact absurd st notSuspended
  case active => exact if_neg fun pending => notPending ⟨st, pending⟩
  all_goals rfl

theorem suspendOn_refuses (notArmed : s.sweeps[d].state ≠ .armed) (notActive : s.sweeps[d].state ≠ .active) :
    suspendOn d s = refuse .wrongState s := by
  rw [suspendOn]
  cases st : s.sweeps[d].state
  case armed => exact absurd st notArmed
  case active => exact absurd st notActive
  all_goals rfl

/-! ### DISARM (R158) -/

theorem busHeldBy_not {x : Holder} (h : ∀ b : BusNo, s.buses[b].holder = some x → s.buses[b].isHeld = false) :
    busHeldBy x s = none := by
  refine List.find?_eq_none.2 fun b _ held => ?_
  obtain ⟨held, hold⟩ := (Bool.and_eq_true ..).mp held
  rw [h b (beq_iff_eq.1 hold)] at held
  cases held

theorem busHeldBy_held {x : Holder} (hold : s.buses[b].holder = some x) (held : s.buses[b].isHeld = true)
    (others : ∀ c : BusNo, c ≠ b → s.buses[c].holder = some x → s.buses[c].isHeld = false) : busHeldBy x s = some b := by
  have own : (s.buses[b].isHeld && s.buses[b].holder == some x) = true := by rw [held, hold]; simp
  cases found : busHeldBy x s with
  | none => exact absurd own (List.find?_eq_none.1 found b (mem_allBuses b))
  | some c =>
    have both := List.find?_some found
    simp only [Bool.and_eq_true, beq_iff_eq] at both
    refine congrArg some (Decidable.byContradiction fun ne => ?_)
    rw [others c ne both.2] at both
    cases both.1

theorem removeRequests_none {x : Holder} (h : ∀ e ∈ s.queue, e.requester ≠ x) :
    removeRequests (fun e => e.requester == x) s = s := by
  have same : s.queue.filter (fun e => !(e.requester == x)) = s.queue :=
    List.filter_eq_self.2 fun e he => by simpa using h e he
  simp only [removeRequests, same]
  rfl

theorem disarmOn_ends (h : s.sweeps[d].state ≠ .idle) :
    disarmOn d s = okay (endLine d (withSweep d s.sweeps[d].disarmed s)) := if_neg h

/-- The request of a descriptor leaves the queue with its line; no bus is held for it. -/
theorem endLine_waiting (h : ∀ b : BusNo, s.buses[b].holder = some (.sweep d) → s.buses[b].isHeld = false) :
    endLine d s = { s with queue := s.queue.filter fun e => e.requester ≠ .sweep d } := by
  have none : busHeldBy (.sweep d) (removeRequests (fun e => e.requester == .sweep d) s) = none := busHeldBy_not h
  have same : (fun e : WaitEntry => !(e.requester == .sweep d)) = fun e => decide (e.requester ≠ .sweep d) := by
    funext e
    exact Bool.eq_iff_iff.2 (by simp)
  rw [endLine, none]
  simp only [removeRequests, same]
  rfl

/-- The bus held for a descriptor is released with cause REQUESTED. -/
theorem endLine_held (queue : ∀ e ∈ s.queue, e.requester ≠ .sweep d) (hold : s.buses[b].holder = some (.sweep d))
    (held : s.buses[b].isHeld = true)
    (others : ∀ c : BusNo, c ≠ b → s.buses[c].holder = some (.sweep d) → s.buses[c].isHeld = false) :
    endLine d s = releaseBus b .requested s := by
  rw [endLine, removeRequests_none queue, busHeldBy_held hold held others]

theorem breakBus_sweep {line : Nat} (hold : s.buses[b].holder = some (.sweep d)) (hline : s.buses[b].line = some line)
    (cause : Reason) : breakBus b cause s = sends b {} (withBus b (breaking line cause s.buses[b]) s) := by
  rw [breakBus_eq hline, hold]
  rfl

/-- No grant follows the release of a bus, where none could have before. -/
theorem ungranted_released {line : Nat} {cause : Reason} (h : freeBus s = none ∨ s.queue = []) :
    freeBus (sends b {} (withBus b (breaking line cause s.buses[b]) s)) = none ∨ s.queue = [] :=
  h.imp_left fun free => freeBus_withBus free (x := breaking line cause s.buses[b]) nofun

/-- A bus on which nothing is measured is released, and no grant follows. -/
theorem releaseBus_sweep {line : Nat} (hold : s.buses[b].holder = some (.sweep d)) (hline : s.buses[b].line = some line)
    (unmeasured : Unmeasured b s) (ungranted : freeBus s = none ∨ s.queue = []) (cause : Reason) :
    releaseBus b cause s = sends b {} (withBus b (breaking line cause s.buses[b]) s) := by
  simp only [releaseBus, measurementOn_unmeasured unmeasured, breakBus_sweep hold hline]
  exact passAfter_idle _ (ungranted_released ungranted)

/-- The record of a measurement, handed to a descriptor that has no line in flight. -/
theorem reportMeasurement_disarmed {m : Measurement} {outcome : Reason} (hold : m.holder = .sweep d)
    (flight : s.sweeps[d].inFlight = none) (plain : m.evaluated outcome = false)
    (ungranted : freeBus s = none ∨ s.queue = []) (cond : LineCond) :
    reportMeasurement b m outcome cond s = pushNotice 6 (.measurementResult (m.record b outcome)) s := by
  have unseen (a : Nat) (n : NoticeBody) (e : LineEnd) (locked : Bool) :
      sweepReport d e locked (pushNotice a n s) = pushNotice a n s := by
    have none : (pushNotice a n s).sweeps[d].inFlight = none := by rw [pushNotice_eq]; exact flight
    have ended : sweepLineEnded d e locked (pushNotice a n s) = pushNotice a n s := by simp only [sweepLineEnded, none]
    rw [sweepReport, ended]
    refine grantPass_idle ?_
    rw [pushNotice_eq]
    exact ungranted
  simp only [reportMeasurement, hold, plain, Bool.false_eq_true, if_false]
  exact unseen ..

/-- A head returns from a released bus before or after the notice of its measurement. -/
theorem rested_released (h : HeadNo) (a : Nat) (n : NoticeBody) (y : Bus) :
    rested h b (pushNotice a n (sends b {} (withBus b y s))) =
      pushNotice a n
        (withHeadCounts h { s.headCounters[h] with measurementsEnded := raised s.headCounters[h].measurementsEnded }
          (withHead h
            { s.heads[h] with state := .returning, word := HeadWord.rest, bus := none, timer := some 0, ctx := none }
            (sends b {} (withBus b { y with head := none } s)))) := by
  have own : (s.buses.set b y)[b] = y := Vector.getElem_set_self ..
  have twice : (s.buses.set b y).set b { y with head := none } = s.buses.set b { y with head := none } := Vector.set_set ..
  simp only [rested, pushNotice_eq, sends, withBus, withHead, withHeadCounts, own, twice]

/-- A bus on which a head measures for a descriptor just disarmed is released: the measurement ends ABORTED_RELEASE. -/
theorem releaseBus_measuring {h : HeadNo} {c : Context} {line : Nat} (hold : s.buses[b].holder = some (.sweep d))
    (hline : s.buses[b].line = some line) (flight : s.sweeps[d].inFlight = none) (hctx : s.heads[h].ctx = some c)
    (hhead : s.buses[b].head = some h) (mine : c.holder = .sweep d) (nowait : ∀ e ∈ s.headQueue, e.bus ≠ b)
    (ungranted : freeBus s = none ∨ s.queue = []) :
    releaseBus b .requested s =
      rested h b (pushNotice 6 (.measurementResult (c.measurement.record b .abortedRelease))
        (sends b {} (withBus b (breaking line .requested s.buses[b]) s))) := by
  have own : (sends b {} (withBus b (breaking line .requested s.buses[b]) s)).buses[b] =
      breaking line .requested s.buses[b] := withBus_self ..
  have left : leaveQueue b (sends b {} (withBus b (breaking line .requested s.buses[b]) s)) =
      sends b {} (withBus b (breaking line .requested s.buses[b]) s) := leaveQueue_of_notWaiting nowait
  have reported := reportMeasurement_disarmed (b := b) (m := c.measurement) (outcome := .abortedRelease)
    (s := sends b {} (withBus b (breaking line .requested s.buses[b]) s)) mine flight (evaluated_of_ne (by decide))
    (ungranted_released ungranted) s.buses[b].accepted
  have ended : endMeasurement b c.measurement .abortedRelease s.buses[b].accepted
      (sends b {} (withBus b (breaking line .requested s.buses[b]) s)) =
      rested h b (pushNotice 6 (.measurementResult (c.measurement.record b .abortedRelease))
        (sends b {} (withBus b (breaking line .requested s.buses[b]) s))) := by
    simp only [endMeasurement, left, reported]
    exact returnHead_of_some (by rw [pushNotice_buses, own]; exact hhead)
  simp only [releaseBus, measurementOn_head hhead hctx, breakBus_sweep hold hline]
  refine (congrArg (passAfter _) ended).trans (passAfter_idle _ ?_)
  rw [rested_released, pushNotice_eq]
  exact ungranted.imp_left fun free => freeBus_withBus free (x := { breaking line .requested s.buses[b] with head := none }) nofun

end

/-- Settles O55. -/
theorem sweepCommandsMoveDescriptor : Obligations.SweepCommandsMoveDescriptor := by
  refine ⟨fun hd o d c s from_ ho load config many may free => exec_answers rfl from_ ((onDescriptor_found ho).trans ?_),
    fun hd o d s from_ ho => ⟨fun load none => exec_answers rfl from_ ((onDescriptor_found ho).trans ?_),
      fun busy => exec_answers rfl from_ ((onDescriptor_found ho).trans ?_),
      fun armed => exec_answers rfl from_ ((onDescriptor_found ho).trans ?_),
      fun active => exec_answers rfl from_ ((onDescriptor_found ho).trans ?_),
      fun notArmed notActive => exec_answers rfl from_ ((onDescriptor_found ho).trans ?_),
      fun active pending => exec_answers rfl from_ ((onDescriptor_found ho).trans ?_),
      fun notSuspended notPending => exec_answers rfl from_ ((onDescriptor_found ho).trans ?_),
      fun idle => exec_answers rfl from_ ((onDescriptor_found ho).trans ?_)⟩,
    fun hd o d c s from_ ho suspended config main left => ⟨fun pace may free =>
        exec_answers rfl from_ ((onDescriptor_found ho).trans ?_),
      fun n limit runs short ungranted => exec_answers rfl from_ ((onDescriptor_found ho).trans ?_)⟩,
    fun hd o d s from_ ho busy nobus => exec_answers rfl from_ ((onDescriptor_found ho).trans ?_),
    fun hd o d b line s from_ ho busy queue ungranted others hold hline => ⟨fun st unmeasured =>
        exec_answers rfl from_ ((onDescriptor_found ho).trans ?_),
      fun h c st hbus hctx hhead mine nowait => exec_answers rfl from_ ((onDescriptor_found ho).trans ?_)⟩,
    fun hd o s from_ large => ?_⟩
  · exact armOn_requests (s := counted1 s) load config many may free
  · rw [armOn]
    exact (if_pos load).trans (by rw [show (counted1 s).sweeps[d].config = .none from none]; rfl)
  · exact if_neg busy
  · rw [suspendOn, show (counted1 s).sweeps[d].state = .armed from armed]
    rfl
  · exact suspendOn_active (s := counted1 s) active
  · exact suspendOn_refuses (s := counted1 s) notArmed notActive
  · exact resumeOn_pending (s := counted1 s) active pending
  · exact resumeOn_refuses (s := counted1 s) notSuspended notPending
  · exact if_pos idle
  · exact (resumeOn_suspended (s := counted1 s) suspended).trans
      (congrArg okay (rearm_requests config main left (paceAllows_of pace) may free))
  · exact (resumeOn_suspended (s := counted1 s) suspended).trans
      (congrArg okay (rearm_waits config main left (paceAllows_not runs short) ungranted))
  · exact (disarmOn_ends (s := counted1 s) busy).trans
      (congrArg okay (endLine_waiting (s := withSweep d _ (counted1 s)) nobus))
  · have held := endLine_held (s := withSweep d s.sweeps[d].disarmed (counted1 s)) queue hold
      (isHeld_of (st.imp_right .inl)) others
    exact (disarmOn_ends (s := counted1 s) busy).trans (congrArg okay (held.trans
      (releaseBus_sweep (s := withSweep d s.sweeps[d].disarmed (counted1 s)) hold hline unmeasured ungranted .requested)))
  · have held := endLine_held (s := withSweep d s.sweeps[d].disarmed (counted1 s)) queue hold
      (isHeld_of (.inr (.inr st))) others
    have flight : (withSweep d s.sweeps[d].disarmed (counted1 s)).sweeps[d].inFlight = none := by rw [withSweep_self]; rfl
    have released := releaseBus_measuring (s := withSweep d s.sweeps[d].disarmed (counted1 s)) hold hline flight hctx hhead
      mine nowait ungranted
    have record : c.measurement.record b .abortedRelease =
        { line := c.line, bus := b, program := c.program, holder := .sweep d
          outcome := .abortedRelease, results := c.results } := by rw [← mine]; rfl
    rw [rested_released, record] at released
    refine (disarmOn_ends (s := counted1 s) busy).trans ((congrArg okay (held.trans released)).trans ?_)
    refine Eq.trans ?_ (congrArg okay (pushNotice_counted1 ..))
    rfl
  · have none (rule : SweepNo → State → State × Answer) : onDescriptor o rule 6 (counted1 s) = refuse .badField (counted1 s) := by
      rw [onDescriptor, processorOnly_processor, unitOf_none large]
    exact ⟨exec_answers rfl from_ (none _), exec_answers rfl from_ (none _), exec_answers rfl from_ (none _),
      exec_answers rfl from_ (none _)⟩

end Sys2Proof.Proofs
end

section
/-! RESET (R177) on the record of a bus, of a head and of a path entry; then O59. -/

namespace Sys2Proof.Proofs

open Sys2Proof.Machine Sys2Proof.Stated

section
variable {x : Bus} {s : State}

theorem busReset_clears (x : Bus) :
    x.afterReset.makeTimeouts = 0 ∧ x.afterReset.lateWatch = false ∧ x.afterReset.mode = none := by
  unfold Bus.afterReset
  cases x.state <;> exact ⟨rfl, rfl, rfl⟩

theorem busReset_free (h : x.state = .free) : x.afterReset.state = .free := by
  unfold Bus.afterReset
  simp only [h, Bus.noMode]

theorem busReset_outOfService (h : x.state = .outOfService) :
    x.afterReset.state = .outOfService ∧ x.afterReset.line = x.line ∧ x.afterReset.stuck = x.stuck := by
  unfold Bus.afterReset
  simp only [h, Bus.noMode, and_self]

/-- A bus in SEIZING, GUARD or HELD is released with cause RESET (R41). -/
theorem busReset_releases {line : Nat} (hline : x.line = some line)
    (h : x.state = .seizing ∨ x.state = .guard ∨ x.state = .held) :
    x.afterReset.state = .releasing ∧ x.afterReset.order = .brk line ∧ x.afterReset.line = some line ∧
      x.afterReset.timer = some 0 ∧ x.afterReset.cause = some .reset ∧ x.afterReset.holder = none := by
  unfold Bus.afterReset
  rcases h with h | h | h <;> simp only [h, hline, Bus.releasing, Bus.noMode, Option.getD_some, and_self]

/-- A bus in RELEASING is given a new release timer (R41). -/
theorem busReset_releasing (h : x.state = .releasing) :
    x.afterReset.state = .releasing ∧ x.afterReset.order = x.order ∧ x.afterReset.line = x.line ∧
      x.afterReset.timer = some 0 ∧ x.afterReset.cause = some .reset ∧ x.afterReset.holder = none := by
  unfold Bus.afterReset
  simp only [h, Bus.noMode, and_self]

theorem headReset_echoed (x : HeadRec) : x.afterReset.echoed = x.echoed := by
  unfold HeadRec.afterReset
  cases x.state <;> rfl

/-- An active head is commanded the rest word and enters RETURNING (R90). -/
theorem headReset_active {x : HeadRec} (h : x.state = .awaitEcho ∨ x.state = .settling ∨ x.state = .integrating) :
    x.afterReset = { x with state := .returning, word := HeadWord.rest, bus := none, timer := some 0, ctx := none } := by
  unfold HeadRec.afterReset
  rcases h with h | h | h <;> simp only [h] <;> rfl

theorem headReset_rests {x : HeadRec} (h : x.state = .idle ∨ x.state = .returning ∨ x.state = .outOfService) :
    x.afterReset = x := by
  unfold HeadRec.afterReset
  rcases h with h | h | h <;> simp only [h]

/-- RESET is done where no reply waits. -/
theorem resetRule_done (h : s.replies = []) : resetRule 6 s = okay (resetState s) :=
  (processorOnly_processor ..).trans (if_pos h)

theorem resetRule_busy (h : s.replies ≠ []) : resetRule 6 s = refuse .busy s :=
  (processorOnly_processor ..).trans (if_neg h)

end

theorem resetState_counted1 (s : State) : resetState (counted1 s) = counted1 (resetState s) := rfl

theorem reset_answers {hd : Header} {s : State} (from_ : From 6 6 hd s) (none : s.replies = []) :
    exec (.reset hd) s = .next (answered 26 hd .ok .empty (resetState s)) :=
  exec_answers rfl from_ ((resetRule_done (s := counted1 s) none).trans (congrArg okay (resetState_counted1 s)))

/-- Settles O59. -/
theorem resetClearsDynamicState : Obligations.ResetClearsDynamicState := by
  refine ⟨fun hd s from_ none => ⟨_, reset_answers from_ none, ?_⟩, fun hd s from_ waiting => exec_answers rfl from_ (resetRule_busy (s := counted1 s) waiting)⟩
  unfold answered resetState
  refine ⟨by rw [none, List.nil_append], rfl, rfl, rfl, rfl, rfl, rfl, rfl, rfl, rfl, rfl, rfl, rfl, rfl,
    fun d => Vector.getElem_replicate .., fun d => Vector.getElem_ofFn .., fun i => Vector.getElem_ofFn ..,
    fun k => Vector.getElem_ofFn .., fun b => ?_, fun h => ?_,
    rfl, rfl, rfl, rfl, rfl, rfl, rfl, rfl, rfl, rfl, rfl, rfl, rfl, rfl, rfl, rfl, rfl⟩
  · rw [show (Vector.ofFn fun b : BusNo => s.buses[b].afterReset)[b] = s.buses[b].afterReset from Vector.getElem_ofFn ..]
    obtain ⟨timeouts, late, mode⟩ := busReset_clears s.buses[b]
    exact ⟨timeouts, late, mode, busReset_free, busReset_outOfService, fun _ => busReset_releases, busReset_releasing⟩
  · rw [show (Vector.ofFn fun h : HeadNo => s.heads[h].afterReset)[h] = s.heads[h].afterReset from Vector.getElem_ofFn ..]
    exact ⟨headReset_echoed _, headReset_active, headReset_rests⟩

end Sys2Proof.Proofs
end

section
/-! Reading the tables and the counters (R175, R184): the runs of entries that READ TABLE returns and the counts of a group;
then O57. -/

namespace Sys2Proof.Proofs

open Sys2Proof.Machine Sys2Proof.Stated

section
variable {s : State}

/-! ### READ TABLE (R184) -/

/-- A run of a list with its indices. -/
theorem run_eq {α : Type} (l : List α) (x : α) {first count : Nat} (fits : first + count ≤ l.length) :
    ((l.drop first).take count).zipIdx first = (List.range count).map fun i => (l.getD (first + i) x, first + i) := by
  refine List.ext_getElem (by simp; omega) fun i h _ => ?_
  have inside : first + i < l.length := by simp at h; omega
  simp [inside]

/-- The octets of a run of entries, entry by entry. -/
theorem run_octets {α : Type} (l : List α) (x : α) (enc : Nat → α → List Octet) {first count : Nat}
    (fits : first + count ≤ l.length) :
    (((l.drop first).take count).zipIdx first).flatMap (fun p => enc p.2 p.1) =
      (List.range count).flatMap fun i => enc (first + i) (l.getD (first + i) x) := by
  rw [run_eq l x fits, List.flatMap_map]

/-- A run within its table of named entries is returned. -/
theorem readTableRule_named {table : Octet} {first count : Word} {size most : Nat} (o : Origin)
    (named : tableSize table.toNat = some (size, most)) (many : 1 ≤ count.toNat) (few : count.toNat ≤ most)
    (fits : first.toNat + count.toNat ≤ size) :
    readTableRule table first count o s =
      okayWith (.table table first.toNat count.toNat
        ((List.range count.toNat).flatMap fun i => entryAt table.toNat s (first.toNat + i))) s := by
  have notSite : table ≠ 0 := by rintro rfl; cases named
  have notClasses : table ≠ 1 := by rintro rfl; cases named
  have ok : readRunOk table first count = true := by
    simp only [readRunOk, if_neg notSite, if_neg notClasses, named]
    exact decide_eq_true ⟨many, few, fits⟩
  simp only [readTableRule, ok, if_true, tableOctets, if_neg notSite, if_neg notClasses]

theorem readTableRule_site (o : Origin) : readTableRule 0 0 1 o s = okayWith (.table 0 0 1 (encSite s.site)) s := rfl

theorem classRunOk_iff {first count : Word} :
    classRunOk first count = true ↔
      first.toNat ≤ 16383 ∧ 1 ≤ count.toNat ∧ count.toNat ≤ 464 ∧ first.toNat + count.toNat - 1 ≤ 16383 := decide_eq_true_iff

theorem readTableRule_classes {first count : Word} (o : Origin) (many : 1 ≤ count.toNat) (few : count.toNat ≤ 464)
    (fits : first.toNat + count.toNat ≤ 16384) :
    readTableRule 1 first count o s =
      okayWith (.table 1 first.toNat count.toNat (classOctets first.toNat count.toNat s)) s := by
  have ok : readRunOk 1 first count = true := classRunOk_iff.2 ⟨by omega, many, few, by omega⟩
  rw [readTableRule, if_pos ok]
  rfl

theorem tableSize_none : ∀ {n : Nat}, 6 < n → tableSize n = none
  | _ + 7, _ => rfl

/-- A run that is not one of its table is refused. -/
theorem readTableRule_refuses {table : Octet} {first count : Word} (o : Origin)
    (h : 6 < table.toNat ∨ count = 0 ∨ table = 4 ∧ 33 < count.toNat ∨ table = 2 ∧ 160 < first.toNat + count.toNat) :
    readTableRule table first count o s = refuse .badField s := by
  refine if_neg fun ok => ?_
  unfold readRunOk at ok
  rcases h with high | rfl | ⟨rfl, many⟩ | ⟨rfl, beyond⟩
  · rw [if_neg (by rintro rfl; cases high), if_neg (by rintro rfl; exact absurd high (by decide)), tableSize_none high] at ok
    cases ok
  · split at ok
    · exact absurd (of_decide_eq_true ok).2 (by decide)
    · split at ok
      · exact absurd (classRunOk_iff.1 ok).2.1 (by decide)
      · split at ok
        · cases ok
        · exact absurd (of_decide_eq_true ok).1 (by decide)
  · exact absurd (of_decide_eq_true ok).2.1 (Nat.not_le.2 many)
  · exact absurd (of_decide_eq_true ok).2.2 (Nat.not_le.2 beyond)

/-! ### READ COUNTERS (R175) -/

theorem flatMap_units {α : Type} {n : Nat} (f : α → List Nat) (v : Vector α n) :
    ((List.finRange n).flatMap fun i => f v[i]) = v.toList.flatMap f := by
  have units : v.toList = (List.finRange n).map fun i => v[i] := List.ext_getElem (by simp) fun i _ _ => by simp
  rw [units, List.flatMap_map]

theorem groupCounts_access (s : State) : groupCounts .access (counted1 s) = accessGroup s :=
  congrArg (· ++ [s.queuePeak, s.preemptions]) (flatMap_units busCounts s.busCounters)

theorem groupCounts_heads (s : State) : groupCounts .heads (counted1 s) = headsGroup s := flatMap_units headCounts s.headCounters

/-- A group is read. -/
theorem readCountersRule_reads {group : Octet} {g : Group} (o : Origin) (h : groupOf group = some g) :
    readCountersRule group 0 o s = okayWith (.counters group (groupCounts g s)) s := by
  simp only [readCountersRule, h]
  rfl

/-- A group is read and cleared for the exchange processor. -/
theorem readCountersRule_clears {group : Octet} {g : Group} (h : groupOf group = some g) :
    readCountersRule group 1 6 s = okayWith (.counters group (groupCounts g s)) (clearGroup g s) := by
  simp only [readCountersRule, h]
  rfl

theorem groupOf_none {group : Octet} (h : 3 < group.toNat) : groupOf group = none := by
  obtain ⟨k, hk⟩ : ∃ k, group.toNat = k + 4 := ⟨group.toNat - 4, by omega⟩
  simp only [groupOf, hk]

theorem groupOf_some {group : Octet} (h : group.toNat ≤ 3) : ∃ g, groupOf group = some g := by
  have number : group.toNat = 0 ∨ group.toNat = 1 ∨ group.toNat = 2 ∨ group.toNat = 3 := by omega
  rcases number with n | n | n | n <;> simp [groupOf, n]

theorem readCountersRule_refuses {group clear : Octet} (o : Origin) (h : 3 < group.toNat ∨ 1 < clear.toNat) :
    readCountersRule group clear o s = refuse .badField s := by
  unfold readCountersRule
  rcases h with h | h
  · rw [groupOf_none h]
  · rw [flagOf_of_large h]
    cases groupOf group <;> rfl

theorem readCountersRule_desk {group : Octet} (d : DeskNo) (h : group.toNat ≤ 3) :
    readCountersRule group 1 d.castSucc s = refuse .notPermitted s := by
  obtain ⟨g, h⟩ := groupOf_some h
  have flag : flagOf 1 = some true := rfl
  simp only [readCountersRule, h, flag, isDesk_castSucc, Bool.and_true, if_true]

end

/-- Settles O57. -/
theorem readsAnswer : Obligations.ReadsAnswer := by
  refine ⟨fun p hd o d s from_ ho => ?_, fun p hd o s from_ large => ?_, fun p hd first count s from_ many => ?_,
    fun p hd table first count s from_ bad => exec_answers rfl from_ (readTableRule_refuses p bad), fun p hd s from_ => ?_,
    fun hd s from_ => ?_, fun p hd group clear s from_ bad => exec_answers rfl from_ (readCountersRule_refuses p bad),
    fun d hd group s from_ known => exec_answers rfl from_ (readCountersRule_desk d known)⟩
  · exact exec_answers rfl from_ (by rw [readSweepRule, unitOf_of_toNat ho]; rfl)
  · exact exec_answers rfl from_ (by rw [readSweepRule, unitOf_none large]; rfl)
  · refine ⟨?_, fun few fits => ?_, fun few fits => ?_, fun few fits => ?_, fun few fits => ?_, fun few fits => ?_,
      fun few fits => ?_⟩
    · rintro rfl rfl
      exact exec_answers rfl from_ (readTableRule_site p)
    · exact exec_answers rfl from_ (readTableRule_classes p many few fits)
    · exact exec_answers rfl from_ (by
        rw [readTableRule_named p rfl many few fits, run_octets s.limits.toList {} encLimit (by simpa using fits)]; rfl)
    · exact exec_answers rfl from_ (by
        rw [readTableRule_named p rfl many few fits, run_octets s.programs.toList [] encProgram (by simpa using fits)]; rfl)
    · exact exec_answers rfl from_ (by
        rw [readTableRule_named p rfl many few fits, run_octets s.cables.toList none encCable (by simpa using fits)]; rfl)
    · exact exec_answers rfl from_ (by
        rw [readTableRule_named p rfl many few fits, run_octets s.tones.toList {} encTone (by simpa using fits)]; rfl)
    · exact exec_answers rfl from_ (by
        rw [readTableRule_named p rfl many few fits,
          run_octets s.sweeps.toList {} (fun i x => enc1 i ++ encConfig x.config) (by simpa using fits)]; rfl)
  · exact ⟨exec_answers rfl from_ (readCountersRule_reads (g := .highway) p rfl),
      exec_answers rfl from_ ((readCountersRule_reads (g := .access) p rfl).trans (by rw [groupCounts_access]; rfl)),
      exec_answers rfl from_ ((readCountersRule_reads (g := .heads) p rfl).trans (by rw [groupCounts_heads]; rfl)),
      exec_answers rfl from_ (readCountersRule_reads (g := .tickets) p rfl)⟩
  · obtain ⟨length, origin, room⟩ := from_
    refine ⟨congrArg Host.Outcome.next ((takeFixed_own length origin room (readCountersRule_clears (g := .highway) rfl)).trans rfl),
      exec_answers rfl ⟨length, origin, room⟩ ((readCountersRule_clears (g := .access) rfl).trans (by rw [groupCounts_access]; rfl)),
      exec_answers rfl ⟨length, origin, room⟩ ((readCountersRule_clears (g := .heads) rfl).trans (by rw [groupCounts_heads]; rfl)),
      exec_answers rfl ⟨length, origin, room⟩ (readCountersRule_clears (g := .tickets) rfl)⟩

end Sys2Proof.Proofs
end

section
/-! The two commands that come as messages alone: RELEASE (R35a, R53) and READ TICKET (R135a); then O60. -/

namespace Sys2Proof.Proofs

open Sys2Proof.Machine Sys2Proof.Stated

section
variable {o : Origin} {line : Word} {b : BusNo} {s : State}

/-! ### RELEASE (R35a, R53) -/

theorem exec_release (hd : Header) (line : Word) (s : State) :
    exec (.unknownKindCommand hd 2 (octets2 line)) s = .next (takeFixed 2 hd 8 (releaseRule line) s) :=
  congrArg (fun l => Host.Outcome.next (releaseCommand hd l s)) (word2_octets2 [] line)

theorem releaseRule_badField (h : 16383 < line.toNat) : releaseRule line o s = refuse .badField s := by
  rw [releaseRule, lineOk_not h]
  rfl

theorem waitsFor_iff {n : Nat} : waitsFor o n s = true ↔ ∃ e ∈ s.queue, e.requester = .origin o ∧ e.line = n := by
  simp [waitsFor, List.any_eq_true]

theorem waitsFor_not {n : Nat} (h : NotWaiting o n s) : waitsFor o n s = false :=
  Bool.eq_false_iff.2 fun waits => by
    obtain ⟨e, he, mine⟩ := waitsFor_iff.1 waits
    exact h e he mine

/-- The waiting request of an origin for the line leaves the queue. -/
theorem releaseRule_unqueues (range : line.toNat ≤ 16383)
    (h : ∃ e ∈ s.queue, e.requester = .origin o ∧ e.line = line.toNat) :
    releaseRule line o s =
      okay { s with queue := s.queue.filter fun e => ¬(e.requester = .origin o ∧ e.line = line.toNat) } := by
  have same : (fun e : WaitEntry => !(e.requester == .origin o && e.line == line.toNat)) =
      fun e => decide ¬(e.requester = .origin o ∧ e.line = line.toNat) := by
    funext e
    exact Bool.eq_iff_iff.2 (by simp)
  simp only [releaseRule, lineOk_of range, waitsFor_iff.2 h, Bool.not_true, Bool.false_eq_true, if_false, if_true,
    removeRequests, same]
  rfl

theorem releaseRule_unclaimed (range : line.toNat ≤ 16383) (alone : NotWaiting o line.toNat s)
    (claim : claimOf line.toNat s = none) : releaseRule line o s = refuse .notFound s := by
  simp only [releaseRule, lineOk_of range, waitsFor_not alone, claim, Bool.not_true, Bool.false_eq_true, if_false]

theorem releaseRule_claimed (range : line.toNat ≤ 16383) (alone : NotWaiting o line.toNat s)
    (claim : claimOf line.toNat s = some b) :
    releaseRule line o s =
      if s.buses[b].holder = some (.origin o) then
        if s.buses[b].isHeld then okay (releaseBus b .requested s)
        else if s.buses[b].state = .releasing then refuse .wrongState s
        else refuse .notPermitted s
      else refuse .notPermitted s := by
  simp only [releaseRule, lineOk_of range, waitsFor_not alone, claim, Bool.not_true, Bool.false_eq_true, if_false]

/-- The bus of an origin on which nothing is measured is released, and its desk no longer hears it. -/
theorem releaseBus_origin {n : Nat} (hold : s.buses[b].holder = some (.origin o)) (hline : s.buses[b].line = some n)
    (unmeasured : Unmeasured b s) (cause : Reason) :
    releaseBus b cause s = unhears o b (sends b {} (withBus b (breaking n cause s.buses[b]) s)) := by
  simp only [releaseBus, measurementOn_unmeasured unmeasured, breakBus_eq hline]
  rw [passAfter_of_notSweep (isSweepHeld_of_origin hold), hold, settleDesk_origin]

/-! ### READ TICKET (R135a) -/

theorem exec_readTicket (hd : Header) (n : Word) (selector first : Octet) (s : State) :
    exec (.unknownKindCommand hd 13 (octets2 n ++ [selector, first])) s =
      .next (takeFixed 13 hd 10 (readTicketRule n selector first) s) :=
  congrArg (fun m => Host.Outcome.next (readTicketCommand hd m selector first s)) (word2_octets2 [] n)

theorem readTicketRule_badField {n : Word} {selector first : Octet} (h : 1 < selector.toNat ∨ 63 < first.toNat) :
    readTicketRule n selector first o s = refuse .badField s := by
  rw [readTicketRule]
  cases flag : flagOf selector with
  | none => rfl
  | some next =>
    rcases h with large | beyond
    · rw [flagOf_of_large large] at flag
      cases flag
    · exact if_pos beyond

theorem readTicketRule_this {n : Word} {first : Octet} (range : first.toNat ≤ 63) :
    readTicketRule n 0 first o s = readTicketOn n.toNat false first.toNat s := if_neg (Nat.not_lt.2 range)

theorem readTicketRule_next {n : Word} {first : Octet} (range : first.toNat ≤ 63) :
    readTicketRule n 1 first o s = readTicketOn n.toNat true first.toNat s := if_neg (Nat.not_lt.2 range)

theorem lowestNumber_eq_none {l : List Ticket} : lowestNumber l = none → l = [] := by
  cases l with
  | nil => exact fun _ => rfl
  | cons t rest =>
    rw [lowestNumber]
    cases lowestNumber rest with
    | none => exact nofun
    | some u => dsimp only; split <;> exact nofun

theorem lowestNumber_isLeast : ∀ {l : List Ticket} {u : Ticket}, lowestNumber l = some u →
    u ∈ l ∧ ∀ v ∈ l, u.number ≤ v.number
  | [], _, h => nomatch h
  | t :: rest, u, h => by
    rw [lowestNumber] at h
    cases later : lowestNumber rest with
    | none =>
      rw [later] at h
      obtain rfl := Option.some.inj h
      simp [lowestNumber_eq_none later]
    | some w =>
      rw [later] at h
      obtain ⟨inside, least⟩ := lowestNumber_isLeast later
      dsimp only at h
      split at h
      · obtain rfl := Option.some.inj h
        exact ⟨.tail _ inside, List.forall_mem_cons.2 ⟨by omega, least⟩⟩
      · obtain rfl := Option.some.inj h
        exact ⟨.head _, List.forall_mem_cons.2 ⟨Nat.le_refl _, fun v hv => Nat.le_trans (by omega) (least v hv)⟩⟩

/-- The ticket below all others of a list is the one of its lowest number. -/
theorem lowestNumber_of_least {l : List Ticket} {t : Ticket} (ht : t ∈ l) (least : ∀ u ∈ l, u ≠ t → t.number < u.number) :
    lowestNumber l = some t := by
  cases found : lowestNumber l with
  | none =>
    rw [lowestNumber_eq_none found] at ht
    cases ht
  | some u =>
    obtain ⟨inside, below⟩ := lowestNumber_isLeast found
    refine congrArg some (Decidable.byContradiction fun ne => ?_)
    exact absurd (least u inside ne) (Nat.not_lt.2 (below t ht))

theorem readTicketOn_noneAbove {n first : Nat} (h : ∀ t ∈ s.tickets, t.number ≤ n) :
    readTicketOn n true first s = refuse .none s := by
  have empty : (s.tickets.filter fun t => decide (n < t.number)) = [] :=
    List.filter_eq_nil_iff.2 fun t ht => by simpa using h t ht
  simp only [readTicketOn, empty, if_true]
  rfl

theorem readTicketOn_above {n first : Nat} {t : Ticket} (ht : t ∈ s.tickets) (above : n < t.number)
    (least : ∀ u ∈ s.tickets, n < u.number → u ≠ t → t.number < u.number) :
    readTicketOn n true first s = okayWith (.fullTicket t first) s := by
  have lowest : lowestNumber (s.tickets.filter fun t => decide (n < t.number)) = some t := by
    refine lowestNumber_of_least (List.mem_filter.2 ⟨ht, decide_eq_true above⟩) fun u hu ne => ?_
    obtain ⟨inside, higher⟩ := List.mem_filter.1 hu
    exact least u inside (of_decide_eq_true higher) ne
  simp only [readTicketOn, lowest, if_true]

theorem readTicketOn_found {n first : Nat} {t : Ticket} (nonzero : n ≠ 0) (found : ticketByNumber n s = some t) :
    readTicketOn n false first s = okayWith (.fullTicket t first) s := by
  simp only [readTicketOn, found, nonzero, Bool.false_eq_true, if_false]

theorem readTicketOn_absent {n first : Nat} (nonzero : n ≠ 0) (absent : ticketByNumber n s = none) :
    readTicketOn n false first s = refuse .notFound s := by
  simp only [readTicketOn, absent, nonzero, Bool.false_eq_true, if_false]

end

/-- Settles O60. -/
theorem releaseAndReadTicketAnswer : Obligations.ReleaseAndReadTicketAnswer := by
  refine ⟨fun o hd line s from_ range => ⟨fun waits => ?_, fun alone claim => ?_, fun b alone claim =>
      ⟨fun other => ?_, fun hold st => ?_, fun hold st hline nohead nowait => ?_⟩⟩,
    fun o hd line s from_ large => exec_answers (exec_release ..) from_ (releaseRule_badField large),
    fun o hd n first s from_ range => ⟨?_, fun nonzero absent => ?_, fun t nonzero found => ?_, fun below => ?_,
      fun t ht above least => ?_⟩,
    fun o hd n selector first s from_ bad => exec_answers (exec_readTicket ..) from_ (readTicketRule_badField bad)⟩
  · exact exec_answers (exec_release ..) from_ (releaseRule_unqueues (s := counted1 s) range waits)
  · exact exec_answers (exec_release ..) from_ (releaseRule_unclaimed (s := counted1 s) range alone claim)
  · exact exec_answers (exec_release ..) from_
      ((releaseRule_claimed (s := counted1 s) range alone claim).trans (if_neg other))
  · exact exec_answers (exec_release ..) from_ ((releaseRule_claimed (s := counted1 s) range alone claim).trans
      ((if_pos hold).trans ((if_neg (ne_true_of_eq_false (isHeld_not (.inl st)))).trans (if_pos st))))
  · have released := releaseBus_origin (s := counted1 s) hold hline ⟨nohead, nowait⟩ .requested
    rw [unhears_eq] at released ⊢
    exact exec_answers (exec_release ..) from_ ((releaseRule_claimed (s := counted1 s) range alone claim).trans
      ((if_pos hold).trans ((if_pos (isHeld_of st)).trans (congrArg okay released))))
  · rintro rfl
    exact exec_answers (exec_readTicket ..) from_ (readTicketRule_this range)
  · exact exec_answers (exec_readTicket ..) from_ ((readTicketRule_this range).trans
      (readTicketOn_absent (s := counted1 s) (fun h => nonzero (BitVec.eq_of_toNat_eq h)) absent))
  · exact exec_answers (exec_readTicket ..) from_ ((readTicketRule_this range).trans
      (readTicketOn_found (s := counted1 s) (fun h => nonzero (BitVec.eq_of_toNat_eq h)) found))
  · exact exec_answers (exec_readTicket ..) from_ ((readTicketRule_next range).trans
      (readTicketOn_noneAbove (s := counted1 s) below))
  · exact exec_answers (exec_readTicket ..) from_ ((readTicketRule_next range).trans
      (readTicketOn_above (s := counted1 s) ht above least))

end Sys2Proof.Proofs
end

section
/-! The octets of table entries and their reading (R181, R182): what a load reads back from the octets that READ TABLE returns
for an entry, and that octets with a field out of range are read as no entry. -/

namespace Sys2Proof.Proofs

open Sys2Proof.Machine Sys2Proof.Stated

/-! ### A load's entries (R181) -/

theorem mapM_some {α β : Type} {f : α → Option β} {g : α → β} {l : List α} (h : ∀ x ∈ l, f x = some (g x)) :
    l.mapM f = some (l.map g) := by
  induction l with
  | nil => rfl
  | cons x l ih =>
    obtain ⟨hx, hl⟩ := List.forall_mem_cons.1 h
    simp [List.mapM_cons, hx, ih hl]

theorem mapM_none {α β : Type} {f : α → Option β} {l : List α} {x : α} (hx : x ∈ l) (h : f x = none) : l.mapM f = none := by
  induction l with
  | nil => cases hx
  | cons y l ih =>
    rw [List.mapM_cons]
    rcases List.mem_cons.1 hx with rfl | hx
    · rw [h]; rfl
    · rw [ih hx]; cases f y <;> rfl

section
variable {α β : Type} {parse : List Octet → Option β} {size : Nat}

theorem readEntries_cons {first rest : List Octet} {n : Nat} {x : β} (length : first.length = size)
    (read : parse first = some x) :
    readEntries parse size (first ++ rest) (n + 1) = (readEntries parse size rest n).map (x :: ·) := by
  have head : entryOctets size (first ++ rest) 0 = first := by simp [entryOctets, length]
  have tail (i : Nat) : entryOctets size (first ++ rest) (i + 1) = entryOctets size rest i := by
    have place : (i + 1) * size = first.length + i * size := by rw [length, Nat.succ_mul, Nat.add_comm]
    rw [entryOctets, place, List.drop_length_add_append, entryOctets]
  have tails : (fun i => parse (entryOctets size (first ++ rest) (i + 1))) = fun i => parse (entryOctets size rest i) := by
    funext i
    rw [tail]
  rw [readEntries, List.range_succ_eq_map, List.mapM_cons, head, read, List.mapM_map, readEntries]
  simp only [Function.comp_def, Nat.succ_eq_add_one, tails]
  cases (List.range n).mapM fun i => parse (entryOctets size rest i) <;> rfl

/-- A load reads the entries whose octets it holds. -/
theorem readEntries_encoded {enc : α → List Octet} {g : α → β} {es : List α} (rest : List Octet)
    (length : ∀ e ∈ es, (enc e).length = size) (read : ∀ e ∈ es, parse (enc e) = some (g e)) :
    readEntries parse size (es.flatMap enc ++ rest) es.length = some (es.map g) := by
  induction es with
  | nil => rfl
  | cons e es ih =>
    obtain ⟨lengthE, lengthEs⟩ := List.forall_mem_cons.1 length
    obtain ⟨readE, readEs⟩ := List.forall_mem_cons.1 read
    rw [List.flatMap_cons, List.append_assoc, List.length_cons, readEntries_cons lengthE readE, ih lengthEs readEs]
    rfl

theorem readEntries_none {entries : List Octet} {n i : Nat} (hi : i < n) (h : parse (entryOctets size entries i) = none) :
    readEntries parse size entries n = none := mapM_none (List.mem_range.2 hi) h

end

/-! ### Octets (R180) -/

theorem num1_of (l : List Octet) (i n : Nat) (h : octetAt l i = BitVec.ofNat 8 n) (low : n ≤ 255) : num1 l i = n := by
  rw [num1, h, BitVec.toNat_ofNat]
  omega

theorem num2_of (l : List Octet) (i n : Nat) (high : octetAt l i = BitVec.ofNat 8 (n / 256))
    (low : octetAt l (i + 1) = BitVec.ofNat 8 n) (small : n ≤ 65535) : num2 l i = n := by
  rw [num2, num1, num1, high, low, BitVec.toNat_ofNat, BitVec.toNat_ofNat]
  omega

theorem num4_of (l : List Octet) (i n : Nat) (h0 : octetAt l i = BitVec.ofNat 8 (n / 65536 / 256))
    (h1 : octetAt l (i + 1) = BitVec.ofNat 8 (n / 65536)) (h2 : octetAt l (i + 2) = BitVec.ofNat 8 (n / 256))
    (h3 : octetAt l (i + 3) = BitVec.ofNat 8 n) (small : n < 4294967296) : num4 l i = n := by
  rw [num4, num2, num2, num1, num1, num1, num1, h0, h1, h2, h3]
  simp only [BitVec.toNat_ofNat]
  omega

theorem flagOf_encFlag (x : Bool) : flagOf (BitVec.ofNat 8 (if x then 1 else 0)) = some x := by cases x <;> rfl

theorem within_of {lo hi n : Nat} (low : lo ≤ n) (high : n ≤ hi) : within lo hi n = some n := if_pos ⟨low, high⟩

theorem within_some {lo hi n m : Nat} (h : within lo hi n = some m) : lo ≤ n ∧ n ≤ hi := by
  unfold within at h
  split at h
  case isTrue inside => exact inside
  case isFalse => cases h

/-- An octet of an entry of a load, in its own place. -/
theorem octetAt_entry {size i j : Nat} (e : List Octet) (h : j < size) :
    octetAt (entryOctets size e i) j = octetAt e (i * size + j) := by
  simp [octetAt, entryOctets, h]

/-! ### Limit table entries (R109, R182) -/

/-- The greatest threshold of the code of a number. -/
theorem thresholdMax_eq (x : FaultCode) :
    thresholdMax x = if (codeIndex x).val < 4 then 1000000000 else if (codeIndex x).val < 8 then 32767 else 9999999 := by
  cases x <;> rfl

theorem thresholdMax_le (x : FaultCode) : thresholdMax x ≤ 1000000000 := by cases x <;> decide

theorem codeOf_index {n : Nat} {x : FaultCode} (h : codeOf n = some x) : n = (codeIndex x).val := by
  unfold codeOf at h
  split at h <;> cases h <;> rfl

theorem codeOf_below : ∀ {n : Nat}, n < 10 → ∃ x, codeOf n = some x
  | 0, _ | 1, _ | 2, _ | 3, _ | 4, _ | 5, _ | 6, _ | 7, _ | 8, _ | 9, _ => ⟨_, rfl⟩
  | _ + 10, h => absurd h (by omega)

theorem encLimit_length (i : Nat) (e : LimitEntry) : (encLimit i e).length = 8 := rfl

theorem limitEntryOf_encLimit {i : Fin 160} {e : LimitEntry} (h : LimitInRange i e) :
    limitEntryOf (encLimit i e) = some (i, e) := by
  obtain ⟨severity, threshold⟩ := h
  have place := i.isLt
  have cls : num1 (encLimit i e) 0 = i.val / 10 := num1_of _ _ _ rfl (by omega)
  have code : num1 (encLimit i e) 1 = i.val % 10 := num1_of _ _ _ rfl (by omega)
  have sev : num1 (encLimit i e) 3 = e.severity := num1_of _ _ _ rfl (by omega)
  have flag : flagOf (octetAt (encLimit i e) 2) = some e.enabled := flagOf_encFlag e.enabled
  obtain ⟨x, hx⟩ := codeOf_below (n := i.val % 10) (by omega)
  have index := codeOf_index hx
  rw [index, ← thresholdMax_eq] at threshold
  have small := thresholdMax_le x
  have thr : num4 (encLimit i e) 4 = e.threshold := num4_of _ _ _ rfl rfl rfl rfl (by omega)
  have here : num1 (encLimit i e) 0 < 16 := by omega
  have same : limitPlace (num1 (encLimit i e) 0) x here = i := Fin.ext (by simp only [limitPlace, cls]; omega)
  simp only [limitEntryOf, dif_pos here, code, hx, flag, sev, thr, severity, threshold, and_self, if_true, same]

theorem limitEntryOf_bad {e : List Octet} (h : BadLimit e) : limitEntryOf e = none := by
  refine Option.eq_none_iff_forall_ne_some.2 fun y read => ?_
  unfold limitEntryOf at read
  split at read
  case isFalse => cases read
  case isTrue cls =>
    split at read
    case h_2 => cases read
    case h_1 x on code flag =>
      have index := codeOf_index code
      have below := (codeIndex x).isLt
      have small : num1 e 2 ≤ 1 := Nat.not_lt.1 fun large => by rw [flagOf_of_large large] at flag; cases flag
      split at read
      case isFalse => cases read
      case isTrue range =>
        obtain ⟨severity, threshold⟩ := range
        rw [thresholdMax_eq, ← index] at threshold
        omega

/-! ### Program table entries (R76, R77, R182) -/

theorem kindOf_code (k : Kind) : kindOf (kindCode k) = some k := by cases k <;> rfl
theorem legsOf_code (l : Legs) : legsOf (legsCode l) = some l := by cases l <;> rfl
theorem sourceOf_code (v : Source) : sourceOf (sourceCode v) = some v := by cases v <;> rfl
theorem rangeOf_code (r : RangeSel) : rangeOf (rangeSelCode r) = some r := by cases r <;> rfl

theorem kindCode_le (k : Kind) : kindCode k ≤ 3 := by cases k <;> decide
theorem legsCode_le (l : Legs) : 1 ≤ legsCode l ∧ legsCode l ≤ 3 := by cases l <;> decide
theorem sourceCode_le (v : Source) : sourceCode v ≤ 4 := by cases v <;> decide
theorem rangeSelCode_le (r : RangeSel) : rangeSelCode r ≤ 2 := by cases r <;> decide

theorem kindOf_some {n : Nat} {k : Kind} (h : kindOf n = some k) : n = kindCode k := by
  unfold kindOf at h
  split at h <;> cases h <;> rfl

theorem legsOf_some {n : Nat} {l : Legs} (h : legsOf n = some l) : n = legsCode l := by
  unfold legsOf at h
  split at h <;> cases h <;> rfl

theorem sourceOf_some {n : Nat} {v : Source} (h : sourceOf n = some v) : n = sourceCode v := by
  unfold sourceOf at h
  split at h <;> cases h <;> rfl

theorem rangeOf_some {n : Nat} {r : RangeSel} (h : rangeOf n = some r) : n = rangeSelCode r := by
  unfold rangeOf at h
  split at h <;> cases h <;> rfl

theorem lacksSource_iff {d : StepDef} : lacksSource d = true ↔ (d.kind = .res ∨ d.kind = .cap) ∧ d.source = .off := by
  simp [lacksSource]

/-- RES and CAP are the kinds of code 2 and above. -/
theorem kindCode_sourced {k : Kind} : 2 ≤ kindCode k ↔ k = .res ∨ k = .cap := by cases k <;> decide

theorem sourceCode_off {v : Source} : sourceCode v = 0 ↔ v = .off := by cases v <;> decide

theorem encStep_length (d : StepDef) : (encStep d).length = 7 := rfl

theorem stepOf_encStep {d : StepDef} (units : 1 ≤ d.units ∧ d.units ≤ 16) (settle : d.settle ≤ 500)
    (source : d.kind = .res ∨ d.kind = .cap → d.source ≠ .off) : stepOf (encStep d) = some d := by
  have kind : num1 (encStep d) 0 = kindCode d.kind := num1_of _ _ _ rfl (by have := kindCode_le d.kind; omega)
  have legs : num1 (encStep d) 1 = legsCode d.legs := num1_of _ _ _ rfl (by have := legsCode_le d.legs; omega)
  have src : num1 (encStep d) 2 = sourceCode d.source := num1_of _ _ _ rfl (by have := sourceCode_le d.source; omega)
  have range : num1 (encStep d) 3 = rangeSelCode d.range := num1_of _ _ _ rfl (by have := rangeSelCode_le d.range; omega)
  have window : num1 (encStep d) 4 = d.units := num1_of _ _ _ rfl (by omega)
  have time : num2 (encStep d) 5 = d.settle := num2_of _ _ _ rfl rfl (by omega)
  have sourced : lacksSource d = false :=
    Bool.eq_false_iff.2 fun lacks => source (lacksSource_iff.1 lacks).1 (lacksSource_iff.1 lacks).2
  simp only [stepOf, kind, legs, src, range, window, time, kindOf_code, legsOf_code, sourceOf_code, rangeOf_code,
    within_of units.1 units.2, within_of (Nat.zero_le _) settle, sourced, Bool.false_eq_true, if_false]

/-- What is read as a step has its fields in range and, for RES and CAP, a source. -/
theorem stepOf_inRange {e : List Octet} {d : StepDef} (h : stepOf e = some d) :
    num1 e 0 ≤ 3 ∧ (1 ≤ num1 e 1 ∧ num1 e 1 ≤ 3) ∧ num1 e 2 ≤ 4 ∧ num1 e 3 ≤ 2 ∧ (1 ≤ num1 e 4 ∧ num1 e 4 ≤ 16) ∧
      num2 e 5 ≤ 500 ∧ ¬(2 ≤ num1 e 0 ∧ num1 e 2 = 0) := by
  unfold stepOf at h
  split at h
  case h_2 => cases h
  case h_1 k l v r w t kind legs source range units settle =>
    dsimp only at h
    split at h
    case isTrue => cases h
    case isFalse sourced =>
      rw [kindOf_some kind, legsOf_some legs, sourceOf_some source, rangeOf_some range]
      refine ⟨kindCode_le k, legsCode_le l, sourceCode_le v, rangeSelCode_le r, within_some units, (within_some settle).2, ?_⟩
      exact fun ⟨two, zero⟩ => sourced (lacksSource_iff.2 ⟨kindCode_sourced.1 two, sourceCode_off.1 zero⟩)

theorem encSteps_length (p : List StepDef) : (p.flatMap encStep).length = p.length * 7 := by
  induction p with
  | nil => rfl
  | cons d p ih =>
    rw [List.flatMap_cons, List.length_append, encStep_length, ih, List.length_cons]
    omega

theorem encProgram_length {i : Nat} {p : List StepDef} (h : p.length ≤ 8) : (encProgram i p).length = 58 := by
  simp only [encProgram, List.length_append, encSteps_length, List.length_replicate, enc1, List.length_cons, List.length_nil]
  omega

theorem programOf_encProgram {i : Fin 16} {p : List StepDef} (h : ProgramInRange p) :
    programOf (encProgram i p) = some (i, p) := by
  obtain ⟨few, steps⟩ := h
  have number : num1 (encProgram i p) 0 = i.val := num1_of _ _ _ rfl (by omega)
  have length : num1 (encProgram i p) 1 = p.length := num1_of _ _ _ rfl (by omega)
  have body : (encProgram i p).drop 2 = p.flatMap encStep ++ List.replicate ((8 - p.length) * 7) 0 := rfl
  have read := readEntries_encoded (parse := stepOf) (enc := encStep) (g := id) (es := p)
    (List.replicate ((8 - p.length) * 7) 0) (fun d _ => encStep_length d) fun d hd => by
      obtain ⟨low, high, settle, source⟩ := steps d hd
      exact stepOf_encStep ⟨low, high⟩ settle source
  have here : num1 (encProgram i p) 0 < 16 := by omega
  have same : (⟨num1 (encProgram i p) 0, here⟩ : Fin 16) = i := Fin.ext number
  simp only [programOf, dif_pos here, length, few, if_true, body, read, same, Option.map_some, List.map_id]

theorem programOf_bad {e : List Octet} (h : BadProgram e) : programOf e = none := by
  refine Option.eq_none_iff_forall_ne_some.2 fun y read => ?_
  unfold programOf at read
  split at read
  case isFalse => cases read
  case isTrue number =>
    split at read
    case isFalse => cases read
    case isTrue few =>
      rcases h with high | many | ⟨k, inside, bad⟩
      · omega
      · omega
      · have none : stepOf (entryOctets 7 (e.drop 2) k.val) = none := by
          refine Option.eq_none_iff_forall_ne_some.2 fun d step => ?_
          have octet (j : Nat) (h : j < 7) : octetAt (entryOctets 7 (e.drop 2) k.val) j = octetAt e (2 + 7 * k.val + j) := by
            rw [octetAt_entry _ h]
            simp only [octetAt, List.getD_eq_getElem?_getD, List.getElem?_drop]
            congr 2
            omega
          have ok := stepOf_inRange step
          simp only [num2, num1, octet _ (by decide : 0 < 7), octet _ (by decide : 1 < 7), octet _ (by decide : 2 < 7),
            octet _ (by decide : 3 < 7), octet _ (by decide : 4 < 7), octet _ (by decide : 5 < 7),
            octet _ (by decide : 5 + 1 < 7), Nat.add_assoc] at ok
          simp only [num2, num1, Nat.add_assoc] at bad
          omega
        rw [readEntries_none inside none] at read
        cases read

/-! ### Cable map entries (R142, R182) -/

theorem thresholdOk_iff {k : Nat} : thresholdOk k = true ↔ k = 0 ∨ 2 ≤ k ∧ k ≤ 64 := decide_eq_true_iff

theorem encCable_length (i : Nat) (e : Option CableRange) : (encCable i e).length = 7 := by cases e <;> rfl

theorem cableEntryOf_encCable {i : Fin 256} {e : Option CableRange} (h : CableInRange e) :
    cableEntryOf (encCable i e) = some (i, e) := by
  have id : (BitVec.ofNat 8 i.val).toFin = i := Fin.ext (by simp only [BitVec.toFin_ofNat, Fin.ofNat]; omega)
  cases e with
  | none => exact congrArg (fun j => some (j, (none : Option CableRange))) id
  | some r =>
    obtain ⟨rising, last, k⟩ := h r rfl
    have hfirst : num2 (encCable i (some r)) 2 = r.first := num2_of _ _ _ rfl rfl (by omega)
    have hlast : num2 (encCable i (some r)) 4 = r.last := num2_of _ _ _ rfl rfl (by omega)
    have hk : num1 (encCable i (some r)) 6 = r.k := num1_of _ _ _ rfl (by omega)
    have flag : flagOf (octetAt (encCable i (some r)) 1) = some true := rfl
    have cable : (octetAt (encCable i (some r)) 0).toFin = i := id
    simp only [cableEntryOf, flag, hfirst, hlast, hk, cable]
    exact if_pos ⟨rising, last, thresholdOk_iff.2 k⟩

theorem cableEntryOf_bad {e : List Octet} (h : BadCable e) : cableEntryOf e = none := by
  refine Option.eq_none_iff_forall_ne_some.2 fun y read => ?_
  unfold cableEntryOf at read
  rcases h with large | ⟨present, bad⟩
  · rw [flagOf_of_large large] at read
    cases read
  · have flag : flagOf (octetAt e 1) = some true := by
      rw [show octetAt e 1 = 1 from BitVec.eq_of_toNat_eq present]
      rfl
    simp only [flag, thresholdOk_iff] at read
    split at read
    case isFalse => cases read
    case isTrue ok =>
      obtain ⟨rising, last, k⟩ := ok
      have last : num2 e 4 ≤ 16383 := last
      omega

/-! ### Tone table entries (R18, R182) -/

theorem encTone_length (i : Nat) (t : Tone) : (encTone i t).length = 5 := rfl

theorem toneEntryOf_encTone {k : ToneNo} {t : Tone} (h : ToneInRange t) :
    toneEntryOf (encTone k t) = some (k, { t with phase := 0 }) := by
  obtain ⟨low, high, amplitude⟩ := h
  have number : num1 (encTone k t) 0 = k.val := num1_of _ _ _ rfl (by omega)
  have hf : num2 (encTone k t) 1 = t.frequency := num2_of _ _ _ rfl rfl (by omega)
  have ha : num2 (encTone k t) 3 = t.amplitude := num2_of _ _ _ rfl rfl (by omega)
  simp only [toneEntryOf, unitOf_of_toNat number, hf, ha, within_of low high, within_of (Nat.zero_le _) amplitude]

theorem toneEntryOf_bad {e : List Octet} (h : BadTone e) : toneEntryOf e = none := by
  refine Option.eq_none_iff_forall_ne_some.2 fun y read => ?_
  unfold toneEntryOf at read
  split at read
  case h_2 => cases read
  case h_1 k f a unit frequency amplitude =>
    have inside : num1 e 0 < 4 := Nat.not_le.1 fun large => by rw [unitOf_none large] at unit; cases unit
    have f := within_some frequency
    have a := within_some amplitude
    omega

/-! ### Sweep configurations (R154, R182) -/

/-- The octets of a descriptor's configuration. -/
def encEntry (e : SweepNo × SweepConfig) : List Octet := enc1 e.1 ++ encConfig (some e.2)

theorem encEntry_length (e : SweepNo × SweepConfig) : (encEntry e).length = 10 := rfl

theorem configNumbersOk_of {e : List Octet} (flags : num1 e 7 < 8) :
    configNumbersOk e = true ↔ num2 e 1 ≤ 16383 ∧ 1 ≤ num2 e 3 ∧ num2 e 3 ≤ 16384 ∧ 1 ≤ num1 e 5 ∧ num1 e 5 ≤ 64 ∧
      num1 e 6 ≤ 15 ∧ num2 e 8 ≤ 60000 ∧ num2 e 1 + (num2 e 3 - 1) * num1 e 5 ≤ 16383 := by
  have unused : decide (8 ≤ num1 e 7) = false := decide_eq_false (Nat.not_le.2 flags)
  rw [configNumbersOk, unused]
  simp only [Bool.false_and, Bool.not_false, Bool.and_true]
  exact decide_eq_true_iff

theorem sweepConfigOf_encEntry {e : SweepNo × SweepConfig} (h : ConfigInRange e.2) : sweepConfigOf (encEntry e) = some e := by
  obtain ⟨d, c⟩ := e
  have h : ConfigInRange c := h
  obtain ⟨first, count1, count, stride1, stride, program, pace, last⟩ := h
  have number : num1 (encEntry (d, c)) 0 = d.val := num1_of _ _ _ rfl (by omega)
  have hfirst : num2 (encEntry (d, c)) 1 = c.first := num2_of _ _ _ rfl rfl (by omega)
  have hcount : num2 (encEntry (d, c)) 3 = c.count := num2_of _ _ _ rfl rfl (by omega)
  have hstride : num1 (encEntry (d, c)) 5 = c.stride := num1_of _ _ _ rfl (by omega)
  have hprogram : num1 (encEntry (d, c)) 6 = c.program := num1_of _ _ _ rfl (by omega)
  have hpace : num2 (encEntry (d, c)) 8 = c.pace := num2_of _ _ _ rfl rfl (by omega)
  have octet : octetAt (encEntry (d, c)) 7 =
      BitVec.ofNat 8 (bitAt 0 c.ticketFlag + bitAt 1 c.stopOnFault + bitAt 2 c.autoReload) := rfl
  have flags : num1 (encEntry (d, c)) 7 < 8 ∧ (octetAt (encEntry (d, c)) 7).getLsbD 0 = c.ticketFlag ∧
      (octetAt (encEntry (d, c)) 7).getLsbD 1 = c.stopOnFault ∧ (octetAt (encEntry (d, c)) 7).getLsbD 2 = c.autoReload := by
    rw [num1, octet]
    cases c.ticketFlag <;> cases c.stopOnFault <;> cases c.autoReload <;> decide
  obtain ⟨low, ticket, stop, reload⟩ := flags
  have ok : configNumbersOk (encEntry (d, c)) = true := by
    rw [configNumbersOk_of low, hfirst, hcount, hstride, hprogram, hpace]
    exact ⟨first, count1, count, stride1, stride, program, pace, last⟩
  simp only [sweepConfigOf, unitOf_of_toNat number, ok, if_true, hfirst, hcount, hstride, hprogram, hpace, ticket, stop, reload]

theorem sweepConfigOf_bad {e : List Octet} (h : BadConfig e) : sweepConfigOf e = none := by
  refine Option.eq_none_iff_forall_ne_some.2 fun y read => ?_
  unfold sweepConfigOf at read
  split at read
  case h_1 => cases read
  case h_2 d unit =>
    have inside : num1 e 0 < 8 := Nat.not_le.1 fun large => by rw [unitOf_none large] at unit; cases unit
    split at read
    case isFalse => cases read
    case isTrue ok =>
      have range := of_decide_eq_true ((Bool.and_eq_true ..).mp ok).1
      simp only [Config.lastLine] at range
      omega

/-! ### Site parameters (R183) -/

theorem authorityOf_bits (a : Authority) :
    authorityOf (BitVec.ofNat 8 (bitAt 0 a.monitorBusy + bitAt 1 a.overrides + bitAt 2 a.urgent)) = some a := by
  obtain ⟨m, o, u⟩ := a
  cases m <;> cases o <;> cases u <;> rfl

theorem gainOf_signed {g : Int} (low : -3 ≤ g) (high : g ≤ 3) : gainOf (BitVec.ofInt 8 g) = some g := by
  have same : signed1 (BitVec.ofInt 8 g) = g := by
    rw [signed1, BitVec.toInt_ofInt]
    exact Int.bmod_eq_of_le (by omega) (by omega)
  rw [gainOf, same]
  exact if_pos ⟨low, high⟩

theorem encSite_authority (p : SiteParams) (d : DeskNo) :
    octetAt (encSite p) (8 + 2 * d.val) =
      BitVec.ofNat 8 (bitAt 0 p.authority[d].monitorBusy + bitAt 1 p.authority[d].overrides + bitAt 2 p.authority[d].urgent) := by
  match d with
  | 0 | 1 | 2 | 3 | 4 | 5 => rfl

theorem encSite_gain (p : SiteParams) (d : DeskNo) : octetAt (encSite p) (9 + 2 * d.val) = BitVec.ofInt 8 p.gain[d] := by
  match d with
  | 0 | 1 | 2 | 3 | 4 | 5 => rfl

/-- A vector over the desks, from the list of its entries in the order of the desks. -/
theorem ofFn_desks {α : Type} (v : Vector α 6) (x : α) :
    (Vector.ofFn fun d : Fin 6 => (allDesks.map fun d : DeskNo => v[d]).getD d.val x) = v := by
  have desks : allDesks = List.finRange 6 := rfl
  refine Vector.ext fun i hi => ?_
  simp [desks]

theorem siteOf_encSite {p : SiteParams} (h : SiteInRange p) : siteOf (encSite p) = some p := by
  obtain ⟨quota, window1, window, warning, gain⟩ := h
  have mains : num1 (encSite p) 0 = if p.mains60 then 1 else 0 := num1_of _ _ _ rfl (by split <;> decide)
  have hquota : num1 (encSite p) 1 = p.quota := num1_of _ _ _ rfl (by omega)
  have hwindow : num2 (encSite p) 2 = p.window := num2_of _ _ _ rfl rfl (by omega)
  have poll : num1 (encSite p) 4 = if p.poll then 1 else 0 := num1_of _ _ _ rfl (by split <;> decide)
  have small := p.mask.isLt
  have mask : num1 (encSite p) 5 = p.mask.toNat := num1_of _ _ _ rfl (by omega)
  have hwarning : num2 (encSite p) 6 = p.warning := num2_of _ _ _ rfl rfl (by omega)
  have numbers : siteNumbersOk (encSite p) = true := by
    refine decide_eq_true ?_
    rw [mains, hquota, hwindow, poll, mask, hwarning]
    exact ⟨by split <;> decide, quota, window1, window, by split <;> decide, small, warning⟩
  have authorities : authoritiesOf (encSite p) = some (allDesks.map fun d => p.authority[d]) :=
    mapM_some fun d _ => by rw [encSite_authority, authorityOf_bits]
  have gains : gainsOf (encSite p) = some (allDesks.map fun d => p.gain[d]) :=
    mapM_some fun d _ => by rw [encSite_gain, gainOf_signed (gain d).1 (gain d).2]
  have flag (x : Bool) : ((if x then 1 else 0 : Nat) == 1) = x := by cases x <;> rfl
  simp only [siteOf, numbers, if_true, authorities, gains, mains, hquota, hwindow, poll, mask, hwarning, flag, ofFn_desks,
    BitVec.ofNat_toNat, BitVec.setWidth_eq]

theorem authorityOf_large {o : Octet} (h : 7 < o.toNat) : authorityOf o = none := if_neg (Nat.not_lt.2 h)

theorem gainOf_outside {o : Octet} (h : o.toInt < -3 ∨ 3 < o.toInt) : gainOf o = none :=
  if_neg fun inside => by
    simp only [signed1] at inside
    omega

theorem siteOf_bad {e : List Octet} (h : BadSite e) : siteOf e = none := by
  refine Option.eq_none_iff_forall_ne_some.2 fun y read => ?_
  unfold siteOf at read
  split at read
  case isFalse => cases read
  case isTrue numbers =>
    have range := of_decide_eq_true numbers
    split at read
    case h_2 => cases read
    case h_1 as gs authorities gains =>
      rcases h with h | h | h | h | h | h | h | ⟨d, high | outside⟩
      case inr.inr.inr.inr.inr.inr.inr.inl =>
        rw [authoritiesOf, mapM_none (mem_allDesks d) (authorityOf_large high)] at authorities
        cases authorities
      case inr.inr.inr.inr.inr.inr.inr.inr =>
        rw [gainsOf, mapM_none (mem_allDesks d) (gainOf_outside outside)] at gains
        cases gains
      all_goals omega

end Sys2Proof.Proofs
end

section
/-! Loading the seven tables (R181, R183): the class of a line after a run of the class map, the ranges of the cable map, the
duplicate steps of a program, and the rules of the loads; then O58. -/

namespace Sys2Proof.Proofs

open Sys2Proof.Machine Sys2Proof.Stated

/-! ### The line class map (R107, R108) -/

/-- The class a map gives a line. -/
def classIn (m : List (Nat × Nat)) (line : Nat) : Nat := ((m.find? fun p => p.1 == line).map Prod.snd).getD 0

theorem classOf_eq (line : Nat) (s : State) : classOf line s = classIn s.classMap line := rfl

theorem classIn_cons (p : Nat × Nat) (m : List (Nat × Nat)) (line : Nat) :
    classIn (p :: m) line = if p.1 = line then p.2 else classIn m line := by
  unfold classIn
  by_cases same : p.1 = line <;> simp [same]

theorem classIn_absent {m : List (Nat × Nat)} {line : Nat} (h : ∀ p ∈ m, p.1 ≠ line) : classIn m line = 0 := by
  have none : m.find? (fun p => p.1 == line) = none := List.find?_eq_none.2 fun p hp => by simpa using h p hp
  rw [classIn, none]
  rfl

/-- Placing a class in a rising map gives its line the class and leaves the other lines theirs. -/
theorem classIn_putClass {m : List (Nat × Nat)} (rising : m.Pairwise fun p q => p.1 < q.1) (line cls l : Nat) :
    classIn (putClass line cls m) l = if l = line then cls else classIn m l := by
  induction m with
  | nil =>
    unfold putClass
    split
    case isTrue zero => simp [classIn, zero]
    case isFalse => rw [classIn_cons]; simp [eq_comm]
  | cons p m ih =>
    obtain ⟨above, rest⟩ := List.pairwise_cons.1 rising
    have absent (beyond : ∀ q ∈ m, line < q.1) : classIn m line = 0 :=
      classIn_absent fun q hq => Nat.ne_of_gt (beyond q hq)
    unfold putClass
    split
    case isTrue before =>
      have gone : classIn m line = 0 := absent fun q hq => Nat.lt_trans before (above q hq)
      split
      case isTrue zero =>
        split
        case isTrue same => rw [same, classIn_cons, if_neg (Nat.ne_of_gt before), gone, zero]
        case isFalse => rfl
      case isFalse => rw [classIn_cons]; simp only [eq_comm]
    case isFalse notBefore =>
      split
      case isTrue same =>
        have gone : classIn m line = 0 := absent fun q hq => same ▸ above q hq
        split
        case isTrue zero =>
          rw [classIn_cons, ← same]
          split
          case isTrue here => rw [here, gone, zero]
          case isFalse other => rw [if_neg (Ne.symm other)]
        case isFalse =>
          by_cases here : line = l
          · rw [classIn_cons, if_pos here, if_pos here.symm]
          · rw [classIn_cons, if_neg here, if_neg (Ne.symm here), classIn_cons, if_neg fun e => here (same.trans e)]
      case isFalse other =>
        rw [classIn_cons, classIn_cons, ih rest]
        split
        case isTrue here => rw [if_neg fun same => other (same.symm.trans here.symm)]
        case isFalse => rfl

/-- The map after a run of classes from a first line on. -/
def classesPut (first n : Nat) (cls : Nat → Nat) (m : List (Nat × Nat)) : List (Nat × Nat) :=
  (List.range n).foldl (fun m i => putClass (first + i) (cls i) m) m

theorem classesPut_succ (first n : Nat) (cls : Nat → Nat) (m : List (Nat × Nat)) :
    classesPut first (n + 1) cls m = putClass (first + n) (cls n) (classesPut first n cls m) := by
  rw [classesPut, List.range_succ, List.foldl_append]
  rfl

theorem classesPut_rising {m : List (Nat × Nat)} (rising : m.Pairwise fun p q => p.1 < q.1) (first n : Nat)
    (cls : Nat → Nat) : (classesPut first n cls m).Pairwise fun p q => p.1 < q.1 := by
  induction n with
  | zero => exact rising
  | succ n ih => rw [classesPut_succ]; exact putClass_rising _ _ ih

/-- A run gives each of its lines its class and leaves the others theirs. -/
theorem classIn_classesPut {m : List (Nat × Nat)} (rising : m.Pairwise fun p q => p.1 < q.1) (first n : Nat)
    (cls : Nat → Nat) (line : Nat) :
    classIn (classesPut first n cls m) line =
      if first ≤ line ∧ line < first + n then cls (line - first) else classIn m line := by
  induction n with
  | zero => rw [if_neg (by omega)]; rfl
  | succ n ih =>
    rw [classesPut_succ, classIn_putClass (classesPut_rising rising first n cls), ih]
    by_cases last : line = first + n
    · rw [if_pos last, if_pos (by omega), last, Nat.add_sub_cancel_left]
    · rw [if_neg last]
      exact ite_congr (propext (by omega)) (fun _ => rfl) fun _ => rfl

theorem classAt_add_two (o : Octet) (l : List Octet) (i : Nat) : classAt (o :: l) (i + 2) = classAt l i := by
  have half : (i + 2) / 2 = i / 2 + 1 := by omega
  rw [classAt, classAt, Nat.add_mod_right, half]
  rfl

/-- The classes of a run are read back, whatever an unused half octet holds (R182). -/
theorem classAt_encClasses (unused : Fin 16) : ∀ {classes : List Nat} (x : Nat) {i : Nat}, (∀ c ∈ classes, c ≤ 15) →
    i < classes.length → classAt (encClasses unused classes) i = classes.getD i x
  | [c], x, i, range, inside => by
    obtain rfl : i = 0 := by simpa using inside
    have low := range c (.head _)
    have octet : num1 (encClasses unused [c]) 0 = c * 16 + unused.val := num1_of _ _ _ rfl (by omega)
    rw [classAt, if_pos rfl, Nat.zero_div, octet, List.getD_cons_zero]
    omega
  | c :: d :: rest, x, i, range, inside => by
    have lowc := range c (.head _)
    have lowd := range d (.tail _ (.head _))
    match i with
    | 0 =>
      have octet : num1 (encClasses unused (c :: d :: rest)) 0 = c * 16 + d := num1_of _ _ _ rfl (by omega)
      rw [classAt, if_pos rfl, Nat.zero_div, octet, List.getD_cons_zero]
      omega
    | 1 =>
      have octet : num1 (encClasses unused (c :: d :: rest)) 0 = c * 16 + d := num1_of _ _ _ rfl (by omega)
      rw [classAt, if_neg (by decide), show 1 / 2 = 0 from rfl, octet, List.getD_cons_succ, List.getD_cons_zero]
      omega
    | i + 2 =>
      exact (classAt_add_two ..).trans (classAt_encClasses unused x (fun y hy => range y (.tail _ (.tail _ hy)))
        (by simpa using inside))

/-! ### Duplicate steps (R77) and overlapping ranges (R142) -/

theorem hasDuplicate_iff {p : List StepDef} : hasDuplicate p = false ↔ StepsDiffer p := by
  induction p with
  | nil => simp [hasDuplicate]
  | cons d p ih =>
    unfold StepsDiffer at ih ⊢
    rw [hasDuplicate, Bool.or_eq_false_iff, ih, List.pairwise_cons, List.any_eq_false]
    refine and_congr_left fun _ => forall₂_congr fun e _ => ?_
    simp only [Bool.and_eq_true, beq_iff_eq, ne_eq, Prod.mk.injEq]
    rw [eq_comm, eq_comm (a := e.legs)]

theorem anyOverlap_iff {l : List CableRange} :
    anyOverlap l = false ↔ l.Pairwise fun a b => a.last < b.first ∨ b.last < a.first := by
  induction l with
  | nil => simp [anyOverlap]
  | cons a l ih =>
    rw [anyOverlap, Bool.or_eq_false_iff, ih, List.pairwise_cons, List.any_eq_false]
    refine and_congr_left fun _ => forall₂_congr fun b _ => ?_
    simp only [CableRange.overlaps, decide_eq_true_eq]
    omega

theorem cablesApart_iff {v : Vector (Option CableRange) 256} :
    anyOverlap (v.toList.filterMap id) = false ↔ CablesApart v := by
  rw [anyOverlap_iff, List.pairwise_filterMap, List.pairwise_iff_getElem]
  refine ⟨fun h i j a b ne ha hb => ?_, fun h i j hi hj lt a ha b hb => ?_⟩
  · rcases Nat.lt_or_gt_of_ne (Fin.val_ne_of_ne ne) with lt | gt
    · exact h i j (by simp) (by simp) lt a (by simpa using ha) b (by simpa using hb)
    · exact (h j i (by simp) (by simp) gt b (by simpa using hb) a (by simpa using ha)).symm
  · have hi : i < 256 := by simpa using hi
    have hj : j < 256 := by simpa using hj
    exact h ⟨i, hi⟩ ⟨j, hj⟩ a b (Fin.ne_of_lt lt) (by simpa using ha) (by simpa using hb)

/-! ### The rules of the loads (R181) -/

section
variable {s : State}

theorem namedRun_iff {most : Nat} {first count : Word} :
    namedRun most first count = true ↔ first = 0 ∧ 1 ≤ count.toNat ∧ count.toNat ≤ most := decide_eq_true_iff

/-- A load whose entries are read is given to its table. -/
theorem loadNamed_reads {α β : Type} {most size : Nat} {parse : List Octet → Option β} {enc : α → List Octet} {g : α → β}
    {count : Word} {es : List α} {apply : List β → State → State × Answer} (hcount : count.toNat = es.length)
    (many : 1 ≤ es.length) (few : es.length ≤ most) (length : ∀ e ∈ es, (enc e).length = size)
    (read : ∀ e ∈ es, parse (enc e) = some (g e)) :
    loadNamed most size parse 0 count (es.flatMap enc) apply 6 s = apply (es.map g) s := by
  have run : namedRun most 0 count = true := namedRun_iff.2 ⟨rfl, by omega, by omega⟩
  have entries := readEntries_encoded [] length read
  rw [List.append_nil] at entries
  simp only [loadNamed, processorOnly_processor, run, if_true, hcount, entries]

/-- A load with a first entry, a count or an entry that its table does not take is refused. -/
theorem loadNamed_refuses {α : Type} {most size : Nat} {parse : List Octet → Option α} {bad : List Octet → Prop}
    {first count : Word} {entries : List Octet} {apply : List α → State → State × Answer}
    (reads : ∀ {e}, bad e → parse e = none)
    (h : first ≠ 0 ∨ count = 0 ∨ most < count.toNat ∨ SomeEntry bad size count entries) :
    loadNamed most size parse first count entries apply 6 s = refuse .badField s := by
  rw [loadNamed, processorOnly_processor]
  rcases h with notFirst | rfl | many | ⟨i, hi, isBad⟩
  · exact if_neg fun run => notFirst (namedRun_iff.1 run).1
  · exact if_neg fun run => absurd (namedRun_iff.1 run).2.1 (by decide)
  · exact if_neg fun run => absurd (namedRun_iff.1 run).2.2 (Nat.not_le.2 many)
  · rw [readEntries_none hi (reads isBad)]
    exact ite_self _

/-! ### Sweep configurations (R154) -/

/-- The record of a descriptor with its configuration replaced. -/
def configured (v : Vector Descriptor 8) (p : SweepNo × SweepConfig) : Vector Descriptor 8 :=
  v.set p.1 { v[p.1] with config := some p.2 }

theorem applyConfigs_eq (es : List (SweepNo × SweepConfig)) (s : State) :
    es.foldl applyConfig s = { s with sweeps := es.foldl configured s.sweeps } := by
  induction es generalizing s with
  | nil => rfl
  | cons p es ih => exact (ih (applyConfig s p)).trans rfl

theorem configured_getElem (es : List (SweepNo × SweepConfig)) (v : Vector Descriptor 8) (d : SweepNo) :
    (es.foldl configured v)[d] =
      { v[d] with config := (written (es.map fun e => (e.1, some e.2)) (v.map Descriptor.config))[d] } := by
  induction es generalizing v with
  | nil => simp [written]
  | cons p es ih =>
    have configs : (configured v p).map Descriptor.config = (v.map Descriptor.config).set p.1 (some p.2) :=
      Vector.map_set ..
    have other : { (configured v p)[d] with config := none } = { v[d] with config := none } := by
      by_cases same : p.1 = d
      · subst same
        simp [configured]
      · have ne : p.1.val ≠ d.val := Fin.val_ne_of_ne same
        simp [configured, Vector.getElem_set_ne _ _ ne]
    rw [List.foldl_cons, ih, configs]
    exact congrArg (fun x : Descriptor => { x with config :=
      (written (es.map fun e : SweepNo × SweepConfig => (e.1, some e.2)) ((v.map Descriptor.config).set p.1 (some p.2)))[d] }) other

theorem inUse_iff {x : Descriptor} : x.inUse = false ↔ x.state = .idle ∨ x.state = .done := by
  unfold Descriptor.inUse
  cases x.state <;> decide

theorem anyInUse_iff {es : List (SweepNo × SweepConfig)} :
    (es.any fun p => s.sweeps[p.1].inUse) = false ↔ ∀ e ∈ es, Loadable e.1 s := by
  simp only [List.any_eq_false, Bool.not_eq_true, inUse_iff]

/-! ### The single tables -/

theorem applySite_eq {p : SiteParams} (h : p.quota = s.site.quota ∨ s.queue = []) : applySite p s = { s with site := p } := by
  unfold applySite
  split
  · rfl
  case isFalse changes => exact grantPass_of_empty (s := { s with site := p }) (h.resolve_left changes)

theorem loadSiteRule_loads {p : SiteParams} (range : SiteInRange p) (h : p.quota = s.site.quota ∨ s.queue = []) :
    loadSiteRule 0 1 (encSite p) 6 s = okayWith (.loaded 0 1) { s with site := p } := by
  rw [loadSiteRule, processorOnly_processor, if_pos ⟨rfl, rfl⟩, siteOf_encSite range]
  exact congrArg (okayWith (.loaded 0 1)) (applySite_eq h)

theorem loadSiteRule_refuses {first count : Word} {entries : List Octet} (h : ¬(first = 0 ∧ count = 1) ∨ BadSite entries) :
    loadSiteRule first count entries 6 s = refuse .badField s := by
  rw [loadSiteRule, processorOnly_processor]
  rcases h with run | bad
  · exact if_neg run
  · rw [siteOf_bad bad]
    exact ite_self _

theorem loadClassesRule_loads {first count : Word} {entries : List Octet} (many : 1 ≤ count.toNat) (few : count.toNat ≤ 464)
    (fits : first.toNat + count.toNat ≤ 16384) :
    loadClassesRule first count entries 6 s =
      okayWith (.loaded 1 count.toNat)
        { s with classMap := classesPut first.toNat count.toNat (classAt entries) s.classMap } := by
  rw [loadClassesRule, processorOnly_processor, if_pos (classRunOk_iff.2 ⟨by omega, many, few, by omega⟩)]
  rfl

theorem loadClassesRule_refuses {first count : Word} {entries : List Octet}
    (h : count = 0 ∨ 464 < count.toNat ∨ 16384 < first.toNat + count.toNat) :
    loadClassesRule first count entries 6 s = refuse .badField s := by
  rw [loadClassesRule, processorOnly_processor]
  refine if_neg fun run => ?_
  obtain ⟨-, many, few, fits⟩ := classRunOk_iff.1 run
  rcases h with rfl | h | h
  · exact absurd many (by decide)
  · omega
  · omega

theorem loadLimitsRule_loads {count : Word} {es : List (Fin 160 × LimitEntry)} (hcount : count.toNat = es.length)
    (many : 1 ≤ es.length) (few : es.length ≤ 29) (range : ∀ e ∈ es, LimitInRange e.1 e.2) :
    loadLimitsRule 0 count (es.flatMap fun e => encLimit e.1 e.2) 6 s =
      okayWith (.loaded 2 es.length) { s with limits := written es s.limits } := by
  rw [loadLimitsRule, loadNamed_reads (g := id) hcount many few (fun e _ => encLimit_length e.1 e.2)
    fun e he => limitEntryOf_encLimit (range e he), List.map_id, loaded, hcount]
  rfl

/-- The programs of a load are read, and those with a duplicate step refused. -/
theorem loadProgramsRule_reads {count : Word} {es : List (Fin 16 × List StepDef)} (hcount : count.toNat = es.length)
    (many : 1 ≤ es.length) (few : es.length ≤ 4) (range : ∀ e ∈ es, ProgramInRange e.2) :
    loadProgramsRule 0 count (es.flatMap fun e => encProgram e.1 e.2) 6 s =
      if es.any fun p => hasDuplicate p.2 then refuse .duplicateStep s
      else okayWith (.loaded 3 es.length) { s with programs := written es s.programs } := by
  rw [loadProgramsRule, loadNamed_reads (g := id) hcount many few (fun e he => encProgram_length (range e he).1)
    fun e he => programOf_encProgram (range e he), List.map_id, loaded, hcount]
  rfl

theorem noneDuplicate_iff {es : List (Fin 16 × List StepDef)} :
    (es.any fun p => hasDuplicate p.2) = false ↔ ∀ e ∈ es, StepsDiffer e.2 := by
  simp only [List.any_eq_false, Bool.not_eq_true, hasDuplicate_iff]

/-- The cable map entries of a load are read, and a map with an overlap refused. -/
theorem loadCablesRule_reads {count : Word} {es : List (Fin 256 × Option CableRange)} (hcount : count.toNat = es.length)
    (many : 1 ≤ es.length) (few : es.length ≤ 34) (range : ∀ e ∈ es, CableInRange e.2) :
    loadCablesRule 0 count (es.flatMap fun e => encCable e.1 e.2) 6 s =
      if anyOverlap ((written es s.cables).toList.filterMap id) then refuse .overlap s
      else okayWith (.loaded 4 es.length) { s with cables := written es s.cables } := by
  rw [loadCablesRule, loadNamed_reads (g := id) hcount many few (fun e _ => encCable_length e.1 e.2)
    fun e he => cableEntryOf_encCable (range e he), List.map_id, loaded, hcount]
  rfl

theorem loadTonesRule_loads {count : Word} {es : List (ToneNo × Tone)} (hcount : count.toNat = es.length)
    (many : 1 ≤ es.length) (few : es.length ≤ 4) (range : ∀ e ∈ es, ToneInRange e.2) :
    loadTonesRule 0 count (es.flatMap fun e => encTone e.1 e.2) 6 s =
      okayWith (.loaded 5 es.length)
        { s with tones := written (es.map fun e => (e.1, { e.2 with phase := 0 })) s.tones } := by
  rw [loadTonesRule, loadNamed_reads (g := fun e => (e.1, { e.2 with phase := 0 })) hcount many few
    (fun e _ => encTone_length e.1 e.2) fun e he => toneEntryOf_encTone (range e he), loaded, hcount]
  rfl

/-- The configurations of a load are read, and one for a descriptor in use refused. -/
theorem loadConfigsRule_reads {count : Word} {es : List (SweepNo × SweepConfig)} (hcount : count.toNat = es.length)
    (many : 1 ≤ es.length) (few : es.length ≤ 8) (range : ∀ e ∈ es, ConfigInRange e.2) :
    loadConfigsRule 0 count (es.flatMap encEntry) 6 s =
      if es.any fun p => s.sweeps[p.1].inUse then refuse .busy s
      else okayWith (.loaded 6 es.length) { s with sweeps := es.foldl configured s.sweeps } := by
  rw [loadConfigsRule, loadNamed_reads (g := id) hcount many few (fun e _ => encEntry_length e)
    fun e he => sweepConfigOf_encEntry (range e he), List.map_id, loaded, hcount, applyConfigs_eq]

end

/-- Settles O58. -/
theorem loadsAreCheckedAndApplied : Obligations.LoadsAreCheckedAndApplied := by
  refine ⟨fun hd p s from_ range quota => exec_answers rfl from_ (loadSiteRule_loads (s := counted1 s) range quota),
    fun hd first count classes unused s from_ ok range hcount many few fits => ?_,
    fun hd count es s from_ hcount many few range => ?_, fun hd count es s from_ hcount many few range => ?_,
    fun hd count es s from_ hcount many few range => ?_, fun hd count es s from_ hcount many few range => ?_,
    fun hd count es s from_ hcount many few range => ?_, fun hd first count entries s => ⟨?_, ?_, ?_, ?_, ?_, ?_, ?_⟩⟩
  · rw [← hcount] at from_ many few fits
    refine ⟨classesPut first.toNat count.toNat (classAt (encClasses unused classes)) s.classMap, ?_, fun line => ?_⟩
    · rw [← hcount]
      exact exec_answers rfl from_ (loadClassesRule_loads (s := counted1 s) many few fits)
    · have put := classIn_classesPut ((classesOk_iff s).1 ok).1 first.toNat count.toNat
        (classAt (encClasses unused classes)) line
      rw [classOf_eq, classOf_eq]
      refine put.trans ?_
      by_cases below : first.toNat ≤ line
      · rw [if_pos below]
        by_cases inside : line < first.toNat + count.toNat
        · rw [if_pos ⟨below, inside⟩]
          exact classAt_encClasses unused _ range (by omega)
        · rw [if_neg fun h => inside h.2, List.getD_eq_getElem?_getD, List.getElem?_eq_none (by omega), Option.getD_none]
      · rw [if_neg fun h => below h.1, if_neg below]
  · rw [← hcount] at from_
    exact exec_answers rfl from_ (loadLimitsRule_loads (s := counted1 s) hcount many few range)
  · rw [← hcount] at from_
    have reads := loadProgramsRule_reads (s := counted1 s) hcount many few range
    refine ⟨fun differ => exec_answers rfl from_ (reads.trans ?_), fun same => exec_answers rfl from_ (reads.trans ?_)⟩
    · exact if_neg (ne_true_of_eq_false (noneDuplicate_iff.2 differ))
    · exact if_pos (eq_true_of_ne_false fun none => same (noneDuplicate_iff.1 none))
  · rw [← hcount] at from_
    have reads := loadCablesRule_reads (s := counted1 s) hcount many few range
    refine ⟨fun apart => exec_answers rfl from_ (reads.trans ?_), fun meets => exec_answers rfl from_ (reads.trans ?_)⟩
    · exact if_neg (ne_true_of_eq_false (cablesApart_iff.2 apart))
    · exact if_pos (eq_true_of_ne_false fun none => meets (cablesApart_iff.1 none))
  · rw [← hcount] at from_
    exact exec_answers rfl from_ (loadTonesRule_loads (s := counted1 s) hcount many few range)
  · rw [← hcount] at from_
    have reads := loadConfigsRule_reads (s := counted1 s) hcount many few range
    refine ⟨fun rests => ⟨es.foldl configured s.sweeps, exec_answers rfl from_ (reads.trans ?_), configured_getElem es s.sweeps⟩,
      fun used => exec_answers rfl from_ (reads.trans ?_)⟩
    · exact if_neg (ne_true_of_eq_false (anyInUse_iff.2 rests))
    · exact if_pos (eq_true_of_ne_false fun none => used (anyInUse_iff.1 none))
  · exact fun from_ bad => exec_answers rfl from_ (loadSiteRule_refuses bad)
  · exact fun from_ bad => exec_answers rfl from_ (loadClassesRule_refuses bad)
  · exact fun from_ bad => exec_answers rfl from_
      (loadNamed_refuses limitEntryOf_bad (bad.imp_right (Or.imp_right .inr)))
  · exact fun from_ bad => exec_answers rfl from_
      (loadNamed_refuses programOf_bad (bad.imp_right (Or.imp_right .inr)))
  · exact fun from_ bad => exec_answers rfl from_
      (loadNamed_refuses cableEntryOf_bad (bad.imp_right (Or.imp_right .inr)))
  · exact fun from_ bad => exec_answers rfl from_ (loadNamed_refuses toneEntryOf_bad bad)
  · exact fun from_ bad => exec_answers rfl from_ (loadNamed_refuses sweepConfigOf_bad bad)

end Sys2Proof.Proofs
end
